-- ==== Sys2Proof/Word.lean ====
section
/-! DEFINITION. Word types of the RISC-V IOMMU model (00_scope R10, R11): the byte, the 32-bit word and the 64-bit doubleword. -/

namespace Sys2Proof

/-- The 8-bit byte of the supervisor physical address space (00_scope R21). -/
abbrev Byte := BitVec 8

/-- A 32-bit word: the size of a 4-byte register access (20_memory R182). -/
abbrev Word := BitVec 32

/-- A 64-bit doubleword: the unit of every in-memory structure (20_memory R187). -/
abbrev DWord := BitVec 64

end Sys2Proof
end

