-- ==== Sys2Proof/Config.lean ====
section
/-! DEFINITION. What an implementation fixes (the parameters of 00_scope R8 and R9, 92_eei_decisions section 2), as plain data, and the free values: constants with no body, applied to the counter `draws` of the state (assumption 5). -/

namespace Sys2Proof

/-- The verdict of the PMA/PMP/poison oracle on one implicit access (20_memory R205). -/
inductive Verdict where
  | ok
  | accessFault
  | poisoned
deriving DecidableEq, Repr

/-- The kinds of implicit access the oracle distinguishes (20_memory R205). -/
inductive CheckKind where
  | read
  | write
  | atomic
deriving DecidableEq, Repr

/-- One rule of the platform's oracle: accesses that touch `[base, base + size)`, of the given width and kind
(`none`: any), get `verdict` (20_memory R205; the oracle depends on address, size and kind only). -/
structure PmaRule where
  base : Nat
  size : Nat
  width : Option Nat
  kind : Option CheckKind
  verdict : Verdict
deriving DecidableEq, Repr

/-- The size of a single-copy-atomic implicit access (20_memory R195): at least 32 bits. No structure of the IOMMU is wider
than 512 bits, so that any greater size acts as that one. -/
inductive AtomicSize where
  | bits32
  | bits64
  | bits128
  | bits256
  | bits512
deriving DecidableEq, Repr

/-- The size in bytes. -/
def AtomicSize.bytes : AtomicSize → Nat
  | .bits32 => 4
  | .bits64 => 8
  | .bits128 => 16
  | .bits256 => 32
  | .bits512 => 64

/-- The parameters of one implementation and its platform, fixed for a run. -/
structure Config where
  /-- the `capabilities` register (10_state R34, R36) -/
  caps : DWord
  /-- `MODES`: whether `1LVL`, `2LVL`, `3LVL` are accepted by `ddtp.iommu_mode` (00_scope R9, 10_state R44) -/
  lvl1 : Bool
  lvl2 : Bool
  lvl3 : Bool
  /-- `RESET_MODE` is Bare (else Off) (70_reset R731) -/
  resetBare : Bool
  /-- `FCTL_WRITABLE` (10_state R39) -/
  beWritable : Bool
  wsiWritable : Bool
  gxlWritable : Bool
  /-- the value each `fctl` field has after reset: its fixed value where it is not writable (10_state R39, R42) -/
  beReset : Bool
  wsiReset : Bool
  gxlReset : Bool
  /-- `N_VEC_BITS` (10_state R98) -/
  vecBits : Nat
  /-- `N_HPM` (11_state_hpm_debug R140) -/
  hpmCounters : Nat
  /-- `HPM_WIDTH` (11_state_hpm_debug R136) -/
  hpmWidth : Nat
  /-- `W_CY` (11_state_hpm_debug R133) -/
  cyclesWidth : Nat
  /-- `ATOMIC_SIZE` (00_scope R9, 20_memory R195, U25) -/
  atomicSize : AtomicSize
  /-- `BUSY_SYNC`: the `busy` bits are hardwired to 0 (10_state R45, R76) -/
  busySync : Bool
  /-- whether an 8-byte register access may be performed as two 4-byte ones (20_memory R182, U24; assumption 6) -/
  splitAccesses : Bool
  /-- `LOG2SZ_MAX`: the largest legal value of a `LOG2SZ-1` field (10_state R51) -/
  log2szMax : Nat
  /-- `IOATC`: whether the implementation caches (20_memory R210) -/
  ioatc : Bool
  /-- whether both stages' leaves are cached as one combined entry (41_cmd_iotinval R428) -/
  combined : Bool
  /-- whether translated pointers are cached with a DC, a PDT entry or a PC (43_cmd_iodir R466) -/
  cachesPointers : Bool
  /-- `UNSUPPORTED_TTYP`: transaction types not supported (45_translation_process R507 (d)) -/
  unsupportedTtyp : List (BitVec 6)
  /-- `IOTVAL_OFFSET`: `iotval` keeps the page offset (60_exceptions R664) -/
  iotvalOffset : Bool
  /-- `MRIF_IN_IOMMU` (46_msi_translation R565) -/
  mrifInIommu : Bool
  /-- `PAS_CHECK` (20_memory R207) -/
  pasCheck : Bool
  /-- corruption is reported as an access fault (60_exceptions R659) -/
  poisonAsAccessFault : Bool
  /-- whether the HPM counts debug requests (48_debug_interface R640) -/
  hpmCountsDebug : Bool
  /-- `DID_WIDTH` (00_scope R9) -/
  didWidth : Nat
  /-- `PID_WIDTH` (00_scope R9) -/
  pidWidth : Nat
  /-- the platform's PMA/PMP/poison oracle, first match first (20_memory R205) -/
  pma : List PmaRule
deriving DecidableEq, Repr

namespace Config

/-- A nondeterministic choice among the alternatives a rule allows (U15, U26, U27, D39); the model reduces it modulo
the number of alternatives. Free value, assumption 5. -/
opaque freeChoice : Nat → Nat

/-- The valid but UNSPECIFIED index left by a queue base write (10_state R54, R60, R65). Free value, assumption 5. -/
opaque freeIndex : Nat → BitVec 32

/-- `{PPN, S, PBMT}` of `tr_response` where UNSPECIFIED (U22, 48_debug_interface R636). Free value, assumption 5. -/
opaque freeResponse : Nat → BitVec 47

/-- The whole value of `tr_response` read while `Go/Busy`=1 (U22). Free value, assumption 5. -/
opaque freeDWord : Nat → BitVec 64

/-- The address of an ATS Success completion that grants nothing or names an MRIF page (U20, 47_ats_pri R585, R595).
Free value, assumption 5. -/
opaque freeAddress : Nat → BitVec 64

/-- The size of an ATS Success completion that grants nothing (47_ats_pri R585). Free value, assumption 5. -/
opaque freeSize : Nat → Nat

/-- The `CXL.io` bit where UNSPECIFIED (U21, 47_ats_pri R593). Free value, assumption 5. -/
opaque freeBit : Nat → Bool

/-! The fields of `capabilities` (10_state R34). -/

def bit (c : Config) (i : Nat) : Bool := c.caps.getLsbD i
def sv32 (c : Config) : Bool := c.bit 8
def sv39 (c : Config) : Bool := c.bit 9
def sv48 (c : Config) : Bool := c.bit 10
def sv57 (c : Config) : Bool := c.bit 11
def svpbmt (c : Config) : Bool := c.bit 15
def sv32x4 (c : Config) : Bool := c.bit 16
def sv39x4 (c : Config) : Bool := c.bit 17
def sv48x4 (c : Config) : Bool := c.bit 18
def sv57x4 (c : Config) : Bool := c.bit 19
def amoMrif (c : Config) : Bool := c.bit 21
def msiFlat (c : Config) : Bool := c.bit 22
def msiMrif (c : Config) : Bool := c.bit 23
def amoHwad (c : Config) : Bool := c.bit 24
def ats (c : Config) : Bool := c.bit 25
def t2gpa (c : Config) : Bool := c.bit 26
def endBoth (c : Config) : Bool := c.bit 27
/-- `capabilities.IGS`: 0 MSI, 1 WSI, 2 BOTH. -/
def igs (c : Config) : BitVec 2 := c.caps.extractLsb' 28 2
def hpm (c : Config) : Bool := c.bit 30
def dbg (c : Config) : Bool := c.bit 31
/-- `capabilities.PAS`, the supported physical address size in bits. -/
def pas (c : Config) : Nat := (c.caps.extractLsb' 32 6).toNat
def pd8 (c : Config) : Bool := c.bit 38
def pd17 (c : Config) : Bool := c.bit 39
def pd20 (c : Config) : Bool := c.bit 40

/-- The IOMMU can signal interrupts as MSIs (10_state R97, R99). -/
def msiCapable (c : Config) : Bool := c.igs == 0#2 || c.igs == 2#2

/-- The IOMMU can signal interrupts by wire (10_state R97). -/
def wsiCapable (c : Config) : Bool := c.igs == 1#2 || c.igs == 2#2

/-- The constraints the spec puts on the parameters (00_scope R2, R8, R9; 10_state R35, R39, R44; 92_eei_decisions).
Where R39 says that the legal values of `GXL` depend on the second-stage modes, a value is taken as legal if its column
has a scheme: `GXL`=1 needs Sv32x4, and `GXL`=0 needs Sv39x4 unless Sv32x4 is missing too; and with `END`=1 `BE` may be
writable or fixed, as any field of `fctl` may by R39's first sentence (assumption 4). -/
def wf (c : Config) : Bool :=
  (c.caps.extractLsb' 0 8 == 0x10#8) && (!c.sv48 || c.sv39) && (!c.sv57 || c.sv48) && (!c.msiMrif || c.msiFlat) &&
  c.igs != 3#2 && (c.lvl1 || c.lvl2 || c.lvl3) &&
  (c.caps.extractLsb' 12 3 == 0#3) && !c.bit 20 && (c.caps.extractLsb' 41 23 == 0#23) &&
  (!c.beWritable || c.endBoth) && (c.wsiWritable == (c.igs == 2#2)) &&
  (!(c.gxlWritable || c.gxlReset) || c.sv32x4) && (!(c.gxlWritable || !c.gxlReset) || c.sv39x4 || !c.sv32x4) &&
  (c.igs != 0#2 || !c.wsiReset) && (c.igs != 1#2 || c.wsiReset) &&
  decide (c.vecBits ≤ 4) && (!c.hpm || (decide (1 ≤ c.hpmCounters) && decide (c.hpmCounters ≤ 31))) &&
  decide (32 ≤ c.hpmWidth) && decide (c.hpmWidth ≤ 64) &&
  decide (32 ≤ c.cyclesWidth) && decide (c.cyclesWidth ≤ 63) &&
  decide (c.log2szMax ≤ 31) && decide (c.didWidth ≤ 24) && decide (c.pidWidth ≤ 20) &&
  decide (c.pas ≤ 56)

/-- The platform of the test vectors (95_test_vectors T0), with the parameters T0 leaves open chosen by assumption 4. -/
def platform : Config where
  caps := 0x000001F8E2420210#64
  lvl1 := true
  lvl2 := true
  lvl3 := true
  resetBare := false
  beWritable := false
  wsiWritable := true
  gxlWritable := false
  beReset := false
  wsiReset := false
  gxlReset := false
  vecBits := 1
  hpmCounters := 2
  hpmWidth := 64
  cyclesWidth := 63
  atomicSize := .bits64
  busySync := true
  splitAccesses := false
  log2szMax := 31
  ioatc := true
  combined := false
  cachesPointers := false
  unsupportedTtyp := []
  iotvalOffset := true
  mrifInIommu := false
  pasCheck := false
  poisonAsAccessFault := false
  hpmCountsDebug := true
  didWidth := 24
  pidWidth := 20
  pma := []

end Config

end Sys2Proof
end

