-- ==== Sys2Proof/Syntax.lean ====
section
/-! DEFINITION. The seven commands of the command queue (30_encoding R353), one constructor per row of the opcode table. -/

namespace Sys2Proof

/-- A command with every operand its encoding carries (30_encoding R355 to R358), also those that must hold one value
(`PSCV` of `IOTINVAL.GVMA`, `PID` of `IODIR.INVAL_DDT`, `DV` of `IODIR.INVAL_PDT`), which `Instr.wellFormed` checks. -/
inductive Instr where
  /-- `IOTINVAL.VMA` (41_cmd_iotinval R421); `addr` is `ADDR[63:12]`. -/
  | iotinvalVma (av : Bool) (pscid : BitVec 20) (pscv gv : Bool) (gscid : BitVec 16) (addr : BitVec 52)
  /-- `IOTINVAL.GVMA` (41_cmd_iotinval R422); `pscv` must be 0. -/
  | iotinvalGvma (av : Bool) (pscid : BitVec 20) (pscv gv : Bool) (gscid : BitVec 16) (addr : BitVec 52)
  /-- `IOFENCE.C` (42_cmd_iofence R441); `addr` is `ADDR[63:2]`. -/
  | iofenceC (av wsi pr pw : Bool) (data : BitVec 32) (addr : BitVec 62)
  /-- `IODIR.INVAL_DDT` (43_cmd_iodir R462); `pid` must be 0. -/
  | iodirInvalDdt (pid : BitVec 20) (dv : Bool) (did : BitVec 24)
  /-- `IODIR.INVAL_PDT` (43_cmd_iodir R463); `dv` must be 1. -/
  | iodirInvalPdt (pid : BitVec 20) (dv : Bool) (did : BitVec 24)
  /-- `ATS.INVAL` (44_cmd_ats R482). -/
  | atsInval (pid : BitVec 20) (pv dsv : Bool) (rid : BitVec 16) (dseg : BitVec 8) (payload : BitVec 64)
  /-- `ATS.PRGR` (44_cmd_ats R483). -/
  | atsPrgr (pid : BitVec 20) (pv dsv : Bool) (rid : BitVec 16) (dseg : BitVec 8) (payload : BitVec 64)
deriving DecidableEq, Repr

end Sys2Proof
end

