-- ==== Sys2Proof/WellFormed.lean ====
section
/-! DEFINITION. The operand conditions of a command that do not depend on the machine (30_encoding R376 items 4 to 6). The conditions that depend on `capabilities` and `fctl` (items 7 and R377) are `Machine.State.supports` in Machine/Operands.lean. -/

namespace Sys2Proof

/-- The command is legal as far as its own bits go: `PSCV`=0 in `IOTINVAL.GVMA` (item 4), `DV`=1 in
`IODIR.INVAL_PDT` (item 5), `PID`=0 in `IODIR.INVAL_DDT` (item 6). -/
def Instr.wellFormed : Instr → Bool
  | .iotinvalVma _ _ _ _ _ _ => true
  | .iotinvalGvma _ _ pscv _ _ _ => !pscv
  | .iofenceC _ _ _ _ _ _ => true
  | .iodirInvalDdt pid _ _ => pid == 0#20
  | .iodirInvalPdt _ dv _ => dv
  | .atsInval _ _ _ _ _ _ => true
  | .atsPrgr _ _ _ _ _ _ => true

end Sys2Proof
end

