-- ==== Sys2Proof/Decode.lean ====
section
/-! DEFINITION. From the sixteen bytes of a queue entry to a command, and back (30_encoding R350 to R380). -/

namespace Sys2Proof

/-- Why a queue entry is not a command (30_encoding R376); every reason has the same effect, `cmd_ill`. -/
inductive DecodeError where
  /-- `opcode` 0 or 5 to 63 (item 1) -/
  | reservedOpcode
  /-- `opcode` 64 to 127 (item 8, R378) -/
  | customOpcode
  /-- an undefined `func3` (item 2) -/
  | reservedFunction
  /-- a reserved bit is 1 (item 3) -/
  | reservedBit
  /-- `PSCV`=1 in `IOTINVAL.GVMA` (item 4) -/
  | pscvSet
  /-- `DV`=0 in `IODIR.INVAL_PDT` (item 5) -/
  | dvClear
  /-- `PID` not 0 in `IODIR.INVAL_DDT` (item 6) -/
  | pidSet
  /-- fewer than sixteen bytes: no queue entry is this short (R380) -/
  | shortEntry
deriving DecidableEq, Repr

/-! ## Byte order (20_memory R187) -/

/-- The `n` bytes of `v`, least significant first. -/
def leBytes : Nat → Nat → List Byte
  | 0, _ => []
  | n + 1, v => BitVec.ofNat 8 v :: leBytes n (v / 256)

/-- The value of bytes given least significant first. -/
def leValue : List Byte → Nat
  | [] => 0
  | b :: bs => b.toNat + 256 * leValue bs

/-- The `n` bytes of `v` in ascending addresses, in the byte order `be` selects. -/
def toBytes (be : Bool) (n v : Nat) : List Byte :=
  if be then (leBytes n v).reverse else leBytes n v

/-- The value of bytes read at ascending addresses in the byte order `be` selects. -/
def ofBytes (be : Bool) (bs : List Byte) : Nat :=
  if be then leValue bs.reverse else leValue bs

/-! ## Decoding -/

/-- The operands of `IOTINVAL` (R355), `func3` 0 or 1. -/
def decodeIotinval (dw0 dw1 : DWord) : Except DecodeError Instr :=
  let func3 := dw0.extractLsb' 7 3
  let reserved := dw0.extractLsb' 11 1 != 0#1 || dw0.extractLsb' 34 10 != 0#10 || dw0.extractLsb' 60 4 != 0#4 ||
    dw1.extractLsb' 0 10 != 0#10 || dw1.extractLsb' 62 2 != 0#2
  let av := dw0.getLsbD 10
  let pscid := dw0.extractLsb' 12 20
  let pscv := dw0.getLsbD 32
  let gv := dw0.getLsbD 33
  let gscid := dw0.extractLsb' 44 16
  let addr := dw1.extractLsb' 10 52
  if func3 == 0#3 then
    if reserved then .error .reservedBit else .ok (.iotinvalVma av pscid pscv gv gscid addr)
  else if func3 == 1#3 then
    if reserved then .error .reservedBit
    else if pscv then .error .pscvSet
    else .ok (.iotinvalGvma av pscid pscv gv gscid addr)
  else .error .reservedFunction

/-- The operands of `IOFENCE` (R356), `func3` 0. -/
def decodeIofence (dw0 dw1 : DWord) : Except DecodeError Instr :=
  if dw0.extractLsb' 7 3 == 0#3 then
    if dw0.extractLsb' 14 18 != 0#18 || dw1.extractLsb' 62 2 != 0#2 then .error .reservedBit
    else .ok (.iofenceC (dw0.getLsbD 10) (dw0.getLsbD 11) (dw0.getLsbD 12) (dw0.getLsbD 13)
      (dw0.extractLsb' 32 32) (dw1.extractLsb' 0 62))
  else .error .reservedFunction

/-- The operands of `IODIR` (R357), `func3` 0 or 1. -/
def decodeIodir (dw0 dw1 : DWord) : Except DecodeError Instr :=
  let func3 := dw0.extractLsb' 7 3
  let reserved := dw0.extractLsb' 10 2 != 0#2 || dw0.extractLsb' 32 1 != 0#1 || dw0.extractLsb' 34 6 != 0#6 ||
    dw1 != 0#64
  let pid := dw0.extractLsb' 12 20
  let dv := dw0.getLsbD 33
  let did := dw0.extractLsb' 40 24
  if func3 == 0#3 then
    if reserved then .error .reservedBit
    else if pid != 0#20 then .error .pidSet
    else .ok (.iodirInvalDdt pid dv did)
  else if func3 == 1#3 then
    if reserved then .error .reservedBit
    else if dv then .ok (.iodirInvalPdt pid dv did)
    else .error .dvClear
  else .error .reservedFunction

/-- The operands of `ATS` (R358), `func3` 0 or 1. -/
def decodeAts (dw0 dw1 : DWord) : Except DecodeError Instr :=
  let func3 := dw0.extractLsb' 7 3
  let reserved := dw0.extractLsb' 10 2 != 0#2 || dw0.extractLsb' 34 6 != 0#6
  let pid := dw0.extractLsb' 12 20
  let pv := dw0.getLsbD 32
  let dsv := dw0.getLsbD 33
  let rid := dw0.extractLsb' 40 16
  let dseg := dw0.extractLsb' 56 8
  if func3 == 0#3 then
    if reserved then .error .reservedBit else .ok (.atsInval pid pv dsv rid dseg dw1)
  else if func3 == 1#3 then
    if reserved then .error .reservedBit else .ok (.atsPrgr pid pv dsv rid dseg dw1)
  else .error .reservedFunction

/-- The command two doublewords stand for, by `opcode` (R352), then `func3` (R353), then the reserved bits and operand
conditions (R376, R379). -/
def decode (dw0 dw1 : DWord) : Except DecodeError Instr :=
  let opcode := dw0.extractLsb' 0 7
  if opcode == 1#7 then decodeIotinval dw0 dw1
  else if opcode == 2#7 then decodeIofence dw0 dw1
  else if opcode == 3#7 then decodeIodir dw0 dw1
  else if opcode == 4#7 then decodeAts dw0 dw1
  else if dw0.getLsbD 6 then .error .customOpcode
  else .error .reservedOpcode

/-- The command sixteen bytes at ascending addresses stand for: two doublewords, each in the byte order `fctl.BE`
selects (30_encoding R350, 20_memory R187). Total on any list of bytes. -/
def decodeBytes (be : Bool) (bs : List Byte) : Except DecodeError Instr :=
  if bs.length < 16 then .error .shortEntry
  else decode (BitVec.ofNat 64 (ofBytes be (bs.take 8))) (BitVec.ofNat 64 (ofBytes be ((bs.drop 8).take 8)))

/-- The command the decoder reads from the 128-bit value `w = {dw1, dw0}` of the opcode table, laid out as the
hardware stores it: doubleword 0 first, each little-endian (`fctl.BE`=0, the value after reset). -/
def decodeTableWord (nbits w : Nat) : Option Instr :=
  match decodeBytes false (leBytes 16 (w % 2 ^ nbits)) with
  | .ok i => some i
  | .error _ => none

/-! ## Encoding -/

/-- The one-bit vector of a Boolean operand. -/
def flag (b : Bool) : BitVec 1 := BitVec.ofBool b

/-- A field placed at bit `k` of a doubleword. -/
def place {n : Nat} (x : BitVec n) (k : Nat) : DWord := x.setWidth 64 <<< k

/-- Doubleword 0 of an `IOTINVAL` command (R355). -/
def encodeIotinval0 (func3 : BitVec 3) (av : Bool) (pscid : BitVec 20) (pscv gv : Bool) (gscid : BitVec 16) : DWord :=
  place 1#7 0 ||| place func3 7 ||| place (flag av) 10 ||| place pscid 12 ||| place (flag pscv) 32 |||
    place (flag gv) 33 ||| place gscid 44

/-- Doubleword 0 of an `IODIR` command (R357). -/
def encodeIodir0 (func3 : BitVec 3) (pid : BitVec 20) (dv : Bool) (did : BitVec 24) : DWord :=
  place 3#7 0 ||| place func3 7 ||| place pid 12 ||| place (flag dv) 33 ||| place did 40

/-- Doubleword 0 of an `ATS` command (R358). -/
def encodeAts0 (func3 : BitVec 3) (pid : BitVec 20) (pv dsv : Bool) (rid : BitVec 16) (dseg : BitVec 8) : DWord :=
  place 4#7 0 ||| place func3 7 ||| place pid 12 ||| place (flag pv) 32 ||| place (flag dsv) 33 ||| place rid 40 |||
    place dseg 56

/-- Doubleword 0 of an `IOFENCE.C` command (R356). -/
def encodeIofence0 (av wsi pr pw : Bool) (data : BitVec 32) : DWord :=
  place 2#7 0 ||| place (flag av) 10 ||| place (flag wsi) 11 ||| place (flag pr) 12 ||| place (flag pw) 13 |||
    place data 32

/-- The two doublewords of a command (R355 to R358), reserved bits 0. -/
def encode : Instr → DWord × DWord
  | .iotinvalVma av pscid pscv gv gscid addr => (encodeIotinval0 0#3 av pscid pscv gv gscid, place addr 10)
  | .iotinvalGvma av pscid pscv gv gscid addr => (encodeIotinval0 1#3 av pscid pscv gv gscid, place addr 10)
  | .iofenceC av wsi pr pw data addr => (encodeIofence0 av wsi pr pw data, place addr 0)
  | .iodirInvalDdt pid dv did => (encodeIodir0 0#3 pid dv did, 0#64)
  | .iodirInvalPdt pid dv did => (encodeIodir0 1#3 pid dv did, 0#64)
  | .atsInval pid pv dsv rid dseg payload => (encodeAts0 0#3 pid pv dsv rid dseg, payload)
  | .atsPrgr pid pv dsv rid dseg payload => (encodeAts0 1#3 pid pv dsv rid dseg, payload)

/-- The sixteen bytes of a command as software stores them in the queue, in the byte order `fctl.BE` selects. -/
def encodeBytes (be : Bool) (i : Instr) : List Byte :=
  toBytes be 8 (encode i).1.toNat ++ toBytes be 8 (encode i).2.toNat

end Sys2Proof
end

