-- ==== Sys2Proof/Machine/State.lean ====
section
/-! DEFINITION. The state of one IOMMU as plain data: its registers (10_state, 11_state_hpm_debug), the state software cannot read (10_state R110 to R117), memory, and the model's own fields (INVENTORY.md lists every field with its rule and reset value). -/

namespace Sys2Proof.Machine

/-! ## Registers -/

/-- The legal values of `ddtp.iommu_mode` (10_state R44). -/
inductive IommuMode where
  | off
  | bare
  | lvl1
  | lvl2
  | lvl3
deriving DecidableEq, Repr

/-- `fctl` (10_state R38). -/
structure Fctl where
  be : Bool
  wsi : Bool
  gxl : Bool
deriving DecidableEq, Repr

/-- The value part of `ddtp` (10_state R43); `busy` is a field of its own. -/
structure DdtPointer where
  mode : IommuMode
  ppn : BitVec 44
deriving DecidableEq, Repr

/-- A queue base register `cqb`, `fqb` or `pqb` (10_state R51, R58, R63). -/
structure QueueBase where
  /-- the field `LOG2SZ-1` -/
  log2szm1 : BitVec 5
  ppn : BitVec 44
deriving DecidableEq, Repr

/-- `cqcsr` (10_state R68). -/
structure Cqcsr where
  cqen : Bool
  cie : Bool
  cqmf : Bool
  cmdTo : Bool
  cmdIll : Bool
  fenceWIp : Bool
  cqon : Bool
  busy : Bool
deriving DecidableEq, Repr

/-- `fqcsr` (10_state R78). -/
structure Fqcsr where
  fqen : Bool
  fie : Bool
  fqmf : Bool
  fqof : Bool
  fqon : Bool
  busy : Bool
deriving DecidableEq, Repr

/-- `pqcsr` (10_state R84). -/
structure Pqcsr where
  pqen : Bool
  pie : Bool
  pqmf : Bool
  pqof : Bool
  pqon : Bool
  busy : Bool
deriving DecidableEq, Repr

/-- `ipsr` (10_state R90). -/
structure Ipsr where
  cip : Bool
  fip : Bool
  pmip : Bool
  pip : Bool
deriving DecidableEq, Repr

/-- `icvec` (10_state R96). -/
structure Icvec where
  civ : BitVec 4
  fiv : BitVec 4
  pmiv : BitVec 4
  piv : BitVec 4
deriving DecidableEq, Repr

/-- One entry of `msi_cfg_tbl` (10_state R100 to R103). -/
structure MsiEntry where
  /-- `msi_addr_x` bits 55:2 -/
  addr : BitVec 54
  data : BitVec 32
  /-- the mask bit `M` -/
  mask : Bool
deriving DecidableEq, Repr

/-- `iohpmcycles` (11_state_hpm_debug R133). -/
structure HpmCycles where
  counter : BitVec 63
  of : Bool
deriving DecidableEq, Repr

/-- `iohpmevtN` (11_state_hpm_debug R138). -/
structure HpmEvent where
  eventId : BitVec 15
  dmask : Bool
  pidPscid : BitVec 20
  didGscid : BitVec 24
  pvPscv : Bool
  dvGscv : Bool
  idt : Bool
  of : Bool
deriving DecidableEq, Repr

/-- `tr_req_ctl` (11_state_hpm_debug R157). -/
structure TrReqCtl where
  goBusy : Bool
  priv : Bool
  exe : Bool
  nw : Bool
  pid : BitVec 20
  pv : Bool
  did : BitVec 24
deriving DecidableEq, Repr

/-- `tr_response` (11_state_hpm_debug R159). -/
structure TrResponse where
  fault : Bool
  pbmt : BitVec 2
  s : Bool
  ppn : BitVec 44
deriving DecidableEq, Repr

/-! ## Requests, messages and what the IOMMU answers -/

/-- What a request asks for (00_scope R15 (c)). -/
inductive AccessKind where
  | read
  | write
  | amo
  | exec
deriving DecidableEq, Repr

/-- The type of a request on the translation request interface (45_translation_process R505). -/
inductive RequestType where
  | untranslated
  | translated
  | atsRequest
deriving DecidableEq, Repr

/-- The inputs of one request (00_scope R15, 47_ats_pri R580). For an ATS translation request `kind` is `exec` iff
"Execute Requested" is set, `noWrite` is its `NW` flag and `cxl` says a CXL type 1 or 2 device asks. `length` and `data`
are the size of the access and, for a write, the 32-bit data an MRIF store needs (46_msi_translation R567). -/
structure Request where
  deviceId : BitVec 24
  processId : Option (BitVec 20)
  iova : BitVec 64
  type : RequestType
  kind : AccessKind
  privileged : Bool
  noWrite : Bool
  cxl : Bool
  length : Nat
  data : BitVec 32
  tag : Nat
deriving DecidableEq, Repr

/-- A "Page Request" or "Stop Marker" message (47_ats_pri R601, R611). -/
structure PageRequest where
  deviceId : BitVec 24
  pasid : Option (BitVec 20)
  priv : Bool
  exec : Bool
  payload : BitVec 64
deriving DecidableEq, Repr

/-- A page-request record the IOMMU has decided to write and has not written yet (10_state R115): the message, and
`DC.tc.PRPR` of its requester, which a response to it would need (47_ats_pri R607). -/
structure PageRecord where
  msg : PageRequest
  prpr : Bool
deriving DecidableEq, Repr

/-- Another PCIe message (47_ats_pri R609): its message code. -/
structure OtherMessage where
  deviceId : BitVec 24
  pasid : Option (BitVec 20)
  priv : Bool
  code : BitVec 8
deriving DecidableEq, Repr

/-- A PCIe message the IOMMU sends (44_cmd_ats R482, R483). `segment` is `none` for the default segment. -/
inductive Message where
  | invalidationRequest (rid : BitVec 16) (segment : Option (BitVec 8)) (pasid : Option (BitVec 20)) (body : BitVec 64)
  | groupResponse (rid : BitVec 16) (segment : Option (BitVec 8)) (pasid : Option (BitVec 20)) (body : BitVec 64)
deriving DecidableEq, Repr

/-- The fields of an ATS Success completion (47_ats_pri R591). -/
structure AtsSuccess where
  address : BitVec 64
  /-- log2 of the size of the translation in bytes -/
  sizeLog2 : Nat
  r : Bool
  w : Bool
  exe : Bool
  /-- Untranslated Access Only -/
  u : Bool
  priv : Bool
  n : Bool
  global : Bool
  cxlIo : Bool
  ama : BitVec 3
deriving DecidableEq, Repr

/-- What the IOMMU returns for one request, with the request's tag (00_scope R16, 45_translation_process R525, R526;
46_msi_translation R566; 47_ats_pri R583). -/
inductive Completion where
  /-- success with an SPA and, with Svpbmt, the resolved memory type -/
  | success (tag : Nat) (spa : BitVec 64) (pbmt : Option (BitVec 2))
  /-- success in MRIF mode, for the IO bridge to store -/
  | mrif (tag : Nat) (mrifAddr : BitVec 64) (noticeAddr : BitVec 64) (noticeData : BitVec 32)
  /-- success in MRIF mode, stored by the IOMMU -/
  | mrifStored (tag : Nat)
  /-- the transaction is aborted -/
  | aborted (tag : Nat)
  | unsupportedRequest (tag : Nat)
  | completerAbort (tag : Nat)
  | atsSuccess (tag : Nat) (a : AtsSuccess)
deriving DecidableEq, Repr

/-- Something received from a device and not processed yet. `under` is the value of `ddtp` it must be processed with,
once the mode was changed to Off after it was received (10_state R47); `none`: the value in force when it is. -/
structure Received (α : Type) where
  item : α
  under : Option DdtPointer
deriving DecidableEq, Repr

/-- The second half of an 8-byte register access that is performed as two 4-byte accesses (20_memory R182, U24), still
to be done: `high` says which half it is. -/
inductive HalfAccess where
  /-- `other` is what the first half returned -/
  | read (offset : Nat) (high : Bool) (other : BitVec 32)
  /-- `started`: the first half started the operation the register's `busy` or `Go/Busy` bit stands for, and it has not
  ended since -/
  | write (offset : Nat) (high : Bool) (value : BitVec 32) (started : Bool)
deriving DecidableEq, Repr

/-- A device access released by a completed translation and not yet committed (42_cmd_iofence R443). -/
structure DeviceAccess where
  tag : Nat
  isWrite : Bool
deriving DecidableEq, Repr

/-- A fault record (60_exceptions R661). -/
structure FaultRecord where
  cause : BitVec 12
  pid : BitVec 20
  pv : Bool
  priv : Bool
  ttyp : BitVec 6
  did : BitVec 24
  iotval : BitVec 64
  iotval2 : BitVec 64
deriving DecidableEq, Repr

/-! ## The address-translation cache (20_memory R210 to R219) -/

/-- The doublewords of a device context (21_data_structures R238); the last four are 0 in the base format. -/
structure DeviceContext where
  tc : DWord
  iohgatp : DWord
  ta : DWord
  fsc : DWord
  msiptp : DWord
  msiMask : DWord
  msiPattern : DWord
  reserved : DWord
deriving DecidableEq, Repr

/-- The doublewords of a process context (21_data_structures R275). -/
structure ProcessContext where
  ta : DWord
  fsc : DWord
deriving DecidableEq, Repr

/-- A copy of a PTE: the entry, its level, and the naturally aligned range `[base, base + 2^sizeLog2)` of input
addresses it covers (41_cmd_iotinval R426). -/
structure PteCopy where
  pte : DWord
  level : Nat
  base : Nat
  sizeLog2 : Nat
  leaf : Bool
deriving DecidableEq, Repr

/-- One cached entry with its tags (20_memory R212). `gscid = none` marks a first-stage entry created with the second
stage Bare. An MSI PTE holds the `GSCID` field of the DC it was read under; `device` is the device it was read for where
the second stage was Bare, which then is its tag instead (46_msi_translation R556; assumption 12). A DC, a non-leaf PDT
entry and a PC may carry, as `pointer`, the supervisor page its guest pointer was translated to when it was cached
(43_cmd_iodir R466). -/
inductive CacheEntry where
  | ddte (did : BitVec 24) (level : Nat) (value : DWord)
  | dc (did : BitVec 24) (value : DeviceContext) (pointer : Option Nat)
  | pdte (did : BitVec 24) (pid : BitVec 20) (level : Nat) (value : DWord) (pointer : Option Nat)
  | pc (did : BitVec 24) (pid : BitVec 20) (value : ProcessContext) (pointer : Option Nat)
  | first (gscid : Option (BitVec 16)) (pscid : BitVec 20) (global : Bool) (copy : PteCopy)
  | second (gscid : BitVec 16) (copy : PteCopy)
  | msi (gscid : BitVec 16) (device : Option (BitVec 24)) (gpaPage : Nat) (dw0 dw1 : DWord)
  | combined (gscid : BitVec 16) (pscid : BitVec 20) (global : Bool) (first second : PteCopy)
deriving DecidableEq, Repr

/-! ## Activations under way (10_state R112, 45_translation_process R500, R537) -/

/-- Memory in canonical form: addresses strictly rising, no entry equal to an unlisted byte (Machine/Ops.lean). -/
abbrev Memory := List Host.Cell

/-- What the activations share with each other and with the harts. -/
structure Shared where
  mem : Memory
  ioatc : List CacheEntry
  draws : Nat
deriving DecidableEq, Repr

/-- What an invalidation command with legal operands names (41_cmd_iotinval R421, R422; 43_cmd_iodir R462, R463). -/
inductive Invalidation where
  | vma (av : Bool) (pscid : BitVec 20) (pscv gv : Bool) (gscid : BitVec 16) (addr : BitVec 52)
  | gvma (av gv : Bool) (gscid : BitVec 16) (addr : BitVec 52)
  | ddt (dv : Bool) (did : BitVec 24)
  | pdt (pid : BitVec 20) (did : BitVec 24)
deriving DecidableEq, Repr

/-- One access of an activation under way (20_memory R192, R195, R200): what it found, the invalidations that executed since
the access before it, and which of the accesses that may be made next it was. -/
structure Turn where
  shared : Shared
  lost : List Invalidation
  pick : Nat
deriving DecidableEq, Repr

/-- What an activation under way is for. -/
inductive Task where
  /-- a request of a device -/
  | request (r : Request)
  /-- the request of the debug interface (48_debug_interface R632); `skipUpdate`: it makes no A/D updates (R638) -/
  | debug (r : Request) (skipUpdate : Bool)
  /-- a Page Request or Stop Marker, on an IOMMU with ATS -/
  | page (m : PageRequest)
  /-- another message -/
  | other (m : OtherMessage)
  /-- the report on the sender of an Invalidation Completion (44_cmd_ats R482) -/
  | completion (did : BitVec 24)
deriving DecidableEq, Repr

/-- An activation that has begun and not ended. Where it stands is what its steps give from what it found at its beginning
and at each access it has made (`turns`, oldest first), which is all that the other agents can do to it. -/
structure Activation where
  task : Task
  /-- the values of `ddtp` it may use (45_translation_process R538) -/
  under : List DdtPointer
  /-- `fctl` when it began -/
  fctl : Fctl
  start : Shared
  turns : List Turn
  /-- the invalidations that executed since its last access, oldest first -/
  lost : List Invalidation
deriving DecidableEq, Repr

/-! ## Commands in flight -/

/-- Where a fetched command stands (40_command_queue R400): not yet executed, or an `ATS.INVAL` whose message is sent
and whose completion is awaited. -/
inductive Phase where
  | fetched
  | waiting
deriving DecidableEq, Repr

/-- A command that `cqh` has passed and that has not completed. -/
structure InFlight where
  cmd : Instr
  phase : Phase
deriving DecidableEq, Repr

/-! ## Events: the environment's inputs and the choice of the agent that moves -/

/-- One element of the agenda (00_scope R13; assumption 1). An event whose target does not exist, or whose step is not
enabled, changes nothing. `k` numbers the elements of the list an event acts on, from 0. -/
inductive Event where
  /-- a hart reads `size` bytes at an offset of the register page -/
  | hostRead (offset size : Nat)
  /-- a hart writes `size` bytes at an offset of the register page -/
  | hostWrite (offset size : Nat) (value : BitVec 64)
  /-- a hart (or a device's committed write) stores bytes to memory -/
  | hostStore (addr : Nat) (bytes : List Byte)
  /-- a request arrives -/
  | request (r : Request)
  /-- a Page Request or Stop Marker message arrives -/
  | pageRequest (m : PageRequest)
  /-- another PCIe message arrives, and is handled in one go -/
  | otherMessage (m : OtherMessage)
  /-- another PCIe message arrives, and its handling begins -/
  | beginOther (m : OtherMessage)
  /-- the Invalidation Completion of in-flight command `k`, from a function whose device context is that of `did` -/
  | invalCompletion (did : BitVec 24) (k : Nat)
  /-- the same, the report on the sender's device context being begun -/
  | beginCompletion (did : BitVec 24) (k : Nat)
  /-- the timeout of in-flight command `k` -/
  | invalTimeout (k : Nat)
  /-- the command queue fetches, and executes what it fetched at once -/
  | cqFetch
  /-- the command queue fetches and leaves the command in flight -/
  | cqFetchDeferred
  /-- the pending `IOFENCE.C` is tried -/
  | cqFence
  /-- in-flight command `k` executes -/
  | cqExecute (k : Nat)
  /-- in-flight command `k` is abandoned (U11), where the spec allows it -/
  | cqDrop (k : Nat)
  /-- the translation engine serves in-flight request `k` in one go -/
  | translate (k : Nat)
  /-- the translation engine begins in-flight request `k` -/
  | beginTranslate (k : Nat)
  /-- activation `k` makes its next access to memory and goes on to the one after it, or ends; of the accesses of one
  structure still to be made (20_memory R192) `pick` selects one -/
  | advance (k pick : Nat)
  /-- the fault-queue writer takes pending record `k` -/
  | writeFault (k : Nat)
  /-- pending record `k` is dropped: the queue is being turned off, or the record duplicates another one (U32) -/
  | dropFault (k : Nat)
  /-- the page-request writer writes the oldest decided record, or with none takes the oldest message and deals with it
  in one go -/
  | writePage
  /-- the page-request writer takes the oldest message and decides what becomes of it, leaving a record unwritten -/
  | decidePage
  /-- the handling of the oldest page-request message begins, to end as in `decidePage` -/
  | beginPage
  /-- the second half of split register access `k` is performed -/
  | finishHalf (k : Nat)
  /-- the interrupt generator sends the MSI owed for a vector -/
  | msiSend (v : BitVec 4)
  /-- the operations of a `ddtp`, `cqcsr`, `fqcsr` or `pqcsr` write complete -/
  | ddtpDone
  | cqDone
  | fqDone
  | pqDone
  /-- the debug engine serves the request in `tr_req_ctl` in one go -/
  | debug
  /-- the debug engine begins the request in `tr_req_ctl` -/
  | beginDebug
  /-- the IOMMU's clock advances by `n` cycles -/
  | clock (n : Nat)
  /-- the IOATC drops entry `k` -/
  | evict (k : Nat)
  /-- the IO bridge commits released access `k` -/
  | commit (k : Nat)
  /-- an internal datapath error hits in-flight request `k` (60_exceptions R658) -/
  | internalError (k : Nat)
  /-- an internal datapath error hits the device request that activation `k` serves (60_exceptions R658) -/
  | internalErrorActive (k : Nat)
  /-- the IOMMU enters the failed state (60_exceptions R703) -/
  | fail
deriving DecidableEq, Repr

/-- A value a register read returned. -/
structure HostRead where
  offset : Nat
  size : Nat
  value : BitVec 64
deriving DecidableEq, Repr

/-! ## Outcomes -/

/-- How the machine can stop with a fault. -/
inductive Fault where
  /-- Raised by `hostStore` (Machine/Registers.lean): a hart stores outside the 56-bit supervisor physical address
  space, which the spec says does not exist (20_memory R180 (c)). Safe: nothing is proved of such a run. -/
  | noSuchAddress (addr : Nat)
deriving DecidableEq, Repr

/-- How the machine can refuse a step: an action of software that the spec calls UNSPECIFIED and gives no effect
(93_implementation_defined, treatment "refuse"). Each is safe: nothing is proved of such a run. -/
inductive Refusal where
  /-- Raised by an arm of `exec` whose instruction has no meaning yet. Safe. -/
  | notModelled (mnemonic : String)
  /-- U1, raised by register accesses of a wrong size, alignment or span (20_memory R182). -/
  | registerAccess (offset size : Nat)
  /-- U3, raised by a change of `fctl` while the IOMMU is not Off or a queue is on (10_state R41). -/
  | featureChangeWhileActive
  /-- U5, raised by a write of `ddtp`, `cqcsr`, `fqcsr` or `pqcsr` while its `busy` is 1 (10_state R45, R76). -/
  | writeWhileBusy (offset : Nat)
  /-- U6, raised by writing a directory mode to `ddtp` while it holds one (10_state R48). -/
  | illegalModeTransition
  /-- U7, raised by enabling a queue whose base is not aligned to its size (10_state R52). -/
  | misalignedQueue (offset : Nat)
  /-- U8, raised by writing a queue base while its queue is busy or on (10_state R53). -/
  | queueBaseWhileOn (offset : Nat)
  /-- U13, raised when the IOMMU would have to store something other than an aligned 4-byte write to an MRIF
  (46_msi_translation R568). -/
  | mrifAccess (tag : Nat)
  /-- U16, raised by modifying the debug registers or the configuration while `Go/Busy` is 1
  (48_debug_interface R633). -/
  | debugInProgress (offset : Nat)
deriving DecidableEq, Repr

/-! ## The state -/

/-- The IOMMU, its memory, and the interface to its environment. -/
structure State where
  /-- the implementation's and platform's parameters, never changed by a step -/
  cfg : Config
  fctl : Fctl
  ddtp : DdtPointer
  ddtpBusy : Bool
  /-- the value before the write that set `ddtp.busy` (10_state R113) -/
  ddtpOld : DdtPointer
  cqb : QueueBase
  cqh : BitVec 32
  cqt : BitVec 32
  fqb : QueueBase
  fqh : BitVec 32
  fqt : BitVec 32
  pqb : QueueBase
  pqh : BitVec 32
  pqt : BitVec 32
  cqcsr : Cqcsr
  fqcsr : Fqcsr
  pqcsr : Pqcsr
  ipsr : Ipsr
  iocountinh : BitVec 32
  iohpmcycles : HpmCycles
  iohpmctr : Vector (BitVec 64) 31
  iohpmevt : Vector HpmEvent 31
  trReqIova : BitVec 52
  trReqCtl : TrReqCtl
  trResponse : TrResponse
  icvec : Icvec
  msiCfgTbl : Vector MsiEntry 16
  mem : Memory
  ioatc : List CacheEntry
  inflight : List InFlight
  /-- the `IOFENCE.C` pending at `cqh` -/
  fence : Option Instr
  /-- an `ATS.INVAL` fetched since the last completed fence has timed out -/
  timedOut : Bool
  requests : List (Received Request)
  /-- the activations under way (10_state R112: an in-flight request may be at any step) -/
  activations : List Activation
  completions : List Completion
  accesses : List DeviceAccess
  faults : List FaultRecord
  pages : List (Received PageRequest)
  /-- page-request records decided and not yet written, oldest first (10_state R115) -/
  pageRecords : List PageRecord
  messages : List Message
  /-- bit `v`: an MSI for vector `v` is owed (10_state R114) -/
  msiOwed : BitVec 16
  failed : Bool
  /-- 8-byte register accesses of which one half is still to be performed (20_memory R182) -/
  halves : List HalfAccess
  /-- model's own: free values drawn so far -/
  draws : Nat
  /-- model's own: what the environment does and which agent moves, next first -/
  agenda : List Event
  /-- model's own: what register reads returned, oldest first -/
  hostReads : List HostRead
deriving DecidableEq, Repr

/-- An event selector with every field 0. -/
def HpmEvent.zero : HpmEvent := ⟨0#15, false, 0#20, 0#24, false, false, false, false⟩

/-- The machine right after reset (70_reset R730 to R734) on a given platform. The values the spec states are 0; those
it leaves UNSPECIFIED are 0 too, a DESIGN CHOICE (assumption 3). -/
def State.resetOn (c : Config) : State where
  cfg := c
  fctl := ⟨c.beReset, c.wsiReset, c.gxlReset⟩
  ddtp := ⟨if c.resetBare then .bare else .off, 0#44⟩
  ddtpBusy := false
  ddtpOld := ⟨.off, 0#44⟩
  cqb := ⟨0#5, 0#44⟩
  cqh := 0#32
  cqt := 0#32
  fqb := ⟨0#5, 0#44⟩
  fqh := 0#32
  fqt := 0#32
  pqb := ⟨0#5, 0#44⟩
  pqh := 0#32
  pqt := 0#32
  cqcsr := ⟨false, false, false, false, false, false, false, false⟩
  fqcsr := ⟨false, false, false, false, false, false⟩
  pqcsr := ⟨false, false, false, false, false, false⟩
  ipsr := ⟨false, false, false, false⟩
  iocountinh := 0#32
  iohpmcycles := ⟨0#63, false⟩
  iohpmctr := Vector.replicate 31 0#64
  iohpmevt := Vector.replicate 31 HpmEvent.zero
  trReqIova := 0#52
  trReqCtl := ⟨false, false, false, false, 0#20, false, 0#24⟩
  trResponse := ⟨false, 0#2, false, 0#44⟩
  icvec := ⟨0#4, 0#4, 0#4, 0#4⟩
  msiCfgTbl := Vector.replicate 16 ⟨0#54, 0#32, false⟩
  mem := []
  ioatc := []
  inflight := []
  fence := none
  timedOut := false
  requests := []
  activations := []
  completions := []
  accesses := []
  faults := []
  pages := []
  pageRecords := []
  messages := []
  msiOwed := 0#16
  failed := false
  halves := []
  draws := 0
  agenda := []
  hostReads := []

/-- The machine right after reset on the platform of the test vectors (assumption 4). -/
def State.reset : State := State.resetOn Config.platform

end Sys2Proof.Machine
end

