-- ==== Sys2Proof/Machine/Ops.lean ====
section
/-! DEFINITION. The named operations every part of the machine goes through: memory and its access checks, queue indices, raising interrupts, and taking a command-queue error (the machine's exception) with its return. -/

namespace Sys2Proof.Machine

/-! ## Memory (20_memory) -/

/-- What a byte that nothing has written reads as: 0, a DESIGN CHOICE (assumption 2). -/
def Memory.unlisted : Byte := 0#8

/-- The byte at address `a`. -/
def Memory.read : Memory → Nat → Byte
  | [], _ => Memory.unlisted
  | (b, v) :: rest, a => if b = a then v else Memory.read rest a

/-- The memory without any entry for address `a`. -/
def Memory.erase : Memory → Nat → Memory
  | [], _ => []
  | (b, v) :: rest, a => if b = a then Memory.erase rest a else (b, v) :: Memory.erase rest a

/-- The memory with an entry for `a` put before the first greater address. -/
def Memory.insert : Memory → Nat → Byte → Memory
  | [], a, v => [(a, v)]
  | (b, w) :: rest, a, v => if a < b then (a, v) :: (b, w) :: rest else (b, w) :: Memory.insert rest a v

/-- The memory with byte `v` at address `a`; writing what an unlisted byte reads as removes the entry. -/
def Memory.write (m : Memory) (a : Nat) (v : Byte) : Memory :=
  if v = Memory.unlisted then m.erase a else (m.erase a).insert a v

/-- The canonical form: addresses strictly rising, no entry equal to an unlisted byte. -/
def Memory.wf : Memory → Bool
  | [] => true
  | [(_, v)] => v != Memory.unlisted
  | (a, v) :: (b, w) :: rest => decide (a < b) && v != Memory.unlisted && Memory.wf ((b, w) :: rest)

/-- The `n` bytes at ascending addresses from `a`. -/
def Memory.readBytes (m : Memory) (a : Nat) : Nat → List Byte
  | 0 => []
  | n + 1 => m.read a :: m.readBytes (a + 1) n

/-- The memory with bytes stored at ascending addresses from `a`. -/
def Memory.writeBytes (m : Memory) (a : Nat) : List Byte → Memory
  | [] => m
  | b :: bs => (m.write a b).writeBytes (a + 1) bs

/-- `MemRead` of `n` bytes as a number (00_scope R11, 20_memory R187). -/
def Memory.readNat (m : Memory) (a n : Nat) (be : Bool) : Nat := ofBytes be (m.readBytes a n)

/-- `MemRead64` (20_memory R187). -/
def Memory.read64 (m : Memory) (a : Nat) (be : Bool) : DWord := BitVec.ofNat 64 (m.readNat a 8 be)

/-- `MemRead32` (20_memory R187). -/
def Memory.read32 (m : Memory) (a : Nat) (be : Bool) : Word := BitVec.ofNat 32 (m.readNat a 4 be)

/-- `MemWrite64` (20_memory R187). -/
def Memory.write64 (m : Memory) (a : Nat) (v : DWord) (be : Bool) : Memory := m.writeBytes a (toBytes be 8 v.toNat)

/-- `MemWrite32` (20_memory R187). -/
def Memory.write32 (m : Memory) (a : Nat) (v : Word) (be : Bool) : Memory := m.writeBytes a (toBytes be 4 v.toNat)

/-- The number of bits of a supervisor physical address (20_memory R180 (c)). -/
def spaBits : Nat := 56

/-! ## The access oracle (20_memory R205) -/

/-- The rule speaks of this access. -/
def ruleApplies (r : PmaRule) (addr n : Nat) (kind : CheckKind) : Bool :=
  decide (r.base < addr + n) && decide (addr < r.base + r.size) &&
  (match r.width with | none => true | some w => w == n) &&
  (match r.kind with | none => true | some k => k == kind)

/-- The verdict of the first rule that applies, if one does. -/
def firstVerdict : List PmaRule → Nat → Nat → CheckKind → Option Verdict
  | [], _, _, _ => none
  | r :: rest, addr, n, kind => if ruleApplies r addr n kind then some r.verdict else firstVerdict rest addr n kind

/-- `check(addr, n, kind)`: the platform's rules, else `ok` below `2^PAS` and an access fault beyond it (22_page_tables
R322). Only reads can be poisoned; corruption is reported as an access fault where the platform cannot tell
(60_exceptions R659). -/
def check (c : Config) (addr n : Nat) (kind : CheckKind) : Verdict :=
  match firstVerdict c.pma addr n kind with
  | some .poisoned =>
    if kind == .write then .accessFault else if c.poisonAsAccessFault then .accessFault else .poisoned
  | some v => v
  | none => if addr + n ≤ 2 ^ min c.pas spaBits then .ok else .accessFault

/-- The size of one access of a read or write of `n` bytes: `ATOMIC_SIZE`, or all of it where that is less (20_memory
R195). -/
def accessBytes (c : Config) (n : Nat) : Nat := min n c.atomicSize.bytes

/-- The verdicts of the accesses that a read or write of `n` bytes at `addr` is made of, lowest address first (20_memory
R192, R195, R205). -/
def verdicts (c : Config) (addr n : Nat) (kind : CheckKind) : List Verdict :=
  let b := accessBytes c n
  (List.range (n / b)).map fun k => check c (addr + b * k) b kind

/-- Every access that a read or write of `n` bytes at `addr` is made of is allowed. -/
def permitted (c : Config) (addr n : Nat) (kind : CheckKind) : Bool := (verdicts c addr n kind).all (· == .ok)

/-- The causes that the accesses of a read or write may end with, given the cause of an access fault and that of corrupted
data (20_memory R206). -/
def accessCauses (c : Config) (addr n : Nat) (kind : CheckKind) (accessFault poisoned : Nat) : List Nat :=
  (verdicts c addr n kind).filterMap fun
    | .ok => none
    | .accessFault => some accessFault
    | .poisoned => some poisoned

/-- `MemWrite64` with its verdict (20_memory R187, R205): one access, or two with 32-bit atomic accesses, the one at the
lower address first (assumption 38), so that its bytes are written where only the other is refused. -/
def storeDword (c : Config) (be : Bool) (m : Memory) (a : Nat) (d : DWord) : Memory × Bool :=
  if permitted c a 8 .write then (m.write64 a d be, true)
  else if check c a (accessBytes c 8) .write == .ok then
    (m.writeBytes a ((toBytes be 8 d.toNat).take (accessBytes c 8)), false)
  else (m, false)

/-! ## Queues (20_memory R220 to R224) -/

/-- The number of entries, `2^LOG2SZ` (20_memory R221). -/
def QueueBase.entries (b : QueueBase) : Nat := 2 ^ (b.log2szm1.toNat + 1)

/-- The base byte address, `PPN x 4096`. -/
def QueueBase.base (b : QueueBase) : Nat := b.ppn.toNat * 4096

/-- The byte address of entry `i` of `size` bytes (20_memory R221). -/
def QueueBase.entryAddr (b : QueueBase) (size : Nat) (i : BitVec 32) : Nat := b.base + i.toNat * size

/-- The index after `i`, modulo the queue size (20_memory R221). -/
def QueueBase.next (b : QueueBase) (i : BitVec 32) : BitVec 32 := BitVec.ofNat 32 ((i.toNat + 1) % b.entries)

/-- An index with only its low `LOG2SZ` bits kept (10_state R57). -/
def QueueBase.clip (b : QueueBase) (i : BitVec 32) : BitVec 32 := BitVec.ofNat 32 (i.toNat % b.entries)

/-- The base is aligned as the queue's size requires (20_memory R186). -/
def QueueBase.aligned (b : QueueBase) (size : Nat) : Bool := b.base % (max 4096 (b.entries * size)) == 0

/-! ## Interrupts (60_exceptions R690, 10_state R91 to R95) -/

/-- `cqcsr.fence_w_ip` as it reads: hardwired 0 while `fctl.WSI` is 0 (10_state R75, D5). The stored bit is kept
meanwhile, so that a bit set before reads 1 again when `fctl.WSI` does: the model's choice, which the spec leaves open
(DESIGN CHOICE, assumption 31). -/
def State.fenceWIp (s : State) : Bool := s.cqcsr.fenceWIp && s.fctl.wsi

/-- Interrupts are delivered as MSIs (60_exceptions R690). -/
def State.msiMode (s : State) : Bool := s.cfg.igs == 0#2 || (s.cfg.igs == 2#2 && !s.fctl.wsi)

/-- The bit of `msi_owed` for vector `v` when `b` holds. -/
def owedBit (b : Bool) (v : BitVec 4) : BitVec 16 := if b then 1#16 <<< v.toNat else 0#16

/-- `ipsr` takes the value `p`; every bit that goes from 0 to 1 owes an MSI for its vector in MSI mode
(60_exceptions R690). -/
def State.setPending (s : State) (p : Ipsr) : State :=
  { s with
    ipsr := p
    msiOwed :=
      if s.msiMode then
        s.msiOwed ||| owedBit (p.cip && !s.ipsr.cip) s.icvec.civ ||| owedBit (p.fip && !s.ipsr.fip) s.icvec.fiv |||
          owedBit (p.pmip && !s.ipsr.pmip) s.icvec.pmiv ||| owedBit (p.pip && !s.ipsr.pip) s.icvec.piv
      else s.msiOwed }

/-- `raise_cip()` (40_command_queue R402). -/
def State.raiseCip (s : State) : State :=
  if s.cqcsr.cie then s.setPending { s.ipsr with cip := true } else s

/-- `raise_fip()` (60_exceptions R681). -/
def State.raiseFip (s : State) : State :=
  if s.fqcsr.fie then s.setPending { s.ipsr with fip := true } else s

/-- `raise_pip()` (47_ats_pri R615). -/
def State.raisePip (s : State) : State :=
  if s.pqcsr.pie then s.setPending { s.ipsr with pip := true } else s

/-- A counter overflowed (10_state R93). -/
def State.raisePmip (s : State) : State := s.setPending { s.ipsr with pmip := true }

/-! ## Taking a command-queue error, and returning from it (40_command_queue R397 to R403) -/

/-- The three errors that stop the command queue (40_command_queue R401). -/
inductive CommandError where
  /-- `cqmf` (R397) -/
  | memoryFault
  /-- `cmd_to` (42_cmd_iofence R445) -/
  | timeout
  /-- `cmd_ill` (R398) -/
  | illegal
deriving DecidableEq, Repr

/-- The error bit of `cqcsr` is set. -/
def Cqcsr.withError (c : Cqcsr) : CommandError → Cqcsr
  | .memoryFault => { c with cqmf := true }
  | .timeout => { c with cmdTo := true }
  | .illegal => { c with cmdIll := true }

/-- TAKING A COMMAND-QUEUE ERROR: the error bit is set, no fence stays pending, `cip` is raised if `cie` is 1, and `cqh`
stays at the command that caused the error (40_command_queue R397, R398, R402; 42_cmd_iofence R441). Processing stops
because `State.cqReady` reads the bit. -/
def State.takeCommandError (s : State) (e : CommandError) : State :=
  { s with cqcsr := s.cqcsr.withError e, fence := none }.raiseCip

/-- RETURNING FROM IT: software's write of 1 clears the bits selected (10_state R69, 40_command_queue R403); `cqh` is
unchanged, so the same entry is fetched again. -/
def Cqcsr.clearErrors (c : Cqcsr) (cqmf cmdTo cmdIll fenceWIp : Bool) : Cqcsr :=
  { c with
    cqmf := c.cqmf && !cqmf
    cmdTo := c.cmdTo && !cmdTo
    cmdIll := c.cmdIll && !cmdIll
    fenceWIp := c.fenceWIp && !fenceWIp }

/-- An error bit stops the queue (40_command_queue R401). -/
def Cqcsr.stopped (c : Cqcsr) : Bool := c.cqmf || c.cmdTo || c.cmdIll

/-! ## The command queue -/

/-- The address of the command at `cqh` (40_command_queue R391). -/
def State.commandAddr (s : State) : Nat := s.cqb.entryAddr 16 s.cqh

/-- The fetch step is enabled (40_command_queue R395). -/
def State.cqReady (s : State) : Bool :=
  s.cqcsr.cqon && s.cqcsr.cqen && !s.cqcsr.stopped && s.cqh != s.cqt && s.fence == none && !s.failed

/-- `cqh <- (cqh + 1) mod N` (40_command_queue R395). -/
def State.advanceHead (s : State) : State := { s with cqh := s.cqb.next s.cqh }

/-- The entry at `cqh` can be read: the test of its sixteen bytes (40_command_queue R395) and the accesses the read is made
of (20_memory R192, R195) are allowed (assumption 38). -/
def State.fetchAllowed (s : State) : Bool :=
  check s.cfg s.commandAddr 16 .read == .ok && permitted s.cfg s.commandAddr 16 .read

/-- What the fetch of the entry at `cqh` gives: a memory fault (40_command_queue R397), or what its sixteen bytes decode
to in `fctl.BE` order. -/
def State.fetch (s : State) : Except CommandError Instr :=
  if s.fetchAllowed then
    match decodeBytes s.fctl.be (s.mem.readBytes s.commandAddr 16) with
    | .ok i => .ok i
    | .error _ => .error .illegal
  else .error .memoryFault

/-! ## Lists numbered from 0 -/

/-- The list without its element `k`. -/
def removeAt {α : Type} : List α → Nat → List α
  | [], _ => []
  | _ :: xs, 0 => xs
  | x :: xs, k + 1 => x :: removeAt xs k

/-- The element `k`, if there is one. -/
def elementAt {α : Type} : List α → Nat → Option α
  | [], _ => none
  | x :: _, 0 => some x
  | _ :: xs, k + 1 => elementAt xs k

/-- The list with element `k` replaced. -/
def replaceAt {α : Type} : List α → Nat → α → List α
  | [], _, _ => []
  | _ :: xs, 0, y => y :: xs
  | x :: xs, k + 1, y => x :: replaceAt xs k y

end Sys2Proof.Machine
end

