-- ==== Sys2Proof/Machine/Operands.lean ====
section
/-! DEFINITION. What a command's operands name: the cached entries it covers (41_cmd_iotinval R426, R428; 43_cmd_iodir R462 to R464), the message it sends, the address it stores to, and whether the machine supports it (30_encoding R376, R377). -/

namespace Sys2Proof.Machine

/-- A byte address lies in the range a copy maps (41_cmd_iotinval R426). -/
def PteCopy.contains (p : PteCopy) (a : Nat) : Bool := decide (p.base ≤ a) && decide (a < p.base + 2 ^ p.sizeLog2)

/-- The tag part of `covers_vma` (41_cmd_iotinval R426): host entries for `GV`=0, those of `GSCID` for `GV`=1, and for
`PSCV`=1 only the non-global ones of `PSCID`. -/
def vmaTags (pscv gv : Bool) (pscid : BitVec 20) (gscid : BitVec 16) (eg : Option (BitVec 16)) (ep : BitVec 20)
    (eglobal : Bool) : Bool :=
  (if gv then eg == some gscid else eg == none) && (!pscv || (ep == pscid && !eglobal))

/-- The address part of a coverage predicate: any entry for `AV`=0, for `AV`=1 a leaf that maps `ADDR`
(41_cmd_iotinval R426). -/
def addrCovered (av : Bool) (addr : BitVec 52) (p : PteCopy) : Bool :=
  !av || (p.leaf && p.contains (addr.toNat * 4096))

/-- The entries `IOTINVAL.VMA` must remove: covered first-stage entries, and combined entries through their first-stage
tags (41_cmd_iotinval R421, R426, R428). -/
def coversVma (av : Bool) (pscid : BitVec 20) (pscv gv : Bool) (gscid : BitVec 16) (addr : BitVec 52) :
    CacheEntry → Bool
  | .first eg ep eglobal p => vmaTags pscv gv pscid gscid eg ep eglobal && addrCovered av addr p
  | .combined eg ep eglobal p _ => vmaTags pscv gv pscid gscid (some eg) ep eglobal && addrCovered av addr p
  | _ => false

/-- The tag part of `covers_gvma` (41_cmd_iotinval R426). -/
def gvmaTags (gv : Bool) (gscid eg : BitVec 16) : Bool := !gv || eg == gscid

/-- The entries `IOTINVAL.GVMA` must remove: covered second-stage and MSI entries, and combined entries by the guest
range they went through (41_cmd_iotinval R422, R426, R428). With `GV`=0, `AV` is ignored. An MSI PTE tagged by a device goes
with the `GSCID` its DC held, which is what 70_reset R754 has software name (DESIGN CHOICE, assumption 12). -/
def coversGvma (av : Bool) (gv : Bool) (gscid : BitVec 16) (addr : BitVec 52) : CacheEntry → Bool
  | .second eg p => gvmaTags gv gscid eg && addrCovered (av && gv) addr p
  | .msi eg _ page _ _ => gvmaTags gv gscid eg && (!(av && gv) || addr.toNat == page)
  | .combined eg _ _ _ p => gvmaTags gv gscid eg && addrCovered (av && gv) addr p
  | _ => false

/-- The entries `IODIR.INVAL_DDT` must remove: all directory entries for `DV`=0; for `DV`=1 the DC of `DID` and every
PDT entry and PC of that device (43_cmd_iodir R462, R464), and with them the pointers they carry (R466). A `DID` too wide
for the mode in force is matched like any other: R467 and D19 have it match nothing because nothing cached can carry it,
and do not speak of copies cached under a wider mode, which a change of `ddtp` leaves (R468); the model removes those, as
R462 reads (DESIGN CHOICE, assumption 40). -/
def coversDdt (dv : Bool) (did : BitVec 24) : CacheEntry → Bool
  | .ddte _ _ _ => !dv
  | .dc d _ _ => !dv || d == did
  | .pdte d _ _ _ _ => !dv || d == did
  | .pc d _ _ _ => !dv || d == did
  | _ => false

/-- The entries `IODIR.INVAL_PDT` removes: those tagged (`DID`, `PID`) with the pointers they carry, that is the PC
(43_cmd_iodir R463, R464, R466), which it must remove, and the copies of non-leaf PDT entries read for that process.
These R463 and R464 do not name, 20_memory R212 and 70_reset R753 have them covered by this command; removing them is
allowed under both (20_memory R213), and is the model's choice (assumption 30). A `DID` too wide for the mode in force is
matched like any other, as in `coversDdt` (assumption 40). -/
def coversPdt (did : BitVec 24) (pid : BitVec 20) : CacheEntry → Bool
  | .pc d p _ _ => d == did && p == pid
  | .pdte d p _ _ _ => d == did && p == pid
  | _ => false

/-- The entries an invalidation must remove. -/
def Invalidation.covers : Invalidation → CacheEntry → Bool
  | .vma av pscid pscv gv gscid addr => coversVma av pscid pscv gv gscid addr
  | .gvma av gv gscid addr => coversGvma av gv gscid addr
  | .ddt dv did => coversDdt dv did
  | .pdt pid did => coversPdt did pid

/-- An activation under way learns of an invalidation: it may go on with what it holds (20_memory R214), and caches nothing
covered any more. -/
def Activation.lose (i : Invalidation) (a : Activation) : Activation := { a with lost := a.lost ++ [i] }

/-- `IOATC.remove(pred)` (40_command_queue R410): every covered entry goes, and no activation under way brings one back. -/
def State.invalidate (s : State) (i : Invalidation) : State :=
  { s with ioatc := s.ioatc.filter (fun e => !i.covers e), activations := s.activations.map (Activation.lose i) }

/-- An invalidation executed while the activation was under way. -/
def Activation.overtaken (a : Activation) : Bool := !a.lost.isEmpty || a.turns.any (fun t => !t.lost.isEmpty)

/-- No activation under way can hold a copy that an invalidation removed (20_memory R214, 42_cmd_iofence R442). -/
def State.settled (s : State) : Bool := s.activations.all (fun a => !a.overtaken)

/-- The destination segment of an ATS message: `DSEG` if `DSV`, else the default segment (44_cmd_ats R481). -/
def atsSegment (dsv : Bool) (dseg : BitVec 8) : Option (BitVec 8) := if dsv then some dseg else none

/-- The PASID of an ATS message (44_cmd_ats R481). -/
def atsPasid (pv : Bool) (pid : BitVec 20) : Option (BitVec 20) := if pv then some pid else none

/-- A PCIe message is sent. -/
def State.send (s : State) (m : Message) : State := { s with messages := s.messages ++ [m] }

/-- The byte address of the `IOFENCE.C` data store, `ADDR[63:2] * 4` (42_cmd_iofence R444). -/
def fenceAddr (addr : BitVec 62) : Nat := addr.toNat * 4

/-- The machine supports the command: ATS commands need `capabilities.ATS` (30_encoding R377); `WSI`=1 needs
wire-signalled interrupts supported and enabled (30_encoding R376 item 7); and the operand conditions of the encoding
hold (items 4 to 6). -/
def State.supports (s : State) (i : Instr) : Bool :=
  i.wellFormed &&
  match i with
  | .iotinvalVma _ _ _ _ _ _ => true
  | .iotinvalGvma _ _ _ _ _ _ => true
  | .iofenceC _ wsi _ _ _ _ => !wsi || (s.cfg.igs != 0#2 && s.fctl.wsi)
  | .iodirInvalDdt _ _ _ => true
  | .iodirInvalPdt _ _ _ => true
  | .atsInval _ _ _ _ _ _ => s.cfg.ats
  | .atsPrgr _ _ _ _ _ _ => s.cfg.ats

/-- A command other than `IOFENCE.C` executes as it is fetched: an unsupported one is the error `cmd_ill` and nothing
else (40_command_queue R398); otherwise it has its effect and `cqh` advances (R395). -/
def State.executeFetched (s : State) (i : Instr) (effect : State → State) : Host.Outcome State Fault Refusal :=
  if s.supports i then .next (effect s).advanceHead else .next (s.takeCommandError .illegal)

/-- `commit_previous(PR, PW)`: the released reads (if `PR`) and writes (if `PW`) reach the global ordering point
(42_cmd_iofence R443). -/
def State.commitPrevious (s : State) (pr pw : Bool) : State :=
  { s with accesses := s.accesses.filter (fun a => if a.isWrite then !pw else !pr) }

end Sys2Proof.Machine
end

