-- ==== Sys2Proof/Machine/Flags.lean ====
section
/-! DEFINITION. Status bits: the level conditions of `ipsr` (10_state R91 to R95), the wires (60_exceptions R696), the queue conditions (20_memory R222), the enable and disable transitions of the queues (10_state R70, R71, R80, R81, R86; that of R87 stands in Machine/AtsPri.lean), and the busy bits. -/

namespace Sys2Proof.Machine

/-- The level condition of `ipsr.cip` (10_state R91). -/
def State.cipLevel (s : State) : Bool :=
  s.cqcsr.cie && (s.fenceWIp || s.cqcsr.cmdIll || s.cqcsr.cmdTo || s.cqcsr.cqmf)

/-- The level condition of `ipsr.fip` (10_state R92, R95). -/
def State.fipLevel (s : State) : Bool := s.fqcsr.fie && (s.fqcsr.fqof || s.fqcsr.fqmf)

/-- The level condition of `ipsr.pip` (10_state R94, R95). -/
def State.pipLevel (s : State) : Bool := s.pqcsr.pie && (s.pqcsr.pqof || s.pqcsr.pqmf)

/-- Every pending bit whose level condition holds is set (10_state R95). -/
def State.reevaluate (s : State) : State :=
  s.setPending
    { s.ipsr with
      cip := s.ipsr.cip || s.cipLevel
      fip := s.ipsr.fip || s.fipLevel
      pip := s.ipsr.pip || s.pipLevel }

/-- The level of wire `v` (60_exceptions R696): asserted only while interrupts are signalled by wire. -/
def State.wire (s : State) (v : BitVec 4) : Bool :=
  !s.msiMode &&
  ((s.ipsr.cip && s.icvec.civ == v) || (s.ipsr.fip && s.icvec.fiv == v) ||
   (s.ipsr.pmip && s.icvec.pmiv == v) || (s.ipsr.pip && s.icvec.piv == v))

/-- The fault queue is full (20_memory R222). -/
def State.fqFull (s : State) : Bool := s.fqb.next s.fqt == s.fqh

/-- The page-request queue is full (20_memory R222). -/
def State.pqFull (s : State) : Bool := s.pqb.next s.pqt == s.pqh

/-- The `cqcsr` write changed `cqen` from 0 to 1 (10_state R70). -/
def State.cqEnable (s : State) : State :=
  { s with
    cqh := 0#32
    timedOut := false
    fence := none
    inflight := []
    cqcsr := { s.cqcsr with
      cqen := true, cqmf := false, cmdTo := false, cmdIll := false, fenceWIp := false
      cqon := s.cfg.busySync, busy := !s.cfg.busySync } }

/-- The command queue is off: `cqon` reads 0 and the commands still in flight, and a pending fence, are abandoned
(10_state R71, 40_command_queue R404). -/
def State.cqOff (s : State) : State :=
  { s with inflight := [], fence := none, cqcsr := { s.cqcsr with cqon := false, busy := false } }

/-- The `cqcsr` write changed `cqen` from 1 to 0 (10_state R71). -/
def State.cqDisable (s : State) : State :=
  let t := { s with cqcsr := { s.cqcsr with cqen := false, busy := true } }
  if s.cfg.busySync then t.cqOff else t

/-- The operations of a `cqcsr` write complete (10_state R70, R71, R76). -/
def State.cqComplete (s : State) : State :=
  if !s.cqcsr.busy then s
  else if s.cqcsr.cqen then { s with cqcsr := { s.cqcsr with cqon := true, busy := false } }
  else s.cqOff

/-- The `fqcsr` write changed `fqen` from 0 to 1 (10_state R80). -/
def State.fqEnable (s : State) : State :=
  { s with
    fqt := 0#32
    fqcsr := { s.fqcsr with
      fqen := true, fqmf := false, fqof := false, fqon := s.cfg.busySync, busy := !s.cfg.busySync } }

/-- The fault queue is off, and the records it still held are lost (10_state R81, 60_exceptions R684). -/
def State.fqOff (s : State) : State :=
  { s with faults := [], fqcsr := { s.fqcsr with fqon := false, busy := false } }

/-- The `fqcsr` write changed `fqen` from 1 to 0 (10_state R81). -/
def State.fqDisable (s : State) : State :=
  let t := { s with fqcsr := { s.fqcsr with fqen := false, busy := true } }
  if s.cfg.busySync then t.fqOff else t

/-- The operations of an `fqcsr` write complete. -/
def State.fqComplete (s : State) : State :=
  if !s.fqcsr.busy then s
  else if s.fqcsr.fqen then { s with fqcsr := { s.fqcsr with fqon := true, busy := false } }
  else s.fqOff

/-- The `pqcsr` write changed `pqen` from 0 to 1 (10_state R86; `pqt`, not `pqh`: 90_conflicts C11). -/
def State.pqEnable (s : State) : State :=
  { s with
    pqt := 0#32
    pqcsr := { s.pqcsr with
      pqen := true, pqmf := false, pqof := false, pqon := s.cfg.busySync, busy := !s.cfg.busySync } }

/-- The value of `ddtp` a new activation may use besides the written one: the old value while `busy` is 1
(10_state R113, 45_translation_process R538). -/
def State.ddtpAlternatives (s : State) : List DdtPointer :=
  if s.ddtpBusy then [s.ddtp, s.ddtpOld] else [s.ddtp]

/-- The values of `ddtp` that something received from a device may be processed with: its own, if the mode was changed to
Off after it was received (10_state R47), else the ones in force. -/
def State.alternativesFor (s : State) : Option DdtPointer → List DdtPointer
  | some p => [p]
  | none => s.ddtpAlternatives

/-- What was received is processed with `p`, unless it has a value of its own already. -/
def Received.pin {α : Type} (p : DdtPointer) (x : Received α) : Received α :=
  { x with under := some (x.under.getD p) }

/-- The transactions in flight keep the value of `ddtp` that a change of the mode to Off replaces (10_state R47). -/
def State.pinInFlight (s : State) (p : DdtPointer) : State :=
  { s with requests := s.requests.map (Received.pin p), pages := s.pages.map (Received.pin p) }

/-- The operation that the first half of a split write of the register at `offset` started has ended: the half still to
come no longer belongs to an operation in progress (48_debug_interface R633, 10_state R45). -/
def HalfAccess.ended (offset : Nat) : HalfAccess → HalfAccess
  | .read o high other => .read o high other
  | .write o high v started => .write o high v (started && o != offset)

/-- The operation of the register at `offset` has ended, for every half-done access. -/
def State.endOperation (s : State) (offset : Nat) : State := { s with halves := s.halves.map (HalfAccess.ended offset) }

/-- The operations of a `ddtp` write complete; when they changed the mode to Off, everything already processed is committed
(10_state R45, R47). -/
def State.ddtpComplete (s : State) : State :=
  if !s.ddtpBusy then s
  else
    let t : State := { s with
      ddtpBusy := false
      accesses := if s.ddtp.mode == .off && s.ddtpOld.mode != .off then [] else s.accesses }
    t.endOperation 16

end Sys2Proof.Machine
end

