-- ==== Sys2Proof/Machine/DeviceContext.lean ====
section
/-! DEFINITION. The fields and configuration checks of device contexts, process contexts, directory entries and MSI PTEs (21_data_structures). -/

namespace Sys2Proof.Machine

/-! ## Device context (21_data_structures R239, R248, R251 to R255) -/

def DeviceContext.valid (d : DeviceContext) : Bool := d.tc.getLsbD 0
def DeviceContext.enAts (d : DeviceContext) : Bool := d.tc.getLsbD 1
def DeviceContext.enPri (d : DeviceContext) : Bool := d.tc.getLsbD 2
def DeviceContext.t2gpa (d : DeviceContext) : Bool := d.tc.getLsbD 3
def DeviceContext.dtf (d : DeviceContext) : Bool := d.tc.getLsbD 4
def DeviceContext.pdtv (d : DeviceContext) : Bool := d.tc.getLsbD 5
def DeviceContext.prpr (d : DeviceContext) : Bool := d.tc.getLsbD 6
def DeviceContext.gade (d : DeviceContext) : Bool := d.tc.getLsbD 7
def DeviceContext.sade (d : DeviceContext) : Bool := d.tc.getLsbD 8
def DeviceContext.dpe (d : DeviceContext) : Bool := d.tc.getLsbD 9
def DeviceContext.sbe (d : DeviceContext) : Bool := d.tc.getLsbD 10
def DeviceContext.sxl (d : DeviceContext) : Bool := d.tc.getLsbD 11
/-- `iohgatp.MODE` -/
def DeviceContext.gMode (d : DeviceContext) : Nat := (d.iohgatp.extractLsb' 60 4).toNat
/-- `iohgatp.GSCID` -/
def DeviceContext.gscid (d : DeviceContext) : BitVec 16 := d.iohgatp.extractLsb' 44 16
/-- `iohgatp.PPN` -/
def DeviceContext.gPpn (d : DeviceContext) : Nat := (d.iohgatp.extractLsb' 0 44).toNat
def DeviceContext.pscid (d : DeviceContext) : BitVec 20 := d.ta.extractLsb' 12 20
/-- `fsc.MODE`: of `iosatp`, or of `pdtp` when `PDTV`=1 -/
def DeviceContext.fscMode (d : DeviceContext) : Nat := (d.fsc.extractLsb' 60 4).toNat
/-- `fsc.PPN` -/
def DeviceContext.fscPpn (d : DeviceContext) : Nat := (d.fsc.extractLsb' 0 44).toNat
/-- `msiptp.MODE` -/
def DeviceContext.msiMode (d : DeviceContext) : Nat := (d.msiptp.extractLsb' 60 4).toNat
/-- `msiptp.PPN` -/
def DeviceContext.msiPpn (d : DeviceContext) : Nat := (d.msiptp.extractLsb' 0 44).toNat
/-- `msi_addr_mask` -/
def DeviceContext.addrMask (d : DeviceContext) : BitVec 52 := d.msiMask.extractLsb' 0 52
/-- `msi_addr_pattern` -/
def DeviceContext.addrPattern (d : DeviceContext) : BitVec 52 := d.msiPattern.extractLsb' 0 52
/-- the second stage is Bare -/
def DeviceContext.gBare (d : DeviceContext) : Bool := d.gMode == 0

/-! ## Process context (21_data_structures R275) -/

def ProcessContext.valid (p : ProcessContext) : Bool := p.ta.getLsbD 0
def ProcessContext.ens (p : ProcessContext) : Bool := p.ta.getLsbD 1
def ProcessContext.sum (p : ProcessContext) : Bool := p.ta.getLsbD 2
def ProcessContext.pscid (p : ProcessContext) : BitVec 20 := p.ta.extractLsb' 12 20
def ProcessContext.fscMode (p : ProcessContext) : Nat := (p.fsc.extractLsb' 60 4).toNat
def ProcessContext.fscPpn (p : ProcessContext) : Nat := (p.fsc.extractLsb' 0 44).toNat

/-! ## Modes -/

/-- `iosatp.MODE` is not one the implementation supports under `SXL` (Table 3, R262 items 9 to 11, R279 items 2 to 4).
Reserved and custom encodings are unsupported (R256, D11). -/
def badFirstMode (c : Config) (sxl : Bool) (mode : Nat) : Bool :=
  if mode == 0 then false
  else if sxl then !(mode == 8 && c.sv32)
  else !((mode == 8 && c.sv39) || (mode == 9 && c.sv48) || (mode == 10 && c.sv57))

/-- `iohgatp.MODE` is not one the implementation supports under `fctl.GXL` (Table 2, R262 items 13 to 15). -/
def badSecondMode (c : Config) (gxl : Bool) (mode : Nat) : Bool :=
  if mode == 0 then false
  else if gxl then !(mode == 8 && c.sv32x4)
  else !((mode == 8 && c.sv39x4) || (mode == 9 && c.sv48x4) || (mode == 10 && c.sv57x4))

/-- `pdtp.MODE` is not one the implementation supports (Table 4, R262 item 8). -/
def badPdtMode (c : Config) (mode : Nat) : Bool :=
  !(mode == 0 || (mode == 1 && c.pd8) || (mode == 2 && c.pd17) || (mode == 3 && c.pd20))

/-- The supervisor address a PPN names is wider than `capabilities.PAS` (20_memory R207, U9). -/
def tooWidePpn (c : Config) (ppn : Nat) : Bool := decide (2 ^ c.pas ≤ ppn * 4096)

/-! ## Configuration checks -/

/-- A reserved bit of the DC is set (R256; the conditional ones are items 12 and 18 of R262). -/
def DeviceContext.reservedSet (d : DeviceContext) (extended : Bool) : Bool :=
  d.tc.extractLsb' 12 12 != 0#12 || d.tc.extractLsb' 32 32 != 0#32 ||
  d.ta.extractLsb' 0 12 != 0#12 || d.ta.extractLsb' 32 32 != 0#32 ||
  d.fsc.extractLsb' 44 16 != 0#16 ||
  (extended &&
    (d.msiptp.extractLsb' 44 16 != 0#16 || d.msiMask.extractLsb' 52 12 != 0#12 ||
     d.msiPattern.extractLsb' 52 12 != 0#12 || d.reserved != 0#64))

/-- The DC is misconfigured: the 21 conditions of R262, in order, and the optional width check of R263. -/
def DeviceContext.misconfigured (d : DeviceContext) (c : Config) (f : Fctl) : Bool :=
  d.reservedSet c.msiFlat                                                   -- 1
  || (!c.ats && (d.enAts || d.enPri || d.prpr))                             -- 2
  || (!d.enAts && d.t2gpa)                                                  -- 3
  || (!d.enAts && d.enPri)                                                  -- 4
  || (!d.enPri && d.prpr)                                                   -- 5
  || (!c.t2gpa && d.t2gpa)                                                  -- 6
  || (d.t2gpa && d.gBare)                                                   -- 7
  || (d.pdtv && badPdtMode c d.fscMode)                                     -- 8
  || (!d.pdtv && badFirstMode c d.sxl d.fscMode)                            -- 9, 10, 11
  || (!d.pdtv && d.dpe)                                                     -- 12
  || badSecondMode c f.gxl d.gMode                                          -- 13, 14, 15
  || (c.msiFlat && !(d.msiMode == 0 || d.msiMode == 1))                     -- 16
  || (!d.gBare && d.gPpn % 4 != 0)                                          -- 17
  || (!c.amoHwad && (d.sade || d.gade))                                     -- 18
  || (!c.endBoth && f.be != d.sbe)                                          -- 19
  || (if f.gxl then !d.sxl else (!c.gxlWritable && d.sxl))                  -- 20
  || (!c.beWritable && d.sbe != f.be)                                       -- 21
  || (c.pasCheck &&                                                         -- R263
      ((!d.gBare && tooWidePpn c d.gPpn) || (d.gBare && d.fscMode != 0 && tooWidePpn c d.fscPpn) ||
       (c.msiFlat && d.msiMode == 1 && tooWidePpn c d.msiPpn)))

/-- The PC is misconfigured: the conditions of R279 under the DC's `SXL`, and the optional width check of R280. -/
def ProcessContext.misconfigured (p : ProcessContext) (c : Config) (d : DeviceContext) : Bool :=
  p.ta.extractLsb' 3 9 != 0#9 || p.ta.extractLsb' 32 32 != 0#32 || p.fsc.extractLsb' 44 16 != 0#16
  || badFirstMode c d.sxl p.fscMode
  || (c.pasCheck && d.gBare && p.fscMode != 0 && tooWidePpn c p.fscPpn)

/-- A reserved bit of a non-leaf directory entry is set (R232, R272). -/
def directoryReserved (e : DWord) : Bool := e.extractLsb' 1 9 != 0#9 || e.extractLsb' 54 10 != 0#10

/-- The PPN of a non-leaf directory entry (R232, R272). -/
def directoryPpn (e : DWord) : Nat := (e.extractLsb' 10 44).toNat

/-! ## Index splits -/

/-- The bit position and width of `DDI[i]` (R231). -/
def ddiShift (extended : Bool) : Nat → Nat
  | 0 => 0
  | 1 => if extended then 6 else 7
  | _ => if extended then 15 else 16

/-- `DDI[i]` of a device identifier (R231). -/
def ddi (extended : Bool) (did : BitVec 24) (i : Nat) : Nat :=
  let v := did.toNat / 2 ^ ddiShift extended i
  match i with
  | 0 => v % 2 ^ (if extended then 6 else 7)
  | 1 => v % 512
  | _ => v

/-- The bit position of `PDI[i]` (R270). -/
def pdiShift : Nat → Nat
  | 0 => 0
  | 1 => 8
  | _ => 17

/-- `PDI[i]` of a process identifier (R270). -/
def pdi (pid : BitVec 20) (i : Nat) : Nat :=
  let v := pid.toNat / 2 ^ pdiShift i
  match i with
  | 0 => v % 256
  | 1 => v % 512
  | _ => v

/-- The `process_id` is wider than `pdtp.MODE` supports (45_translation_process R507 (c)). -/
def pidTooWide (mode : Nat) (pid : BitVec 20) : Bool :=
  (mode == 1 && decide (256 ≤ pid.toNat)) || (mode == 2 && decide (131072 ≤ pid.toNat))

/-- The `device_id` is wider than the mode supports (45_translation_process R504). -/
def didTooWide (extended : Bool) (mode : IommuMode) (did : BitVec 24) : Bool :=
  match mode with
  | .lvl1 => ddi extended did 1 != 0 || ddi extended did 2 != 0
  | .lvl2 => ddi extended did 2 != 0
  | _ => false

/-- `LEVELS - 1` of a directory mode (45_translation_process R520). -/
def topLevel : IommuMode → Nat
  | .lvl3 => 2
  | .lvl2 => 1
  | _ => 0

/-! ## MSI PTE (21_data_structures R286, R287) -/

/-- A reserved bit of a basic-mode MSI PTE is set (R286). -/
def msiBasicReserved (dw0 : DWord) : Bool := dw0.extractLsb' 3 7 != 0#7 || dw0.extractLsb' 54 9 != 0#9

/-- A reserved bit of an MRIF-mode MSI PTE is set (R287). -/
def msiMrifReserved (dw0 dw1 : DWord) : Bool :=
  dw0.extractLsb' 3 4 != 0#4 || dw0.extractLsb' 54 9 != 0#9 || dw1.extractLsb' 54 6 != 0#6 || dw1.extractLsb' 61 3 != 0#3

end Sys2Proof.Machine
end

