-- ==== Sys2Proof/Machine/PageTable.lean ====
section
/-! DEFINITION. One activation of the translation engine as a process over memory, the IOATC and the free choices, and the two page-table walks (22_page_tables). The registers are read from the machine `s` as it stands when the activation starts; a process cannot change them. Between two of its accesses other agents may act: what each access found is given by the turns of the walk state. -/

namespace Sys2Proof.Machine

/-! ## Processes -/

/-- Where a process stops with a fault: the cause code (60_exceptions R651) and `iotval2` (R666). -/
structure FaultInfo where
  cause : Nat
  iotval2 : DWord
deriving DecidableEq, Repr

/-- What a process may change, and what it notes for the fault record and the HPM. -/
structure Walk where
  mem : Memory
  ioatc : List CacheEntry
  draws : Nat
  /-- copies to be cached if the lookup in progress succeeds (20_memory R211, R213) -/
  fill : List CacheEntry
  /-- the copies this activation has put into the IOATC -/
  added : List CacheEntry
  /-- what the accesses still to be made find; with none left the activation goes on alone -/
  turns : List Turn
  /-- the invalidations that executed since the activation began -/
  lost : List Invalidation
  /-- what the first access that no turn is given for would find: there an activation under way stands -/
  reached : Option Shared
  /-- `DC.tc.DTF`, once a valid DC is located (60_exceptions R672) -/
  dtf : Bool
  /-- the GSCID, once valid (D23) -/
  gscid : Option (BitVec 16)
  /-- the PSCID, once valid (D23) -/
  pscid : Option (BitVec 20)
  /-- `DC.tc.T2GPA`, once a valid DC is located (47_ats_pri R593) -/
  t2gpa : Bool
  /-- the address was determined to be that of a virtual interrupt file (47_ats_pri R593) -/
  msi : Bool
  /-- reads of memory tried so far, per structure -/
  ddtReads : Nat
  pdtReads : Nat
  firstReads : Nat
  secondReads : Nat
  msiReads : Nat
  /-- processes that read memory so far, for HPM events 5 to 8 (D26) -/
  ddtWalks : Nat
  pdtWalks : Nat
  firstWalks : Nat
  secondWalks : Nat
deriving DecidableEq, Repr

/-- A process: it answers or raises a fault, and in both cases leaves the walk state it reached (45 R526: A/D updates
already made stay made). -/
abbrev Proc := EStateM FaultInfo Walk

/-- What the agents share. -/
def State.shared (s : State) : Shared := ⟨s.mem, s.ioatc, s.draws⟩

/-- What a process shares with the other agents, as it leaves it. -/
def Walk.shared (w : Walk) : Shared := ⟨w.mem, w.ioatc, w.draws⟩

/-- A walk state at the beginning of an activation that finds `b` and makes its accesses at `turns`. -/
def Walk.start (b : Shared) (turns : List Turn) : Walk :=
  ⟨b.mem, b.ioatc, b.draws, [], [], turns, [], none, false, none, none, false, false, 0, 0, 0, 0, 0, 0, 0, 0, 0⟩

/-- The walk state of an activation performed in one go. -/
def State.startWalk (s : State) : Walk := Walk.start s.shared []

/-- The walk state a process leaves. -/
def walkAfter {α : Type} : EStateM.Result FaultInfo Walk α → Walk
  | .ok _ w => w
  | .error _ w => w

/-- `raise Fault(cause)`. -/
def raise {α : Type} (cause : Nat) (iotval2 : DWord := 0#64) : Proc α := throw ⟨cause, iotval2⟩

/-- A process whose fault is handled: what it did until then stays done. -/
def handling {α : Type} (p : Proc α) (f : FaultInfo → Proc α) : Proc α := fun w =>
  match p w with
  | .ok a w' => .ok a w'
  | .error e w' => f e w'

/-- One of `n` alternatives, numbered from 0; nothing is drawn when there is only one. -/
def choose (n : Nat) : Proc Nat := fun w =>
  if n ≤ 1 then .ok 0 w else .ok (Config.freeChoice w.draws % n) { w with draws := w.draws + 1 }

/-- The next access to memory is about to be made, alone: what the other agents did since the last one is seen now
(20_memory R200, 45 R537), and the number that selects the access is answered. With no turn left the process goes on as
it is, at 0, and it is noted what it had reached. -/
def takeTurn : Proc Nat := fun w =>
  match w.turns with
  | [] => .ok 0 { w with reached := some (w.reached.getD w.shared) }
  | t :: rest =>
    .ok t.pick
      { w with
        mem := t.shared.mem, ioatc := t.shared.ioatc, draws := t.shared.draws, turns := rest, lost := w.lost ++ t.lost }

/-- A copy is noted for caching, if the implementation caches. -/
def note (s : State) (e : CacheEntry) : Proc Unit :=
  modify fun w => if s.cfg.ioatc then { w with fill := w.fill ++ [e] } else w

/-- A copy is cached, unless it is there already. No copy that an invalidation executed since the activation began covers
is: it may have been read before, or through what was (20_memory R213, R214; the model's choice, assumption 41). -/
def Walk.cache (w : Walk) (e : CacheEntry) : Walk :=
  if w.ioatc.contains e || w.lost.any (fun i => i.covers e) then w
  else { w with ioatc := w.ioatc ++ [e], added := w.added ++ [e] }

/-- One lookup: the location of a DC or a PC, one walk of a stage, or the location of an MSI PTE. The copies it notes are
cached when it succeeds, whatever happens later in the activation, and a lookup that faults caches nothing (20_memory
R211, R213; 45 R522). A lookup nested in another one is one of its own. -/
def lookup {α : Type} (p : Proc α) : Proc α := fun w =>
  match p { w with fill := [] } with
  | .ok a w' => .ok a { w'.fill.foldl Walk.cache w' with fill := w.fill }
  | .error e w' => .error e { w' with fill := w.fill }

/-- Which structure a read belongs to. -/
inductive Structure where
  | ddt
  | pdt
  | first
  | second
  | msi
deriving DecidableEq, Repr

/-- One more read of memory in a structure; one that is refused or poisoned counts too (assumption 17). -/
def Walk.countRead (w : Walk) : Structure → Walk
  | .ddt => { w with ddtReads := w.ddtReads + 1 }
  | .pdt => { w with pdtReads := w.pdtReads + 1 }
  | .first => { w with firstReads := w.firstReads + 1 }
  | .second => { w with secondReads := w.secondReads + 1 }
  | .msi => { w with msiReads := w.msiReads + 1 }

/-- The reads of memory in a structure so far. -/
def Walk.reads (w : Walk) : Structure → Nat
  | .ddt => w.ddtReads
  | .pdt => w.pdtReads
  | .first => w.firstReads
  | .second => w.secondReads
  | .msi => w.msiReads

/-- One more process of a structure has read memory. -/
def Walk.countWalk (w : Walk) : Structure → Walk
  | .ddt => { w with ddtWalks := w.ddtWalks + 1 }
  | .pdt => { w with pdtWalks := w.pdtWalks + 1 }
  | .first => { w with firstWalks := w.firstWalks + 1 }
  | .second => { w with secondWalks := w.secondWalks + 1 }
  | .msi => w

/-- A process counted as one walk of a structure if it went to that structure's memory (11_state_hpm_debug R144): one whose
only reads were those of second-stage walks nested in it counts as those alone (assumption 17). -/
def counted {α : Type} (k : Structure) (p : Proc α) : Proc α := fun w =>
  match p w with
  | .ok a w' => .ok a (if w.reads k < w'.reads k then w'.countWalk k else w')
  | .error e w' => .error e (if w.reads k < w'.reads k then w'.countWalk k else w')

/-- One of the causes is raised, by free choice, if there is one. -/
def raiseOne (causes : List Nat) : Proc Unit := do
  match causes.eraseDups with
  | [] => return ()
  | c :: cs =>
    let j ← choose (cs.length + 1)
    raise ((elementAt (c :: cs) j).getD c)

/-- Reads of `b` bytes each, at the addresses of the list in any order (20_memory R192): the memory they found there, over
`found`. The first argument is their number. -/
def readPieces (b : Nat) : Nat → List Nat → Memory → Proc Memory
  | 0, _, found => return found
  | n + 1, addrs, found => do
    let pick ← takeTurn
    let k := pick % addrs.length
    let a := (elementAt addrs k).getD 0
    let w ← get
    readPieces b n (removeAt addrs k) (found.writeBytes a (w.mem.readBytes a b))

/-- `n` bytes at `addr` are read, by accesses of `ATOMIC_SIZE` that other agents may come between (20_memory R192, R195):
the memory they found there. -/
def readAt (s : State) (addr n : Nat) : Proc Memory :=
  let b := accessBytes s.cfg n
  readPieces b (n / b) ((List.range (n / b)).map fun k => addr + b * k) []

/-- `n` bytes of a structure are read by accesses of `ATOMIC_SIZE`, in any order, each with a verdict of its own (20_memory
R192, R195, R205; 45 R522, R533; 46 R551): one that cannot be made stops the process. Where several faults are possible,
which one is met first is a free choice; `early` lists the causes that may stop the process before that access is made
(assumption 32). -/
def readStructure (s : State) (k : Structure) (addr n accessFault poisoned : Nat) (early : Memory → List Nat) :
    Proc Memory := do
  modify fun w => w.countRead k
  if permitted s.cfg addr n .read then readAt s addr n
  else
    let _ ← takeTurn
    let w ← get
    raiseOne (accessCauses s.cfg addr n .read accessFault poisoned ++ early w.mem)
    return w.mem

/-- `MemRead` of `n` bytes by a process: the number read, or the fault of a verdict (20_memory R187, R205, R206). -/
def implicitRead (s : State) (k : Structure) (addr n : Nat) (be : Bool) (accessFault poisoned : Nat) : Proc Nat := do
  let m ← readStructure s k addr n accessFault poisoned (fun _ => [])
  return m.readNat addr n be

/-! ## Access types and causes (22_page_tables R315, R318) -/

/-- The access type a walk checks. -/
inductive Acc where
  | read
  | write
  | exec
deriving DecidableEq, Repr

/-- The walk's access type of a request's kind (R318). -/
def AccessKind.acc : AccessKind → Acc
  | .read => .read
  | .write => .write
  | .amo => .write
  | .exec => .exec

def pageFaultCause : Acc → Nat
  | .read => 13
  | .write => 15
  | .exec => 12

def guestPageFaultCause : Acc → Nat
  | .read => 21
  | .write => 23
  | .exec => 20

def accessFaultCause : Acc → Nat
  | .read => 5
  | .write => 7
  | .exec => 1

/-- What a walk checks at its leaf: one access type, or, for an ATS translation request, which permissions can be
granted (47_ats_pri R586), given its No-Write flag. -/
inductive Demand where
  | exercise (a : Acc)
  | collect (noWrite : Bool)
deriving DecidableEq, Repr

/-- What is fixed for one activation's walks. -/
structure Context where
  dc : DeviceContext
  did : BitVec 24
  /-- the original access type, which selects the cause codes (R315) -/
  orig : Acc
  demand : Demand
  supervisor : Bool
  sum : Bool
  /-- a debug request that skips A/D updates (48_debug_interface R638) -/
  skipUpdate : Bool
deriving DecidableEq, Repr

/-! ## Schemes (22_page_tables R301, R302) -/

/-- The parameters of one paged scheme: the top-level index is `topExtra` bits wider. -/
structure Scheme where
  levels : Nat
  pteBytes : Nat
  idxBits : Nat
  topExtra : Nat
deriving DecidableEq, Repr

/-- The width of the input address. -/
def Scheme.addrBits (m : Scheme) : Nat := 12 + m.levels * m.idxBits + m.topExtra

/-- The first-stage scheme of `iosatp.MODE` under `SXL`; `none` is Bare (21_data_structures R252). -/
def firstScheme (sxl : Bool) (mode : Nat) : Option Scheme :=
  if mode == 0 then none
  else if sxl then some ⟨2, 4, 10, 0⟩
  else some ⟨mode - 5, 8, 9, 0⟩

/-- The second-stage scheme of `iohgatp.MODE` under `fctl.GXL`; `none` is Bare (21_data_structures R247). -/
def secondScheme (gxl : Bool) (mode : Nat) : Option Scheme :=
  if mode == 0 then none
  else if gxl then some ⟨2, 4, 10, 2⟩
  else some ⟨mode - 5, 8, 9, 2⟩

/-- `va.vpn[i]` (R301, R302). -/
def Scheme.vpn (m : Scheme) (va i : Nat) : Nat :=
  va / 2 ^ (12 + i * m.idxBits) % 2 ^ (if i + 1 == m.levels then m.idxBits + m.topExtra else m.idxBits)

/-- log2 of the range of input addresses one entry at level `i` covers, leaf (without NAPOT) or not
(41_cmd_iotinval R426). -/
def Scheme.pageLog2 (m : Scheme) (i : Nat) : Nat := 12 + i * m.idxBits

/-! ## PTEs (22_page_tables R303); a 32-bit PTE is zero-extended -/

def pteV (p : DWord) : Bool := p.getLsbD 0
def pteR (p : DWord) : Bool := p.getLsbD 1
def pteW (p : DWord) : Bool := p.getLsbD 2
def pteX (p : DWord) : Bool := p.getLsbD 3
def pteU (p : DWord) : Bool := p.getLsbD 4
def pteG (p : DWord) : Bool := p.getLsbD 5
def pteA (p : DWord) : Bool := p.getLsbD 6
def pteD (p : DWord) : Bool := p.getLsbD 7
def pteN (p : DWord) : Bool := p.getLsbD 63
def ptePbmt (p : DWord) : BitVec 2 := p.extractLsb' 61 2
/-- The PPN; the upper bits of a zero-extended 32-bit PTE are 0. -/
def ptePpn (p : DWord) : Nat := (p.extractLsb' 10 44).toNat
/-- `R`=`X`=0: a pointer to the next level, once `W`=1 with `R`=0 is excluded. -/
def pteLeaf (p : DWord) : Bool := pteR p || pteX p

/-- `reserved_bits_set` (R304); `wide` says the PTE is a 64-bit one. -/
def pteReserved (c : Config) (p : DWord) (wide : Bool) : Bool :=
  (wide && (p.extractLsb' 54 7 != 0#7 || ptePbmt p == 3#2 || (!c.svpbmt && ptePbmt p != 0#2))) ||
  (!pteLeaf p && (pteD p || pteA p || pteU p || (wide && (ptePbmt p != 0#2 || pteN p))))

/-- The PTE is invalid or a reserved encoding (R304). -/
def pteBad (c : Config) (p : DWord) (wide : Bool) : Bool :=
  !pteV p || (!pteR p && pteW p) || pteReserved c p wide

/-- A leaf PTE at level `i` is a misaligned superpage or a bad NAPOT encoding (R304, R307). -/
def leafMisplaced (m : Scheme) (p : DWord) (i : Nat) : Bool :=
  ptePpn p % 2 ^ (i * m.idxBits) != 0 || (pteN p && !(i == 0 && ptePpn p % 16 == 8))

/-- log2 of the size a leaf maps: 64 KiB for NAPOT (R307). -/
def leafLog2 (m : Scheme) (p : DWord) (i : Nat) : Nat := if pteN p then 16 else m.pageLog2 i

/-- The output address of a leaf that maps `2^k` bytes (R304, "success"). -/
def leafAddress (p : DWord) (k va : Nat) : Nat := ptePpn p * 4096 / 2 ^ k * 2 ^ k + va % 2 ^ k

/-- The bits an A/D update sets (R320). -/
def pteUpdated (p : DWord) (setD : Bool) : DWord := p ||| 0x40#64 ||| (if setD then 0x80#64 else 0#64)

/-! ## Permissions (22_page_tables R308, R313; 47_ats_pri R588, R590) -/

structure Perms where
  r : Bool
  w : Bool
  x : Bool
deriving DecidableEq, Repr

def Perms.all : Perms := ⟨true, true, true⟩

def Perms.allows (p : Perms) : Acc → Bool
  | .read => p.r
  | .write => p.w
  | .exec => p.x

/-- What a first-stage leaf grants at this privilege (R308): User needs `U`=1; Supervisor on a `U`=1 page needs `SUM`
and never executes. -/
def firstPerms (p : DWord) (supervisor sum : Bool) : Perms :=
  if !supervisor then
    if pteU p then ⟨pteR p, pteW p, pteX p⟩ else ⟨false, false, false⟩
  else if pteU p then
    if sum then ⟨pteR p, pteW p, false⟩ else ⟨false, false, false⟩
  else ⟨pteR p, pteW p, pteX p⟩

/-- What a second-stage leaf grants: every access is checked as a user access (R313). -/
def secondPerms (p : DWord) : Perms :=
  if pteU p then ⟨pteR p, pteW p, pteX p⟩ else ⟨false, false, false⟩

/-- The demand can be met, as far as permissions go: the access is allowed, or something can be granted. For an ATS request
R586 does not say whether an execute-only leaf counts, whose answer has nothing to grant (47_ats_pri R590). The model
counts it, also where execute was not requested, so that the walk goes on and sets its `A` bit (DESIGN CHOICE,
assumption 39). -/
def Perms.meets (p : Perms) : Demand → Bool
  | .exercise a => p.allows a
  | .collect _ => p.r || p.w || p.x

/-- The demand needs the D bit: a write, or an ATS request that may be granted write (R320, 47_ats_pri R589). -/
def Perms.needsD (p : Perms) : Demand → Bool
  | .exercise a => a == .write
  | .collect noWrite => !noWrite && p.w

/-- `D`=0 without an update enable is a fault for a write; for an ATS request it only withholds write (47_ats_pri R589). -/
def Demand.faultsOnD : Demand → Bool
  | .exercise _ => true
  | .collect _ => false

/-! ## Leaves -/

/-- The outcome of one stage: the output address, what it grants, the memory type, the page size, and whether the
mapping is global. A Bare stage grants everything and imposes no size (R305, R317). -/
structure Leaf where
  addr : Nat
  perms : Perms
  pbmt : BitVec 2
  sizeLog2 : Nat
  global : Bool
  /-- the leaf copy used, for a combined entry (41_cmd_iotinval R428) -/
  copy : Option PteCopy
deriving DecidableEq, Repr

/-- The identity stage. -/
def Leaf.bare (a : Nat) : Leaf := ⟨a, Perms.all, 0#2, spaBits, false, none⟩

/-! ## What a walk is asked for (22_page_tables R312, R313) -/

/-- Why the second stage is asked: the request's final access, or an implicit read or write of the first stage or the
PDT (R313, 60_exceptions R666). -/
inductive Purpose where
  | final
  | implicitRead
  | implicitWrite
deriving DecidableEq, Repr

/-- The demand the second stage checks (R313). -/
def Purpose.demand (c : Context) : Purpose → Demand
  | .final => c.demand
  | .implicitRead => .exercise .read
  | .implicitWrite => .exercise .write

/-- `iotval2` of a guest page fault (60_exceptions R664, R666). -/
def guestIotval2 (s : State) (gpa : Nat) (p : Purpose) : DWord :=
  let g := if s.cfg.iotvalOffset then gpa / 4 * 4 else gpa / 4096 * 4096
  BitVec.ofNat 64 g |||
    (match p with
     | .final => 0#64
     | .implicitRead => 1#64
     | .implicitWrite => 3#64)

/-- The cached second-stage copies that match a GSCID and a GPA: tags only (20_memory R212, R217). -/
def secondCopies (g : BitVec 16) (gpa : Nat) : List CacheEntry → List PteCopy
  | [] => []
  | .second eg p :: rest => if eg == g && p.contains gpa then p :: secondCopies g gpa rest else secondCopies g gpa rest
  | .combined eg _ _ _ p :: rest =>
    if eg == g && p.contains gpa then p :: secondCopies g gpa rest else secondCopies g gpa rest
  | _ :: rest => secondCopies g gpa rest

/-- A cached leaf needs no A/D update to be used (20_memory R218): with the hardware update enabled, a copy that lacks
a needed bit is not used. -/
def copyUsable (ade : Bool) (needsD : Bool) (p : PteCopy) : Bool :=
  !ade || (pteA p.pte && (!needsD || pteD p.pte))

/-- The write permission of a leaf after the D rule of 47_ats_pri R589 (b): withheld from an ATS request while `D` is 0
and cannot be set; an ATS request with `NW`=1 gets no write at all. -/
def grantWrite (d : Demand) (perms : Perms) (dSet : Bool) : Perms :=
  match d with
  | .exercise _ => perms
  | .collect noWrite => { perms with w := perms.w && !noWrite && dSet }

/-- What one walk of a stage is for: its input address, what its leaf must meet and grants, whether `A` and `D` are updated
(`GADE`, `SADE`), the byte order of its PTEs, and its page fault (R315). -/
structure Stage where
  kind : Structure
  scheme : Scheme
  input : Nat
  demand : Demand
  perms : DWord → Perms
  updates : Bool
  be : Bool
  fault : FaultInfo

/-- The walk of the second stage for one guest physical address (R312, R313). -/
def secondWalk (s : State) (c : Context) (m : Scheme) (gpa : Nat) (purpose : Purpose) : Stage :=
  ⟨.second, m, gpa, purpose.demand c, secondPerms, c.dc.gade, s.fctl.be,
    ⟨guestPageFaultCause c.orig, guestIotval2 s gpa purpose⟩⟩

/-- The walk of the first stage for one IOVA (R308, R310). -/
def firstWalk (c : Context) (m : Scheme) (va : Nat) : Stage :=
  ⟨.first, m, va, c.demand, fun p => firstPerms p c.supervisor c.sum, c.dc.sade, c.dc.sbe, ⟨pageFaultCause c.orig, 0#64⟩⟩

/-! ## PTEs visited (22_page_tables R304, R320), in either stage -/

/-- What a visit to a PTE gives: a pointer to the next level, or the leaf with the PTE as it stands after its A/D update. -/
inductive Visit where
  | next (pte : DWord)
  | leaf (leaf : Leaf) (pte : DWord)
deriving DecidableEq, Repr

/-- What becomes of an A/D update (R320). -/
inductive Update where
  /-- the PTE now in memory -/
  | done (pte : DWord)
  /-- not made, and the ATS request that asked for it gets no write permission -/
  | withheld
  /-- the PTE in memory is another one: what the walk restarted from its read gives -/
  | restarted (v : Visit)
deriving DecidableEq, Repr

/-- The end of a walk: the checks of R304 on the leaf, in order, and the A/D update (R320), which `update` makes, given
whether `D` is to be set. `fresh`: the PTE was read from memory and is no cached copy. -/
def visitLeaf (c : Context) (g : Stage) (global : Bool) (pte : DWord) (i k : Nat) (fresh : Bool)
    (update : Bool → Proc Update) : Proc Visit := do
  let perms := g.perms pte
  let leaf := fun (dSet : Bool) =>
    (⟨leafAddress pte k g.input, grantWrite g.demand perms dSet, ptePbmt pte, k, global, none⟩ : Leaf)
  if !perms.meets g.demand then throw g.fault
  else if fresh && leafMisplaced g.scheme pte i then throw g.fault
  else
    let setA := !pteA pte
    let setD := perms.needsD g.demand && !pteD pte
    if !setA && !setD then return .leaf (leaf true) pte
    else if g.updates then
      if c.skipUpdate then return .leaf (leaf true) pte
      else
        match ← update setD with
        | .done new => return .leaf (leaf true) new
        | .withheld => return .leaf (leaf false) pte
        | .restarted v => return v
    else if setA || g.demand.faultsOnD then throw g.fault
    else return .leaf (leaf false) pte

/-- A PTE is read at a supervisor address. -/
def readPte (s : State) (c : Context) (g : Stage) (a : Nat) : Proc DWord := do
  return BitVec.ofNat 64 (← implicitRead s g.kind a g.scheme.pteBytes g.be (accessFaultCause c.orig) 274)

/-- The PTE `pte` of level `i`, as read, is interpreted (R304). -/
def visitPte (s : State) (c : Context) (g : Stage) (global : Bool) (i : Nat) (pte : DWord)
    (update : Bool → Proc Update) : Proc Visit :=
  if pteBad s.cfg pte (g.scheme.pteBytes == 8) then throw g.fault
  else if pteLeaf pte then visitLeaf c g (global || pteG pte) pte i (leafLog2 g.scheme pte i) true update
  else return .next pte

/-- The atomic step of the A/D update of the PTE `pte`, which stands at `a` (R320, 20_memory R198): where its location
supports it (R322; else the fault of its verdict) and the PTE is still the one that was read, the bits are set. The
answer is `none` where it is another one. -/
def updatePte (s : State) (c : Context) (g : Stage) (a : Nat) (pte : DWord) (setD : Bool) : Proc (Option DWord) := do
  match check s.cfg a g.scheme.pteBytes .atomic with
  | .accessFault => raise (accessFaultCause c.orig)
  | .poisoned => raise 274
  | .ok =>
    let _ ← takeTurn
    let w ← get
    if BitVec.ofNat 64 (w.mem.readNat a g.scheme.pteBytes g.be) == pte then
      let new := pteUpdated pte setD
      modify fun w => { w with mem := w.mem.writeBytes a (toBytes g.be g.scheme.pteBytes new.toNat) }
      return some new
    else return none

/-- The PTE at `a`, where an update is permitted, is read and interpreted, and its A/D update made, or else the walk
restarts from its read (R320, `atomic_update_AD`). A restart follows only where other agents came between the read and the
update, which takes a turn, so that `fuel`, one more than the turns left, is not used up before the turns are. -/
def visitAt (s : State) (c : Context) (g : Stage) (global : Bool) (i a : Nat) : Nat → Proc Visit
  | 0 => throw g.fault
  | fuel + 1 => do
    let pte ← readPte s c g a
    visitPte s c g global i pte fun setD => do
      match ← updatePte s c g a pte setD with
      | some new => return .done new
      | none => return .restarted (← visitAt s c g global i a fuel)

/-- The walk visits the PTE at `a`, with as many restarts as the turns left allow. -/
def visit (s : State) (c : Context) (g : Stage) (global : Bool) (i a : Nat) : Proc Visit := do
  let w ← get
  visitAt s c g global i a (w.turns.length + 1)

/-! ## The second stage (22_page_tables R312 to R314) -/

/-- The guest page fault of an activation (R315). -/
def guestPageFault {α : Type} (s : State) (c : Context) (gpa : Nat) (p : Purpose) : Proc α :=
  raise (guestPageFaultCause c.orig) (guestIotval2 s gpa p)

/-- The levels of a second-stage walk (R304, R312), from level `i` down, `fuel` = `i + 1`; `a` is the table's address. -/
def secondLevels (s : State) (c : Context) (m : Scheme) (gpa : Nat) (purpose : Purpose) :
    Nat → Nat → Proc Leaf
  | 0, _ => guestPageFault s c gpa purpose
  | i + 1, a => do
    let w ← get
    let copies := (secondCopies c.dc.gscid gpa w.ioatc).filter (fun p => p.level == i && !p.leaf)
    let k ← choose (copies.length + 1)
    match elementAt copies k with
    | some p => secondLevels s c m gpa purpose i (ptePpn p.pte * 4096)
    | none =>
      match ← visit s c (secondWalk s c m gpa purpose) false i (a + m.vpn gpa i * m.pteBytes) with
      | .leaf leaf pte =>
        let copy : PteCopy := ⟨pte, i, gpa / 2 ^ leaf.sizeLog2 * 2 ^ leaf.sizeLog2, leaf.sizeLog2, true⟩
        note s (.second c.dc.gscid copy)
        return { leaf with global := false, copy := some copy }
      | .next pte =>
        let size := m.pageLog2 i
        note s (.second c.dc.gscid ⟨pte, i, gpa / 2 ^ size * 2 ^ size, size, false⟩)
        secondLevels s c m gpa purpose i (ptePpn pte * 4096)

/-- The second stage of one guest physical address (45 R519, 22 R312): the identity when Bare; the width checks of
R314; then a cached leaf copy or the walk. -/
def secondStage (s : State) (c : Context) (gpa : Nat) (purpose : Purpose) : Proc Leaf :=
  match secondScheme s.fctl.gxl c.dc.gMode with
  | none => return Leaf.bare gpa
  | some m => lookup <| counted .second do
    if 2 ^ m.addrBits ≤ gpa || (c.dc.sxl && decide (2 ^ 34 ≤ gpa)) then guestPageFault s c gpa purpose
    else
      let w ← get
      let copies := (secondCopies c.dc.gscid gpa w.ioatc).filter (fun p =>
        p.leaf && copyUsable (c.dc.gade && !c.skipUpdate) ((secondPerms p.pte).needsD (purpose.demand c)) p)
      let k ← choose (copies.length + 1)
      match elementAt copies k with
      | some p =>
        -- a usable copy needs no update (20_memory R218), and a leaf gives no next level
        match ← visitLeaf c (secondWalk s c m gpa purpose) false p.pte p.level p.sizeLog2 false
            (fun _ => guestPageFault s c gpa purpose) with
        | .leaf leaf _ => return { leaf with copy := some p }
        | .next _ => guestPageFault s c gpa purpose
      | none => secondLevels s c m gpa purpose m.levels (c.dc.gPpn * 4096)

/-! ## Translated pointers (43_cmd_iodir R466) -/

/-- The directory entry a process is using whose guest pointer it follows. -/
inductive DirectoryEntry where
  | dc (did : BitVec 24) (value : DeviceContext)
  | pdte (did : BitVec 24) (pid : BitVec 20) (level : Nat) (value : DWord)
  | pc (did : BitVec 24) (pid : BitVec 20) (value : ProcessContext)
deriving DecidableEq, Repr

/-- The entry as it is cached, with its pointer translated to a supervisor page (`some`) or as it is. -/
def DirectoryEntry.cached (pointer : Option Nat) : DirectoryEntry → CacheEntry
  | .dc did v => .dc did v pointer
  | .pdte did pid i v => .pdte did pid i v pointer
  | .pc did pid v => .pc did pid v pointer

/-- A DC or PC that was read is noted for caching, and `table`, the guest page it points to (`none`: it points to none), may
be translated at once, whether the activation will follow the pointer or not, so that the copy carries the supervisor
page (R466: "when caching"). Whether it is, is a free choice where `cfg.cachesPointers`; a fault of that translation is
no fault of the activation, and leaves the copy without the pointer (assumption 8). -/
def noteContext (s : State) (c : Context) (e : DirectoryEntry) (table : Option Nat) : Proc Unit := do
  note s (e.cached none)
  match table, s.cfg.ioatc && s.cfg.cachesPointers && !c.dc.gBare with
  | some a, true => do
    let k ← choose 2
    if k == 0 then return ()
    else
      handling (do
        let leaf ← secondStage s c a .implicitRead
        note s (e.cached (some (leaf.addr / 4096)))) (fun _ => return ())
  | _, _ => return ()

/-- The supervisor address of `table + offset`, where `table` is the guest page the directory entry `e` points to:
through the pointer that the cached copy of `e` in use carries (`carried`), which a later use may take whatever the second
stage is by then, or by the second stage as an implicit read of `whole`, the address the rules translate. -/
def resolvePointer (s : State) (c : Context) (e : DirectoryEntry) (carried : Option Nat) (table offset whole : Nat) :
    Proc Nat := do
  let k ← choose (carried.toList.length + 1)
  match elementAt carried.toList k with
  | some page => return page * 4096 + offset
  | none =>
    if c.dc.gBare then return table + offset
    else
      let leaf ← secondStage s c whole .implicitRead
      let base := leaf.addr - (whole - table)
      if s.cfg.cachesPointers then note s (e.cached (some (base / 4096)))
      return base + offset

/-! ## The first stage (22_page_tables R304 to R310, R316) -/

/-- The page fault of an activation (R315). -/
def pageFault {α : Type} (c : Context) : Proc α := raise (pageFaultCause c.orig)

/-- The first-stage configuration in force (45 R512, R516): `iosatp`, `PSCID`, and the directory entry that holds the
root pointer, with the translated pointer its cached copy carries. -/
structure FirstStage where
  mode : Nat
  ppn : Nat
  pscid : BitVec 20
  owner : DirectoryEntry
  pointer : Option Nat
deriving DecidableEq, Repr

/-- The GSCID tag of first-stage entries: none when the second stage is Bare (20_memory R212). -/
def Context.gscidTag (c : Context) : Option (BitVec 16) := if c.dc.gBare then none else some c.dc.gscid

/-- The cached first-stage copies that match the tags and contain the IOVA, each with its global mark: global mappings
serve every PSCID of the same GSCID (R309); the tag is the identifiers only (20_memory R217). -/
def firstCopies (g : Option (BitVec 16)) (ps : BitVec 20) (va : Nat) : List CacheEntry → List (PteCopy × Bool)
  | [] => []
  | .first eg ep gl p :: rest =>
    if eg == g && (gl || ep == ps) && p.contains va then (p, gl) :: firstCopies g ps va rest else firstCopies g ps va rest
  | .combined eg ep gl p _ :: rest =>
    if some eg == g && (gl || ep == ps) && p.contains va then (p, gl) :: firstCopies g ps va rest
    else firstCopies g ps va rest
  | _ :: rest => firstCopies g ps va rest

/-- The IOVA is outside the scheme (R306): `SXL`=1 wants bits 63:32 zero, the others a sign extension. -/
def badIova (m : Scheme) (sxl : Bool) (va : Nat) : Bool :=
  if sxl then decide (2 ^ 32 ≤ va)
  else
    let top := va / 2 ^ (m.addrBits - 1)
    !(top == 0 || top == 2 ^ (65 - m.addrBits) - 1)

/-- The second stage's answer to the update of a first-stage PTE at guest address `gpa`, read at `spa`: the supervisor
address to write to (R313). Where it is a guest page fault, and an ATS request needs the update for `D` only, `none`: the
update is not made and write is withheld, or the fault stands, by free choice (assumption 36). -/
def permitUpdate (s : State) (c : Context) (gpa spa : Nat) (setA : Bool) : Proc (Option Nat) :=
  if c.dc.gBare then return some spa
  else
    handling (do return some (← secondStage s c gpa .implicitWrite).addr) fun e => do
      if !setA && !c.demand.faultsOnD && e.cause == guestPageFaultCause c.orig then
        let k ← choose 2
        if k == 0 then throw e else return none
      else throw e

/-- A first-stage PTE at guest address `gpa` is read at supervisor address `spa` and interpreted; its A/D update is made
where the second stage permits the write (R313), if the PTE there is still the one that was read, and else the walk
restarts from its read there (R320, `atomic_update_AD`; assumption 35). -/
def visitFirst (s : State) (c : Context) (g : Stage) (global : Bool) (i gpa spa : Nat) : Proc Visit := do
  let pte ← readPte s c g spa
  visitPte s c g global i pte fun setD => do
    match ← permitUpdate s c gpa spa (!pteA pte) with
    | none => return .withheld
    | some a =>
      match ← updatePte s c g a pte setD with
      | some new => return .done new
      | none => return .restarted (← visit s c g global i a)

/-- The levels of a first-stage walk from level `i` down, `fuel` = `i + 1`; `a` is the table's address, a guest
physical one when the second stage is not Bare (R316); `global` says a PTE above had `G`=1 (R309). -/
def firstLevels (s : State) (c : Context) (f : FirstStage) (m : Scheme) (va : Nat) :
    Nat → Nat → Bool → Proc Leaf
  | 0, _, _ => pageFault c
  | i + 1, a, global => do
    let w ← get
    let copies := (firstCopies c.gscidTag f.pscid va w.ioatc).filter (fun q => q.1.level == i && !q.1.leaf)
    let k ← choose (copies.length + 1)
    match elementAt copies k with
    | some q => firstLevels s c f m va i (ptePpn q.1.pte * 4096) (global || q.2)
    | none =>
      let gpa := a + m.vpn va i * m.pteBytes
      let spa ← if i + 1 == m.levels then resolvePointer s c f.owner f.pointer a (gpa - a) gpa
        else (do return (← secondStage s c gpa .implicitRead).addr)
      match ← visitFirst s c (firstWalk c m va) global i gpa spa with
      | .leaf leaf pte =>
        let copy : PteCopy := ⟨pte, i, va / 2 ^ leaf.sizeLog2 * 2 ^ leaf.sizeLog2, leaf.sizeLog2, true⟩
        note s (.first c.gscidTag f.pscid leaf.global copy)
        return { leaf with copy := some copy }
      | .next pte =>
        let size := m.pageLog2 i
        note s (.first c.gscidTag f.pscid (global || pteG pte) ⟨pte, i, va / 2 ^ size * 2 ^ size, size, false⟩)
        firstLevels s c f m va i (ptePpn pte * 4096) (global || pteG pte)

/-- The first stage of one IOVA (45 R517): the identity when Bare; the width check of R306; then a cached leaf copy or
the walk. -/
def firstStage (s : State) (c : Context) (f : FirstStage) (va : Nat) : Proc Leaf :=
  match firstScheme c.dc.sxl f.mode with
  | none => return Leaf.bare va
  | some m => lookup <| counted .first do
    if badIova m c.dc.sxl va then pageFault c
    else
      let w ← get
      let copies := (firstCopies c.gscidTag f.pscid va w.ioatc).filter (fun q =>
        q.1.leaf && copyUsable (c.dc.sade && !c.skipUpdate) ((firstPerms q.1.pte c.supervisor c.sum).needsD c.demand) q.1)
      let k ← choose (copies.length + 1)
      match elementAt copies k with
      | some q =>
        -- a usable copy needs no update (20_memory R218), and a leaf gives no next level
        match ← visitLeaf c (firstWalk c m va) q.2 q.1.pte q.1.level q.1.sizeLog2 false (fun _ => pageFault c) with
        | .leaf leaf _ => return { leaf with copy := some q.1 }
        | .next _ => pageFault c
      | none => firstLevels s c f m va m.levels (f.ppn * 4096) false

end Sys2Proof.Machine
end

