-- ==== Sys2Proof/Machine/Directory.lean ====
section
/-! DEFINITION. Locating the device context and the process context (45_translation_process R520 to R533). -/

namespace Sys2Proof.Machine

/-! ## The device context (45 R520, R522, R523) -/

/-- The cached copies of the non-leaf DDT entry at level `i` on the path of a device: the entry is shared by every
device with the same upper indices (45 R523). -/
def ddteCopies (extended : Bool) (did : BitVec 24) (i : Nat) : List CacheEntry → List DWord
  | [] => []
  | .ddte d l v :: rest =>
    if l == i && d.toNat / 2 ^ ddiShift extended i == did.toNat / 2 ^ ddiShift extended i then
      v :: ddteCopies extended did i rest
    else ddteCopies extended did i rest
  | _ :: rest => ddteCopies extended did i rest

/-- The cached device contexts of a device (20_memory R212), each with the pointer it carries. -/
def dcCopies (did : BitVec 24) : List CacheEntry → List (DeviceContext × Option Nat)
  | [] => []
  | .dc d v p :: rest => if d == did then (v, p) :: dcCopies did rest else dcCopies did rest
  | _ :: rest => dcCopies did rest

/-- The size of a DC in bytes (21_data_structures R237). -/
def dcSize (s : State) : Nat := if s.cfg.msiFlat then 64 else 32

/-- The DC whose doublewords stand in memory at `addr`; the base format has four (21_data_structures R238). -/
def loadDc (s : State) (m : Memory) (addr : Nat) : DeviceContext :=
  let dw := fun (k : Nat) => m.read64 (addr + 8 * k) s.fctl.be
  if s.cfg.msiFlat then ⟨dw 0, dw 1, dw 2, dw 3, dw 4, dw 5, dw 6, dw 7⟩
  else ⟨dw 0, dw 1, dw 2, dw 3, 0#64, 0#64, 0#64, 0#64⟩

/-- What the DC at `addr` may stop the process with before its other doublewords are read: with `V`=0 they need not be
read at all (45 R522). The first one is read by the accesses that hold it (20_memory R195). -/
def earlyInvalid (s : State) (addr : Nat) (m : Memory) : List Nat :=
  let b := accessBytes s.cfg (dcSize s)
  if (List.range (max b 8 / b)).all (fun k => check s.cfg (addr + b * k) b .read == .ok) &&
      !(m.read64 addr s.fctl.be).getLsbD 0 then [258]
  else []

/-- The page of the table that a context's `fsc` points to, if its `MODE` is not Bare (21_data_structures R257). -/
def tableOf (mode ppn : Nat) : Option Nat := if mode == 0 then none else some (ppn * 4096)

/-- A context for the second stage of an access that no request makes: the pointer of a DC or PC translated as it is
cached. -/
def cachingContext (did : BitVec 24) (d : DeviceContext) (skipUpdate : Bool) : Context :=
  ⟨d, did, .read, .exercise .read, false, false, skipUpdate⟩

/-- Steps 8 to 11: the DC in the leaf page at `a`, its doublewords read in any order. It is noted where what it was read for
is no fault by it, as `allowed` says: only a copy that was used without fault may serve later (20_memory R211, R213). -/
def readDc (s : State) (did : BitVec 24) (skipUpdate : Bool) (allowed : DeviceContext → Bool) (a : Nat) :
    Proc DeviceContext := do
  let addr := a + ddi s.cfg.msiFlat did 0 * dcSize s
  let m ← readStructure s .ddt addr (dcSize s) 257 268 (earlyInvalid s addr)
  let d := loadDc s m addr
  if !d.valid then raise 258
  else if d.misconfigured s.cfg s.fctl then raise 259
  else
    if allowed d then noteContext s (cachingContext did d skipUpdate) (.dc did d) (tableOf d.fscMode d.fscPpn)
    return d

/-- Steps 2 to 7: the levels from `i` down, `a` the table's address. -/
def ddtLevels (s : State) (did : BitVec 24) (skipUpdate : Bool) (allowed : DeviceContext → Bool) :
    Nat → Nat → Proc DeviceContext
  | 0, a => readDc s did skipUpdate allowed a
  | i + 1, a => do
    let w ← get
    let copies := ddteCopies s.cfg.msiFlat did (i + 1) w.ioatc
    let k ← choose (copies.length + 1)
    match elementAt copies k with
    | some e => ddtLevels s did skipUpdate allowed i (directoryPpn e * 4096)
    | none =>
      let v ← implicitRead s .ddt (a + ddi s.cfg.msiFlat did (i + 1) * 8) 8 s.fctl.be 257 268
      let e := BitVec.ofNat 64 v
      if !e.getLsbD 0 then raise 258
      else if directoryReserved e then raise 259
      else if s.cfg.pasCheck && tooWidePpn s.cfg (directoryPpn e) then raise 259
      else
        note s (.ddte did (i + 1) e)
        ddtLevels s did skipUpdate allowed i (directoryPpn e * 4096)

/-- `locate_DC` (45 R522) under the directory pointer in use: a cached DC with the pointer it carries, or the walk. What
the located DC says of fault reporting, of the GSCID and of `T2GPA` is noted (60_exceptions R672, D23, 47_ats_pri
R593). `skipUpdate`: a debug request that makes no A/D updates (48_debug_interface R638); `allowed`: the DC allows what it
is located for. -/
def locateDc (s : State) (p : DdtPointer) (did : BitVec 24) (skipUpdate : Bool) (allowed : DeviceContext → Bool) :
    Proc (DeviceContext × Option Nat) := do
  let w ← get
  let copies := dcCopies did w.ioatc
  let k ← choose (copies.length + 1)
  let d ← match elementAt copies k with
    | some d => pure d
    | none => do
      let d ← lookup <| counted .ddt do
        if s.cfg.pasCheck && tooWidePpn s.cfg p.ppn.toNat then raise 259
        else ddtLevels s did skipUpdate allowed (topLevel p.mode) (p.ppn.toNat * 4096)
      pure (d, none)
  modify fun w =>
    { w with dtf := d.1.dtf, t2gpa := d.1.t2gpa, gscid := if d.1.gBare then none else some d.1.gscid }
  return d

/-! ## The process context (45 R530, R532, R533) -/

/-- The cached copies of the non-leaf PDT entry at level `i` on the path of a process, each with the process it was read
for and the pointer it carries. -/
def pdteCopies (did : BitVec 24) (pid : BitVec 20) (i : Nat) :
    List CacheEntry → List (DWord × BitVec 20 × Option Nat)
  | [] => []
  | .pdte d p l v q :: rest =>
    if d == did && l == i && p.toNat / 2 ^ pdiShift i == pid.toNat / 2 ^ pdiShift i then
      (v, p, q) :: pdteCopies did pid i rest
    else pdteCopies did pid i rest
  | _ :: rest => pdteCopies did pid i rest

/-- The cached process contexts of a process of a device, each with the pointer it carries. -/
def pcCopies (did : BitVec 24) (pid : BitVec 20) : List CacheEntry → List (ProcessContext × Option Nat)
  | [] => []
  | .pc d p v q :: rest => if d == did && p == pid then (v, q) :: pcCopies did pid rest else pcCopies did pid rest
  | _ :: rest => pcCopies did pid rest

/-- A supervisor request may not use the process (45 R515). -/
def Context.barred (c : Context) (p : ProcessContext) : Bool := c.supervisor && !p.ens

/-- Steps 9 to 12: the PC in the leaf page whose supervisor address is `a`, its two doublewords read in either order. It is
noted where its use is no fault by it (20_memory R211, R213). -/
def readPc (s : State) (c : Context) (pid : BitVec 20) (a : Nat) : Proc ProcessContext := do
  let addr := a + pdi pid 0 * 16
  let m ← readStructure s .pdt addr 16 265 269 (fun _ => [])
  let p : ProcessContext := ⟨m.read64 addr c.dc.sbe, m.read64 (addr + 8) c.dc.sbe⟩
  if !p.valid then raise 266
  else if p.misconfigured s.cfg c.dc then raise 267
  else
    if !c.barred p then noteContext s c (.pc c.did pid p) (tableOf p.fscMode p.fscPpn)
    return p

/-- Steps 2 to 8: the levels from `i` down; `a` is the table's address, a guest one when the second stage is not Bare,
held by the directory entry `o` whose cached copy carries the pointer `q`. The table is translated first, with the fault,
the `A` update and the event that this may have, and then a cached copy of its entry may serve in place of the read: whether
such a copy spares that translation, as it does in a first-stage walk here, the spec does not say (DESIGN CHOICE, assumption
42). -/
def pdtLevels (s : State) (c : Context) (pid : BitVec 20) :
    Nat → Nat → DirectoryEntry → Option Nat → Proc ProcessContext
  | 0, a, o, q => do readPc s c pid (← resolvePointer s c o q a 0 a)
  | i + 1, a, o, q => do
    let spa ← resolvePointer s c o q a 0 a
    let w ← get
    let copies := pdteCopies c.did pid (i + 1) w.ioatc
    let k ← choose (copies.length + 1)
    match elementAt copies k with
    | some (v, p, q') => pdtLevels s c pid i (directoryPpn v * 4096) (.pdte c.did p (i + 1) v) q'
    | none =>
      let v ← implicitRead s .pdt (spa + pdi pid (i + 1) * 8) 8 c.dc.sbe 265 269
      let e := BitVec.ofNat 64 v
      if !e.getLsbD 0 then raise 266
      else if directoryReserved e then raise 267
      else if s.cfg.pasCheck && c.dc.gBare && tooWidePpn s.cfg (directoryPpn e) then raise 267
      else
        note s (.pdte c.did pid (i + 1) e none)
        pdtLevels s c pid i (directoryPpn e * 4096) (.pdte c.did pid (i + 1) e) none

/-- `locate_PC` (45 R533): a cached PC with the pointer it carries, or the walk, whose root pointer the DC holds; `q` is
what the cached copy of the DC in use carries. `pdtp.MODE` 1, 2, 3 has that many levels. -/
def locatePc (s : State) (c : Context) (q : Option Nat) (pid : BitVec 20) : Proc (ProcessContext × Option Nat) := do
  let w ← get
  let copies := pcCopies c.did pid w.ioatc
  let k ← choose (copies.length + 1)
  match elementAt copies k with
  | some p => pure p
  | none => do
    let p ← lookup <| counted .pdt (pdtLevels s c pid (c.dc.fscMode - 1) (c.dc.fscPpn * 4096) (.dc c.did c.dc) q)
    pure (p, none)

end Sys2Proof.Machine
end

