-- ==== Sys2Proof/Machine/Msi.lean ====
section
/-! DEFINITION. The translation of MSI addresses and the MRIF store (46_msi_translation). -/

namespace Sys2Proof.Machine

/-- The bits of `x` at the positions `b, b+1, …` (`n` of them) where the mask has a one, packed at the low end
(46 R554). -/
def extractFrom (x mask : Nat) : Nat → Nat → Nat
  | _, 0 => 0
  | b, n + 1 =>
    if mask / 2 ^ b % 2 == 1 then x / 2 ^ b % 2 + 2 * extractFrom x mask (b + 1) n else extractFrom x mask (b + 1) n

/-- `extract(x, y)` on 52-bit page numbers (46 R554). -/
def extract (x mask : Nat) : Nat := extractFrom x mask 0 52

/-- `A` is the address of a virtual interrupt file: it matches the pattern wherever the mask is 0, as 52-bit page
numbers (46 R553). -/
def isMsiAddr (d : DeviceContext) (a : Nat) : Bool :=
  let page := BitVec.ofNat 52 (a / 4096)
  (page &&& ~~~d.addrMask) == (d.addrPattern &&& ~~~d.addrMask)

/-- The destination of an MRIF-mode MSI PTE (46 R561). -/
structure MrifTarget where
  mrifAddr : Nat
  noticeAddr : Nat
  noticeData : BitVec 32
deriving DecidableEq, Repr

/-- What a valid MSI PTE says. -/
inductive MsiResult where
  /-- basic-translate mode: the supervisor address (46 R560) -/
  | basic (spa : Nat)
  | mrif (t : MrifTarget)
deriving DecidableEq, Repr

/-- The device that tags the MSI PTEs read under a context: none, so that the `GSCID` does, unless the second stage is Bare,
when `GSCID` is no tag (46 R556, 21_data_structures R248). -/
def Context.msiDevice (c : Context) : Option (BitVec 24) := if c.dc.gBare then some c.did else none

/-- A cached MSI PTE with these tags serves a context: both are tagged by the same device, or both by the same GSCID
(46 R556, 20_memory R212). -/
def Context.ownsMsi (c : Context) (gscid : BitVec 16) (device : Option (BitVec 24)) : Bool :=
  device == c.msiDevice && (device.isSome || gscid == c.dc.gscid)

/-- The cached MSI PTEs of a context and a guest page (46 R556). -/
def msiCopies (c : Context) (page : Nat) : List CacheEntry → List (DWord × DWord)
  | [] => []
  | .msi g d p a b :: rest =>
    if c.ownsMsi g d && p == page then (a, b) :: msiCopies c page rest else msiCopies c page rest
  | _ :: rest => msiCopies c page rest

/-- The destination of an MRIF-mode PTE (46 R561 (c) to (e)). -/
def mrifTarget (dw0 dw1 : DWord) : MrifTarget :=
  ⟨(dw0.extractLsb' 7 47).toNat * 512, (dw1.extractLsb' 10 44).toNat * 4096,
   (0#21 ++ dw1.extractLsb' 60 1 ++ dw1.extractLsb' 0 10)⟩

/-- Steps 9 to 14 on the two doublewords of an MSI PTE (46 R557 to R561); `debug` replaces the MRIF steps by cause 260
(48_debug_interface R635). -/
def interpretMsi (s : State) (a : Nat) (debug : Bool) (dw0 dw1 : DWord) : Proc MsiResult :=
  if !dw0.getLsbD 0 then raise 262
  else if dw0.getLsbD 63 then raise 263
  else if dw0.extractLsb' 1 2 == 3#2 then
    if msiBasicReserved dw0 then raise 263
    else return .basic ((dw0.extractLsb' 10 44).toNat * 4096 + a % 4096)
  else if dw0.extractLsb' 1 2 == 1#2 then
    if !s.cfg.msiMrif then raise 263
    else if msiMrifReserved dw0 dw1 then raise 263
    else if debug then raise 260
    else return .mrif (mrifTarget dw0 dw1)
  else raise 263

/-- An MSI PTE is used for address `a`: interpreted, and then, where `exec` says that the request is an untranslated or
translated read-for-execute, the fault of such a request (46 R562). -/
def useMsiPte (s : State) (a : Nat) (exec debug : Bool) (dw0 dw1 : DWord) : Proc MsiResult := do
  let r ← interpretMsi s a debug dw0 dw1
  if exec then raise 1 else return r

/-- Steps 7 to 14: the MSI PTE of guest page `page` is read from the table and used for address `a` (46 R555, R556). It is
noted once it was used without fault (20_memory R211, R213). -/
def readMsiPte (s : State) (c : Context) (page a : Nat) (exec debug : Bool) : Proc MsiResult := do
  let addr := (c.dc.msiPpn * 4096) ||| (extract page c.dc.addrMask.toNat * 16)
  let m ← readStructure s .msi addr 16 261 270 (fun _ => [])
  let dw0 := m.read64 addr s.fctl.be
  let dw1 := m.read64 (addr + 8) s.fctl.be
  let r ← useMsiPte s a exec debug dw0 dw1
  note s (.msi c.dc.gscid c.msiDevice page dw0 dw1)
  return r

/-- The MSI sub-process for an address of a virtual interrupt file (46 R551), with a cached copy of its MSI PTE or the one
in the table: `exec` says the request is an untranslated or translated read-for-execute (R562). -/
def msiTranslate (s : State) (c : Context) (a : Nat) (exec debug : Bool) : Proc MsiResult := do
  let w ← get
  let copies := msiCopies c (a / 4096) w.ioatc
  let k ← choose (copies.length + 1)
  match elementAt copies k with
  | some e => useMsiPte s a exec debug e.1 e.2
  | none => lookup (readMsiPte s c (a / 4096) a exec debug)

/-- The verdicts of the accesses to an MRIF (46 R567): cause 264 or 271, where both are possible by free choice. -/
def accessMrif (s : State) (addr n : Nat) (k : CheckKind) : Proc Unit := raiseOne (accessCauses s.cfg addr n k 264 271)

/-- Bytes are stored by `n` accesses of `b` bytes each, the one at the lowest address first (assumption 38), which other
agents may come between; an access fault is `cause` and stops them. -/
def storePieces (s : State) (b cause : Nat) : Nat → Nat → List Byte → Proc Unit
  | 0, _, _ => return ()
  | n + 1, a, bytes =>
    if check s.cfg a b .write != .ok then raise cause
    else do
      let _ ← takeTurn
      modify fun w => { w with mem := w.mem.writeBytes a (bytes.take b) }
      storePieces s b cause n (a + b) (bytes.drop b)

/-- The doubleword of an MRIF at `p` is read. -/
def readMrif (s : State) (p : Nat) : Proc DWord := do
  accessMrif s p 8 .read
  let m ← readAt s p 8
  return m.read64 p false

/-- The pending bit `b` of the doubleword at `p` is set by an atomic access (`AMO_MRIF`), or by a read and a write of their
own (46 R567), between which a bit that another agent sets is lost. The atomic access is one of 8 bytes whatever
`ATOMIC_SIZE` (20_memory R198). -/
def setPendingBit (s : State) (p b : Nat) : Proc Unit := do
  if s.cfg.amoMrif then
    match check s.cfg p 8 .atomic with
    | .ok =>
      let _ ← takeTurn
      modify fun w => { w with mem := w.mem.write64 p (w.mem.read64 p false ||| BitVec.ofNat 64 (2 ^ b)) false }
    | .accessFault => raise 264
    | .poisoned => raise 271
  else
    let old ← readMrif s p
    let n := accessBytes s.cfg 8
    storePieces s n 264 (8 / n) p (toBytes false 8 (old ||| BitVec.ofNat 64 (2 ^ b)).toNat)

/-- `mrif_store` (46 R567): sets the pending bit of identity `D`, and sends the notice MSI if the identity is enabled.
An identity above 2047 is dropped. The MRIF doublewords are little-endian (D30); the notice, whose byte order R567 does
not give and 20_memory R188 leaves to the AIA, is little-endian by the model's choice (assumption 37). -/
def mrifStore (s : State) (t : MrifTarget) (data : BitVec 32) : Proc Unit := do
  let id := data.toNat
  if 2047 < id then return ()
  else
    let p := t.mrifAddr + id / 64 * 16
    setPendingBit s p (id % 64)
    let enabled ← readMrif s (p + 8)
    if enabled.getLsbD (id % 64) then
      accessMrif s t.noticeAddr 4 .write
      let _ ← takeTurn
      modify fun w => { w with mem := w.mem.write32 t.noticeAddr t.noticeData false }
    else return ()

end Sys2Proof.Machine
end

