-- ==== Sys2Proof/Machine/FaultQueue.lean ====
section
/-! DEFINITION. Reporting a fault (60_exceptions R670 to R676) and the fault-queue writer (R680 to R684). -/

namespace Sys2Proof.Machine

/-- The cause is reported even when `DC.tc.DTF` is 1 (60 R651, last column). -/
def reportedWithDtf (cause : Nat) : Bool :=
  cause == 256 || cause == 257 || cause == 258 || cause == 259 || cause == 268 || cause == 272 || cause == 273

/-- The causes an ATS translation request answers with Success and never logs (60 R652, 47_ats_pri R583). -/
def atsSilent (cause : Nat) : Bool :=
  cause == 12 || cause == 13 || cause == 15 || cause == 20 || cause == 21 || cause == 23 || cause == 262 || cause == 266

/-- A value reported in `iotval`: the page offset is kept or cleared (60 R664). -/
def reportedIova (c : Config) (v : DWord) : DWord := if c.iotvalOffset then v else v &&& ~~~0xFFF#64

/-- `TTYP` of a request (60 R660). -/
def Request.ttyp (r : Request) : BitVec 6 :=
  match r.type, r.kind with
  | .untranslated, .exec => 1#6
  | .untranslated, .read => 2#6
  | .untranslated, _ => 3#6
  | .translated, .exec => 5#6
  | .translated, .read => 6#6
  | .translated, _ => 7#6
  | .atsRequest, _ => 8#6

/-- The record of a fault of a transaction (60 R661 to R666): without a `process_id`, `PID` and `PRIV` are 0. -/
def faultRecord (cause : Nat) (iotval2 : DWord) (ttyp : BitVec 6) (did : BitVec 24) (pid : Option (BitVec 20))
    (priv : Bool) (iotval : DWord) : FaultRecord :=
  { cause := BitVec.ofNat 12 cause
    pid := pid.getD 0#20
    pv := pid.isSome
    priv := pid.isSome && priv
    ttyp := ttyp
    did := did
    iotval := iotval
    iotval2 := iotval2 }

/-- A record is offered to the fault queue: while the queue is off it is lost (60 R684, D17), else it waits for the
writer (10_state R115). Whether a record decided while `fqof` or `fqmf` is 1 is discarded then or when the writer takes
it the spec leaves open: the model discards it when the writer takes it, so one still waiting when software clears the
bit is written (DESIGN CHOICE, assumption 21). -/
def State.offerRecord (s : State) (r : FaultRecord) : State :=
  if s.fqcsr.fqon then { s with faults := s.faults ++ [r] } else s

/-- `report` (60 R671) for a transaction whose device context says `dtf` (R672). -/
def State.reportFault (s : State) (cause : Nat) (dtf : Bool) (r : FaultRecord) : State :=
  if dtf && !reportedWithDtf cause then s else s.offerRecord r

/-- The four doublewords of a record (60 R661). -/
def FaultRecord.dwords (r : FaultRecord) : List DWord :=
  [r.did ++ r.ttyp ++ flag r.priv ++ flag r.pv ++ r.pid ++ r.cause, 0#64, r.iotval, r.iotval2]

/-- The bytes of doublewords at ascending addresses (20_memory R187). -/
def dwordBytes (be : Bool) : List DWord → List Byte
  | [] => []
  | d :: ds => toBytes be 8 d.toNat ++ dwordBytes be ds

/-- Storing doublewords one after the other; the first access fault stops, with those before it written
(60 R681, R683). -/
def storeDwords (c : Config) (be : Bool) (m : Memory) (a : Nat) : List DWord → Memory × Bool
  | [] => (m, true)
  | d :: ds =>
    match storeDword c be m a d with
    | (m', true) => storeDwords c be m' (a + 8) ds
    | (m', false) => (m', false)

/-- `FQ_write` (60 R681): lost when the queue is off, discarded while `fqof` or `fqmf` is 1; full sets `fqof`; a refused
store sets `fqmf`; otherwise the record is written before `fqt` moves. -/
def State.writeRecord (s : State) (r : FaultRecord) : State :=
  if !s.fqcsr.fqon then s
  else if s.fqcsr.fqof || s.fqcsr.fqmf then s
  else if s.fqFull then { s with fqcsr := { s.fqcsr with fqof := true } }.raiseFip
  else
    let (m, ok) := storeDwords s.cfg s.fctl.be s.mem (s.fqb.entryAddr 32 s.fqt) r.dwords
    if ok then { s with mem := m, fqt := s.fqb.next s.fqt }.raiseFip
    else { s with mem := m, fqcsr := { s.fqcsr with fqmf := true } }.raiseFip

/-- The writer takes pending record `k` (60 R702: any order). -/
def State.writeFault (s : State) (k : Nat) : State :=
  match elementAt s.faults k with
  | some r => { s with faults := removeAt s.faults k }.writeRecord r
  | none => s

/-- Two records of an identical fault: the page of `iotval` counts, not its offset (60 R676). -/
def FaultRecord.same (a b : FaultRecord) : Bool :=
  a.cause == b.cause && a.ttyp == b.ttyp && a.did == b.did && a.pv == b.pv && a.pid == b.pid && a.priv == b.priv &&
  a.iotval.extractLsb' 12 52 == b.iotval.extractLsb' 12 52

/-- The record stored in the fault queue at an index, as the IOMMU wrote it (60 R661). -/
def State.storedRecord (s : State) (i : BitVec 32) : FaultRecord :=
  let a := s.fqb.entryAddr 32 i
  let d0 := s.mem.read64 a s.fctl.be
  { cause := d0.extractLsb' 0 12
    pid := d0.extractLsb' 12 20
    pv := d0.getLsbD 32
    priv := d0.getLsbD 33
    ttyp := d0.extractLsb' 34 6
    did := d0.extractLsb' 40 24
    iotval := s.mem.read64 (a + 16) s.fctl.be
    iotval2 := s.mem.read64 (a + 24) s.fctl.be }

/-- An identical record is among the next `n` entries from index `i`. -/
def State.queuedSame (s : State) (r : FaultRecord) (i : BitVec 32) : Nat → Bool
  | 0 => false
  | n + 1 => (s.storedRecord i).same r || s.queuedSame r (s.fqb.next i) n

/-- The number of records software has not consumed. -/
def State.fqCount (s : State) : Nat := (s.fqt.toNat + s.fqb.entries - s.fqh.toNat) % s.fqb.entries

/-- Pending record `k` is dropped where the spec allows it: while the queue is being turned off (60 R684), or when an
identical record was reported and is not consumed (60 R676, U32). -/
def State.dropFault (s : State) (k : Nat) : State :=
  match elementAt s.faults k with
  | some r =>
    if (s.fqcsr.busy && !s.fqcsr.fqen) || s.queuedSame r s.fqh s.fqCount then
      { s with faults := removeAt s.faults k }
    else s
  | none => s

end Sys2Proof.Machine
end

