-- ==== Sys2Proof/Machine/Hpm.lean ====
section
/-! DEFINITION. The hardware performance monitor (11_state_hpm_debug R130 to R147). -/

namespace Sys2Proof.Machine

/-- The transaction an event is counted for: its identifiers, valid or not (11 R141, D23). -/
structure HpmIds where
  deviceId : BitVec 24
  processId : Option (BitVec 20)
  gscid : Option (BitVec 16)
  pscid : Option (BitVec 20)
deriving DecidableEq, Repr

/-- The number of one bits below the lowest zero of `d`, looking at `n` bits. -/
def trailingOnes (d : Nat) : Nat → Nat
  | 0 => 0
  | n + 1 => if d % 2 == 1 then 1 + trailingOnes (d / 2) n else 0

/-- The match of `DID_GSCID` (11 R143): equality, or with `DMASK` equality above the lowest 0 bit; all ones match
everything (D25). -/
def didMatch (e : HpmEvent) (id : Nat) : Bool :=
  let d := e.didGscid.toNat
  if !e.dmask then id == d
  else
    let k := trailingOnes d 24 + 1
    id / 2 ^ k == d / 2 ^ k || k == 25

/-- The ID filter (11 R141, Table 15). -/
def idFilter (e : HpmEvent) (t : HpmIds) : Bool :=
  let did := if e.idt then t.gscid.map BitVec.toNat else some t.deviceId.toNat
  let pid := if e.idt then t.pscid else t.processId
  (!e.dvGscv || (match did with | some d => didMatch e d | none => false)) &&
  (!e.pvPscv || (match pid with | some p => p == e.pidPscid | none => false))

/-- The event supports the programmed `IDT` (11 R144, R145): events 1, 2, 3, 5 and 6 only 0. -/
def idtSupported (event : Nat) (idt : Bool) : Bool := !idt || event == 4 || event == 7 || event == 8

/-- One event `event` of transaction `t` makes counter `n` (from 0) increment (11 R137). -/
def State.counts (s : State) (n : Fin 31) (event : Nat) (t : HpmIds) : Bool :=
  let e := s.iohpmevt.get n
  s.cfg.hpm && decide (n.val < s.cfg.hpmCounters) && decide (0 < event) && e.eventId.toNat == event &&
  idtSupported event e.idt && idFilter e t && !s.iocountinh.getLsbD (n.val + 1)

/-- Counter `n` increments by one (11 R137): on overflow it wraps, and if `OF` was 0 it becomes 1 and `pmip` is set. -/
def State.incrementCounter (s : State) (n : Fin 31) : State :=
  let v := (s.iohpmctr.get n).toNat
  if v + 1 == 2 ^ s.cfg.hpmWidth then
    let t := { s with iohpmctr := s.iohpmctr.set n 0#64 }
    let e := s.iohpmevt.get n
    if e.of then t else { t with iohpmevt := s.iohpmevt.set n { e with of := true } }.raisePmip
  else { s with iohpmctr := s.iohpmctr.set n (BitVec.ofNat 64 (v + 1)) }

/-- One event on the counters of a list. -/
def State.countOn (s : State) (event : Nat) (t : HpmIds) : List (Fin 31) → State
  | [] => s
  | n :: ns => (if s.counts n event t then s.incrementCounter n else s).countOn event t ns

/-- An event happens `k` times for a transaction. -/
def State.countEvent (s : State) (event : Nat) (t : HpmIds) : Nat → State
  | 0 => s
  | k + 1 => (s.countOn event t (List.finRange 31)).countEvent event t k

/-- The clock advances by `n` cycles (11 R134, R135, D21): nothing while inhibited; an overflow wraps and, if `OF` was
0, sets `OF` and `pmip`. -/
def State.advanceClock (s : State) (n : Nat) : State :=
  if !s.cfg.hpm || s.iocountinh.getLsbD 0 then s
  else
    let m := 2 ^ s.cfg.cyclesWidth
    let v := s.iohpmcycles.counter.toNat + n
    let c : HpmCycles := ⟨BitVec.ofNat 63 (v % m), s.iohpmcycles.of || decide (m ≤ v)⟩
    let t := { s with iohpmcycles := c }
    if decide (m ≤ v) && !s.iohpmcycles.of then t.raisePmip else t

/-- `iocountovf` (11 R131): the `OF` bits of the implemented counters. -/
def State.iocountovf (s : State) : Word :=
  (List.finRange 31).foldl
    (fun w n => if decide (n.val < s.cfg.hpmCounters) && (s.iohpmevt.get n).of then w ||| 1#32 <<< (n.val + 1) else w)
    (if s.iohpmcycles.of then 1#32 else 0#32)

/-- The HPM event of a request's type (11 R144 events 1 to 3). -/
def RequestType.hpmEvent : RequestType → Nat
  | .untranslated => 1
  | .translated => 2
  | .atsRequest => 3

/-- All events of one activation (11 R144, 45 R539): the request itself, a miss if any memory was read, and one per
walk that read memory. -/
def State.countActivation (s : State) (type : RequestType) (did : BitVec 24) (pid : Option (BitVec 20)) (w : Walk) :
    State :=
  let t : HpmIds := ⟨did, pid, w.gscid, w.pscid⟩
  let missed := decide (0 < w.ddtReads + w.pdtReads + w.firstReads + w.secondReads + w.msiReads)
  ((((((s.countEvent type.hpmEvent t 1).countEvent 4 t (if missed then 1 else 0)).countEvent 5 t w.ddtWalks).countEvent
    6 t w.pdtWalks).countEvent 7 t w.firstWalks).countEvent 8 t w.secondWalks)

end Sys2Proof.Machine
end

