-- ==== Sys2Proof/Machine/Translate.lean ====
section
/-! DEFINITION. The process to translate an IOVA (45_translation_process R524), the completion of ordinary and ATS requests (45 R525, R526; 47_ats_pri R583 to R598), and their effect on the machine. -/

namespace Sys2Proof.Machine

/-- The result of a successful activation: the address, the GPA it came from, what is granted, and how the completion
must be formed (22_page_tables R317). -/
structure Translated where
  spa : Nat
  gpa : Nat
  perms : Perms
  pbmt : BitVec 2
  sizeLog2 : Nat
  global : Bool
  /-- the MSI sub-process supplied the translation -/
  msi : Bool
  /-- `DC.tc.T2GPA` -/
  t2gpa : Bool
  mrif : Option MrifTarget
deriving DecidableEq, Repr

/-- The address given back unchanged (45 R502, R510). -/
def Translated.identity (a : Nat) : Translated := ⟨a, a, Perms.all, 0#2, 12, false, false, false, none⟩

/-- The original access type (22 R318; an ATS request: read-for-execute iff it has a PASID and asks for execute, D36). -/
def Request.orig (r : Request) : Acc :=
  if r.type == .atsRequest then (if r.kind == .exec && r.processId.isSome then .exec else .read) else r.kind.acc

/-- What the walks check for a request (22 R318, 47 R586). -/
def Request.demand (r : Request) : Demand :=
  if r.type == .atsRequest then .collect r.noWrite else .exercise r.kind.acc

/-- The privilege of a request: Supervisor only with a `process_id` of its own (45 R527). -/
def Request.supervisor (r : Request) : Bool := r.processId.isSome && r.privileged

/-- Which first-stage context a request uses (45 R511 to R516): `none` is Bare. -/
inductive FirstChoice where
  | bare
  | direct (f : FirstStage)
  | process (pid : BitVec 20)
deriving DecidableEq, Repr

/-- Steps 9 to 13 (45 R511 to R514): which first-stage context the device context and the request select; `q` is the
translated pointer that the cached copy of the DC in use carries. -/
def firstChoice (d : DeviceContext) (q : Option Nat) (r : Request) : FirstChoice :=
  if r.type == .translated then .bare
  else if !d.pdtv then .direct ⟨d.fscMode, d.fscPpn, d.pscid, .dc r.deviceId d, q⟩
  else
    match r.processId with
    | some p => if d.fscMode == 0 then .bare else .process p
    | none => if !d.dpe then .bare else if d.fscMode == 0 then .bare else .process 0#20

/-- Steps 14 to 16 (45 R514 to R516): the process context, the `ENS` check, and the first-stage configuration with its
`SUM`. -/
def firstConfig (s : State) (c : Context) (q : Option Nat) (choice : FirstChoice) : Proc (Option FirstStage × Bool) :=
  match choice with
  | .bare => return (none, false)
  | .direct f => return (some f, false)
  | .process pid => do
    let (p, pointer) ← locatePc s c q pid
    if c.barred p then raise 260
    else return (some ⟨p.fscMode, p.fscPpn, p.pscid, .pc c.did pid p, pointer⟩, p.sum)

/-- One of the values of `ddtp` an activation may use. -/
def choosePointer (s : State) (ps : List DdtPointer) : Proc DdtPointer := do
  let k ← choose ps.length
  return (elementAt ps k).getD s.ddtp

/-- Step 7 (45 R507): the transaction type is disallowed. -/
def disallowed (s : State) (d : DeviceContext) (r : Request) : Bool :=
  ((r.type == .translated || r.type == .atsRequest) && !d.enAts) ||
  (match r.processId with
   | some p => !d.pdtv || pidTooWide d.fscMode p
   | none => false) ||
  s.cfg.unsupportedTtyp.contains r.ttyp

/-- A combined entry is noted when both stages used leaf PTEs (41_cmd_iotinval R428). -/
def noteCombined (s : State) (c : Context) (pscid : BitVec 20) (l1 l2 : Leaf) : Proc Unit :=
  match s.cfg.combined, l1.copy, l2.copy with
  | true, some p, some q => lookup (note s (.combined c.dc.gscid pscid l1.global p q))
  | _, _, _ => return ()

/-- Step 17 (45 R517): the first stage; the PSCID is valid once a stage that is not Bare is entered (D23). -/
def firstOf (s : State) (c : Context) (f : Option FirstStage) (va : Nat) : Proc Leaf :=
  match f with
  | none => return Leaf.bare va
  | some f => do
    modify fun w => if f.mode != 0 then { w with pscid := some f.pscid } else w
    firstStage s c f va

/-- The PSCID a combined entry is tagged with. -/
def pscidOf : Option FirstStage → BitVec 20
  | none => 0#20
  | some f => f.pscid

/-- Step 18 for an address of a virtual interrupt file (45 R518): the MSI sub-process supplies the translation. -/
def msiStage (s : State) (c : Context) (l1 : Leaf) (exec debug : Bool) : Proc Translated := do
  modify fun w => { w with msi := true }
  let x ← msiTranslate s c l1.addr exec debug
  let perms : Perms := ⟨l1.perms.r, l1.perms.w, false⟩
  match x with
  | .basic spa => return ⟨spa, l1.addr, perms, l1.pbmt, 12, l1.global, true, c.dc.t2gpa, none⟩
  | .mrif t => return ⟨t.mrifAddr, l1.addr, perms, l1.pbmt, 12, l1.global, true, c.dc.t2gpa, some t⟩

/-- Step 19 (45 R519): the second stage of any other address. -/
def finalStage (s : State) (c : Context) (l1 : Leaf) (pscid : BitVec 20) : Proc Translated := do
  let l2 ← secondStage s c l1.addr .final
  noteCombined s c pscid l1 l2
  return ⟨l2.addr, l1.addr,
    ⟨l1.perms.r && l2.perms.r, l1.perms.w && l2.perms.w, l1.perms.x && l2.perms.x⟩,
    if l1.pbmt != 0#2 then l1.pbmt else l2.pbmt,
    min l1.sizeLog2 l2.sizeLog2, l1.global, false, c.dc.t2gpa, none⟩

/-- Steps 17 to 20 (45 R517 to R525): the first stage, then the MSI sub-process or the second stage. -/
def twoStages (s : State) (c : Context) (f : Option FirstStage) (r : Request) (debug : Bool) : Proc Translated := do
  let l1 ← firstOf s c f r.iova.toNat
  if s.cfg.msiFlat && c.dc.msiMode != 0 && isMsiAddr c.dc l1.addr then
    msiStage s c l1 (r.type != .atsRequest && r.kind == .exec) debug
  else finalStage s c l1 (pscidOf f)

/-- The answer to a translated request grants an access. -/
def Translated.grants (t : Translated) (r : Request) : Bool :=
  r.type != .atsRequest || t.mrif.isSome || t.perms.r || (t.perms.w && !r.noWrite)

/-- The entry is one of the directories: a DDT entry, a DC, a PDT entry or a PC (20_memory R212). -/
def CacheEntry.ofDirectory : CacheEntry → Bool
  | .ddte _ _ _ => true
  | .dc _ _ _ => true
  | .pdte _ _ _ _ _ => true
  | .pc _ _ _ _ => true
  | .first _ _ _ _ => false
  | .second _ _ => false
  | .msi _ _ _ _ _ => false
  | .combined _ _ _ _ _ => false

/-- Of the copies the activation has cached, only those of the directories stay: no PTE and no MSI PTE. -/
def Walk.forgetTranslations (w : Walk) : Walk :=
  { w with ioatc := w.ioatc.filter (fun e => e.ofDirectory || !w.added.contains e) }

/-- The fault is answered by a Success response with `R`=`W`=0 (47_ats_pri R583). -/
def Request.deniedBy (r : Request) (e : FaultInfo) : Bool := r.type == .atsRequest && atsSilent e.cause

/-- An activation whose answer is a Success response that grants no access leaves no translation cached, whether it
translated the address or faulted (47_ats_pri R585). -/
def cachedIfGranted (r : Request) (p : Proc Translated) : Proc Translated := fun w =>
  match p w with
  | .ok t w' => .ok t (if t.grants r then w' else w'.forgetTranslations)
  | .error e w' => .error e (if r.deniedBy e then w'.forgetTranslations else w')

/-- Steps 1 to 20 (45 R524), under one of the values of `ddtp` in `ps` (45 R538). -/
def translateSteps (s : State) (ps : List DdtPointer) (r : Request) (debug skipUpdate : Bool) : Proc Translated := do
  let p ← choosePointer s ps
  match p.mode with
  | .off => raise 256
  | .bare => if r.type == .untranslated then return Translated.identity r.iova.toNat else raise 260
  | _ =>
    if didTooWide s.cfg.msiFlat p.mode r.deviceId then raise 260
    else
      let (d, q) ← locateDc s p r.deviceId skipUpdate (fun d => !disallowed s d r)
      if disallowed s d r then raise 260
      else if r.type == .translated && !d.t2gpa then return Translated.identity r.iova.toNat
      else
        let c : Context := ⟨d, r.deviceId, r.orig, r.demand, r.supervisor, false, skipUpdate⟩
        let (f, sum) ← firstConfig s c q (firstChoice d q r)
        twoStages s { c with sum := sum } f r debug

/-- `translate(req)` (45 R524). `debug` marks a request of the debug interface (48_debug_interface), and `skipUpdate` one
that performs no A/D update (48 R638). -/
def translate (s : State) (ps : List DdtPointer) (r : Request) (debug skipUpdate : Bool) : Proc Translated :=
  cachedIfGranted r (translateSteps s ps r debug skipUpdate)

/-! ## What an activation leaves (20_memory R211, R213) -/

/-- The memory, the draws and the cached copies an activation leaves, whether it succeeded or faulted: those of its lookups
that succeeded are cached. -/
def State.absorb (s : State) (w : Walk) : State := { s with mem := w.mem, draws := w.draws, ioatc := w.ioatc }

/-! ## Completions -/

/-- A completion is returned. -/
def State.complete (s : State) (c : Completion) : State := { s with completions := s.completions ++ [c] }

/-- A device access is released by a completed translation (42_cmd_iofence R443). -/
def State.release (s : State) (r : Request) : State :=
  { s with accesses := s.accesses ++ [⟨r.tag, r.kind == .write || r.kind == .amo⟩] }

/-- The answer to an ATS request that faults (47 R583, R584). -/
inductive AtsFailure where
  | success
  | completerAbort
  | unsupportedRequest
deriving DecidableEq, Repr

def atsFailure (cause : Nat) : AtsFailure :=
  if atsSilent cause then .success
  else if cause == 256 || cause == 257 || cause == 258 || cause == 259 || cause == 260 || cause == 268 then
    .unsupportedRequest
  else .completerAbort

/-- One draw of an address, size and `CXL.io` bit for a completion that leaves them UNSPECIFIED. -/
def State.nextDraw (s : State) : State := { s with draws := s.draws + 1 }

/-- The `CXL.io` field (47 R593): 0 for a device that is not CXL; 1 for an MSI page, with `T2GPA`, or for an NC or IO
page; otherwise a free bit. -/
def cxlIo (s : State) (r : Request) (known : Bool) : Bool :=
  r.cxl && (known || Config.freeBit s.draws)

/-- The Success completion of a request that gets no access (47 R583, R585): address and size are free. -/
def noAccess (s : State) (r : Request) (global known : Bool) : AtsSuccess :=
  { address := Config.freeAddress s.draws
    sizeLog2 := Config.freeSize s.draws
    r := false, w := false, exe := false, u := false
    priv := r.supervisor
    n := false
    global := global
    cxlIo := cxlIo s r known
    ama := 0#3 }

/-- The reported size (47 R591, U15): any power of two from 4 KiB to the actual size; `k` chooses. -/
def reportedLog2 (actual k : Nat) : Nat := if actual ≤ 12 then 12 else 12 + k % (actual - 11)

/-- The Success completion of a translated ATS request (47 R590 to R596). -/
def atsCompletion (s : State) (r : Request) (t : Translated) : AtsSuccess :=
  let known := t.msi || t.t2gpa || (s.cfg.svpbmt && t.pbmt != 0#2)
  let global := t.global && r.processId.isSome && !t.msi
  match t.mrif with
  | some _ =>
    { address := Config.freeAddress s.draws, sizeLog2 := 12, r := true, w := true, exe := false, u := true
      priv := r.supervisor, n := false, global := false, cxlIo := cxlIo s r known, ama := 0#3 }
  | none =>
    let rd := t.perms.r
    let wr := t.perms.w && !r.noWrite
    if !rd && !wr then noAccess s r global known
    else
      let k := reportedLog2 t.sizeLog2 (if t.sizeLog2 ≤ 12 then 0 else Config.freeChoice s.draws)
      let a := if t.t2gpa then t.gpa else t.spa
      { address := BitVec.ofNat 64 (a / 2 ^ k * 2 ^ k)
        sizeLog2 := k
        r := rd
        w := wr
        exe := t.perms.x && rd && r.processId.isSome && r.kind == .exec
        u := false
        priv := r.supervisor
        n := false
        global := global
        cxlIo := cxlIo s r known
        ama := 0#3 }

/-- The fault of a request is answered (60 R675, 47 R583) and reported (60 R671). `known` says that `CXL.io` of a
Success answer is determined before the fault (47 R593). -/
def State.failRequest (s : State) (r : Request) (dtf known : Bool) (e : FaultInfo) : State :=
  let record := faultRecord e.cause e.iotval2 r.ttyp r.deviceId r.processId r.privileged (reportedIova s.cfg r.iova)
  if r.type == .atsRequest then
    match atsFailure e.cause with
    | .success => (s.complete (.atsSuccess r.tag (noAccess s r false known))).nextDraw
    | .completerAbort => (s.complete (.completerAbort r.tag)).reportFault e.cause dtf record
    | .unsupportedRequest => (s.complete (.unsupportedRequest r.tag)).reportFault e.cause dtf record
  else (s.complete (.aborted r.tag)).reportFault e.cause dtf record

/-- A translated request completes (45 R525). -/
def State.finishRequest (s : State) (r : Request) (t : Translated) : State :=
  if r.type == .atsRequest then (s.complete (.atsSuccess r.tag (atsCompletion s r t))).nextDraw
  else
    match t.mrif with
    | some m =>
      (s.complete (.mrif r.tag (BitVec.ofNat 64 m.mrifAddr) (BitVec.ofNat 64 m.noticeAddr) m.noticeData)).release r
    | none =>
      (s.complete (.success r.tag (BitVec.ofNat 64 t.spa) (if s.cfg.svpbmt then some t.pbmt else none))).release r

/-- The IOMMU can store this access to an MRIF: a naturally aligned 4-byte write (46_msi_translation R568). -/
def Request.mrifStorable (r : Request) : Bool := r.kind == .write && r.length == 4 && r.iova.toNat % 4 == 0

/-- The answer to a request in the failed state (60 R703; Completer Abort is assumption 11). -/
def State.abortFailed (s : State) (r : Request) : State :=
  s.complete (if r.type == .atsRequest then .completerAbort r.tag else .aborted r.tag)

/-- What an activation gives for a request of a device. -/
inductive Served where
  | translated (t : Translated)
  /-- the IOMMU stored it to an MRIF -/
  | stored
  /-- the IOMMU would have to store what is no aligned 4-byte write to an MRIF (U13) -/
  | unstorable
deriving DecidableEq, Repr

/-- What the translation engine does for a request (45 R500), under one of the values of `ddtp` in `ps`: the translation,
and the MRIF store where the IOMMU makes it (46_msi_translation R565, R568). -/
def serveProcess (s : State) (ps : List DdtPointer) (r : Request) : Proc Served := do
  let t ← translate s ps r false false
  match t.mrif, s.cfg.mrifInIommu && r.type != .atsRequest with
  | some m, true =>
    if !r.mrifStorable then return .unstorable
    else
      mrifStore s m r.data
      return .stored
  | _, _ => return .translated t

/-- What an activation leaves (20_memory R211, R213) and the events of a request (45 R539). -/
def State.absorbRequest (s : State) (w : Walk) (r : Request) : State :=
  (s.absorb w).countActivation r.type r.deviceId r.processId w

/-- The activation of a request ends: events, and completion or fault (45 R525, R526). -/
def State.answerRequest (s : State) (r : Request) :
    EStateM.Result FaultInfo Walk Served → Host.Outcome State Fault Refusal
  | .error e w => .next ((s.absorbRequest w r).failRequest r w.dtf (w.msi || w.t2gpa) e)
  | .ok (.translated t) w => .next ((s.absorbRequest w r).finishRequest r t)
  | .ok .stored w => .next ((s.absorbRequest w r).complete (.mrifStored r.tag))
  | .ok .unstorable _ => .refused (.mrifAccess r.tag)

/-- One activation of the translation engine for a request (45 R500) in one go. In the failed state the request is aborted
and nothing is recorded (60 R703). -/
def serveRequest (s : State) (ps : List DdtPointer) (r : Request) : Host.Outcome State Fault Refusal :=
  if s.failed then .next (s.abortFailed r) else s.answerRequest r (serveProcess s ps r s.startWalk)

/-- The translation engine serves in-flight request `k` (10_state R112: any order). -/
def State.serveAt (s : State) (k : Nat) : Host.Outcome State Fault Refusal :=
  match elementAt s.requests k with
  | some x => serveRequest { s with requests := removeAt s.requests k } (s.alternativesFor x.under) x.item
  | none => .next s

/-- An internal datapath error aborts a request (60 R658), which counts as received (11 R144). In the failed state it is
aborted as any other (60 R703). -/
def State.breakRequest (s : State) (r : Request) : State :=
  if s.failed then s.abortFailed r
  else
    (s.countEvent r.type.hpmEvent ⟨r.deviceId, r.processId, none, none⟩ 1).failRequest r false false ⟨272, 0#64⟩

/-- An internal datapath error hits in-flight request `k`, which no activation serves yet. -/
def State.internalErrorAt (s : State) (k : Nat) : State :=
  match elementAt s.requests k with
  | some x => State.breakRequest { s with requests := removeAt s.requests k } x.item
  | none => s

end Sys2Proof.Machine
end

