-- ==== Sys2Proof/Machine/AtsPri.lean ====
section
/-! DEFINITION. PCIe messages that reach the IOMMU: Page Requests and Stop Markers (47_ats_pri R600 to R616), Invalidation Completions (44_cmd_ats R482, R486; 21_data_structures R241), and the others (47 R609). -/

namespace Sys2Proof.Machine

/-- The status of a Page Request Group Response the IOMMU generates (47 R606). -/
inductive PageStatus where
  | success
  | invalidRequest
  | responseFailure
deriving DecidableEq, Repr

/-- The response code on the wire (47 R606). -/
def PageStatus.code : PageStatus → BitVec 4
  | .success => 0#4
  | .invalidRequest => 1#4
  | .responseFailure => 15#4

/-! The fields of the payload (47 R611). -/

def PageRequest.reads (m : PageRequest) : Bool := m.payload.getLsbD 0
def PageRequest.writes (m : PageRequest) : Bool := m.payload.getLsbD 1
def PageRequest.last (m : PageRequest) : Bool := m.payload.getLsbD 2
/-- the page-request group index -/
def PageRequest.prgi (m : PageRequest) : BitVec 9 := m.payload.extractLsb' 3 9
/-- `R`=`W`=0 and `L`=1 (47 R609, R611) -/
def PageRequest.stopMarker (m : PageRequest) : Bool := !m.reads && !m.writes && m.last

/-- `respond(status)` (47 R601, R606, R607): nothing for a message that needs no answer; `withPasid` says whether the
request's PASID is included. The body has the layout of 30_encoding R360. -/
def State.respond (s : State) (m : PageRequest) (status : PageStatus) (withPasid : Bool) : State :=
  if !m.last || m.stopMarker then s
  else
    let rid := m.deviceId.extractLsb' 0 16
    s.send (.groupResponse rid (some (m.deviceId.extractLsb' 16 8)) (if withPasid then m.pasid else none)
      (rid ++ status.code ++ 0#3 ++ m.prgi ++ 0#32))

/-- The device context of a message's requester, under one of the values of `ddtp` in `ps`: modes, range, location
(47 R601, R602); `allowed`: it allows the message. -/
def messageDc (s : State) (ps : List DdtPointer) (did : BitVec 24) (allowed : DeviceContext → Bool) :
    Proc DeviceContext := do
  let p ← choosePointer s ps
  match p.mode with
  | .off => raise 256
  | .bare => raise 260
  | _ =>
    if didTooWide s.cfg.msiFlat p.mode did then raise 260
    else
      let d ← locateDc s p did false allowed
      return d.1

/-- The status a fault in locating the device context gives (47 R606; 268 as 257, D35). -/
def pageFaultStatus (cause : Nat) : PageStatus := if cause == 260 then .invalidRequest else .responseFailure

/-- What a message leaves: the activation's memory and cache, and the events of its DDT walk and of the second-stage walk
that translated the pointer of the DC as it was cached (assumption 17). -/
def State.absorbMessage (s : State) (w : Walk) (did : BitVec 24) (pid : Option (BitVec 20)) : State :=
  let t : HpmIds := ⟨did, pid, w.gscid, w.pscid⟩
  ((s.absorb w).countEvent 5 t w.ddtWalks).countEvent 8 t w.secondWalks

/-- The fault of a message (`TTYP` 9, `iotval` the message code: 60_exceptions R664). -/
def State.reportMessage (s : State) (cause : Nat) (dtf : Bool) (did : BitVec 24) (pid : Option (BitVec 20))
    (priv : Bool) (code : BitVec 8) : State :=
  s.reportFault cause dtf (faultRecord cause 0#64 9#6 did pid priv (code.setWidth 64))

/-- The PCIe message code of a Page Request (60_exceptions R664). -/
def pageRequestCode : BitVec 8 := 4#8

/-- The PCIe message code of an Invalidation Completion, PRESUMED (assumption 9). -/
def invalCompletionCode : BitVec 8 := 2#8

/-- The two doublewords of a page-request record (47 R611). Of `PID` R611 says only that it is valid when `PV` is 1: for a
message without a PASID the model writes 0 there (DESIGN CHOICE, assumption 16). -/
def PageRequest.dwords (m : PageRequest) : List DWord :=
  [m.deviceId ++ 0#5 ++ flag (m.pasid.isSome && m.exec) ++ flag (m.pasid.isSome && m.priv) ++ flag m.pasid.isSome ++
     m.pasid.getD 0#20 ++ 0#12,
   m.payload]

/-- The record of a message is written (47 R601, R612 to R615), or the message discarded and answered while an error bit
is 1, the queue is full or its memory refuses a store. What memory holds when only the second doubleword is refused the
spec does not say (R683 speaks of the fault queue): the model stores doubleword 0 first and leaves it written (DESIGN
CHOICE, assumption 38). -/
def State.storePage (s : State) (m : PageRequest) (prpr : Bool) : State :=
  if s.pqcsr.pqmf then s.respond m .responseFailure true
  else if s.pqcsr.pqof then s.respond m .success prpr
  else if s.pqFull then ({ s with pqcsr := { s.pqcsr with pqof := true } }.raisePip).respond m .success prpr
  else
    let (mem, ok) := storeDwords s.cfg s.fctl.be s.mem (s.pqb.entryAddr 16 s.pqt) m.dwords
    if ok then { s with mem := mem, pqt := s.pqb.next s.pqt }.raisePip
    else ({ s with mem := mem, pqcsr := { s.pqcsr with pqmf := true } }.raisePip).respond m .responseFailure true

/-- The queue part of the handler (47 R601, R605), for a requester whose device context allows Page Requests, in one
go. -/
def State.queuePage (s : State) (m : PageRequest) (prpr : Bool) : State :=
  if !s.pqcsr.pqen || !s.pqcsr.pqon then s.respond m .responseFailure true else s.storePage m prpr

/-- The queue part with the record decided and left unwritten (10_state R115). -/
def State.acceptPage (s : State) (m : PageRequest) (prpr : Bool) : State :=
  if !s.pqcsr.pqen || !s.pqcsr.pqon then s.respond m .responseFailure true
  else { s with pageRecords := s.pageRecords ++ [⟨m, prpr⟩] }

/-- The decided records are written, oldest first (10_state R87, R115). -/
def State.storePages (s : State) : List PageRecord → State
  | [] => s
  | x :: xs => (s.storePage x.msg x.prpr).storePages xs

/-- The page-request queue is off, once the records already decided are written (10_state R87). -/
def State.pqOff (s : State) : State :=
  let t := { s with pageRecords := [] }.storePages s.pageRecords
  { t with pqcsr := { t.pqcsr with pqon := false, busy := false } }

/-- The `pqcsr` write changed `pqen` from 1 to 0 (10_state R87). -/
def State.pqDisable (s : State) : State :=
  let t := { s with pqcsr := { s.pqcsr with pqen := false, busy := true } }
  if s.cfg.busySync then t.pqOff else t

/-- The operations of a `pqcsr` write complete. -/
def State.pqComplete (s : State) : State :=
  if !s.pqcsr.busy then s
  else if s.pqcsr.pqen then { s with pqcsr := { s.pqcsr with pqon := true, busy := false } }
  else s.pqOff

/-- The device context allows no Page Request (47 R604): cause 260, Invalid Request. -/
def State.refusePage (s : State) (m : PageRequest) (d : DeviceContext) : State :=
  (s.reportMessage 260 d.dtf m.deviceId m.pasid m.priv pageRequestCode).respond m .invalidRequest d.prpr

/-- What the IOMMU reads for a message it does not support: the DC, which allows no such message. -/
def otherProcess (s : State) (ps : List DdtPointer) (m : OtherMessage) : Proc DeviceContext :=
  messageDc s ps m.deviceId (fun _ => false)

/-- Any other message (47 R609): an unsupported transaction type, cause 260. -/
def State.answerOther (s : State) (m : OtherMessage) : EStateM.Result FaultInfo Walk DeviceContext → State
  | .error e w =>
    (s.absorbMessage w m.deviceId m.pasid).reportMessage e.cause w.dtf m.deviceId m.pasid m.priv m.code
  | .ok d w => (s.absorbMessage w m.deviceId m.pasid).reportMessage 260 d.dtf m.deviceId m.pasid m.priv m.code

/-- The handler of any other message in one go, under one of the values of `ddtp` in `ps`. -/
def State.handleOther (s : State) (ps : List DdtPointer) (m : OtherMessage) : State :=
  if s.failed then s else s.answerOther m (otherProcess s ps m s.startWalk)

/-- The device context allows Page Requests (47 R601, R604). -/
def DeviceContext.allowsPages (d : DeviceContext) : Bool := d.enAts && d.enPri

/-- What the IOMMU reads for a Page Request or Stop Marker. -/
def pageProcess (s : State) (ps : List DdtPointer) (m : PageRequest) : Proc DeviceContext :=
  messageDc s ps m.deviceId DeviceContext.allowsPages

/-- The handler of one Page Request or Stop Marker (47 R601) with its device context located or not, and with the queue part
`queue`. -/
def State.answerPage (s : State) (queue : State → PageRequest → Bool → State) (m : PageRequest) :
    EStateM.Result FaultInfo Walk DeviceContext → State
  | .error e w =>
    ((s.absorbMessage w m.deviceId m.pasid).reportMessage e.cause w.dtf m.deviceId m.pasid m.priv
      pageRequestCode).respond m (pageFaultStatus e.cause) true
  | .ok d w =>
    let t := s.absorbMessage w m.deviceId m.pasid
    if d.allowsPages then queue t m d.prpr else t.refusePage m d

/-- A Page Request as a message that an IOMMU without ATS does not support. -/
def PageRequest.unsupported (m : PageRequest) : OtherMessage := ⟨m.deviceId, m.pasid, m.priv, pageRequestCode⟩

/-- The handler of one Page Request or Stop Marker (47 R601) in one go, under one of the values of `ddtp` in `ps`. -/
def State.handlePage (s : State) (ps : List DdtPointer) (queue : State → PageRequest → Bool → State)
    (m : PageRequest) : State :=
  if s.failed then s
  else if !s.cfg.ats then s.handleOther ps m.unsupported
  else s.answerPage queue m (pageProcess s ps m s.startWalk)

/-- A page-request message is being handled by an activation under way. -/
def State.pageUnderway (s : State) : Bool :=
  s.activations.any fun a =>
    match a.task with
    | .page _ => true
    | .request _ => false
    | .debug _ _ => false
    | .other _ => false
    | .completion _ => false

/-- The page-request writer writes the oldest decided record, or with none pending takes the oldest message and deals
with it in one go, unless an older one is being handled (47 R601, R612: messages of one device in order; the model keeps
those of all devices in order, assumption 41). That a record already decided is written in the failed state too is the
model's choice (assumption 11). -/
def State.writePage (s : State) : State :=
  match s.pageRecords, s.pages with
  | x :: xs, _ => { s with pageRecords := xs }.storePage x.msg x.prpr
  | [], m :: rest =>
    if s.pageUnderway then s
    else { s with pages := rest }.handlePage (s.alternativesFor m.under) State.queuePage m.item
  | [], [] => s

/-- The page-request writer takes the oldest message and decides what becomes of it, a record that is to be written
staying pending (10_state R115). -/
def State.decidePage (s : State) : State :=
  match s.pages with
  | m :: rest =>
    if s.pageUnderway then s
    else { s with pages := rest }.handlePage (s.alternativesFor m.under) State.acceptPage m.item
  | [] => s

/-- In-flight command `k` is an `ATS.INVAL` that waits for its completion. -/
def State.waitingAt (s : State) (k : Nat) : Bool :=
  match elementAt s.inflight k with
  | some c => c.phase == .waiting
  | none => false

/-- What the IOMMU reads for an Invalidation Completion of device `did`. -/
def completionProcess (s : State) (ps : List DdtPointer) (did : BitVec 24) : Proc DeviceContext :=
  messageDc s ps did DeviceContext.enAts

/-- The report on the sender of an Invalidation Completion: where a directory is in use (while `ddtp.busy` is 1 the old or
the new value, by free choice: 45 R538, assumption 22) and the device's `EN_ATS` is 0, the message is also an unsupported
request, reported as cause 260 (21 R241). -/
def State.answerCompletion (s : State) (did : BitVec 24) : EStateM.Result FaultInfo Walk DeviceContext → State
  | .error _ w => s.absorbMessage w did none
  | .ok d w =>
    let t := s.absorbMessage w did none
    if d.enAts then t else t.reportMessage 260 d.dtf did none false invalCompletionCode

/-- In-flight command `k` has its completion. -/
def State.completed (s : State) (k : Nat) : State := { s with inflight := removeAt s.inflight k }

/-- `ATS_INVAL_done` (44 R482): the Invalidation Completion of in-flight command `k` arrives from a function of device
`did`, and the command completes, whatever the report on the sender (assumption 9). A completion for a command that no
longer waits is ignored (D20). -/
def State.invalCompleted (s : State) (did : BitVec 24) (k : Nat) : State :=
  if s.failed || !s.waitingAt k then s
  else (s.completed k).answerCompletion did (completionProcess s s.ddtpAlternatives did s.startWalk)

/-- `ATS_INVAL_timeout` (44 R482, R486): the command leaves marked timed out; nothing else happens until a fence. -/
def State.invalTimedOut (s : State) (k : Nat) : State :=
  if s.waitingAt k then { s with inflight := removeAt s.inflight k, timedOut := true } else s

end Sys2Proof.Machine
end

