-- ==== Sys2Proof/Machine/Interrupt.lean ====
section
/-! DEFINITION. The interrupt generator's MSI writes (60_exceptions R692 to R694). -/

namespace Sys2Proof.Machine

/-- `msi_addr_v[55:0]` (10_state R101). -/
def MsiEntry.byteAddr (e : MsiEntry) : Nat := e.addr.toNat * 4

/-- An MSI is owed for vector `v` and not masked (60 R692). -/
def State.msiReady (s : State) (v : BitVec 4) : Bool :=
  s.msiOwed.getLsbD v.toNat && !(s.msiCfgTbl[v.toNat]'(v.isLt)).mask && s.msiMode

/-- The record of a refused MSI write (60 R694, R663). -/
def msiFaultRecord (e : MsiEntry) : FaultRecord :=
  faultRecord 273 0#64 0#6 0#24 none false (BitVec.ofNat 64 e.byteAddr)

/-- `MSI_send(v)` (60 R692): the flag is cleared and the data written, little-endian (R693); a refused write is fault
273 (R694), in the failed state too (assumption 11). -/
def State.msiSend (s : State) (v : BitVec 4) : State :=
  if !s.msiReady v then s
  else
    let e := s.msiCfgTbl[v.toNat]'(v.isLt)
    let t := { s with msiOwed := s.msiOwed &&& ~~~(1#16 <<< v.toNat) }
    match check s.cfg e.byteAddr 4 .write with
    | .ok => { t with mem := t.mem.write32 e.byteAddr e.data false }
    | _ => t.reportFault 273 false (msiFaultRecord e)

end Sys2Proof.Machine
end

