-- ==== Sys2Proof/Machine/Debug.lean ====
section
/-! DEFINITION. The debug translation-request interface (48_debug_interface). -/

namespace Sys2Proof.Machine

/-- The request in the debug registers (48 R632, R634): untranslated; `Exe` asks to execute, else `NW`=0 asks to
write, else to read. The fields are taken from the registers as they stand when `DBG_translate` serves the request. They
cannot have changed since it started, but for the high half of the split write that started it, low half first: R632
samples the fields at the start, R105 lets the half act as part of the same write, and the model takes a half that comes
before the service (DESIGN CHOICE, assumption 6). -/
def State.debugRequest (s : State) : Request :=
  { deviceId := s.trReqCtl.did
    processId := if s.trReqCtl.pv then some s.trReqCtl.pid else none
    iova := s.trReqIova ++ 0#12
    type := .untranslated
    kind := if s.trReqCtl.exe then .exec else if s.trReqCtl.nw then .read else .write
    privileged := s.trReqCtl.priv
    noWrite := false
    cxl := false
    length := 1
    data := 0#32
    tag := 0 }

/-- `(S, PPN)` for a range of `2^k` bytes containing the address (11_state_hpm_debug R160). -/
def encodeRange (spa k : Nat) : Bool × BitVec 44 :=
  if k ≤ 12 then (false, BitVec.ofNat 44 (spa / 4096))
  else (true, BitVec.ofNat 44 (spa / 2 ^ k * 2 ^ (k - 12) + (2 ^ (k - 13) - 1)))

/-- The response to a successful translation (48 R636); the reported size is free between 4 KiB and the actual one. -/
def debugResponse (s : State) (t : Translated) : TrResponse :=
  let k := reportedLog2 t.sizeLog2 (if t.sizeLog2 ≤ 12 then 0 else Config.freeChoice s.draws)
  let (sbit, ppn) := encodeRange t.spa k
  { fault := false, pbmt := t.pbmt, s := sbit, ppn := ppn }

/-- The response to a fault: only `fault` is defined (48 R636, U22). -/
def debugFaultResponse (s : State) : TrResponse :=
  let v := Config.freeResponse s.draws
  { fault := true, pbmt := v.extractLsb' 0 2, s := v.getLsbD 2, ppn := v.extractLsb' 3 44 }

/-- The response is published and `Go/Busy` cleared (48 R632): the request in progress has ended. -/
def State.publish (s : State) (r : TrResponse) : State :=
  ({ s with trResponse := r, trReqCtl := { s.trReqCtl with goBusy := false } }.endOperation 608).nextDraw

/-- The debug activation skips the A/D updates: a free choice, made only where an update is possible (48 R638). -/
def State.debugSkips (s : State) : Bool := s.cfg.amoHwad && Config.freeChoice s.draws % 2 == 1

/-- The events of a debug request, where the HPM counts them (48 R640). -/
def State.countDebug (s : State) (r : Request) (w : Walk) : State :=
  if s.cfg.hpmCountsDebug then s.countActivation .untranslated r.deviceId r.processId w else s

/-- The state after the free choice of `debugSkips` was made, where it is. -/
def State.drawSkips (s : State) : State := if s.cfg.amoHwad then s.nextDraw else s

/-- A debug request is being served by an activation under way. -/
def State.debugUnderway (s : State) : Bool :=
  s.activations.any fun a =>
    match a.task with
    | .debug _ _ => true
    | .request _ => false
    | .page _ => false
    | .other _ => false
    | .completion _ => false

/-- The debug engine may take the request in the registers: `Go/Busy` is 1 and it has not been taken (48 R632, R633: one at
a time). -/
def State.debugReady (s : State) : Bool := s.trReqCtl.goBusy && !s.debugUnderway

/-- What the debug engine does for a request, under one of the values of `ddtp` in `ps`. -/
def debugProcess (s : State) (ps : List DdtPointer) (r : Request) (skipUpdate : Bool) : Proc Translated :=
  translate s ps r true skipUpdate

/-- The debug request ends: a fault is reported as for any request (48 R637), and the response published (R636). -/
def State.answerDebug (s : State) (r : Request) : EStateM.Result FaultInfo Walk Translated → State
  | .error e w =>
    let t := ((s.absorb w).countDebug r w).reportFault e.cause w.dtf
      (faultRecord e.cause e.iotval2 r.ttyp r.deviceId r.processId r.privileged (reportedIova s.cfg r.iova))
    t.publish (debugFaultResponse t)
  | .ok t w =>
    let u := (s.absorb w).countDebug r w
    u.publish (debugResponse u t)

/-- `DBG_translate` (48 R632) in one go: enabled while `Go/Busy` is 1. In the failed state nothing is recorded. -/
def State.debugStep (s : State) : State :=
  if !s.debugReady then s
  else if s.failed then s.publish (debugFaultResponse s)
  else
    s.drawSkips.answerDebug s.debugRequest
      (debugProcess s.drawSkips s.ddtpAlternatives s.debugRequest s.debugSkips s.drawSkips.startWalk)

end Sys2Proof.Machine
end

