-- ==== Sys2Proof/Machine/Activation.lean ====
section
/-! DEFINITION. Activations under way (10_state R112, 45_translation_process R500, R537; 20_memory R192, R195, R200): how one begins, makes its next access, and ends, with the accesses of other activations and the stores of harts between its own. -/

namespace Sys2Proof.Machine

/-- The machine as activation `a` sees its registers: its `fctl` is that of its beginning (10_state R41). -/
def State.seenBy (s : State) (a : Activation) : State := { s with fctl := a.fctl }

/-- The walk state an activation is run from: what it found at its beginning and at each access it has made. -/
def Activation.startWalk (a : Activation) : Walk := Walk.start a.start a.turns

/-- The machine after what an activation did to what the agents share. -/
def State.share (s : State) (x : Shared) : State := { s with mem := x.mem, ioatc := x.ioatc, draws := x.draws }

/-- What the run of activation `a` left: where it stands at an access that it has not made, it is under way there; else it
has ended, with what `ended` says. -/
def State.proceed (s : State) (a : Activation) (w : Walk) (ended : Host.Outcome State Fault Refusal) :
    Host.Outcome State Fault Refusal :=
  match w.reached with
  | some x => .next { s.share x with activations := s.activations ++ [a] }
  | none => ended

/-- Activation `a`, which is not among those of `s`, goes on to its next access or to its end. -/
def State.run (s : State) (a : Activation) : Host.Outcome State Fault Refusal :=
  match a.task with
  | .request r =>
    let x := serveProcess (s.seenBy a) a.under r a.startWalk
    s.proceed a (walkAfter x) (s.answerRequest r x)
  | .debug r skipUpdate =>
    let x := debugProcess (s.seenBy a) a.under r skipUpdate a.startWalk
    s.proceed a (walkAfter x) (.next (s.answerDebug r x))
  | .page m =>
    let x := pageProcess (s.seenBy a) a.under m a.startWalk
    s.proceed a (walkAfter x) (.next (s.answerPage State.acceptPage m x))
  | .other m =>
    let x := otherProcess (s.seenBy a) a.under m a.startWalk
    s.proceed a (walkAfter x) (.next (s.answerOther m x))
  | .completion did =>
    let x := completionProcess (s.seenBy a) a.under did a.startWalk
    s.proceed a (walkAfter x) (.next (s.answerCompletion did x))

/-- An activation begins, under one of the values of `ddtp` in `ps`. -/
def State.begin (s : State) (ps : List DdtPointer) (t : Task) : Host.Outcome State Fault Refusal :=
  s.run ⟨t, ps, s.fctl, s.shared, [], []⟩

/-- The activation makes its next access, which finds what the agents share as it stands in `s`; `pick` selects it among the
accesses of one structure still to be made. -/
def Activation.turn (a : Activation) (s : State) (pick : Nat) : Activation :=
  { a with turns := a.turns ++ [⟨s.shared, a.lost, pick⟩], lost := [] }

/-- The machine without activation `k`. -/
def State.dropActivation (s : State) (k : Nat) : State := { s with activations := removeAt s.activations k }

/-- An activation ends in the failed state: a device's request is aborted, a debug request answered by a fault, and
nothing is recorded (60_exceptions R703; assumption 11). -/
def State.endFailed (s : State) (t : Task) : State :=
  match t with
  | .request r => s.abortFailed r
  | .debug _ _ => s.publish (debugFaultResponse s)
  | .page _ => s
  | .other _ => s
  | .completion _ => s

/-- Activation `k` makes its next access and goes on to the one after it, or to its end. -/
def State.advance (s : State) (k pick : Nat) : Host.Outcome State Fault Refusal :=
  match elementAt s.activations k with
  | none => .next s
  | some a =>
    if s.failed then .next ((s.dropActivation k).endFailed a.task) else (s.dropActivation k).run (a.turn s pick)

/-- The translation engine begins in-flight request `k` (10_state R112: any order). -/
def State.beginTranslate (s : State) (k : Nat) : Host.Outcome State Fault Refusal :=
  match elementAt s.requests k with
  | none => .next s
  | some x =>
    let t := { s with requests := removeAt s.requests k }
    if s.failed then .next (t.abortFailed x.item) else t.begin (s.alternativesFor x.under) (.request x.item)

/-- The handling of the oldest page-request message begins (47_ats_pri R601), unless an older one is being handled. -/
def State.beginPage (s : State) : Host.Outcome State Fault Refusal :=
  match s.pages with
  | [] => .next s
  | m :: rest =>
    let t := { s with pages := rest }
    if s.pageUnderway then .next s
    else if s.failed then .next t
    else t.begin (s.alternativesFor m.under) (if s.cfg.ats then .page m.item else .other m.item.unsupported)

/-- The handling of another message begins (47_ats_pri R609). -/
def State.beginOther (s : State) (m : OtherMessage) : Host.Outcome State Fault Refusal :=
  if s.failed then .next s else s.begin s.ddtpAlternatives (.other m)

/-- `ATS_INVAL_done` (44_cmd_ats R482), the report on the sender being begun. -/
def State.beginCompletion (s : State) (did : BitVec 24) (k : Nat) : Host.Outcome State Fault Refusal :=
  if s.failed || !s.waitingAt k then .next s else (s.completed k).begin s.ddtpAlternatives (.completion did)

/-- `DBG_translate` (48_debug_interface R632) begins, with the fields of the registers as they stand. -/
def State.beginDebug (s : State) : Host.Outcome State Fault Refusal :=
  if !s.debugReady then .next s
  else if s.failed then .next (s.publish (debugFaultResponse s))
  else s.drawSkips.begin s.ddtpAlternatives (.debug s.debugRequest s.debugSkips)

/-- An internal datapath error hits the device request that activation `k` serves (60_exceptions R658): what the activation
did stays done, and of its walks no event is counted (the model's choice, assumption 41). -/
def State.internalErrorActive (s : State) (k : Nat) : State :=
  match (elementAt s.activations k).map Activation.task with
  | some (.request r) => (s.dropActivation k).breakRequest r
  | some (.debug _ _) => s
  | some (.page _) => s
  | some (.other _) => s
  | some (.completion _) => s
  | none => s

end Sys2Proof.Machine
end

