-- ==== Sys2Proof/Machine/Ats.lean ====
section
/-! DEFINITION. `ATS.INVAL` and `ATS.PRGR` (44_cmd_ats). -/

namespace Sys2Proof.Machine

/-- The message of `ATS.INVAL` is sent (44 R481, R482). -/
def effectAtsInval (pid : BitVec 20) (pv dsv : Bool) (rid : BitVec 16) (dseg : BitVec 8) (payload : BitVec 64)
    (s : State) : State :=
  s.send (.invalidationRequest rid (atsSegment dsv dseg) (atsPasid pv pid) payload)

/-- A command stays in flight until its completion arrives or it times out (44 R482). -/
def State.await (s : State) (i : Instr) : State := { s with inflight := s.inflight ++ [⟨i, .waiting⟩] }

/-- `ATS.INVAL` (44 R482). -/
def execAtsInval (pid : BitVec 20) (pv dsv : Bool) (rid : BitVec 16) (dseg : BitVec 8) (payload : BitVec 64)
    (s : State) : Host.Outcome State Fault Refusal :=
  s.executeFetched (.atsInval pid pv dsv rid dseg payload)
    (fun t => (effectAtsInval pid pv dsv rid dseg payload t).await (.atsInval pid pv dsv rid dseg payload))

/-- The message of `ATS.PRGR` is sent (44 R481, R483). -/
def effectAtsPrgr (pid : BitVec 20) (pv dsv : Bool) (rid : BitVec 16) (dseg : BitVec 8) (payload : BitVec 64)
    (s : State) : State :=
  s.send (.groupResponse rid (atsSegment dsv dseg) (atsPasid pv pid) payload)

/-- `ATS.PRGR` (44 R483). -/
def execAtsPrgr (pid : BitVec 20) (pv dsv : Bool) (rid : BitVec 16) (dseg : BitVec 8) (payload : BitVec 64)
    (s : State) : Host.Outcome State Fault Refusal :=
  s.executeFetched (.atsPrgr pid pv dsv rid dseg payload) (effectAtsPrgr pid pv dsv rid dseg payload)

end Sys2Proof.Machine
end

