-- ==== Sys2Proof/Machine/Iodir.lean ====
section
/-! DEFINITION. `IODIR.INVAL_DDT` and `IODIR.INVAL_PDT` (43_cmd_iodir). -/

namespace Sys2Proof.Machine

/-- The effect of `IODIR.INVAL_DDT` (43 R462, R464). -/
def effectIodirInvalDdt (dv : Bool) (did : BitVec 24) (s : State) : State := s.invalidate (.ddt dv did)

/-- `IODIR.INVAL_DDT` (43 R462); `PID` other than 0 is illegal. -/
def execIodirInvalDdt (pid : BitVec 20) (dv : Bool) (did : BitVec 24) (s : State) : Host.Outcome State Fault Refusal :=
  s.executeFetched (.iodirInvalDdt pid dv did) (effectIodirInvalDdt dv did)

/-- The effect of `IODIR.INVAL_PDT` (43 R463, R464). -/
def effectIodirInvalPdt (pid : BitVec 20) (did : BitVec 24) (s : State) : State := s.invalidate (.pdt pid did)

/-- `IODIR.INVAL_PDT` (43 R463); `DV`=0 is illegal. -/
def execIodirInvalPdt (pid : BitVec 20) (dv : Bool) (did : BitVec 24) (s : State) : Host.Outcome State Fault Refusal :=
  s.executeFetched (.iodirInvalPdt pid dv did) (effectIodirInvalPdt pid did)

end Sys2Proof.Machine
end

