-- ==== Sys2Proof/Machine/Iofence.lean ====
section
/-! DEFINITION. `IOFENCE.C` (42_cmd_iofence). -/

namespace Sys2Proof.Machine

/-- The `DATA` store of the fence is refused by the oracle (42 R446). -/
def State.fenceStoreFaults (s : State) (av : Bool) (addr : BitVec 62) : Bool :=
  av && check s.cfg (fenceAddr addr) 4 .write != .ok

/-- The `DATA` store (42 R444): four bytes in `fctl.BE` order; nothing for `AV`=0. -/
def State.fenceStore (s : State) (av : Bool) (data : BitVec 32) (addr : BitVec 62) : State :=
  if av then { s with mem := s.mem.write32 (fenceAddr addr) data s.fctl.be } else s

/-- The wired interrupt of the fence (42 R447). -/
def State.fenceSignal (s : State) (wsi : Bool) : State :=
  if wsi then { s with cqcsr := { s.cqcsr with fenceWIp := true } }.raiseCip else s

/-- `IOFENCE_complete` (42 R441), taken when no earlier command is in flight and no translation in flight can use a removed
copy (R442): a timed-out `ATS.INVAL` is `cmd_to` and
uses up the mark (R445); otherwise earlier device accesses commit (R443), `DATA` is stored or its fault is `cqmf`
(R444, R446), `fence_w_ip` is set for `WSI` (R447) and `cqh` advances. -/
def State.completeFence (s : State) (av wsi pr pw : Bool) (data : BitVec 32) (addr : BitVec 62) : State :=
  if s.timedOut then { s with timedOut := false }.takeCommandError .timeout
  else
    let t := s.commitPrevious pr pw
    if t.fenceStoreFaults av addr then t.takeCommandError .memoryFault
    else { (t.fenceStore av data addr).fenceSignal wsi with fence := none }.advanceHead

/-- Every command before a fence is completed and committed (42 R442): none is in flight, and no activation that an
invalidation overtook is under way (20_memory R214). The model waits for the end of such an activation whether or not it
holds a covered copy (DESIGN CHOICE, assumption 41). -/
def State.fenceReady (s : State) : Bool := s.inflight.isEmpty && s.settled

/-- `IOFENCE.C` (42 R441): pending at `cqh` while an earlier command is not completed (40_command_queue R399), else it
completes. -/
def execIofenceC (av wsi pr pw : Bool) (data : BitVec 32) (addr : BitVec 62) (s : State) :
    Host.Outcome State Fault Refusal :=
  if !s.supports (.iofenceC av wsi pr pw data addr) then .next (s.takeCommandError .illegal)
  else if s.fenceReady then .next (s.completeFence av wsi pr pw data addr)
  else .next { s with fence := some (.iofenceC av wsi pr pw data addr) }

end Sys2Proof.Machine
end

