-- ==== Sys2Proof/Machine/Iotinval.lean ====
section
/-! DEFINITION. `IOTINVAL.VMA` and `IOTINVAL.GVMA` (41_cmd_iotinval). -/

namespace Sys2Proof.Machine

/-- The effect of `IOTINVAL.VMA` (41 R421, R423): the covered first-stage copies leave the IOATC. -/
def effectIotinvalVma (av : Bool) (pscid : BitVec 20) (pscv gv : Bool) (gscid : BitVec 16) (addr : BitVec 52)
    (s : State) : State :=
  s.invalidate (.vma av pscid pscv gv gscid addr)

/-- `IOTINVAL.VMA` (41 R421). -/
def execIotinvalVma (av : Bool) (pscid : BitVec 20) (pscv gv : Bool) (gscid : BitVec 16) (addr : BitVec 52)
    (s : State) : Host.Outcome State Fault Refusal :=
  s.executeFetched (.iotinvalVma av pscid pscv gv gscid addr) (effectIotinvalVma av pscid pscv gv gscid addr)

/-- The effect of `IOTINVAL.GVMA` (41 R422, R425): the covered second-stage and MSI copies leave the IOATC. -/
def effectIotinvalGvma (av gv : Bool) (gscid : BitVec 16) (addr : BitVec 52) (s : State) : State :=
  s.invalidate (.gvma av gv gscid addr)

/-- `IOTINVAL.GVMA` (41 R422); `PSCV`=1 is illegal. -/
def execIotinvalGvma (av : Bool) (pscid : BitVec 20) (pscv gv : Bool) (gscid : BitVec 16) (addr : BitVec 52)
    (s : State) : Host.Outcome State Fault Refusal :=
  s.executeFetched (.iotinvalGvma av pscid pscv gv gscid addr) (effectIotinvalGvma av gv gscid addr)

end Sys2Proof.Machine
end

