-- ==== Sys2Proof/Machine/Dispatch.lean ====
section
/-! DEFINITION. The meaning of each command, one arm per constructor. -/

namespace Sys2Proof.Machine

def exec (i : Instr) (s : State) : Host.Outcome State Fault Refusal :=
  match i with
  | .iotinvalVma av pscid pscv gv gscid addr => Sys2Proof.Machine.execIotinvalVma av pscid pscv gv gscid addr s
  | .iotinvalGvma av pscid pscv gv gscid addr => Sys2Proof.Machine.execIotinvalGvma av pscid pscv gv gscid addr s
  | .iofenceC av wsi pr pw data addr => Sys2Proof.Machine.execIofenceC av wsi pr pw data addr s
  | .iodirInvalDdt pid dv did => Sys2Proof.Machine.execIodirInvalDdt pid dv did s
  | .iodirInvalPdt pid dv did => Sys2Proof.Machine.execIodirInvalPdt pid dv did s
  | .atsInval pid pv dsv rid dseg payload => Sys2Proof.Machine.execAtsInval pid pv dsv rid dseg payload s
  | .atsPrgr pid pv dsv rid dseg payload => Sys2Proof.Machine.execAtsPrgr pid pv dsv rid dseg payload s

end Sys2Proof.Machine
end

