-- ==== Sys2Proof/Machine/Registers.lean ====
section
/-! DEFINITION. The register page: what a read of each register gives and what a write does (10_state R31 to R109, 11_state_hpm_debug), and hart stores to memory. -/

namespace Sys2Proof.Machine

/-! ## Reading (10_state R107: no side effect) -/

/-- The encoding of `ddtp.iommu_mode` (10_state R44). -/
def IommuMode.bits : IommuMode → BitVec 4
  | .off => 0#4
  | .bare => 1#4
  | .lvl1 => 2#4
  | .lvl2 => 3#4
  | .lvl3 => 4#4

/-- `ddtp` as it reads (10_state R43). -/
def State.readDdtp (s : State) : DWord :=
  0#10 ++ s.ddtp.ppn ++ 0#5 ++ flag s.ddtpBusy ++ s.ddtp.mode.bits

/-- A queue base register as it reads (10_state R51). -/
def QueueBase.read (b : QueueBase) : DWord := 0#10 ++ b.ppn ++ 0#5 ++ b.log2szm1

/-- `fctl` as it reads (10_state R38). -/
def Fctl.read (f : Fctl) : Word := 0#29 ++ flag f.gxl ++ flag f.wsi ++ flag f.be

/-- `cqcsr` as it reads (10_state R68). -/
def State.readCqcsr (s : State) : Word :=
  0#14 ++ flag s.cqcsr.busy ++ flag s.cqcsr.cqon ++ 0#4 ++ flag s.fenceWIp ++ flag s.cqcsr.cmdIll ++
    flag s.cqcsr.cmdTo ++ flag s.cqcsr.cqmf ++ 0#6 ++ flag s.cqcsr.cie ++ flag s.cqcsr.cqen

/-- `fqcsr` as it reads (10_state R78). -/
def Fqcsr.read (f : Fqcsr) : Word :=
  0#14 ++ flag f.busy ++ flag f.fqon ++ 0#6 ++ flag f.fqof ++ flag f.fqmf ++ 0#6 ++ flag f.fie ++ flag f.fqen

/-- `pqcsr` as it reads (10_state R84). -/
def Pqcsr.read (p : Pqcsr) : Word :=
  0#14 ++ flag p.busy ++ flag p.pqon ++ 0#6 ++ flag p.pqof ++ flag p.pqmf ++ 0#6 ++ flag p.pie ++ flag p.pqen

/-- `ipsr` as it reads (10_state R90). -/
def Ipsr.read (p : Ipsr) : Word := 0#28 ++ flag p.pip ++ flag p.pmip ++ flag p.fip ++ flag p.cip

/-- `icvec` as it reads (10_state R96). -/
def Icvec.read (v : Icvec) : DWord := 0#48 ++ v.piv ++ v.pmiv ++ v.fiv ++ v.civ

/-- `iohpmcycles` as it reads (11 R133). -/
def HpmCycles.read (c : HpmCycles) : DWord := flag c.of ++ c.counter

/-- `iohpmevtN` as it reads (11 R138). -/
def HpmEvent.read (e : HpmEvent) : DWord :=
  flag e.of ++ flag e.idt ++ flag e.dvGscv ++ flag e.pvPscv ++ e.didGscid ++ e.pidPscid ++ flag e.dmask ++ e.eventId

/-- `tr_req_ctl` as it reads (11 R157). -/
def TrReqCtl.read (t : TrReqCtl) : DWord :=
  t.did ++ 0#7 ++ flag t.pv ++ t.pid ++ 0#8 ++ flag t.nw ++ flag t.exe ++ flag t.priv ++ flag t.goBusy

/-- `tr_response` as it reads (11 R159). -/
def TrResponse.read (t : TrResponse) : DWord := 0#10 ++ t.ppn ++ flag t.s ++ t.pbmt ++ 0#6 ++ flag t.fault

/-- Two 4-byte registers as one doubleword, the lower offset in the low half. -/
def pair (lo hi : Word) : DWord := hi ++ lo

/-- The aligned doubleword of the register page at byte offset `8 * k` (10_state R31). Absent registers, reserved and
custom space, and counters and vectors that are not implemented read 0 (R32, R33, D5). -/
def State.readDword (s : State) (k : Nat) : DWord :=
  if k == 0 then s.cfg.caps
  else if k == 1 then pair s.fctl.read 0#32
  else if k == 2 then s.readDdtp
  else if k == 3 then s.cqb.read
  else if k == 4 then pair s.cqh s.cqt
  else if k == 5 then s.fqb.read
  else if k == 6 then pair s.fqh s.fqt
  else if k == 7 then (if s.cfg.ats then s.pqb.read else 0#64)
  else if k == 8 then (if s.cfg.ats then pair s.pqh s.pqt else 0#64)
  else if k == 9 then pair s.readCqcsr s.fqcsr.read
  else if k == 10 then pair (if s.cfg.ats then s.pqcsr.read else 0#32) s.ipsr.read
  else if k == 11 then (if s.cfg.hpm then pair s.iocountovf s.iocountinh else 0#64)
  else if k == 12 then (if s.cfg.hpm then s.iohpmcycles.read else 0#64)
  else if h : 13 ≤ k ∧ k < 44 then
    (if s.cfg.hpm && decide (k - 13 < s.cfg.hpmCounters) then s.iohpmctr[k - 13]'(by omega) else 0#64)
  else if h : 44 ≤ k ∧ k < 75 then
    (if s.cfg.hpm && decide (k - 44 < s.cfg.hpmCounters) then (s.iohpmevt[k - 44]'(by omega)).read else 0#64)
  else if k == 75 then (if s.cfg.dbg then s.trReqIova ++ 0#12 else 0#64)
  else if k == 76 then (if s.cfg.dbg then s.trReqCtl.read else 0#64)
  else if k == 77 then
    (if s.cfg.dbg then (if s.trReqCtl.goBusy then Config.freeDWord s.draws else s.trResponse.read) else 0#64)
  else if k == 95 then s.icvec.read
  else if h : 96 ≤ k ∧ k < 128 then
    (if s.cfg.msiCapable && decide ((k - 96) / 2 < 2 ^ s.cfg.vecBits) then
      (let e := s.msiCfgTbl[(k - 96) / 2]'(by omega)
       if (k - 96) % 2 == 0 then 0#8 ++ e.addr ++ 0#2 else pair e.data (0#31 ++ flag e.mask))
     else 0#64)
  else 0#64

/-- The doubleword `k` holds two 4-byte registers, so an 8-byte access would span them (20_memory R182). The two
registers `msi_data` and `msi_vec_ctl` are such a pair (10_state R100); that reserved and custom space may be accessed in
either size is the model's choice (DESIGN CHOICE, assumption 24). -/
def isRegisterPair (k : Nat) : Bool :=
  k == 1 || k == 4 || k == 6 || k == 8 || k == 9 || k == 10 || k == 11 || (decide (96 ≤ k ∧ k < 128) && k % 2 == 1)

/-- The access has a legal shape (20_memory R182): 4 bytes at a multiple of 4, or 8 bytes covering one 64-bit
register, inside the page. -/
def legalAccess (offset size : Nat) : Bool :=
  decide (offset + size ≤ 4096) &&
  ((size == 4 && offset % 4 == 0) || (size == 8 && offset % 8 == 0 && !isRegisterPair (offset / 8)))

/-- What a legal read returns (10_state R105, R106: the registers are little-endian). -/
def State.readRegister (s : State) (offset size : Nat) : DWord :=
  let d := s.readDword (offset / 8)
  if size == 8 then d
  else if offset % 8 == 0 then (d.extractLsb' 0 32).setWidth 64
  else (d.extractLsb' 32 32).setWidth 64

/-- While `tr_response` is UNSPECIFIED its value is a free one, and reading it draws that. -/
def State.drawRead (s : State) (offset : Nat) : State :=
  if offset / 8 == 77 && s.trReqCtl.goBusy then s.nextDraw else s

/-- A read in one access: what it returned is noted. -/
def State.readWhole (s : State) (offset size : Nat) : State :=
  State.drawRead { s with hostReads := s.hostReads ++ [⟨offset, size, s.readRegister offset size⟩] } offset

/-- The 4-byte register half at an offset. -/
def State.readHalf (s : State) (offset : Nat) (high : Bool) : Word :=
  (s.readRegister (if high then offset + 4 else offset) 4).setWidth 32

/-- The first half of a split 8-byte read; `high` says that it is the high one. -/
def State.readFirstHalf (s : State) (offset : Nat) (high : Bool) : State :=
  State.drawRead { s with halves := s.halves ++ [.read offset (!high) (s.readHalf offset high)] } offset

/-- The second half of a split 8-byte read: the value of both is noted. -/
def State.readSecondHalf (s : State) (offset : Nat) (high : Bool) (other : Word) : State :=
  let v := s.readHalf offset high
  State.drawRead { s with hostReads := s.hostReads ++ [⟨offset, 8, if high then pair other v else pair v other⟩] } offset

/-- How an 8-byte access is performed where the implementation may split it (20_memory R182, U24): 0 in one access, 1 the
high half first, 2 the low half first, a free choice per access (assumption 6). -/
def State.splitChoice (s : State) : Nat := Config.freeChoice s.draws % 3

/-- A hart reads a register; an access of another shape is refused (U1). -/
def State.hostRead (s : State) (offset size : Nat) : Host.Outcome State Fault Refusal :=
  if !legalAccess offset size then .refused (.registerAccess offset size)
  else if size == 8 && s.cfg.splitAccesses && s.splitChoice != 0 then
    .next (s.nextDraw.readFirstHalf offset (s.splitChoice == 1))
  else if size == 8 && s.cfg.splitAccesses then .next (s.nextDraw.readWhole offset size)
  else .next (s.readWhole offset size)

/-! ## Writing -/

/-- A queue is enabled or on, or the IOMMU is not Off: `fctl` may not change (10_state R41). -/
def State.active (s : State) : Bool :=
  s.ddtp.mode != .off || s.cqcsr.cqen || s.cqcsr.cqon || s.fqcsr.fqen || s.fqcsr.fqon || s.pqcsr.pqen || s.pqcsr.pqon

/-- A write to `fctl` (10_state R40, R41; 60 R697): each writable field takes the written bit; a change while active is
refused (U3); owed MSIs are dropped when `WSI` becomes 1 (D29). -/
def State.writeFctl (s : State) (w : Word) : Host.Outcome State Fault Refusal :=
  let f : Fctl :=
    ⟨if s.cfg.beWritable then w.getLsbD 0 else s.fctl.be,
     if s.cfg.wsiWritable then w.getLsbD 1 else s.fctl.wsi,
     if s.cfg.gxlWritable then w.getLsbD 2 else s.fctl.gxl⟩
  if f == s.fctl then .next s
  else if s.active then .refused .featureChangeWhileActive
  else if s.trReqCtl.goBusy then .refused (.debugInProgress 8)
  else .next { s with fctl := f, msiOwed := if f.wsi then 0#16 else s.msiOwed }.reevaluate

/-- The mode an `iommu_mode` value selects, if the implementation accepts it (10_state R44, D4). -/
def acceptedMode (c : Config) (v : BitVec 4) : Option IommuMode :=
  if v == 0#4 then some .off
  else if v == 1#4 then some .bare
  else if v == 2#4 && c.lvl1 then some .lvl1
  else if v == 3#4 && c.lvl2 then some .lvl2
  else if v == 4#4 && c.lvl3 then some .lvl3
  else none

/-- The mode is a directory mode. -/
def IommuMode.isDirectory : IommuMode → Bool
  | .off => false
  | .bare => false
  | _ => true

/-- The new value of `ddtp` is held and `busy` set until the operations complete, at once with `BUSY_SYNC` (10_state
R45). A change to Off leaves the transactions in flight to the old value (R47). -/
def State.setDdtp (s : State) (p : DdtPointer) : State :=
  let u := if p.mode == .off && s.ddtp.mode != .off then s.pinInFlight s.ddtp else s
  let t := { u with ddtpOld := s.ddtp, ddtp := p, ddtpBusy := true }
  if s.cfg.busySync then t.ddtpComplete else t

/-- The value is the encoding of a directory mode, whether the implementation accepts it or not (10_state R44). -/
def directoryValue (v : BitVec 4) : Bool := v == 2#4 || v == 3#4 || v == 4#4

/-- A write of the low half of `ddtp` or of all of it (10_state R43 to R48): refused while `busy` (U5), where a directory
mode is written in a directory mode, also one that is not in `MODES` (U6; 70_reset R741), and when it modifies the register while a debug request is in progress (U16); an illegal
mode leaves the register as it was (D4), but is a write that `busy` is set for all the same (R45). -/
def State.writeDdtp (s : State) (v : DWord) : Host.Outcome State Fault Refusal :=
  if s.ddtpBusy then .refused (.writeWhileBusy 16)
  else if directoryValue (v.extractLsb' 0 4) && s.ddtp.mode.isDirectory then .refused .illegalModeTransition
  else
    match acceptedMode s.cfg (v.extractLsb' 0 4) with
    | none => .next (s.setDdtp s.ddtp)
    | some m =>
      let p : DdtPointer := ⟨m, v.extractLsb' 10 44⟩
      if s.trReqCtl.goBusy && p != s.ddtp then .refused (.debugInProgress 16)
      else .next (s.setDdtp p)

/-- The `PPN` bits in the high half of `ddtp`. -/
def State.setDdtpHigh (s : State) (v : DWord) : State :=
  { s with ddtp := { s.ddtp with ppn := v.extractLsb' 10 44 } }

/-- A write of the high half of `ddtp` alone, in any mode: only `PPN` bits, at once; the acting half is the low one
(10_state R105, D7; assumption 22). The transactions in flight keep the directory they were received under, so that a
change to Off written as two halves processes them with it too (R47). -/
def State.writeDdtpHigh (s : State) (v : DWord) : Host.Outcome State Fault Refusal :=
  if s.ddtpBusy then .refused (.writeWhileBusy 20)
  else if s.trReqCtl.goBusy && (s.setDdtpHigh v).ddtp != s.ddtp then .refused (.debugInProgress 20)
  else .next ((if s.ddtp.mode.isDirectory then s.pinInFlight s.ddtp else s).setDdtpHigh v)

/-- The value a queue base register takes (10_state R51): a `LOG2SZ-1` the implementation does not accept keeps its
previous value (D4). -/
def newBase (c : Config) (old : QueueBase) (v : DWord) : QueueBase :=
  ⟨if (v.extractLsb' 0 5).toNat ≤ c.log2szMax then v.extractLsb' 0 5 else old.log2szm1, v.extractLsb' 10 44⟩

/-- The index a base write leaves: valid but otherwise UNSPECIFIED, a free value (10_state R54, R60, R65). -/
def State.freshIndex (s : State) (b : QueueBase) : BitVec 32 := b.clip (Config.freeIndex s.draws)

/-- A write to `cqb` (10_state R53, R54). Of `cqh` only the bits the new size has stay (R30, 20_memory R221; that a bit
lost does not come back with a larger size is assumption 33); `fqt` and `pqt` likewise below. -/
def State.writeCqb (s : State) (v : DWord) : Host.Outcome State Fault Refusal :=
  if s.cqcsr.busy || s.cqcsr.cqon then .refused (.queueBaseWhileOn 24)
  else
    let b := newBase s.cfg s.cqb v
    .next { s with cqb := b, cqt := s.freshIndex b, cqh := b.clip s.cqh }.nextDraw

/-- A write to `fqb` (10_state R60). -/
def State.writeFqb (s : State) (v : DWord) : Host.Outcome State Fault Refusal :=
  if s.fqcsr.busy || s.fqcsr.fqon then .refused (.queueBaseWhileOn 40)
  else
    let b := newBase s.cfg s.fqb v
    .next { s with fqb := b, fqh := s.freshIndex b, fqt := b.clip s.fqt }.nextDraw

/-- A write to `pqb` (10_state R65). -/
def State.writePqb (s : State) (v : DWord) : Host.Outcome State Fault Refusal :=
  if s.pqcsr.busy || s.pqcsr.pqon then .refused (.queueBaseWhileOn 56)
  else
    let b := newBase s.cfg s.pqb v
    .next { s with pqb := b, pqh := s.freshIndex b, pqt := b.clip s.pqt }.nextDraw

/-- The `busy` bit after a write that changes no enable: an implementation may set it on any write (10_state R76), a
free choice unless `busy` is hardwired to 0. -/
def State.anyWriteBusy (s : State) : Bool := !s.cfg.busySync && Config.freeBit s.draws

/-- The draw of that choice, where there is one. -/
def State.drawBusy (s : State) : State := if s.cfg.busySync then s else s.nextDraw

/-- A write to `cqcsr` (10_state R69 to R71, R76): refused while `busy` (U5) and when it enables a misaligned queue
(U7). -/
def State.writeCqcsr (s : State) (w : Word) : Host.Outcome State Fault Refusal :=
  if s.cqcsr.busy then .refused (.writeWhileBusy 72)
  else
    let c := s.cqcsr.clearErrors (w.getLsbD 8) (w.getLsbD 9) (w.getLsbD 10) (w.getLsbD 11)
    let t := { s with cqcsr := { c with cie := w.getLsbD 1 } }
    if w.getLsbD 0 && !s.cqcsr.cqen then
      if s.cqb.aligned 16 then .next t.cqEnable.reevaluate else .refused (.misalignedQueue 24)
    else if !w.getLsbD 0 && s.cqcsr.cqen then .next t.cqDisable.reevaluate
    else .next { t with cqcsr := { t.cqcsr with busy := s.anyWriteBusy } }.drawBusy.reevaluate

/-- A write to `fqcsr` (10_state R79 to R81). -/
def State.writeFqcsr (s : State) (w : Word) : Host.Outcome State Fault Refusal :=
  if s.fqcsr.busy then .refused (.writeWhileBusy 76)
  else
    let t := { s with fqcsr := { s.fqcsr with
      fie := w.getLsbD 1, fqmf := s.fqcsr.fqmf && !w.getLsbD 8, fqof := s.fqcsr.fqof && !w.getLsbD 9 } }
    if w.getLsbD 0 && !s.fqcsr.fqen then
      if s.fqb.aligned 32 then .next t.fqEnable.reevaluate else .refused (.misalignedQueue 40)
    else if !w.getLsbD 0 && s.fqcsr.fqen then .next t.fqDisable.reevaluate
    else .next { t with fqcsr := { t.fqcsr with busy := s.anyWriteBusy } }.drawBusy.reevaluate

/-- A write to `pqcsr` (10_state R85 to R87). -/
def State.writePqcsr (s : State) (w : Word) : Host.Outcome State Fault Refusal :=
  if s.pqcsr.busy then .refused (.writeWhileBusy 80)
  else
    let t := { s with pqcsr := { s.pqcsr with
      pie := w.getLsbD 1, pqmf := s.pqcsr.pqmf && !w.getLsbD 8, pqof := s.pqcsr.pqof && !w.getLsbD 9 } }
    if w.getLsbD 0 && !s.pqcsr.pqen then
      if s.pqb.aligned 16 then .next t.pqEnable.reevaluate else .refused (.misalignedQueue 56)
    else if !w.getLsbD 0 && s.pqcsr.pqen then .next t.pqDisable.reevaluate
    else .next { t with pqcsr := { t.pqcsr with busy := s.anyWriteBusy } }.drawBusy.reevaluate

/-- A write to `ipsr` (10_state R95): the bits written 1 are cleared, then every pending bit whose level condition still
holds is set again. -/
def State.writeIpsr (s : State) (w : Word) : State :=
  ({ s with ipsr :=
      { cip := s.ipsr.cip && !w.getLsbD 0
        fip := s.ipsr.fip && !w.getLsbD 1
        pmip := s.ipsr.pmip && !w.getLsbD 2
        pip := s.ipsr.pip && !w.getLsbD 3 } }).reevaluate

/-- A write to `iocountinh` (11 R132): the bits of implemented counters. -/
def State.writeCountInhibit (s : State) (w : Word) : State :=
  { s with iocountinh := w &&& BitVec.ofNat 32 (2 ^ (s.cfg.hpmCounters + 1) - 1) }

/-- A write to `iohpmcycles` (11 R133): the implemented bits of `counter`, and `OF`. -/
def State.writeCycles (s : State) (v : DWord) : State :=
  { s with iohpmcycles := ⟨BitVec.ofNat 63 (v.toNat % 2 ^ s.cfg.cyclesWidth), v.getLsbD 63⟩ }

/-- The selector a write to `iohpmevtN` leaves (11 R138, R139): an `eventID` above 8 keeps its previous value (D4). A
write of `OF` raises nothing (D24). -/
def newHpmEvent (old : HpmEvent) (v : DWord) : HpmEvent :=
  { eventId := if (v.extractLsb' 0 15).toNat ≤ 8 then v.extractLsb' 0 15 else old.eventId
    dmask := v.getLsbD 15
    pidPscid := v.extractLsb' 16 20
    didGscid := v.extractLsb' 36 24
    pvPscv := v.getLsbD 60
    dvGscv := v.getLsbD 61
    idt := v.getLsbD 62
    of := v.getLsbD 63 }

/-- The value a write to `tr_req_ctl` leaves; `Go/Busy` is set by a 1 in the low half and never cleared (11 R157, R158).
Which values of the WARL fields `Priv`, `Exe`, `NW`, `PV`, `PID` and `DID` are legal the spec does not say (48 R630; D4 only
says that an illegal one keeps the old value): the model takes every value as legal (DESIGN CHOICE, assumption 18; the
widths of `PID` and `DID` are assumption 26). -/
def newTrReqCtl (old : TrReqCtl) (v : DWord) (low : Bool) : TrReqCtl :=
  { goBusy := old.goBusy || (low && v.getLsbD 0)
    priv := v.getLsbD 1
    exe := v.getLsbD 2
    nw := v.getLsbD 3
    pid := v.extractLsb' 12 20
    pv := v.getLsbD 32
    did := v.extractLsb' 40 24 }

/-- A write to `tr_req_ctl` (48_debug_interface R632, R633): a modification while `Go/Busy` is 1 is refused (U16); a
write that changes nothing is accepted. -/
def State.writeTrReqCtl (s : State) (v : DWord) (low : Bool) : Host.Outcome State Fault Refusal :=
  let t := newTrReqCtl s.trReqCtl v low
  if s.trReqCtl.goBusy && t != s.trReqCtl then .refused (.debugInProgress 608)
  else .next { s with trReqCtl := t }

/-- A write to `tr_req_iova` (11 R156, 48 R633). Which values of the WARL field `vpn` are legal the spec does not say (11
R156, 48 R630): the model takes every 52-bit value as legal (DESIGN CHOICE, assumption 18). -/
def State.writeTrReqIova (s : State) (v : DWord) : Host.Outcome State Fault Refusal :=
  if s.trReqCtl.goBusy && v.extractLsb' 12 52 != s.trReqIova then .refused (.debugInProgress 600)
  else .next { s with trReqIova := v.extractLsb' 12 52 }

/-- An `icvec` field keeps its implemented bits: an illegal value, with a bit above `N_VEC_BITS`, reads back with those
bits 0 (10_state R98). -/
def newVector (c : Config) (v : BitVec 4) : BitVec 4 := BitVec.ofNat 4 (v.toNat % 2 ^ c.vecBits)

/-- A write to `icvec` (10_state R96, R98). -/
def State.writeIcvec (s : State) (v : DWord) : State :=
  { s with icvec :=
      { civ := newVector s.cfg (v.extractLsb' 0 4)
        fiv := newVector s.cfg (v.extractLsb' 4 4)
        pmiv := if s.cfg.hpm then newVector s.cfg (v.extractLsb' 8 4) else 0#4
        piv := if s.cfg.ats then newVector s.cfg (v.extractLsb' 12 4) else 0#4 } }

/-- A write to entry `x` of `msi_cfg_tbl` (10_state R100 to R103): its address doubleword, or its data and mask. Which
values of the WARL fields `ADDR` and `data` are legal the spec does not say; the model takes every one, also an address
beyond `PAS` (DESIGN CHOICE, assumption 18). -/
def State.writeMsiEntry (s : State) (x : Fin 16) (upper : Bool) (v : DWord) : State :=
  if s.cfg.msiCapable && decide (x.val < 2 ^ s.cfg.vecBits) then
    let e := s.msiCfgTbl.get x
    let e' := if upper then { e with data := v.extractLsb' 0 32, mask := v.getLsbD 32 }
      else { e with addr := v.extractLsb' 2 54 }
    { s with msiCfgTbl := s.msiCfgTbl.set x e' }
  else s

/-- A write of one register, given the whole aligned doubleword `v` (a half that is not written holds what it reads as)
and which halves are written (10_state R31, R105). Read-only registers, absent registers and reserved space ignore
it. Which registers are the configuration that may not be modified while `Go/Busy` is 1 the spec does not list (48 R633,
70_reset R771); the model takes `fctl`, `ddtp` and the two debug registers, and leaves queue, interrupt and HPM registers
writable (DESIGN CHOICE, assumption 28). -/
def State.writeDword (s : State) (k : Nat) (v : DWord) (low high : Bool) : Host.Outcome State Fault Refusal :=
  if k == 1 then (if low then s.writeFctl (v.extractLsb' 0 32) else .next s)
  else if k == 2 then (if low then s.writeDdtp v else s.writeDdtpHigh v)
  else if k == 3 then s.writeCqb v
  else if k == 4 then .next (if high then { s with cqt := s.cqb.clip (v.extractLsb' 32 32) } else s)
  else if k == 5 then s.writeFqb v
  else if k == 6 then .next (if low then { s with fqh := s.fqb.clip (v.extractLsb' 0 32) } else s)
  else if k == 7 then (if s.cfg.ats then s.writePqb v else .next s)
  else if k == 8 then
    .next (if s.cfg.ats && low then { s with pqh := s.pqb.clip (v.extractLsb' 0 32) } else s)
  else if k == 9 then (if low then s.writeCqcsr (v.extractLsb' 0 32) else s.writeFqcsr (v.extractLsb' 32 32))
  else if k == 10 then
    (if low then (if s.cfg.ats then s.writePqcsr (v.extractLsb' 0 32) else .next s)
     else .next (s.writeIpsr (v.extractLsb' 32 32)))
  else if k == 11 then .next (if s.cfg.hpm && high then s.writeCountInhibit (v.extractLsb' 32 32) else s)
  else if k == 12 then .next (if s.cfg.hpm then s.writeCycles v else s)
  else if h : 13 ≤ k ∧ k < 44 then
    .next (if s.cfg.hpm && decide (k - 13 < s.cfg.hpmCounters) then
      { s with iohpmctr := s.iohpmctr.set (k - 13) (BitVec.ofNat 64 (v.toNat % 2 ^ s.cfg.hpmWidth)) (by omega) }
     else s)
  else if h : 44 ≤ k ∧ k < 75 then
    .next (if s.cfg.hpm && decide (k - 44 < s.cfg.hpmCounters) then
      { s with iohpmevt := s.iohpmevt.set (k - 44) (newHpmEvent (s.iohpmevt[k - 44]'(by omega)) v) (by omega) }
     else s)
  else if k == 75 then (if s.cfg.dbg then s.writeTrReqIova v else .next s)
  else if k == 76 then (if s.cfg.dbg then s.writeTrReqCtl v low else .next s)
  else if k == 95 then .next (s.writeIcvec v)
  else if h : 96 ≤ k ∧ k < 128 then
    .next (s.writeMsiEntry ⟨(k - 96) / 2, by omega⟩ ((k - 96) % 2 == 1) v)
  else .next s

/-- The doubleword a write of `size` bytes at `offset` leaves, the other half as it reads. -/
def mergeWrite (old : DWord) (offset size : Nat) (v : DWord) : DWord :=
  if size == 8 then v
  else if offset % 8 == 0 then old.extractLsb' 32 32 ++ v.extractLsb' 0 32
  else v.extractLsb' 0 32 ++ old.extractLsb' 0 32

/-- A write in one access of a legal shape. -/
def State.writeWhole (s : State) (offset size : Nat) (v : DWord) : Host.Outcome State Fault Refusal :=
  let k := offset / 8
  s.writeDword k (mergeWrite (s.readDword k) offset size v) (size == 8 || offset % 8 == 0)
    (size == 8 || offset % 8 == 4)

/-- From `s` to `t` an operation has started that a `ddtp` or debug write stands for: `busy` or `Go/Busy` became 1. -/
def State.startedIn (s t : State) : Bool :=
  (!s.ddtpBusy && t.ddtpBusy) || (!s.trReqCtl.goBusy && t.trReqCtl.goBusy)

/-- The first half of a split 8-byte write; `high` says that it is the high one. -/
def State.writeFirstHalf (s : State) (offset : Nat) (high : Bool) (v : DWord) : Host.Outcome State Fault Refusal :=
  let hi := v.extractLsb' 32 32
  let lo := v.extractLsb' 0 32
  match s.writeWhole (if high then offset + 4 else offset) 4 ((if high then hi else lo).setWidth 64) with
  | .next t => .next { t with halves := t.halves ++ [.write offset (!high) (if high then lo else hi) (s.startedIn t)] }
  | .fault f => .fault f
  | .refused r => .refused r

/-- The high half of a split write of `ddtp` whose low half is written: only `PPN` bits, at once. It is refused as a write
of its own would be while `busy` is 1 (U5), unless the low half of this write set it (`started`; assumption 6), and as a
modification during a debug request (U16). -/
def State.finishDdtp (s : State) (v : DWord) (started : Bool) : Host.Outcome State Fault Refusal :=
  if s.ddtpBusy && !started then .refused (.writeWhileBusy 20)
  else if s.trReqCtl.goBusy && (s.setDdtpHigh v).ddtp != s.ddtp then .refused (.debugInProgress 20)
  else .next (s.setDdtpHigh v)

/-- The second half of a split 8-byte write. The high half of `ddtp` and of `tr_req_ctl` takes effect although the low
one of this write has started the operation (`started`), as long as that operation has not ended
(`State.endOperation`): it is the same write of software (10_state R105, "as long as
the register semantics are respected"; assumption 6). Otherwise it is refused where any write would be (48 R633). -/
def State.writeSecondHalf (s : State) (offset : Nat) (high : Bool) (v : Word) (started : Bool) :
    Host.Outcome State Fault Refusal :=
  let o := if high then offset + 4 else offset
  let d := mergeWrite (s.readDword (o / 8)) o 4 (v.setWidth 64)
  if high && offset == 16 then s.finishDdtp d started
  else if high && offset == 608 && s.cfg.dbg && started then
    .next { s with trReqCtl := newTrReqCtl s.trReqCtl d false }
  else s.writeWhole o 4 (v.setWidth 64)

/-- The second half of split access `k` is performed (20_memory R182). -/
def State.finishHalf (s : State) (k : Nat) : Host.Outcome State Fault Refusal :=
  let t := { s with halves := removeAt s.halves k }
  match elementAt s.halves k with
  | some (.read offset high other) => .next (t.readSecondHalf offset high other)
  | some (.write offset high v started) => t.writeSecondHalf offset high v started
  | none => .next s

/-- A hart writes a register; an access of another shape is refused (U1). -/
def State.hostWrite (s : State) (offset size : Nat) (v : DWord) : Host.Outcome State Fault Refusal :=
  if !legalAccess offset size then .refused (.registerAccess offset size)
  else if size == 8 && s.cfg.splitAccesses && s.splitChoice != 0 then
    s.nextDraw.writeFirstHalf offset (s.splitChoice == 1) v
  else if size == 8 && s.cfg.splitAccesses then s.nextDraw.writeWhole offset size v
  else s.writeWhole offset size v

/-- A hart stores bytes to memory; an address outside the 56-bit space does not exist (20_memory R180). -/
def State.hostStore (s : State) (addr : Nat) (bytes : List Byte) : Host.Outcome State Fault Refusal :=
  if addr + bytes.length ≤ 2 ^ spaBits then .next { s with mem := s.mem.writeBytes addr bytes }
  else .fault (.noSuchAddress addr)

end Sys2Proof.Machine
end

