-- ==== Sys2Proof/Machine/CommandQueue.lean ====
section
/-! DEFINITION. The command-queue engine (40_command_queue R395 to R404): fetch, execution at once or later, the pending fence. -/

namespace Sys2Proof.Machine

/-- `CQ_fetch` (40 R395) with the command executed as it is fetched. -/
def State.fetchAndExecute (s : State) : Host.Outcome State Fault Refusal :=
  if !s.cqReady then .next s
  else
    match s.fetch with
    | .error e => .next (s.takeCommandError e)
    | .ok i => exec i s

/-- The command is `IOFENCE.C`, which holds `cqh` (40 R399). -/
def isFence : Instr → Bool
  | .iotinvalVma _ _ _ _ _ _ => false
  | .iotinvalGvma _ _ _ _ _ _ => false
  | .iofenceC _ _ _ _ _ _ => true
  | .iodirInvalDdt _ _ _ => false
  | .iodirInvalPdt _ _ _ => false
  | .atsInval _ _ _ _ _ _ => false
  | .atsPrgr _ _ _ _ _ _ => false

/-- `CQ_fetch` (40 R395) with the command left for later: in flight and passed by `cqh`, or for a fence pending. -/
def State.fetchDeferred (s : State) : State :=
  if !s.cqReady then s
  else
    match s.fetch with
    | .error e => s.takeCommandError e
    | .ok i =>
      if !s.supports i then s.takeCommandError .illegal
      else if isFence i then { s with fence := some i }
      else State.advanceHead { s with inflight := s.inflight ++ [⟨i, .fetched⟩] }

/-- The pending fence is tried (42_cmd_iofence R441): enabled when every command fetched before it has completed. -/
def State.tryFence (s : State) : Host.Outcome State Fault Refusal :=
  match s.fence with
  | some i => if s.fenceReady && !s.failed then exec i { s with fence := none } else .next s
  | none => .next s

/-- The effect of a fetched command (40 R400); a fence is never in flight. -/
def deferredEffect (i : Instr) (s : State) : State :=
  match i with
  | .iotinvalVma av pscid pscv gv gscid addr => effectIotinvalVma av pscid pscv gv gscid addr s
  | .iotinvalGvma av _ _ gv gscid addr => effectIotinvalGvma av gv gscid addr s
  | .iofenceC _ _ _ _ _ _ => s
  | .iodirInvalDdt _ dv did => effectIodirInvalDdt dv did s
  | .iodirInvalPdt pid _ did => effectIodirInvalPdt pid did s
  | .atsInval pid pv dsv rid dseg payload => effectAtsInval pid pv dsv rid dseg payload s
  | .atsPrgr pid pv dsv rid dseg payload => effectAtsPrgr pid pv dsv rid dseg payload s

/-- What is left in flight of a command that has executed: an `ATS.INVAL` waits for its completion (44_cmd_ats R482),
any other is complete (40 R400). -/
def afterExecution (i : Instr) (l : List InFlight) (k : Nat) : List InFlight :=
  match i with
  | .iotinvalVma _ _ _ _ _ _ => removeAt l k
  | .iotinvalGvma _ _ _ _ _ _ => removeAt l k
  | .iofenceC _ _ _ _ _ _ => removeAt l k
  | .iodirInvalDdt _ _ _ => removeAt l k
  | .iodirInvalPdt _ _ _ => removeAt l k
  | .atsInval _ _ _ _ _ _ => replaceAt l k ⟨i, .waiting⟩
  | .atsPrgr _ _ _ _ _ _ => removeAt l k

/-- In-flight command `k` executes, in any order with the others (40 R396). -/
def State.executeInFlight (s : State) (k : Nat) : State :=
  if s.failed then s
  else
    match elementAt s.inflight k with
    | some ⟨i, .fetched⟩ => { deferredEffect i s with inflight := afterExecution i s.inflight k }
    | _ => s

/-- In-flight command `k` is abandoned: allowed once an error has stopped the queue or while it is being turned off
(40 R401, R404; U11). A fence pending behind it stays, and may complete once no other command is in flight (assumption
13). -/
def State.abandon (s : State) (k : Nat) : State :=
  if s.cqcsr.stopped || !s.cqcsr.cqen then { s with inflight := removeAt s.inflight k } else s

/-- The first in-flight command that has not executed. -/
def firstFetched : List InFlight → Option Nat
  | [] => none
  | c :: cs => if c.phase == .fetched then some 0 else (firstFetched cs).map (· + 1)

/-- The first in-flight command that waits for its completion. -/
def firstWaiting : List InFlight → Option Nat
  | [] => none
  | c :: cs => if c.phase == .waiting then some 0 else (firstWaiting cs).map (· + 1)

end Sys2Proof.Machine
end

