-- ==== Sys2Proof/Machine/Step.lean ====
section
/-! DEFINITION. One step of the machine: the event at the head of the agenda, or with an empty agenda the first enabled agent in a fixed order (assumption 1). -/

namespace Sys2Proof.Machine

/-- A `device_id` as the IO bridge presents it, `DID_WIDTH` bits (00_scope R9). -/
def Config.deviceId (c : Config) (d : BitVec 24) : BitVec 24 := BitVec.ofNat 24 (d.toNat % 2 ^ c.didWidth)

/-- A `process_id` as the IO bridge presents it, `PID_WIDTH` bits (00_scope R9). -/
def Config.processId (c : Config) (p : BitVec 20) : BitVec 20 := BitVec.ofNat 20 (p.toNat % 2 ^ c.pidWidth)

/-- A message as the IO bridge presents it. -/
def Config.message (c : Config) (m : OtherMessage) : OtherMessage :=
  { m with deviceId := Config.deviceId c m.deviceId, pasid := m.pasid.map (Config.processId c) }

/-- What one event does. -/
def perform (e : Event) (s : State) : Host.Outcome State Fault Refusal :=
  match e with
  | .hostRead offset size => s.hostRead offset size
  | .hostWrite offset size v => s.hostWrite offset size v
  | .hostStore addr bytes => s.hostStore addr bytes
  | .request r =>
    .next { s with requests := s.requests ++
      [⟨{ r with deviceId := Config.deviceId s.cfg r.deviceId, processId := r.processId.map (Config.processId s.cfg) },
        none⟩] }
  | .pageRequest m =>
    .next { s with pages := s.pages ++
      [⟨{ m with deviceId := Config.deviceId s.cfg m.deviceId, pasid := m.pasid.map (Config.processId s.cfg) },
        none⟩] }
  | .otherMessage m => .next (s.handleOther s.ddtpAlternatives (Config.message s.cfg m))
  | .beginOther m => s.beginOther (Config.message s.cfg m)
  | .invalCompletion did k => .next (s.invalCompleted (Config.deviceId s.cfg did) k)
  | .beginCompletion did k => s.beginCompletion (Config.deviceId s.cfg did) k
  | .invalTimeout k => .next (s.invalTimedOut k)
  | .cqFetch => s.fetchAndExecute
  | .cqFetchDeferred => .next s.fetchDeferred
  | .cqFence => s.tryFence
  | .cqExecute k => .next (s.executeInFlight k)
  | .cqDrop k => .next (s.abandon k)
  | .translate k => s.serveAt k
  | .beginTranslate k => s.beginTranslate k
  | .advance k pick => s.advance k pick
  | .writeFault k => .next (s.writeFault k)
  | .dropFault k => .next (s.dropFault k)
  | .writePage => .next s.writePage
  | .decidePage => .next s.decidePage
  | .beginPage => s.beginPage
  | .finishHalf k => s.finishHalf k
  | .msiSend v => .next (s.msiSend v)
  | .ddtpDone => .next s.ddtpComplete
  | .cqDone => .next s.cqComplete
  | .fqDone => .next s.fqComplete
  | .pqDone => .next s.pqComplete
  | .debug => .next s.debugStep
  | .beginDebug => s.beginDebug
  | .clock n => .next (s.advanceClock n)
  | .evict k => .next { s with ioatc := removeAt s.ioatc k }
  | .commit k => .next { s with accesses := removeAt s.accesses k }
  | .internalError k => .next (s.internalErrorAt k)
  | .internalErrorActive k => .next (s.internalErrorActive k)
  | .fail => .next { s with failed := true }

/-- The lowest vector whose MSI is ready. -/
def State.readyVector (s : State) : Option (BitVec 4) :=
  ((List.range 16).map (BitVec.ofNat 4)).find? s.msiReady

/-- The page-request writer has a record to write or a message to deal with. -/
def State.pagesWaiting (s : State) : Bool := !s.pages.isEmpty || !s.pageRecords.isEmpty

/-- The step of the command queue that is enabled: none in the failed state (assumption 11). -/
def State.commandStep (s : State) : Option Event :=
  if s.failed then none
  else if s.cqReady then some .cqFetch
  else if s.fence.isSome && s.fenceReady then some .cqFence
  else (firstFetched s.inflight).map Event.cqExecute

/-- The agent that moves when the agenda says nothing; `none` when no step is enabled: the command queue first, then the
others in the same order in the failed state as outside it, so that a debug request in progress ends there too
(48_debug_interface R633: a fair step). Last of all, an `ATS.INVAL` that nothing will answer times out (44_cmd_ats
R486). The order is the model's (DESIGN CHOICE, assumptions 1 and 11). -/
def State.scheduled (s : State) : Option Event :=
  match s.commandStep with
  | some e => some e
  | none =>
    if !s.halves.isEmpty then some (.finishHalf 0)
    else if !s.activations.isEmpty then some (.advance 0 0)
    else if !s.faults.isEmpty then some (.writeFault 0)
    else if s.pagesWaiting then some .writePage
    else if !s.requests.isEmpty then some (.translate 0)
    else if s.trReqCtl.goBusy then some .debug
    else if s.ddtpBusy then some .ddtpDone
    else if s.cqcsr.busy then some .cqDone
    else if s.fqcsr.busy then some .fqDone
    else if s.pqcsr.busy then some .pqDone
    else
      match s.readyVector with
      | some v => some (.msiSend v)
      | none => (firstWaiting s.inflight).map Event.invalTimeout

/-- One step. -/
def step (s : State) : Host.Outcome State Fault Refusal :=
  match s.agenda with
  | e :: rest => perform e { s with agenda := rest }
  | [] =>
    match s.scheduled with
    | some e => perform e s
    | none => .next s

/-- The rule that lets the fetch of the entry at `cqh` succeed, whatever the size of its accesses, where the platform's own
rules do not. -/
def State.withFetchRule (s : State) : State :=
  if s.fetchAllowed then s
  else { s with cfg := { s.cfg with pma := ⟨s.commandAddr, 16, none, some .read, .ok⟩ :: s.cfg.pma } }

/-- The state with the command `w` stored where the next step fetches (assumption 7): the queue on and operational with
that one command in it, and nothing the environment does first. -/
def State.withFetchWord (s : State) (nbits w : Nat) : State :=
  let v := w % 2 ^ nbits
  let h := s.cqb.clip s.cqh
  let t := { s with
    cqh := h
    cqt := s.cqb.next h
    fence := none
    failed := false
    agenda := []
    cqcsr := { s.cqcsr with cqen := true, cqon := true, cqmf := false, cmdTo := false, cmdIll := false } }
  let bytes := toBytes t.fctl.be 8 (v % 2 ^ 64) ++ toBytes t.fctl.be 8 (v / 2 ^ 64)
  { t with mem := t.mem.writeBytes t.commandAddr bytes }.withFetchRule

end Sys2Proof.Machine
end

