-- ==== Sys2Proof/Safety.lean ====
section
/-! DEFINITION. What the statements speak of: the invariants of the machine, and the parts of the state a command may change. -/

namespace Sys2Proof.Machine

/-- Every memory an activation under way has found is in canonical form. -/
def Activation.MemoryCanonical (a : Activation) : Prop :=
  a.start.mem.wf = true ∧ ∀ t ∈ a.turns, t.shared.mem.wf = true

/-- The memory is in canonical form (assumption 2), and so is every memory that an activation under way has found. -/
def State.MemoryCanonical (s : State) : Prop := s.mem.wf = true ∧ ∀ a ∈ s.activations, a.MemoryCanonical

/-- No pending bit of `ipsr` is lost: a bit whose level condition holds is set (10_state R91, R92, R94, R95). -/
def State.InterruptsHeld (s : State) : Prop :=
  (s.cipLevel = true → s.ipsr.cip = true) ∧ (s.fipLevel = true → s.ipsr.fip = true) ∧
  (s.pipLevel = true → s.ipsr.pip = true)

/-- The command is an `ATS.INVAL`, the only one that waits for an answer (42_cmd_iofence R445). -/
def IsAtsInval (i : Instr) : Prop :=
  ∃ pid pv dsv rid dseg payload, i = .atsInval pid pv dsv rid dseg payload

/-- What is pending is a fence, held only while the queue is on and without error (40_command_queue R399, R401); what is
in flight is no fence, and waits only if it is an `ATS.INVAL` (R400). -/
def State.CommandsCoherent (s : State) : Prop :=
  (∀ i, s.fence = some i → isFence i = true ∧ s.cqcsr.cqon = true ∧ s.cqcsr.stopped = false) ∧
  (∀ c ∈ s.inflight, isFence c.cmd = false ∧ (c.phase = .waiting → IsAtsInval c.cmd))

/-- The indices, software's and the IOMMU's, lie in their queues (20_memory R221, 10_state R30). -/
def State.IndicesInRange (s : State) : Prop :=
  s.cqt.toNat < s.cqb.entries ∧ s.fqh.toNat < s.fqb.entries ∧ s.pqh.toNat < s.pqb.entries ∧
  s.cqh.toNat < s.cqb.entries ∧ s.fqt.toNat < s.fqb.entries ∧ s.pqt.toNat < s.pqb.entries

/-- The 8-byte register a split access is to. -/
def HalfAccess.offset : HalfAccess → Nat
  | .read o _ _ => o
  | .write o _ _ _ => o

/-- The accesses still to be finished are to 64-bit registers (20_memory R182). -/
def State.HalvesLegal (s : State) : Prop := ∀ h ∈ s.halves, legalAccess h.offset 8 = true

/-- The fields with fewer legal values than bits hold legal ones: event selectors (11_state_hpm_debug R138, R139),
counters within their widths (R133, R136), vectors (10_state R98), and split accesses are to 64-bit registers. -/
def State.LegalValues (s : State) : Prop :=
  (∀ n : Fin 31, (s.iohpmevt.get n).eventId.toNat ≤ 8 ∧ (s.iohpmctr.get n).toNat < 2 ^ s.cfg.hpmWidth) ∧
  s.iohpmcycles.counter.toNat < 2 ^ s.cfg.cyclesWidth ∧
  s.icvec.civ.toNat < 2 ^ s.cfg.vecBits ∧ s.icvec.fiv.toNat < 2 ^ s.cfg.vecBits ∧
  s.icvec.pmiv.toNat < 2 ^ s.cfg.vecBits ∧ s.icvec.piv.toNat < 2 ^ s.cfg.vecBits ∧ s.HalvesLegal

/-- `t` is `s` but for what a command may change: `cqh`, `cqcsr`, `ipsr` and the MSIs it owes, the cached entries, what the
activations under way know of invalidations, the command queue's own bookkeeping, the messages sent, the device accesses committed, and memory
(40_command_queue R410). -/
def OnlyCommandState (s t : State) : Prop :=
  t = { s with
    cqh := t.cqh, cqcsr := t.cqcsr, ipsr := t.ipsr, msiOwed := t.msiOwed, ioatc := t.ioatc, inflight := t.inflight,
    activations := t.activations,
    fence := t.fence, timedOut := t.timedOut, accesses := t.accesses, messages := t.messages, mem := t.mem } ∧
  t.activations.map (fun a => { a with lost := [] }) = s.activations.map (fun a => { a with lost := [] })

/-- The event lets the command queue engine move. -/
def Event.isCommandStep : Event → Bool
  | .cqFetch => true
  | .cqFetchDeferred => true
  | .cqFence => true
  | _ => false

/-- The event is a write of `cqcsr` by a hart. -/
def Event.writesCqcsr : Event → Bool
  | .hostWrite offset _ _ => offset == 72
  | _ => false

/-- The event may write `cqb`: a write by a hart, or the second half of a split one. -/
def Event.writesCqb : Event → Bool
  | .hostWrite offset _ _ => offset == 24 || offset == 28
  | .finishHalf _ => true
  | _ => false

/-- The four doublewords of a fault-queue entry, as stored at address `a` (60_exceptions R661). -/
def State.recordAt (s : State) (a : Nat) : List DWord :=
  [s.mem.read64 a s.fctl.be, s.mem.read64 (a + 8) s.fctl.be, s.mem.read64 (a + 16) s.fctl.be,
   s.mem.read64 (a + 24) s.fctl.be]

end Sys2Proof.Machine
end

