-- ==== Sys2Proof/Certificates/Slice0/Obligations.lean ====
section
/-! DEFINITION. The statements for the provers. Where a docstring says that something is the model's choice, it names the log entry. -/

open Sys2Proof Sys2Proof.Machine

/-! ## Encoding (30_encoding) -/

/-- Decoding an encoded well-formed command gives it back, as doublewords and as queue bytes in either byte order
(30_encoding R350, R355 to R358). -/
def Obligations.DecodeOfEncodeIsIdentity : Prop :=
  ∀ i : Instr, i.wellFormed = true →
    decode (encode i).1 (encode i).2 = .ok i ∧ ∀ be, decodeBytes be (encodeBytes be i) = .ok i

/-- A pair of doublewords that decodes is the encoding of the command it decodes to, which is well-formed: no bit of a
legal command is ignored by the decoder, and no two patterns mean the same command. -/
def Obligations.EncodeOfDecodeIsIdentity : Prop :=
  ∀ (dw0 dw1 : DWord) (i : Instr), decode dw0 dw1 = .ok i → encode i = (dw0, dw1) ∧ i.wellFormed = true

/-- The opcodes 0 and 5 to 127 decode to no command (30_encoding R352, R376 items 1 and 8). That the custom opcodes 64
to 127 are none is the spec's own decision D16 (R378), not its source's. -/
def Obligations.OtherOpcodesNeverDecode : Prop :=
  ∀ (dw0 dw1 : DWord) (i : Instr),
    ((dw0.extractLsb' 0 7).toNat = 0 ∨ 5 ≤ (dw0.extractLsb' 0 7).toNat) → decode dw0 dw1 ≠ .ok i

/-- Words written out from the spec's encodings (95_test_vectors T1) decode to the commands they stand for. -/
def Obligations.SpecWordsDecode : Prop :=
  decode 0x0000000112345401#64 0x0000001000080400#64 =
    .ok (.iotinvalVma true 0x12345#20 true false 0#16 0x4000201#52) ∧
  decode 0x0000700200000481#64 0x000000003FB75400#64 =
    .ok (.iotinvalGvma true 0#20 false true 7#16 0xFEDD5#52) ∧
  decode 0xCAFEF00D00003402#64 0x0000000020000400#64 =
    .ok (.iofenceC true false true true 0xCAFEF00D#32 0x20000400#62) ∧
  decode 0x0001230200000003#64 0#64 = .ok (.iodirInvalDdt 0#20 true 0x000123#24) ∧
  decode 0x0001230200042083#64 0#64 = .ok (.iodirInvalPdt 0x00042#20 true 0x000123#24) ∧
  decode 0x0202080300009004#64 0x7FFFFFFFFFFFF800#64 =
    .ok (.atsInval 9#20 true true 0x0208#16 2#8 0x7FFFFFFFFFFFF800#64) ∧
  decode 0x0001000100007084#64 0x0100000500000000#64 =
    .ok (.atsPrgr 7#20 true false 0x0100#16 0#8 0x0100000500000000#64)

/-! ## The step and the fetch (40_command_queue) -/

/-- When the queue may fetch, the entry at `cqh` can be read (the test of R395 and each access the read is made of are
allowed, log entry 38) and its sixteen bytes decode to a well-formed command, the step is that command: with nothing on
the agenda (the model's default order, log entry 1), and when the agenda says that the queue fetches. `cqh` moves as
`exec` says. -/
def Obligations.StepRunsDecodedCommand : Prop :=
  ∀ (s : State) (i : Instr), s.cqReady = true → s.fetchAllowed = true →
    decodeBytes s.fctl.be (s.mem.readBytes s.commandAddr 16) = .ok i →
    (s.agenda = [] → step s = exec i s) ∧
    (∀ rest, s.agenda = .cqFetch :: rest → step s = exec i { s with agenda := rest })

/-- A fetch of which an access is refused or returns corrupted data sets `cqmf` and `cip` (if `cie`), leaves `cqh` at
the command, records no fault, and the queue fetches no more (40_command_queue R397, R402). That the step with an empty
agenda is the fetch is the model's fixed order of agents (log entry 1). -/
def Obligations.FetchFaultStalls : Prop :=
  ∀ s : State, s.agenda = [] → s.cqReady = true →
    (check s.cfg s.commandAddr 16 .read ≠ .ok ∨ permitted s.cfg s.commandAddr 16 .read = false) →
    ∃ t, step s = .next t ∧ t.cqcsr = { s.cqcsr with cqmf := true } ∧ t.cqh = s.cqh ∧ t.cqReady = false ∧
      t.ipsr = { s.ipsr with cip := s.ipsr.cip || s.cqcsr.cie } ∧ t.faults = s.faults ∧
      t = { s with cqcsr := t.cqcsr, ipsr := t.ipsr, msiOwed := t.msiOwed }

/-- A fetched command that is illegal or unsupported sets `cmd_ill` and `cip` (if `cie`), has no other effect, and
stops the queue with `cqh` at it (40_command_queue R398, R402). That the step with an empty agenda is the fetch is the
model's fixed order of agents (log entry 1). -/
def Obligations.IllegalCommandStops : Prop :=
  ∀ s : State, s.agenda = [] → s.cqReady = true → s.fetchAllowed = true →
    (∀ i, decodeBytes s.fctl.be (s.mem.readBytes s.commandAddr 16) = .ok i → s.supports i = false) →
    ∃ t, step s = .next t ∧ t.cqcsr = { s.cqcsr with cmdIll := true } ∧ t.cqh = s.cqh ∧ t.cqReady = false ∧
      t.ipsr = { s.ipsr with cip := s.ipsr.cip || s.cqcsr.cie } ∧
      t = { s with cqcsr := t.cqcsr, ipsr := t.ipsr, msiOwed := t.msiOwed }

/-- While an error bit is 1 neither fetch does anything (40_command_queue R401). -/
def Obligations.ErrorBitStopsFetch : Prop :=
  ∀ s : State, (s.cqcsr.cqmf = true ∨ s.cqcsr.cmdTo = true ∨ s.cqcsr.cmdIll = true) →
    perform .cqFetch s = .next s ∧ perform .cqFetchDeferred s = .next s

/-- A write of `cqcsr` that keeps `cqen` at 1 and writes 1 to the three error bits makes the queue fetch the entry at
the unchanged `cqh` again (10_state R69, 40_command_queue R403). -/
def Obligations.ClearingErrorsRestarts : Prop :=
  ∀ (s : State) (v : DWord), s.cqcsr.busy = false → s.cqcsr.cqen = true → s.cqcsr.cqon = true → s.failed = false →
    s.fence = none → s.cqh ≠ s.cqt → v.getLsbD 0 = true → v.getLsbD 8 = true → v.getLsbD 9 = true →
    v.getLsbD 10 = true →
    ∃ t, s.hostWrite 72 4 v = .next t ∧ t.cqReady = true ∧ t.cqh = s.cqh ∧ t.commandAddr = s.commandAddr ∧
      t.cqcsr.cie = v.getLsbD 1 ∧ t.mem = s.mem ∧ t.inflight = s.inflight

/-! ## Commands: each answers a next state, with its result and what it leaves alone -/

/-- `IOTINVAL.VMA`, in every state: `cqh` advances, no cached entry that the operands cover is left, and nothing else
changes but the loss of those and what the activations under way know of it (41_cmd_iotinval R421, R426, R428;
20_memory R214, log entry 41). That no other entry goes is the model's choice among what R429 allows (log entry 8). -/
def Obligations.IotinvalVmaResult : Prop :=
  ∀ (av : Bool) (pscid : BitVec 20) (pscv gv : Bool) (gscid : BitVec 16) (addr : BitVec 52) (s : State),
    ∃ t, Machine.exec (.iotinvalVma av pscid pscv gv gscid addr) s = .next t ∧
      t = { s with ioatc := t.ioatc, cqh := s.cqb.next s.cqh,
                   activations := s.activations.map (Activation.lose (.vma av pscid pscv gv gscid addr)) } ∧
      (∀ a, t.mem.read a = s.mem.read a) ∧
      (∀ eg ep g p, CacheEntry.first eg ep g p ∈ t.ioatc ↔ CacheEntry.first eg ep g p ∈ s.ioatc ∧
        ¬ ((if gv then eg = some gscid else eg = none) ∧ (pscv = true → ep = pscid ∧ g = false) ∧
           (av = true → p.leaf = true ∧ p.base ≤ addr.toNat * 4096 ∧ addr.toNat * 4096 < p.base + 2 ^ p.sizeLog2))) ∧
      (∀ eg ep g p q, CacheEntry.combined eg ep g p q ∈ t.ioatc ↔ CacheEntry.combined eg ep g p q ∈ s.ioatc ∧
        ¬ (gv = true ∧ eg = gscid ∧ (pscv = true → ep = pscid ∧ g = false) ∧
           (av = true → p.leaf = true ∧ p.base ≤ addr.toNat * 4096 ∧ addr.toNat * 4096 < p.base + 2 ^ p.sizeLog2))) ∧
      (∀ e, (∀ eg ep g p, e ≠ .first eg ep g p) → (∀ eg ep g p q, e ≠ .combined eg ep g p q) →
        (e ∈ t.ioatc ↔ e ∈ s.ioatc))

/-- `IOTINVAL.GVMA` with `PSCV`=0, in every state: `cqh` advances, and exactly the covered second-stage, MSI and
combined entries go (41_cmd_iotinval R422, R425, R426, R428; the others staying is log entry 8), which the activations
under way learn (20_memory R214, log entry 41). That an MSI entry tagged by its device goes with the `GSCID` its DC
held is the model's choice (log entry 12). -/
def Obligations.IotinvalGvmaResult : Prop :=
  ∀ (av : Bool) (pscid : BitVec 20) (gv : Bool) (gscid : BitVec 16) (addr : BitVec 52) (s : State),
    ∃ t, Machine.exec (.iotinvalGvma av pscid false gv gscid addr) s = .next t ∧
      t = { s with ioatc := t.ioatc, cqh := s.cqb.next s.cqh,
                   activations := s.activations.map (Activation.lose (.gvma av gv gscid addr)) } ∧
      (∀ a, t.mem.read a = s.mem.read a) ∧
      (∀ eg p, CacheEntry.second eg p ∈ t.ioatc ↔ CacheEntry.second eg p ∈ s.ioatc ∧
        ¬ ((gv = true → eg = gscid) ∧ (gv = true → av = true →
           p.leaf = true ∧ p.base ≤ addr.toNat * 4096 ∧ addr.toNat * 4096 < p.base + 2 ^ p.sizeLog2))) ∧
      (∀ eg dev page d0 d1, CacheEntry.msi eg dev page d0 d1 ∈ t.ioatc ↔
        CacheEntry.msi eg dev page d0 d1 ∈ s.ioatc ∧
        ¬ ((gv = true → eg = gscid) ∧ (gv = true → av = true → page = addr.toNat))) ∧
      (∀ eg ep g p q, CacheEntry.combined eg ep g p q ∈ t.ioatc ↔ CacheEntry.combined eg ep g p q ∈ s.ioatc ∧
        ¬ ((gv = true → eg = gscid) ∧ (gv = true → av = true →
           q.leaf = true ∧ q.base ≤ addr.toNat * 4096 ∧ addr.toNat * 4096 < q.base + 2 ^ q.sizeLog2))) ∧
      (∀ e, (∀ eg p, e ≠ .second eg p) → (∀ eg dev page d0 d1, e ≠ .msi eg dev page d0 d1) →
        (∀ eg ep g p q, e ≠ .combined eg ep g p q) → (e ∈ t.ioatc ↔ e ∈ s.ioatc))

/-- `IODIR.INVAL_DDT` with `PID`=0, in every state: `cqh` advances, and exactly the covered directory entries go, all
for `DV`=0, for `DV`=1 the DC of `DID` with every PDT entry and PC of that device, each with the pointer it carries
(43_cmd_iodir R462, R464, R466; the others staying is log entry 8); the activations under way learn it (20_memory R214,
log entry 41). That a `DID` too wide for the mode in force matches a copy cached under a wider one, where R467 and D19
have it match nothing, is the model's choice (log entry 40). -/
def Obligations.IodirInvalDdtResult : Prop :=
  ∀ (dv : Bool) (did : BitVec 24) (s : State),
    ∃ t, Machine.exec (.iodirInvalDdt 0#20 dv did) s = .next t ∧
      t = { s with ioatc := t.ioatc, cqh := s.cqb.next s.cqh,
                   activations := s.activations.map (Activation.lose (.ddt dv did)) } ∧
      (∀ a, t.mem.read a = s.mem.read a) ∧
      (∀ d l v, CacheEntry.ddte d l v ∈ t.ioatc ↔ CacheEntry.ddte d l v ∈ s.ioatc ∧ dv = true) ∧
      (∀ d v q, CacheEntry.dc d v q ∈ t.ioatc ↔ CacheEntry.dc d v q ∈ s.ioatc ∧ dv = true ∧ d ≠ did) ∧
      (∀ d p l v q, CacheEntry.pdte d p l v q ∈ t.ioatc ↔ CacheEntry.pdte d p l v q ∈ s.ioatc ∧ dv = true ∧ d ≠ did) ∧
      (∀ d p v q, CacheEntry.pc d p v q ∈ t.ioatc ↔ CacheEntry.pc d p v q ∈ s.ioatc ∧ dv = true ∧ d ≠ did) ∧
      (∀ e, (∀ d l v, e ≠ .ddte d l v) → (∀ d v q, e ≠ .dc d v q) → (∀ d p l v q, e ≠ .pdte d p l v q) →
        (∀ d p v q, e ≠ .pc d p v q) → (e ∈ t.ioatc ↔ e ∈ s.ioatc))

/-- `IODIR.INVAL_PDT` with `DV`=1, in every state: `cqh` advances, the PC of (`DID`, `PID`) goes, with the pointer it
carries (43_cmd_iodir R463, R464, R466), and so do the copies of non-leaf PDT entries read for that process, which the
command need not remove by R464 and covers by 20_memory R212 (the model's choice, log entry 30); the others staying is
log entry 8, that the activations under way learn it log entry 41, and that a `DID` too wide for the mode in force
matches like any other log entry 40. -/
def Obligations.IodirInvalPdtResult : Prop :=
  ∀ (pid : BitVec 20) (did : BitVec 24) (s : State),
    ∃ t, Machine.exec (.iodirInvalPdt pid true did) s = .next t ∧
      t = { s with ioatc := t.ioatc, cqh := s.cqb.next s.cqh,
                   activations := s.activations.map (Activation.lose (.pdt pid did)) } ∧
      (∀ a, t.mem.read a = s.mem.read a) ∧
      (∀ d p v q, CacheEntry.pc d p v q ∈ t.ioatc ↔ CacheEntry.pc d p v q ∈ s.ioatc ∧ ¬ (d = did ∧ p = pid)) ∧
      (∀ d p l v q, CacheEntry.pdte d p l v q ∈ t.ioatc ↔
        CacheEntry.pdte d p l v q ∈ s.ioatc ∧ ¬ (d = did ∧ p = pid)) ∧
      (∀ e, (∀ d p v q, e ≠ .pc d p v q) → (∀ d p l v q, e ≠ .pdte d p l v q) → (e ∈ t.ioatc ↔ e ∈ s.ioatc))

/-- What the two `IODIR` commands remove, and that no `IODIR` command removes page-table or MSI entries and no
`IOTINVAL` command directory entries (derived from 43_cmd_iodir R464). Over every operand, legal or not: an illegal
command removes nothing. Where the `DID` is too wide for the mode in force, R467 and 92_eei_decisions D19 say that the
command matches nothing; that it removes copies cached under a wider mode too is the model's choice (log entry 40). -/
def Obligations.DirectoryCoverage : Prop :=
  (∀ (did : BitVec 24) (s t : State), Machine.exec (.iodirInvalDdt 0#20 false did) s = .next t →
    ∀ e ∈ t.ioatc, (∀ d l v, e ≠ .ddte d l v) ∧ (∀ d v q, e ≠ .dc d v q) ∧ (∀ d p l v q, e ≠ .pdte d p l v q) ∧
      (∀ d p v q, e ≠ .pc d p v q)) ∧
  (∀ (did : BitVec 24) (s t : State), Machine.exec (.iodirInvalDdt 0#20 true did) s = .next t →
    ∀ e ∈ t.ioatc, (∀ v q, e ≠ .dc did v q) ∧ (∀ p l v q, e ≠ .pdte did p l v q) ∧ (∀ p v q, e ≠ .pc did p v q)) ∧
  (∀ (pid : BitVec 20) (did : BitVec 24) (s t : State), Machine.exec (.iodirInvalPdt pid true did) s = .next t →
    ∀ e ∈ t.ioatc, ∀ v q, e ≠ .pc did pid v q) ∧
  (∀ (pid : BitVec 20) (dv : Bool) (did : BitVec 24) (s t : State),
    (Machine.exec (.iodirInvalDdt pid dv did) s = .next t ∨ Machine.exec (.iodirInvalPdt pid dv did) s = .next t) →
    (∀ eg ep g p, CacheEntry.first eg ep g p ∈ s.ioatc → CacheEntry.first eg ep g p ∈ t.ioatc) ∧
    (∀ eg p, CacheEntry.second eg p ∈ s.ioatc → CacheEntry.second eg p ∈ t.ioatc) ∧
    (∀ eg ep g p q, CacheEntry.combined eg ep g p q ∈ s.ioatc → CacheEntry.combined eg ep g p q ∈ t.ioatc) ∧
    (∀ eg dev page d0 d1, CacheEntry.msi eg dev page d0 d1 ∈ s.ioatc →
      CacheEntry.msi eg dev page d0 d1 ∈ t.ioatc)) ∧
  (∀ (av : Bool) (pscid : BitVec 20) (pscv gv : Bool) (gscid : BitVec 16) (addr : BitVec 52) (s t : State),
    (Machine.exec (.iotinvalVma av pscid pscv gv gscid addr) s = .next t ∨
      Machine.exec (.iotinvalGvma av pscid pscv gv gscid addr) s = .next t) →
    (∀ d l v, CacheEntry.ddte d l v ∈ s.ioatc → CacheEntry.ddte d l v ∈ t.ioatc) ∧
    (∀ d v q, CacheEntry.dc d v q ∈ s.ioatc → CacheEntry.dc d v q ∈ t.ioatc) ∧
    (∀ d p l v q, CacheEntry.pdte d p l v q ∈ s.ioatc → CacheEntry.pdte d p l v q ∈ t.ioatc) ∧
    (∀ d p v q, CacheEntry.pc d p v q ∈ s.ioatc → CacheEntry.pc d p v q ∈ t.ioatc))

/-- `ATS.INVAL` on an IOMMU with ATS, in every state: the Invalidation Request is sent, the command stays in flight
waiting, `cqh` advances, and nothing else changes (44_cmd_ats R481, R482). -/
def Obligations.AtsInvalResult : Prop :=
  ∀ (pid : BitVec 20) (pv dsv : Bool) (rid : BitVec 16) (dseg : BitVec 8) (payload : BitVec 64) (s : State),
    s.cfg.ats = true →
    ∃ t, Machine.exec (.atsInval pid pv dsv rid dseg payload) s = .next t ∧
      t = { s with messages := t.messages, inflight := t.inflight, cqh := s.cqb.next s.cqh } ∧
      (∀ a, t.mem.read a = s.mem.read a) ∧
      t.messages = s.messages ++ [.invalidationRequest rid (if dsv then some dseg else none)
        (if pv then some pid else none) payload] ∧
      t.inflight = s.inflight ++ [⟨.atsInval pid pv dsv rid dseg payload, .waiting⟩]

/-- `ATS.PRGR` on an IOMMU with ATS, in every state: the Page Request Group Response is sent, `cqh` advances, and
nothing else changes (44_cmd_ats R481, R483). -/
def Obligations.AtsPrgrResult : Prop :=
  ∀ (pid : BitVec 20) (pv dsv : Bool) (rid : BitVec 16) (dseg : BitVec 8) (payload : BitVec 64) (s : State),
    s.cfg.ats = true →
    ∃ t, Machine.exec (.atsPrgr pid pv dsv rid dseg payload) s = .next t ∧
      t = { s with messages := t.messages, cqh := s.cqb.next s.cqh } ∧ (∀ a, t.mem.read a = s.mem.read a) ∧
      t.messages = s.messages ++ [.groupResponse rid (if dsv then some dseg else none)
        (if pv then some pid else none) payload]

/-- The timeout of a waiting `ATS.INVAL` has no effect by itself: the command leaves the set and the mark is kept for
the next fence (44_cmd_ats R486, 40_command_queue R400). -/
def Obligations.AtsTimeoutOnlyMarks : Prop :=
  ∀ (s : State) (k : Nat) (i : Instr), elementAt s.inflight k = some ⟨i, .waiting⟩ →
    perform (.invalTimeout k) s = .next { s with inflight := removeAt s.inflight k, timedOut := true }

/-- `IOFENCE.C` with nothing before it in flight or timed out, no activation under way that an invalidation overtook,
its `WSI` supported and its store permitted, completes: the device accesses `PR` and `PW` name are committed, `DATA` is
stored in `fctl.BE` order and nothing else in memory changes, `fence_w_ip` is set for `WSI` and with it `cip` if `cie`,
and `cqh` advances (42_cmd_iofence R441, R442, R443, R444, R447; that it waits for every such activation is log entry
41); nothing else changes but the owed MSIs, of which it says nothing, and the slot of the pending fence, which is
empty after. The byte order is the spec's decision D1; that exactly the accesses `PR` and `PW` name are committed,
where R448 allows more, is the model's choice (log entry 20). -/
def Obligations.IofenceResult : Prop :=
  ∀ (av wsi pr pw : Bool) (data : BitVec 32) (addr : BitVec 62) (s : State), s.inflight = [] → s.settled = true →
    s.timedOut = false →
    (wsi = true → s.cfg.igs ≠ 0#2 ∧ s.fctl.wsi = true) →
    (av = true → check s.cfg (fenceAddr addr) 4 .write = .ok) →
    ∃ t, Machine.exec (.iofenceC av wsi pr pw data addr) s = .next t ∧
      t = { s with mem := t.mem, cqcsr := t.cqcsr, ipsr := t.ipsr, msiOwed := t.msiOwed, accesses := t.accesses,
                   fence := none, cqh := s.cqb.next s.cqh } ∧
      t.cqcsr = { s.cqcsr with fenceWIp := s.cqcsr.fenceWIp || wsi } ∧
      t.ipsr = { s.ipsr with cip := s.ipsr.cip || (wsi && s.cqcsr.cie) } ∧
      t.accesses = s.accesses.filter (fun a => if a.isWrite then !pw else !pr) ∧
      (av = false → ∀ a, t.mem.read a = s.mem.read a) ∧
      (av = true → t.mem.readBytes (fenceAddr addr) 4 = toBytes s.fctl.be 4 data.toNat ∧
        ∀ a, (a < fenceAddr addr ∨ fenceAddr addr + 4 ≤ a) → t.mem.read a = s.mem.read a)

/-- `IOFENCE.C` behind a command still in flight, or while an activation that an invalidation overtook is under way,
only becomes pending: `cqh` does not pass it (40_command_queue R399, 42_cmd_iofence R441, R442, 20_memory R214). That
any such activation makes it wait, whatever it holds, is the model's choice (log entry 41). -/
def Obligations.IofenceWaits : Prop :=
  ∀ (av wsi pr pw : Bool) (data : BitVec 32) (addr : BitVec 62) (s : State),
    (s.inflight ≠ [] ∨ s.settled = false) →
    (wsi = true → s.cfg.igs ≠ 0#2 ∧ s.fctl.wsi = true) →
    Machine.exec (.iofenceC av wsi pr pw data addr) s = .next { s with fence := some (.iofenceC av wsi pr pw data addr) }

/-- `IOFENCE.C`, every earlier command completed and no activation under way overtaken, after a timed-out `ATS.INVAL`
sets `cmd_to`, uses up the mark, stores nothing, sets no `fence_w_ip` and leaves `cqh` at itself; tried again it is not
stopped by that timeout (42_cmd_iofence R445). -/
def Obligations.IofenceReportsTimeout : Prop :=
  ∀ (av wsi pr pw : Bool) (data : BitVec 32) (addr : BitVec 62) (s : State), s.inflight = [] → s.settled = true →
    s.timedOut = true →
    (wsi = true → s.cfg.igs ≠ 0#2 ∧ s.fctl.wsi = true) →
    ∃ t, Machine.exec (.iofenceC av wsi pr pw data addr) s = .next t ∧
      t = { s with cqcsr := { s.cqcsr with cmdTo := true }, timedOut := false, fence := none,
                   ipsr := { s.ipsr with cip := s.ipsr.cip || s.cqcsr.cie }, msiOwed := t.msiOwed } ∧
      t.cqReady = false

/-- `IOFENCE.C`, every earlier command completed and no activation under way overtaken, whose `DATA` store is refused
sets `cqmf`, stores nothing, sets no `fence_w_ip` and leaves `cqh` at itself (42_cmd_iofence R446, which is the spec's
decision D12, not a statement of its source; the order of the fence's effects is log entry 29). -/
def Obligations.IofenceStoreFault : Prop :=
  ∀ (wsi pr pw : Bool) (data : BitVec 32) (addr : BitVec 62) (s : State), s.inflight = [] → s.settled = true →
    s.timedOut = false →
    (wsi = true → s.cfg.igs ≠ 0#2 ∧ s.fctl.wsi = true) → check s.cfg (fenceAddr addr) 4 .write ≠ .ok →
    ∃ t, Machine.exec (.iofenceC true wsi pr pw data addr) s = .next t ∧
      t = { s with cqcsr := { s.cqcsr with cqmf := true }, accesses := t.accesses, fence := none,
                   ipsr := { s.ipsr with cip := s.ipsr.cip || s.cqcsr.cie }, msiOwed := t.msiOwed } ∧
      t.cqReady = false

/-- The operand conditions that make a command illegal, each with only the error `cmd_ill` and its interrupt: `PSCV`=1
in `IOTINVAL.GVMA`, `DV`=0 in `IODIR.INVAL_PDT`, `PID`≠0 in `IODIR.INVAL_DDT`, `WSI`=1 without wired interrupts, and an
ATS command without `capabilities.ATS` (30_encoding R376 items 4 to 7, R377; 44_cmd_ats R480). -/
def Obligations.IllegalOperandsTakeError : Prop :=
  ∀ (i : Instr) (s : State),
    ((∃ av pscid gv gscid addr, i = .iotinvalGvma av pscid true gv gscid addr) ∨
     (∃ pid did, i = .iodirInvalPdt pid false did) ∨ (∃ pid dv did, pid ≠ 0#20 ∧ i = .iodirInvalDdt pid dv did) ∨
     (∃ av pr pw data addr, (s.cfg.igs = 0#2 ∨ s.fctl.wsi = false) ∧ i = .iofenceC av true pr pw data addr) ∨
     (∃ pid pv dsv rid dseg payload, s.cfg.ats = false ∧ i = .atsInval pid pv dsv rid dseg payload) ∨
     (∃ pid pv dsv rid dseg payload, s.cfg.ats = false ∧ i = .atsPrgr pid pv dsv rid dseg payload)) →
    ∃ t, Machine.exec i s = .next t ∧
      t = { s with cqcsr := { s.cqcsr with cmdIll := true }, fence := none,
                   ipsr := { s.ipsr with cip := s.ipsr.cip || s.cqcsr.cie }, msiOwed := t.msiOwed }

/-- Every command, in every state, answers a next state, and changes only what a command may change; memory changes only
under `IOFENCE.C` with `AV`=1 (40_command_queue R410). -/
def Obligations.CommandEffectsAreLimited : Prop :=
  ∀ (i : Instr) (s : State), ∃ t, Machine.exec i s = .next t ∧ OnlyCommandState s t ∧
    ((∀ wsi pr pw data addr, i ≠ .iofenceC true wsi pr pw data addr) → ∀ a, t.mem.read a = s.mem.read a)

/-! ## Registers and reset (10_state, 11_state_hpm_debug, 70_reset) -/

/-- The fields with a reset value have it, on every platform, and the caches have no entry (70_reset R730, R732). That
the other hidden state is empty (commands, requests, activations under way, records, messages, owed MSIs, half-done
accesses) is R732's own derivation. -/
def Obligations.ResetValues : Prop :=
  ∀ c : Config,
    let s := State.resetOn c
    (s.cqcsr.cqen = false ∧ s.cqcsr.cie = false ∧ s.cqcsr.cqon = false ∧ s.cqcsr.busy = false) ∧
    (s.fqcsr.fqen = false ∧ s.fqcsr.fie = false ∧ s.fqcsr.fqon = false ∧ s.fqcsr.busy = false) ∧
    (s.pqcsr.pqen = false ∧ s.pqcsr.pie = false ∧ s.pqcsr.pqon = false ∧ s.pqcsr.busy = false) ∧
    s.trReqCtl.goBusy = false ∧ s.ddtpBusy = false ∧ s.ipsr = ⟨false, false, false, false⟩ ∧
    (s.ddtp.mode = .off ∨ s.ddtp.mode = .bare) ∧ s.ioatc = [] ∧ s.inflight = [] ∧ s.fence = none ∧
    s.requests = [] ∧ s.activations = [] ∧ s.faults = [] ∧ s.pages = [] ∧ s.pageRecords = [] ∧ s.messages = [] ∧
    s.msiOwed = 0#16 ∧ s.halves = []

/-- The state after reset meets every invariant stated below. It rests on the model's choice of the values that the spec
leaves open at reset and of the platform (log entries 3 and 4). -/
def Obligations.ResetMeetsInvariants : Prop :=
  State.reset.MemoryCanonical ∧ State.reset.InterruptsHeld ∧ State.reset.CommandsCoherent ∧
  State.reset.IndicesInRange ∧ State.reset.LegalValues

/-- A write of `cqcsr` that changes `cqen` from 0 to 1 clears `cqh` and the four status bits, and the queue is active at
once or, where `busy` is implemented, when its operations complete (10_state R70). The base must be aligned (else
UNSPECIFIED, U7). -/
def Obligations.EnableCommandQueue : Prop :=
  ∀ (s : State) (v : DWord), s.cqcsr.busy = false → s.cqcsr.cqen = false → s.cqb.aligned 16 = true →
    v.getLsbD 0 = true →
    ∃ t, s.hostWrite 72 4 v = .next t ∧ t.cqh = 0#32 ∧
      t.cqcsr = ⟨true, v.getLsbD 1, false, false, false, false, s.cfg.busySync, !s.cfg.busySync⟩ ∧
      ∃ u, perform .cqDone t = .next u ∧ u.cqh = 0#32 ∧
        u.cqcsr = ⟨true, v.getLsbD 1, false, false, false, false, true, false⟩

/-- A write of `cqcsr` that changes `cqen` from 1 to 0: no fetch starts any more, and when the operations complete
`cqon` reads 0 (10_state R71). That what is then still in flight is abandoned is the model's choice (log entry 13). -/
def Obligations.DisableCommandQueue : Prop :=
  ∀ (s : State) (v : DWord), s.cqcsr.busy = false → s.cqcsr.cqen = true → v.getLsbD 0 = false →
    ∃ t, s.hostWrite 72 4 v = .next t ∧ t.cqReady = false ∧ t.cqcsr.cqen = false ∧ t.mem = s.mem ∧
      (s.cfg.busySync = false → t.cqcsr.busy = true ∧ t.cqcsr.cqon = s.cqcsr.cqon) ∧
      ∃ u, perform .cqDone t = .next u ∧ u.cqcsr.cqon = false ∧ u.cqcsr.busy = false ∧ u.cqReady = false ∧
        u.inflight = [] ∧ u.fence = none

/-- A write of `cqt` stores the low `LOG2SZ` bits, the others read 0, and changes nothing else (10_state R57). -/
def Obligations.CqtWrite : Prop :=
  ∀ (s : State) (v : DWord), ∃ t, s.hostWrite 36 4 v = .next t ∧
    t.cqt.toNat = v.toNat % 2 ^ 32 % 2 ^ (s.cqb.log2szm1.toNat + 1) ∧ t = { s with cqt := t.cqt }

/-- A register read has no side effect, which the spec derives (10_state R107): only the model's own trace of reads, its
counter of free values (log entry 5) and its list of half-done accesses (log entry 6) move, the trace by the value
read, at once unless the access is split. -/
def Obligations.RegisterReadHasNoSideEffect : Prop :=
  ∀ (s t : State) (offset size : Nat), s.hostRead offset size = .next t →
    t = { s with hostReads := t.hostReads, draws := t.draws, halves := t.halves } ∧
    ((size = 4 ∨ s.cfg.splitAccesses = false) → t.halves = s.halves ∧
      t.hostReads = s.hostReads ++ [⟨offset, size, s.readRegister offset size⟩])

/-- Register accesses never touch the cached entries, nor what was received, is under way or was answered, nor memory
(20_memory R181); but a write of `pqcsr` that turns the page-request queue off at once first writes the records already
decided (10_state R87, log entry 34). -/
def Obligations.RegisterAccessLeavesMemory : Prop :=
  ∀ (s t : State) (offset size : Nat) (v : DWord),
    (s.hostRead offset size = .next t ∨ s.hostWrite offset size v = .next t) →
    t.ioatc = s.ioatc ∧ t.requests.map (·.item) = s.requests.map (·.item) ∧
      t.pages.map (·.item) = s.pages.map (·.item) ∧ t.completions = s.completions ∧ t.activations = s.activations ∧
      (¬ (offset = 80 ∧ s.cfg.busySync = true ∧ s.pageRecords ≠ []) →
        (∀ a, t.mem.read a = s.mem.read a) ∧ t.messages = s.messages ∧ t.pageRecords = s.pageRecords)

/-- A write of `capabilities` is ignored, by 4 or by 8 bytes, in one access or in two, and a read gives the
implementation's constant (10_state R36). -/
def Obligations.CapabilitiesNeverChange : Prop :=
  ∀ (s : State) (v : DWord), s.hostWrite 0 4 v = .next s ∧ s.hostWrite 4 4 v = .next s ∧
    (∃ t, s.hostWrite 0 8 v = .next t ∧ t = { s with draws := t.draws, halves := t.halves } ∧
      ∃ u, perform (.finishHalf s.halves.length) t = .next u ∧ u = { s with draws := u.draws }) ∧
    s.readRegister 0 8 = s.cfg.caps ∧ ∀ (e : Event) (t : State), perform e s = .next t → t.cfg.caps = s.cfg.caps

/-- A write of `ipsr` clears the bits written 1, and then sets again those whose level condition holds
(10_state R95). -/
def Obligations.IpsrWrite : Prop :=
  ∀ (s : State) (v : DWord), ∃ t, s.hostWrite 84 4 v = .next t ∧
    t.ipsr.cip = ((s.ipsr.cip && !v.getLsbD 0) ||
      (s.cqcsr.cie && (s.fenceWIp || s.cqcsr.cmdIll || s.cqcsr.cmdTo || s.cqcsr.cqmf))) ∧
    t.ipsr.fip = ((s.ipsr.fip && !v.getLsbD 1) || (s.fqcsr.fie && (s.fqcsr.fqof || s.fqcsr.fqmf))) ∧
    t.ipsr.pmip = (s.ipsr.pmip && !v.getLsbD 2) ∧
    t.ipsr.pip = ((s.ipsr.pip && !v.getLsbD 3) || (s.pqcsr.pie && (s.pqcsr.pqof || s.pqcsr.pqmf))) ∧
    t = { s with ipsr := t.ipsr, msiOwed := t.msiOwed }

/-- A whole write of `ddtp` while no operation and no other access is pending, once both halves are performed where the
access is split (log entry 6): an accepted mode that is no change between two directory modes takes effect with its
`PPN`, the cached entries stay, and with a change to Off the requests in flight keep the old value (10_state R43, R44,
R45, R47). That they keep it, where 45_translation_process R538 also allows them cause 256, is the model's choice
between the two rules (log entry 22); that every bit of `PPN` takes the value written, where R46 and D4 let an
implementation restrict those above `PAS`-12, is its choice too (log entry 18). Written in one access, a directory mode
in a directory mode, in `MODES` or not, is refused (R48, U6). Any other value whose mode is not accepted leaves mode
and `PPN` as they were when written in one access, the decision D4 as test vector 9.11 has it, and is a write that sets
`busy` like any other (R45). -/
def Obligations.DdtpWrite : Prop :=
  ∀ (s : State) (v : DWord), s.ddtpBusy = false → s.trReqCtl.goBusy = false → s.halves = [] →
    (∀ m, acceptedMode s.cfg (v.extractLsb' 0 4) = some m → ¬ (m.isDirectory = true ∧ s.ddtp.mode.isDirectory = true) →
      ∃ t u, s.hostWrite 16 8 v = .next t ∧ perform (.finishHalf 0) t = .next u ∧
        u.ddtp = ⟨m, v.extractLsb' 10 44⟩ ∧ u.ddtpBusy = !s.cfg.busySync ∧ u.halves = [] ∧
        u.mem = s.mem ∧ u.ioatc = s.ioatc ∧
        (m = .off → s.ddtp.mode.isDirectory = true → u.requests = s.requests.map (Received.pin s.ddtp)) ∧
        ∃ x, perform .ddtpDone u = .next x ∧ x.ddtp = u.ddtp ∧ x.ddtpBusy = false) ∧
    (v.extractLsb' 0 4 ∈ [2#4, 3#4, 4#4] → s.ddtp.mode.isDirectory = true → s.cfg.splitAccesses = false →
      s.hostWrite 16 8 v = .refused .illegalModeTransition) ∧
    (acceptedMode s.cfg (v.extractLsb' 0 4) = none →
      ¬ (v.extractLsb' 0 4 ∈ [2#4, 3#4, 4#4] ∧ s.ddtp.mode.isDirectory = true) → s.cfg.splitAccesses = false →
      s.hostWrite 16 8 v = .next { s with ddtpOld := s.ddtp, ddtpBusy := !s.cfg.busySync })

/-- A register access of another shape than R182's is refused, read or write (20_memory R182: UNSPECIFIED, U1): a size
other than 4 and 8, an offset that is no multiple of the size, an access beyond the page, 8 bytes over two 4-byte
registers (`fctl`, the index pairs, the status registers, `ipsr`, the overflow and inhibit registers; `msi_data_x` with
`msi_vec_ctl_x` is log entry 24). Any other access is not refused for its shape: a read answers, and a write ends in no
such refusal. These are the accesses of R182's shape and, the model's choice of log entry 24, those of 8 bytes to
reserved and custom space, where R182 accepts 8 bytes for exactly one 64-bit register only. -/
def Obligations.OtherAccessesAreRefused : Prop :=
  ∀ (s : State) (offset size : Nat) (v : DWord),
    let twoRegisters := size = 8 ∧ (offset ∈ [8, 32, 48, 64, 72, 80, 88] ∨
      768 ≤ offset ∧ offset < 1024 ∧ offset % 16 = 8)
    (((size ≠ 4 ∧ size ≠ 8) ∨ offset % size ≠ 0 ∨ 4096 < offset + size ∨ twoRegisters) →
      s.hostRead offset size = .refused (.registerAccess offset size) ∧
      s.hostWrite offset size v = .refused (.registerAccess offset size)) ∧
    ((size = 4 ∨ size = 8) → offset % size = 0 → offset + size ≤ 4096 → ¬ twoRegisters →
      (∃ t, s.hostRead offset size = .next t) ∧
      ∀ o z, s.hostWrite offset size v ≠ .refused (.registerAccess o z))

/-! ## Interrupts and the fault queue (60_exceptions) -/

/-- An owed and unmasked MSI is sent: the flag is cleared and the four bytes of `msi_data` are stored, least significant
first whatever `fctl.BE`; a masked one is not sent (60_exceptions R692, R693). The byte order is the spec's own decision
D2 in R693, not a statement of its source. -/
def Obligations.MsiDelivery : Prop :=
  ∀ (s : State) (v : Fin 16),
    let e := s.msiCfgTbl.get v
    (s.msiReady (BitVec.ofFin v) = true → check s.cfg e.byteAddr 4 .write = .ok →
      ∃ t, perform (.msiSend (BitVec.ofFin v)) s = .next t ∧ t = { s with mem := t.mem, msiOwed := t.msiOwed } ∧
        (∀ k, k < 16 → t.msiOwed.getLsbD k = (s.msiOwed.getLsbD k && k != v.val)) ∧
        t.mem.readBytes e.byteAddr 4 = leBytes 4 e.data.toNat ∧
        ∀ a, (a < e.byteAddr ∨ e.byteAddr + 4 ≤ a) → t.mem.read a = s.mem.read a) ∧
    (e.mask = true → perform (.msiSend (BitVec.ofFin v)) s = .next s)

/-- An MSI write that is refused is reported as cause 273 with `TTYP` 0 and the address in `iotval`, whatever the fault,
and not retried (60_exceptions R694). -/
def Obligations.MsiWriteFault : Prop :=
  ∀ (s : State) (v : Fin 16), s.msiReady (BitVec.ofFin v) = true → s.fqcsr.fqon = true →
    check s.cfg (s.msiCfgTbl.get v).byteAddr 4 .write ≠ .ok →
    ∃ t, perform (.msiSend (BitVec.ofFin v)) s = .next t ∧ t.mem = s.mem ∧
      t.msiOwed.getLsbD v.val = false ∧
      t.faults = s.faults ++
        [{ cause := 273#12, pid := 0#20, pv := false, priv := false, ttyp := 0#6, did := 0#24,
           iotval := BitVec.ofNat 64 (s.msiCfgTbl.get v).byteAddr, iotval2 := 0#64 }]

/-- While the fault queue is off a fault is lost: nothing waits and nothing is written. That it is lost and not held is
the spec's decision D17 in 60_exceptions R684 (log entry 21). -/
def Obligations.FaultQueueOffLosesFaults : Prop :=
  ∀ (s : State) (cause : Nat) (dtf : Bool) (r : FaultRecord), s.fqcsr.fqon = false →
    s.reportFault cause dtf r = s ∧ s.writeRecord r = s

/-- The writer of the fault queue, on and without error and not full, with its four stores permitted: the record's four
doublewords stand at the entry of `fqt` in `fctl.BE` order, no other byte changes, `fqt` advances, and `fip` is set if
`fie` (60_exceptions R661, R681). -/
def Obligations.FaultRecordWritten : Prop :=
  ∀ (s : State) (r : FaultRecord), s.fqcsr.fqon = true → s.fqcsr.fqof = false → s.fqcsr.fqmf = false →
    s.fqFull = false → (∀ k, k < 4 → permitted s.cfg (s.fqb.entryAddr 32 s.fqt + 8 * k) 8 .write = true) →
    (s.writeRecord r).recordAt (s.fqb.entryAddr 32 s.fqt) =
      [r.did ++ r.ttyp ++ flag r.priv ++ flag r.pv ++ r.pid ++ r.cause, 0#64, r.iotval, r.iotval2] ∧
    (∀ a, (a < s.fqb.entryAddr 32 s.fqt ∨ s.fqb.entryAddr 32 s.fqt + 32 ≤ a) →
      (s.writeRecord r).mem.read a = s.mem.read a) ∧
    (s.writeRecord r).fqt = s.fqb.next s.fqt ∧
    (s.writeRecord r).ipsr = { s.ipsr with fip := s.ipsr.fip || s.fqcsr.fie } ∧
    (s.writeRecord r).fqcsr = s.fqcsr

/-- The errors of the fault queue (60_exceptions R681, R682, R683). Full: `fqof` is set, `fip` if `fie`, the record is
discarded. A refused store: `fqmf` is set, `fip` if `fie`, `fqt` stays, and no byte outside the entry changes. While
`fqof` or `fqmf` is 1, set now or before, further records are discarded. -/
def Obligations.FaultQueueOverflow : Prop :=
  ∀ (s : State) (r r' : FaultRecord), s.fqcsr.fqon = true →
    ((s.fqcsr.fqof = true ∨ s.fqcsr.fqmf = true) → s.writeRecord r = s) ∧
    (s.fqcsr.fqof = false → s.fqcsr.fqmf = false → s.fqFull = true →
      (s.writeRecord r).fqcsr = { s.fqcsr with fqof := true } ∧ (s.writeRecord r).mem = s.mem ∧
      (s.writeRecord r).fqt = s.fqt ∧
      (s.writeRecord r).ipsr = { s.ipsr with fip := s.ipsr.fip || s.fqcsr.fie } ∧
      (s.writeRecord r).writeRecord r' = s.writeRecord r) ∧
    (s.fqcsr.fqof = false → s.fqcsr.fqmf = false → s.fqFull = false →
      (∃ k, k < 4 ∧ permitted s.cfg (s.fqb.entryAddr 32 s.fqt + 8 * k) 8 .write = false) →
      (s.writeRecord r).fqcsr = { s.fqcsr with fqmf := true } ∧ (s.writeRecord r).fqt = s.fqt ∧
      (s.writeRecord r).ipsr = { s.ipsr with fip := s.ipsr.fip || s.fqcsr.fie } ∧
      (∀ a, (a < s.fqb.entryAddr 32 s.fqt ∨ s.fqb.entryAddr 32 s.fqt + 32 ≤ a) →
        (s.writeRecord r).mem.read a = s.mem.read a) ∧
      (s.writeRecord r).writeRecord r' = s.writeRecord r)

/-! ## Translation (45_translation_process, 22_page_tables) -/

/-- With `iommu_mode` Off and no change of it pending, every request not received before the change is turned away as
cause 256, aborted or, for ATS, Unsupported Request, and no memory is read or written, so
that serving it in one go or beginning it is the same; the record is queued if the fault
queue is on (45_translation_process R501). -/
def Obligations.OffDisallowsEverything : Prop :=
  ∀ (s : State) (k : Nat) (r : Request), s.failed = false → s.ddtp.mode = .off → s.ddtpBusy = false →
    elementAt s.requests k = some ⟨r, none⟩ →
    ∃ t, perform (.translate k) s = .next t ∧ perform (.beginTranslate k) s = .next t ∧
      t.activations = s.activations ∧ t.mem = s.mem ∧ t.ioatc = s.ioatc ∧ t.requests = removeAt s.requests k ∧
      t.completions = s.completions ++
        [if r.type = .atsRequest then .unsupportedRequest r.tag else .aborted r.tag] ∧
      t.accesses = s.accesses ∧
      (s.fqcsr.fqon = true → t.faults = s.faults ++
        [faultRecord 256 0#64 r.ttyp r.deviceId r.processId r.privileged (reportedIova s.cfg r.iova)])

/-- With `iommu_mode` Bare and no change of it pending, an untranslated request succeeds with the address unchanged, and
a translated or ATS request is turned away as cause 260; no table is read, so that serving it in
one go or beginning it is the same (45_translation_process R502). -/
def Obligations.BareIsIdentity : Prop :=
  ∀ (s : State) (k : Nat) (r : Request), s.failed = false → s.ddtp.mode = .bare → s.ddtpBusy = false →
    elementAt s.requests k = some ⟨r, none⟩ →
    ∃ t, perform (.translate k) s = .next t ∧ perform (.beginTranslate k) s = .next t ∧
      t.activations = s.activations ∧ t.mem = s.mem ∧ t.ioatc = s.ioatc ∧ t.requests = removeAt s.requests k ∧
      (r.type = .untranslated → t.completions = s.completions ++
          [.success r.tag r.iova (if s.cfg.svpbmt then some 0#2 else none)] ∧ t.faults = s.faults) ∧
      (r.type = .translated → t.completions = s.completions ++ [.aborted r.tag]) ∧
      (r.type = .atsRequest → t.completions = s.completions ++ [.unsupportedRequest r.tag]) ∧
      (r.type ≠ .untranslated → s.fqcsr.fqon = true → t.faults = s.faults ++
        [faultRecord 260 0#64 r.ttyp r.deviceId r.processId r.privileged (reportedIova s.cfg r.iova)])

/-- A `device_id` wider than the directory mode supports is turned away as cause 260 before any access, in one go or
begun (45_translation_process R503, R504): in `2LVL` when `DDI[2]` is not 0, in `1LVL` when `DDI[2]` or `DDI[1]` is not
0; in `3LVL` none is too wide. -/
def Obligations.DeviceIdRangeCheck : Prop :=
  (∀ (extended : Bool) (did : BitVec 24),
    let ddi1 := if extended then did.extractLsb' 6 9 else did.extractLsb' 7 9
    let ddi2 := if extended then (did.extractLsb' 15 9).toNat else (did.extractLsb' 16 8).toNat
    (didTooWide extended .lvl1 did = true ↔ ddi2 ≠ 0 ∨ ddi1 ≠ 0#9) ∧
    (didTooWide extended .lvl2 did = true ↔ ddi2 ≠ 0) ∧ didTooWide extended .lvl3 did = false) ∧
  (∀ (s : State) (k : Nat) (r : Request), s.failed = false → s.ddtp.mode.isDirectory = true → s.ddtpBusy = false →
    didTooWide s.cfg.msiFlat s.ddtp.mode r.deviceId = true → elementAt s.requests k = some ⟨r, none⟩ →
    ∃ t, perform (.translate k) s = .next t ∧ perform (.beginTranslate k) s = .next t ∧
      t.activations = s.activations ∧ t.mem = s.mem ∧ t.ioatc = s.ioatc ∧
      t.completions = s.completions ++
        [if r.type = .atsRequest then .unsupportedRequest r.tag else .aborted r.tag] ∧
      (s.fqcsr.fqon = true → t.faults = s.faults ++
        [faultRecord 260 0#64 r.ttyp r.deviceId r.processId r.privileged (reportedIova s.cfg r.iova)]))

/-- The failed state is terminal, and every request in it is aborted, an ATS one with Completer Abort, without a
record, also when an internal error hits it, or when it was under way before. That the state is terminal and aborts
without a record is the spec's own decision D40 in 60_exceptions R703, which leaves open whether a model has the state
at all; the Completer Abort and the internal error are the model's choice (log entry 11). -/
def Obligations.FailedStateIsTerminal : Prop :=
  (∀ s t : State, s.failed = true → Machine.step s = .next t → t.failed = true) ∧
  (∀ (s : State) (k : Nat) (x : Received Request), s.failed = true → elementAt s.requests k = some x →
    let t := { s with
      requests := removeAt s.requests k
      completions := s.completions ++
        [if x.item.type = .atsRequest then .completerAbort x.item.tag else .aborted x.item.tag] }
    perform (.translate k) s = .next t ∧ perform (.beginTranslate k) s = .next t ∧
      perform (.internalError k) s = .next t) ∧
  (∀ (s : State) (k pick : Nat) (a : Activation) (r : Request), s.failed = true → elementAt s.activations k = some a →
    a.task = .request r →
    let t := { s with
      activations := removeAt s.activations k
      completions := s.completions ++ [if r.type = .atsRequest then .completerAbort r.tag else .aborted r.tag] }
    perform (.advance k pick) s = .next t ∧ perform (.internalErrorActive k) s = .next t)

/-- A first-stage address outside its scheme faults without a memory access, with the page-fault cause of the access
(22_page_tables R306, R315): for `SXL`=1 when a bit above 31 is set, else when the bits above the scheme's address width
are not a sign extension. -/
def Obligations.IovaOutsideSchemeFaults : Prop :=
  ∀ (s : State) (c : Context) (f : FirstStage) (va : DWord) (m : Scheme) (w : Walk),
    firstScheme c.dc.sxl f.mode = some m → m.addrBits ≤ 64 →
    (if c.dc.sxl then va.extractLsb' 32 32 ≠ 0#32
     else ∃ k, m.addrBits ≤ k ∧ k < 64 ∧ va.getLsbD k ≠ va.getLsbD (m.addrBits - 1)) →
    firstStage s c f va.toNat w = .error ⟨pageFaultCause c.orig, 0#64⟩ w

/-- What a first-stage leaf allows (22_page_tables R308): a User access needs `U`=1; a Supervisor access to a `U`=1 page
needs `SUM`=1 and never executes; and the leaf's own `R`, `W`, `X`. -/
def Obligations.FirstStagePermissions : Prop :=
  ∀ (p : DWord) (supervisor sum : Bool) (a : Acc),
    (firstPerms p supervisor sum).allows a = true ↔
      (match a with
       | .read => p.getLsbD 1 = true
       | .write => p.getLsbD 2 = true
       | .exec => p.getLsbD 3 = true) ∧
      (supervisor = false → p.getLsbD 4 = true) ∧
      (supervisor = true → p.getLsbD 4 = true → sum = true ∧ a ≠ .exec)

/-! ## Page requests (47_ats_pri) -/

/-- A Page Request from a device that allows it, the queue on, without error and not full, with its two stores
permitted: the record stands at the entry of `pqt` with the fields of R611 in `fctl.BE` order, no other byte changes,
`pqt` advances, `pip` is set if `pie`, and no response is sent (47_ats_pri R601, R611, R612, R615). -/
def Obligations.PageRequestQueued : Prop :=
  ∀ (s : State) (m : PageRequest) (prpr : Bool), s.pqcsr.pqen = true → s.pqcsr.pqon = true → s.pqcsr.pqmf = false →
    s.pqcsr.pqof = false → s.pqFull = false →
    (∀ k, k < 2 → permitted s.cfg (s.pqb.entryAddr 16 s.pqt + 8 * k) 8 .write = true) →
    let t := s.queuePage m prpr
    let a := s.pqb.entryAddr 16 s.pqt
    let d0 := t.mem.read64 a s.fctl.be
    d0.extractLsb' 40 24 = m.deviceId ∧ d0.extractLsb' 35 5 = 0#5 ∧ d0.getLsbD 34 = (m.pasid.isSome && m.exec) ∧
    d0.getLsbD 33 = (m.pasid.isSome && m.priv) ∧ d0.getLsbD 32 = m.pasid.isSome ∧
    (∀ p, m.pasid = some p → d0.extractLsb' 12 20 = p) ∧ d0.extractLsb' 0 12 = 0#12 ∧
    t.mem.read64 (a + 8) s.fctl.be = m.payload ∧
    (∀ b, (b < a ∨ a + 16 ≤ b) → t.mem.read b = s.mem.read b) ∧ t.pqt = s.pqb.next s.pqt ∧
    t.ipsr = { s.ipsr with pip := s.ipsr.pip || s.pqcsr.pie } ∧ t.messages = s.messages ∧ t.pqcsr = s.pqcsr

/-- A full page-request queue sets `pqof`, and `pip` if `pie`, discards the message (47_ats_pri R601, R614), and
answers it with Success (R606; the layout is 30_encoding R360) if it is the last of its group and no Stop Marker, with
its PASID if `PRPR` (R607). That the answer is always sent, where R614 says that it may be, is the spec's own decision
D38 (R603). The segment of the answer and the test for a Stop Marker by the payload are the model's reading (log entry
16). -/
def Obligations.PageQueueOverflow : Prop :=
  ∀ (s : State) (m : PageRequest) (prpr : Bool), s.pqcsr.pqen = true → s.pqcsr.pqon = true → s.pqcsr.pqmf = false →
    s.pqcsr.pqof = false → s.pqFull = true →
    let t := s.queuePage m prpr
    t.pqcsr = { s.pqcsr with pqof := true } ∧ t.pqt = s.pqt ∧ t.mem = s.mem ∧
    t.ipsr = { s.ipsr with pip := s.ipsr.pip || s.pqcsr.pie } ∧
    (m.last = true → m.stopMarker = false → t.messages = s.messages ++
      [.groupResponse (m.deviceId.extractLsb' 0 16) (some (m.deviceId.extractLsb' 16 8))
        (if prpr then m.pasid else none)
        (m.deviceId.extractLsb' 0 16 ++ 0#4 ++ 0#3 ++ m.payload.extractLsb' 3 9 ++ 0#32)]) ∧
    (m.last = false ∨ m.stopMarker = true → t.messages = s.messages)

/-! ## The performance monitor and the debug interface (11_state_hpm_debug, 48_debug_interface) -/

/-- One cycle of the IOMMU's clock (11_state_hpm_debug R134, R135): the counter, of `W_CY` bits, advances by one, or
from all ones to 0 with `OF` set, and `pmip` set if `OF` was 0; while inhibited nothing changes. -/
def Obligations.CycleCounterStep : Prop :=
  ∀ s : State, s.cfg.hpm = true → s.cfg.cyclesWidth ≤ 63 → s.iohpmcycles.counter.toNat < 2 ^ s.cfg.cyclesWidth →
    (s.iocountinh.getLsbD 0 = true → perform (.clock 1) s = .next s) ∧
    (s.iocountinh.getLsbD 0 = false → ∃ t, perform (.clock 1) s = .next t ∧
      t = { s with iohpmcycles := t.iohpmcycles, ipsr := t.ipsr, msiOwed := t.msiOwed } ∧
      (s.iohpmcycles.counter.toNat + 1 < 2 ^ s.cfg.cyclesWidth →
        t.iohpmcycles.counter.toNat = s.iohpmcycles.counter.toNat + 1 ∧ t.iohpmcycles.of = s.iohpmcycles.of ∧
        t.ipsr = s.ipsr) ∧
      (s.iohpmcycles.counter.toNat + 1 = 2 ^ s.cfg.cyclesWidth →
        t.iohpmcycles.counter = 0#63 ∧ t.iohpmcycles.of = true ∧
        t.ipsr = { s.ipsr with pmip := s.ipsr.pmip || !s.iohpmcycles.of }))

/-- One increment of an event counter (11_state_hpm_debug R137). -/
def Obligations.EventCounterIncrement : Prop :=
  ∀ (s : State) (n : Fin 31), s.cfg.hpmWidth ≤ 64 → (s.iohpmctr.get n).toNat < 2 ^ s.cfg.hpmWidth →
    let t := s.incrementCounter n
    (∀ m : Fin 31, m ≠ n → t.iohpmctr.get m = s.iohpmctr.get m ∧ t.iohpmevt.get m = s.iohpmevt.get m) ∧
    t.mem = s.mem ∧
    ((s.iohpmctr.get n).toNat + 1 < 2 ^ s.cfg.hpmWidth →
      (t.iohpmctr.get n).toNat = (s.iohpmctr.get n).toNat + 1 ∧ t.iohpmevt.get n = s.iohpmevt.get n ∧
      t.ipsr = s.ipsr) ∧
    ((s.iohpmctr.get n).toNat + 1 = 2 ^ s.cfg.hpmWidth →
      t.iohpmctr.get n = 0#64 ∧ t.iohpmevt.get n = { s.iohpmevt.get n with of := true } ∧
      t.ipsr = { s.ipsr with pmip := s.ipsr.pmip || !(s.iohpmevt.get n).of })

/-- The match of `DID_GSCID` with `DMASK` (11_state_hpm_debug R143): without it, equality; with it, equality of the bits
above the lowest 0 bit of `DID_GSCID`; with no 0 bit everything, which is the spec's decision D25, not its source's. -/
def Obligations.DmaskMatch : Prop :=
  ∀ (e : HpmEvent) (id : BitVec 24),
    (e.dmask = false → (didMatch e id.toNat = true ↔ id = e.didGscid)) ∧
    (e.dmask = true → ∀ k, k < 24 → e.didGscid.getLsbD k = false → (∀ j, j < k → e.didGscid.getLsbD j = true) →
      (didMatch e id.toNat = true ↔ ∀ j, k < j → j < 24 → id.getLsbD j = e.didGscid.getLsbD j)) ∧
    (e.dmask = true → e.didGscid = 0xFFFFFF#24 → didMatch e id.toNat = true)

/-- `iocountovf` is the shadow of the `OF` bits: bit 0 of `iohpmcycles`, bit X of `iohpmevtX` (11_state_hpm_debug R131);
that an unimplemented counter reads 0 is the spec's decision D5 in R130. -/
def Obligations.OverflowShadow : Prop :=
  ∀ s : State, s.iocountovf.getLsbD 0 = s.iohpmcycles.of ∧
    ∀ n : Fin 31, s.iocountovf.getLsbD (n.val + 1) =
      (decide (n.val < s.cfg.hpmCounters) && (s.iohpmevt.get n).of)

/-- A debug request that is not under way yet, while `iommu_mode` is Off, in one go or begun: `Go/Busy` is cleared,
`fault` is 1 whatever the free values of the other fields, and cause 256 is reported as for a device request
(48_debug_interface R632, R636, R637; 45_translation_process R501). -/
def Obligations.DebugRequestFaults : Prop :=
  ∀ s : State, s.failed = false → s.trReqCtl.goBusy = true → s.debugUnderway = false →
    s.ddtp.mode = .off → s.ddtpBusy = false →
    ∃ t, perform .debug s = .next t ∧ perform .beginDebug s = .next t ∧
      t.trReqCtl = { s.trReqCtl with goBusy := false } ∧ t.trResponse.fault = true ∧
      t.mem = s.mem ∧ t.completions = s.completions ∧
      (s.fqcsr.fqon = true → t.faults = s.faults ++
        [faultRecord 256 0#64 s.debugRequest.ttyp s.trReqCtl.did (if s.trReqCtl.pv then some s.trReqCtl.pid else none)
          s.trReqCtl.priv (reportedIova s.cfg (s.trReqIova ++ 0#12))])

/-! ## Memory -/

/-- A byte stored is read back, and every other byte is unchanged, for a store of any length by a hart inside the
address space (20_memory R180, R187). -/
def Obligations.HartStoreReadsBack : Prop :=
  ∀ (s : State) (a : Nat) (bs : List Byte), a + bs.length ≤ 2 ^ 56 →
    ∃ t, perform (.hostStore a bs) s = .next t ∧ t = { s with mem := t.mem } ∧ t.mem.readBytes a bs.length = bs ∧
      ∀ b, (b < a ∨ a + bs.length ≤ b) → t.mem.read b = s.mem.read b

/-! ## Invariants and rules of the whole machine -/

/-- Every step keeps the memory in canonical form (log entry 2), and every memory that an activation under way has
found. -/
def Obligations.StepKeepsMemoryCanonical : Prop :=
  ∀ s t : State, s.MemoryCanonical → Machine.step s = .next t → t.MemoryCanonical

/-- Every step keeps `cip`, `fip` and `pip` set while their level conditions hold (10_state R91, R92, R94, R95). It says
nothing of `pmip`, of a bit set by a new record, or of owed MSIs. -/
def Obligations.StepKeepsInterruptsHeld : Prop :=
  ∀ s t : State, s.InterruptsHeld → Machine.step s = .next t → t.InterruptsHeld

/-- Every step keeps the command queue coherent: only a fence is pending, with the queue on and without error, and only
`ATS.INVAL` commands wait (40_command_queue R399, R400, R401). -/
def Obligations.StepKeepsCommandsCoherent : Prop :=
  ∀ s t : State, s.CommandsCoherent → Machine.step s = .next t → t.CommandsCoherent

/-- Every step keeps the six indices inside their queues (20_memory R221, 10_state R30). -/
def Obligations.StepKeepsIndicesInRange : Prop :=
  ∀ s t : State, s.IndicesInRange → Machine.step s = .next t → t.IndicesInRange

/-- Every step keeps event selectors, counters and vectors legal, and split accesses to 64-bit registers (10_state R98;
11_state_hpm_debug R133, R136, R138). That a selector accepts 0 to 8 and keeps its value otherwise is the spec's
decision D4 in R139, and how a vector is cut is the model's choice (log entry 18). -/
def Obligations.StepKeepsLegalValues : Prop :=
  ∀ s t : State, s.LegalValues → Machine.step s = .next t → t.LegalValues

/-- Only the command-queue engine and a write of `cqcsr` move `cqh` (10_state R56, R70; 40_command_queue R395); a write
of `cqb` cuts it to the new size (R30, log entry 33). -/
def Obligations.OnlyTheQueueMovesItsHead : Prop :=
  ∀ (e : Event) (s t : State), s.HalvesLegal → e.isCommandStep = false → e.writesCqcsr = false →
    perform e s = .next t → t.cqh = s.cqh ∨ (e.writesCqb = true ∧ t.cqh = t.cqb.clip s.cqh)

/-! ## The end of a command in flight (44_cmd_ats) -/

/-- The Invalidation Completion of a waiting `ATS.INVAL` completes it, whatever the device context of the sender says
and whether the report on it is made in one go or begun: the command leaves the set without the timed-out mark, and the
queue stays as it is (44_cmd_ats R482, 40_command_queue R400). That a sender with `EN_ATS`=0 does not keep it waiting
is the model's reading (log entry 9). -/
def Obligations.AtsCompletionCompletes : Prop :=
  ∀ (s : State) (did : BitVec 24) (k : Nat) (i : Instr), s.failed = false →
    elementAt s.inflight k = some ⟨i, .waiting⟩ →
    ∀ e, e = .invalCompletion did k ∨ e = .beginCompletion did k →
    ∃ t, perform e s = .next t ∧ t.inflight = removeAt s.inflight k ∧
      t.timedOut = s.timedOut ∧ t.cqcsr = s.cqcsr ∧ t.cqh = s.cqh ∧ t.fence = s.fence
end

