-- ==== Sys2Proof/Laws/State.lean ====
section
/-! SUPPORT. For the small updates of the state: the value of each field after each of them, so that no proof unfolds a record update. -/

namespace Sys2Proof.Machine

variable (s : State)


/-! ### `setPending` -/

@[simp] theorem State.setPending_ipsr (p : Ipsr) : (s.setPending p).ipsr = p := rfl
@[simp] theorem State.setPending_cfg (p : Ipsr) : (s.setPending p).cfg = s.cfg := rfl
@[simp] theorem State.setPending_fctl (p : Ipsr) : (s.setPending p).fctl = s.fctl := rfl
@[simp] theorem State.setPending_ddtp (p : Ipsr) : (s.setPending p).ddtp = s.ddtp := rfl
@[simp] theorem State.setPending_ddtpBusy (p : Ipsr) : (s.setPending p).ddtpBusy = s.ddtpBusy := rfl
@[simp] theorem State.setPending_ddtpOld (p : Ipsr) : (s.setPending p).ddtpOld = s.ddtpOld := rfl
@[simp] theorem State.setPending_cqb (p : Ipsr) : (s.setPending p).cqb = s.cqb := rfl
@[simp] theorem State.setPending_cqh (p : Ipsr) : (s.setPending p).cqh = s.cqh := rfl
@[simp] theorem State.setPending_cqt (p : Ipsr) : (s.setPending p).cqt = s.cqt := rfl
@[simp] theorem State.setPending_fqb (p : Ipsr) : (s.setPending p).fqb = s.fqb := rfl
@[simp] theorem State.setPending_fqh (p : Ipsr) : (s.setPending p).fqh = s.fqh := rfl
@[simp] theorem State.setPending_fqt (p : Ipsr) : (s.setPending p).fqt = s.fqt := rfl
@[simp] theorem State.setPending_pqb (p : Ipsr) : (s.setPending p).pqb = s.pqb := rfl
@[simp] theorem State.setPending_pqh (p : Ipsr) : (s.setPending p).pqh = s.pqh := rfl
@[simp] theorem State.setPending_pqt (p : Ipsr) : (s.setPending p).pqt = s.pqt := rfl
@[simp] theorem State.setPending_cqcsr (p : Ipsr) : (s.setPending p).cqcsr = s.cqcsr := rfl
@[simp] theorem State.setPending_fqcsr (p : Ipsr) : (s.setPending p).fqcsr = s.fqcsr := rfl
@[simp] theorem State.setPending_pqcsr (p : Ipsr) : (s.setPending p).pqcsr = s.pqcsr := rfl
@[simp] theorem State.setPending_iocountinh (p : Ipsr) : (s.setPending p).iocountinh = s.iocountinh := rfl
@[simp] theorem State.setPending_iohpmcycles (p : Ipsr) : (s.setPending p).iohpmcycles = s.iohpmcycles := rfl
@[simp] theorem State.setPending_iohpmctr (p : Ipsr) : (s.setPending p).iohpmctr = s.iohpmctr := rfl
@[simp] theorem State.setPending_iohpmevt (p : Ipsr) : (s.setPending p).iohpmevt = s.iohpmevt := rfl
@[simp] theorem State.setPending_trReqIova (p : Ipsr) : (s.setPending p).trReqIova = s.trReqIova := rfl
@[simp] theorem State.setPending_trReqCtl (p : Ipsr) : (s.setPending p).trReqCtl = s.trReqCtl := rfl
@[simp] theorem State.setPending_trResponse (p : Ipsr) : (s.setPending p).trResponse = s.trResponse := rfl
@[simp] theorem State.setPending_icvec (p : Ipsr) : (s.setPending p).icvec = s.icvec := rfl
@[simp] theorem State.setPending_msiCfgTbl (p : Ipsr) : (s.setPending p).msiCfgTbl = s.msiCfgTbl := rfl
@[simp] theorem State.setPending_mem (p : Ipsr) : (s.setPending p).mem = s.mem := rfl
@[simp] theorem State.setPending_ioatc (p : Ipsr) : (s.setPending p).ioatc = s.ioatc := rfl
@[simp] theorem State.setPending_inflight (p : Ipsr) : (s.setPending p).inflight = s.inflight := rfl
@[simp] theorem State.setPending_fence (p : Ipsr) : (s.setPending p).fence = s.fence := rfl
@[simp] theorem State.setPending_timedOut (p : Ipsr) : (s.setPending p).timedOut = s.timedOut := rfl
@[simp] theorem State.setPending_requests (p : Ipsr) : (s.setPending p).requests = s.requests := rfl
@[simp] theorem State.setPending_activations (p : Ipsr) : (s.setPending p).activations = s.activations := rfl
@[simp] theorem State.setPending_completions (p : Ipsr) : (s.setPending p).completions = s.completions := rfl
@[simp] theorem State.setPending_accesses (p : Ipsr) : (s.setPending p).accesses = s.accesses := rfl
@[simp] theorem State.setPending_faults (p : Ipsr) : (s.setPending p).faults = s.faults := rfl
@[simp] theorem State.setPending_pages (p : Ipsr) : (s.setPending p).pages = s.pages := rfl
@[simp] theorem State.setPending_pageRecords (p : Ipsr) : (s.setPending p).pageRecords = s.pageRecords := rfl
@[simp] theorem State.setPending_messages (p : Ipsr) : (s.setPending p).messages = s.messages := rfl
@[simp] theorem State.setPending_failed (p : Ipsr) : (s.setPending p).failed = s.failed := rfl
@[simp] theorem State.setPending_halves (p : Ipsr) : (s.setPending p).halves = s.halves := rfl
@[simp] theorem State.setPending_draws (p : Ipsr) : (s.setPending p).draws = s.draws := rfl
@[simp] theorem State.setPending_agenda (p : Ipsr) : (s.setPending p).agenda = s.agenda := rfl
@[simp] theorem State.setPending_hostReads (p : Ipsr) : (s.setPending p).hostReads = s.hostReads := rfl

/-! ### `raiseCip` -/

@[simp] theorem State.raiseCip_cfg : s.raiseCip.cfg = s.cfg := by unfold State.raiseCip; split <;> rfl
@[simp] theorem State.raiseCip_fctl : s.raiseCip.fctl = s.fctl := by unfold State.raiseCip; split <;> rfl
@[simp] theorem State.raiseCip_ddtp : s.raiseCip.ddtp = s.ddtp := by unfold State.raiseCip; split <;> rfl
@[simp] theorem State.raiseCip_ddtpBusy : s.raiseCip.ddtpBusy = s.ddtpBusy := by unfold State.raiseCip; split <;> rfl
@[simp] theorem State.raiseCip_ddtpOld : s.raiseCip.ddtpOld = s.ddtpOld := by unfold State.raiseCip; split <;> rfl
@[simp] theorem State.raiseCip_cqb : s.raiseCip.cqb = s.cqb := by unfold State.raiseCip; split <;> rfl
@[simp] theorem State.raiseCip_cqh : s.raiseCip.cqh = s.cqh := by unfold State.raiseCip; split <;> rfl
@[simp] theorem State.raiseCip_cqt : s.raiseCip.cqt = s.cqt := by unfold State.raiseCip; split <;> rfl
@[simp] theorem State.raiseCip_fqb : s.raiseCip.fqb = s.fqb := by unfold State.raiseCip; split <;> rfl
@[simp] theorem State.raiseCip_fqh : s.raiseCip.fqh = s.fqh := by unfold State.raiseCip; split <;> rfl
@[simp] theorem State.raiseCip_fqt : s.raiseCip.fqt = s.fqt := by unfold State.raiseCip; split <;> rfl
@[simp] theorem State.raiseCip_pqb : s.raiseCip.pqb = s.pqb := by unfold State.raiseCip; split <;> rfl
@[simp] theorem State.raiseCip_pqh : s.raiseCip.pqh = s.pqh := by unfold State.raiseCip; split <;> rfl
@[simp] theorem State.raiseCip_pqt : s.raiseCip.pqt = s.pqt := by unfold State.raiseCip; split <;> rfl
@[simp] theorem State.raiseCip_cqcsr : s.raiseCip.cqcsr = s.cqcsr := by unfold State.raiseCip; split <;> rfl
@[simp] theorem State.raiseCip_fqcsr : s.raiseCip.fqcsr = s.fqcsr := by unfold State.raiseCip; split <;> rfl
@[simp] theorem State.raiseCip_pqcsr : s.raiseCip.pqcsr = s.pqcsr := by unfold State.raiseCip; split <;> rfl
@[simp] theorem State.raiseCip_iocountinh : s.raiseCip.iocountinh = s.iocountinh := by unfold State.raiseCip; split <;> rfl
@[simp] theorem State.raiseCip_iohpmcycles : s.raiseCip.iohpmcycles = s.iohpmcycles := by unfold State.raiseCip; split <;> rfl
@[simp] theorem State.raiseCip_iohpmctr : s.raiseCip.iohpmctr = s.iohpmctr := by unfold State.raiseCip; split <;> rfl
@[simp] theorem State.raiseCip_iohpmevt : s.raiseCip.iohpmevt = s.iohpmevt := by unfold State.raiseCip; split <;> rfl
@[simp] theorem State.raiseCip_trReqIova : s.raiseCip.trReqIova = s.trReqIova := by unfold State.raiseCip; split <;> rfl
@[simp] theorem State.raiseCip_trReqCtl : s.raiseCip.trReqCtl = s.trReqCtl := by unfold State.raiseCip; split <;> rfl
@[simp] theorem State.raiseCip_trResponse : s.raiseCip.trResponse = s.trResponse := by unfold State.raiseCip; split <;> rfl
@[simp] theorem State.raiseCip_icvec : s.raiseCip.icvec = s.icvec := by unfold State.raiseCip; split <;> rfl
@[simp] theorem State.raiseCip_msiCfgTbl : s.raiseCip.msiCfgTbl = s.msiCfgTbl := by unfold State.raiseCip; split <;> rfl
@[simp] theorem State.raiseCip_mem : s.raiseCip.mem = s.mem := by unfold State.raiseCip; split <;> rfl
@[simp] theorem State.raiseCip_ioatc : s.raiseCip.ioatc = s.ioatc := by unfold State.raiseCip; split <;> rfl
@[simp] theorem State.raiseCip_inflight : s.raiseCip.inflight = s.inflight := by unfold State.raiseCip; split <;> rfl
@[simp] theorem State.raiseCip_fence : s.raiseCip.fence = s.fence := by unfold State.raiseCip; split <;> rfl
@[simp] theorem State.raiseCip_timedOut : s.raiseCip.timedOut = s.timedOut := by unfold State.raiseCip; split <;> rfl
@[simp] theorem State.raiseCip_requests : s.raiseCip.requests = s.requests := by unfold State.raiseCip; split <;> rfl
@[simp] theorem State.raiseCip_activations : s.raiseCip.activations = s.activations := by unfold State.raiseCip; split <;> rfl
@[simp] theorem State.raiseCip_completions : s.raiseCip.completions = s.completions := by unfold State.raiseCip; split <;> rfl
@[simp] theorem State.raiseCip_accesses : s.raiseCip.accesses = s.accesses := by unfold State.raiseCip; split <;> rfl
@[simp] theorem State.raiseCip_faults : s.raiseCip.faults = s.faults := by unfold State.raiseCip; split <;> rfl
@[simp] theorem State.raiseCip_pages : s.raiseCip.pages = s.pages := by unfold State.raiseCip; split <;> rfl
@[simp] theorem State.raiseCip_pageRecords : s.raiseCip.pageRecords = s.pageRecords := by unfold State.raiseCip; split <;> rfl
@[simp] theorem State.raiseCip_messages : s.raiseCip.messages = s.messages := by unfold State.raiseCip; split <;> rfl
@[simp] theorem State.raiseCip_failed : s.raiseCip.failed = s.failed := by unfold State.raiseCip; split <;> rfl
@[simp] theorem State.raiseCip_halves : s.raiseCip.halves = s.halves := by unfold State.raiseCip; split <;> rfl
@[simp] theorem State.raiseCip_draws : s.raiseCip.draws = s.draws := by unfold State.raiseCip; split <;> rfl
@[simp] theorem State.raiseCip_agenda : s.raiseCip.agenda = s.agenda := by unfold State.raiseCip; split <;> rfl
@[simp] theorem State.raiseCip_hostReads : s.raiseCip.hostReads = s.hostReads := by unfold State.raiseCip; split <;> rfl

/-! ### `raiseFip` -/

@[simp] theorem State.raiseFip_cfg : s.raiseFip.cfg = s.cfg := by unfold State.raiseFip; split <;> rfl
@[simp] theorem State.raiseFip_fctl : s.raiseFip.fctl = s.fctl := by unfold State.raiseFip; split <;> rfl
@[simp] theorem State.raiseFip_ddtp : s.raiseFip.ddtp = s.ddtp := by unfold State.raiseFip; split <;> rfl
@[simp] theorem State.raiseFip_ddtpBusy : s.raiseFip.ddtpBusy = s.ddtpBusy := by unfold State.raiseFip; split <;> rfl
@[simp] theorem State.raiseFip_ddtpOld : s.raiseFip.ddtpOld = s.ddtpOld := by unfold State.raiseFip; split <;> rfl
@[simp] theorem State.raiseFip_cqb : s.raiseFip.cqb = s.cqb := by unfold State.raiseFip; split <;> rfl
@[simp] theorem State.raiseFip_cqh : s.raiseFip.cqh = s.cqh := by unfold State.raiseFip; split <;> rfl
@[simp] theorem State.raiseFip_cqt : s.raiseFip.cqt = s.cqt := by unfold State.raiseFip; split <;> rfl
@[simp] theorem State.raiseFip_fqb : s.raiseFip.fqb = s.fqb := by unfold State.raiseFip; split <;> rfl
@[simp] theorem State.raiseFip_fqh : s.raiseFip.fqh = s.fqh := by unfold State.raiseFip; split <;> rfl
@[simp] theorem State.raiseFip_fqt : s.raiseFip.fqt = s.fqt := by unfold State.raiseFip; split <;> rfl
@[simp] theorem State.raiseFip_pqb : s.raiseFip.pqb = s.pqb := by unfold State.raiseFip; split <;> rfl
@[simp] theorem State.raiseFip_pqh : s.raiseFip.pqh = s.pqh := by unfold State.raiseFip; split <;> rfl
@[simp] theorem State.raiseFip_pqt : s.raiseFip.pqt = s.pqt := by unfold State.raiseFip; split <;> rfl
@[simp] theorem State.raiseFip_cqcsr : s.raiseFip.cqcsr = s.cqcsr := by unfold State.raiseFip; split <;> rfl
@[simp] theorem State.raiseFip_fqcsr : s.raiseFip.fqcsr = s.fqcsr := by unfold State.raiseFip; split <;> rfl
@[simp] theorem State.raiseFip_pqcsr : s.raiseFip.pqcsr = s.pqcsr := by unfold State.raiseFip; split <;> rfl
@[simp] theorem State.raiseFip_iocountinh : s.raiseFip.iocountinh = s.iocountinh := by unfold State.raiseFip; split <;> rfl
@[simp] theorem State.raiseFip_iohpmcycles : s.raiseFip.iohpmcycles = s.iohpmcycles := by unfold State.raiseFip; split <;> rfl
@[simp] theorem State.raiseFip_iohpmctr : s.raiseFip.iohpmctr = s.iohpmctr := by unfold State.raiseFip; split <;> rfl
@[simp] theorem State.raiseFip_iohpmevt : s.raiseFip.iohpmevt = s.iohpmevt := by unfold State.raiseFip; split <;> rfl
@[simp] theorem State.raiseFip_trReqIova : s.raiseFip.trReqIova = s.trReqIova := by unfold State.raiseFip; split <;> rfl
@[simp] theorem State.raiseFip_trReqCtl : s.raiseFip.trReqCtl = s.trReqCtl := by unfold State.raiseFip; split <;> rfl
@[simp] theorem State.raiseFip_trResponse : s.raiseFip.trResponse = s.trResponse := by unfold State.raiseFip; split <;> rfl
@[simp] theorem State.raiseFip_icvec : s.raiseFip.icvec = s.icvec := by unfold State.raiseFip; split <;> rfl
@[simp] theorem State.raiseFip_msiCfgTbl : s.raiseFip.msiCfgTbl = s.msiCfgTbl := by unfold State.raiseFip; split <;> rfl
@[simp] theorem State.raiseFip_mem : s.raiseFip.mem = s.mem := by unfold State.raiseFip; split <;> rfl
@[simp] theorem State.raiseFip_ioatc : s.raiseFip.ioatc = s.ioatc := by unfold State.raiseFip; split <;> rfl
@[simp] theorem State.raiseFip_inflight : s.raiseFip.inflight = s.inflight := by unfold State.raiseFip; split <;> rfl
@[simp] theorem State.raiseFip_fence : s.raiseFip.fence = s.fence := by unfold State.raiseFip; split <;> rfl
@[simp] theorem State.raiseFip_timedOut : s.raiseFip.timedOut = s.timedOut := by unfold State.raiseFip; split <;> rfl
@[simp] theorem State.raiseFip_requests : s.raiseFip.requests = s.requests := by unfold State.raiseFip; split <;> rfl
@[simp] theorem State.raiseFip_activations : s.raiseFip.activations = s.activations := by unfold State.raiseFip; split <;> rfl
@[simp] theorem State.raiseFip_completions : s.raiseFip.completions = s.completions := by unfold State.raiseFip; split <;> rfl
@[simp] theorem State.raiseFip_accesses : s.raiseFip.accesses = s.accesses := by unfold State.raiseFip; split <;> rfl
@[simp] theorem State.raiseFip_faults : s.raiseFip.faults = s.faults := by unfold State.raiseFip; split <;> rfl
@[simp] theorem State.raiseFip_pages : s.raiseFip.pages = s.pages := by unfold State.raiseFip; split <;> rfl
@[simp] theorem State.raiseFip_pageRecords : s.raiseFip.pageRecords = s.pageRecords := by unfold State.raiseFip; split <;> rfl
@[simp] theorem State.raiseFip_messages : s.raiseFip.messages = s.messages := by unfold State.raiseFip; split <;> rfl
@[simp] theorem State.raiseFip_failed : s.raiseFip.failed = s.failed := by unfold State.raiseFip; split <;> rfl
@[simp] theorem State.raiseFip_halves : s.raiseFip.halves = s.halves := by unfold State.raiseFip; split <;> rfl
@[simp] theorem State.raiseFip_draws : s.raiseFip.draws = s.draws := by unfold State.raiseFip; split <;> rfl
@[simp] theorem State.raiseFip_agenda : s.raiseFip.agenda = s.agenda := by unfold State.raiseFip; split <;> rfl
@[simp] theorem State.raiseFip_hostReads : s.raiseFip.hostReads = s.hostReads := by unfold State.raiseFip; split <;> rfl

/-! ### `raisePip` -/

@[simp] theorem State.raisePip_cfg : s.raisePip.cfg = s.cfg := by unfold State.raisePip; split <;> rfl
@[simp] theorem State.raisePip_fctl : s.raisePip.fctl = s.fctl := by unfold State.raisePip; split <;> rfl
@[simp] theorem State.raisePip_ddtp : s.raisePip.ddtp = s.ddtp := by unfold State.raisePip; split <;> rfl
@[simp] theorem State.raisePip_ddtpBusy : s.raisePip.ddtpBusy = s.ddtpBusy := by unfold State.raisePip; split <;> rfl
@[simp] theorem State.raisePip_ddtpOld : s.raisePip.ddtpOld = s.ddtpOld := by unfold State.raisePip; split <;> rfl
@[simp] theorem State.raisePip_cqb : s.raisePip.cqb = s.cqb := by unfold State.raisePip; split <;> rfl
@[simp] theorem State.raisePip_cqh : s.raisePip.cqh = s.cqh := by unfold State.raisePip; split <;> rfl
@[simp] theorem State.raisePip_cqt : s.raisePip.cqt = s.cqt := by unfold State.raisePip; split <;> rfl
@[simp] theorem State.raisePip_fqb : s.raisePip.fqb = s.fqb := by unfold State.raisePip; split <;> rfl
@[simp] theorem State.raisePip_fqh : s.raisePip.fqh = s.fqh := by unfold State.raisePip; split <;> rfl
@[simp] theorem State.raisePip_fqt : s.raisePip.fqt = s.fqt := by unfold State.raisePip; split <;> rfl
@[simp] theorem State.raisePip_pqb : s.raisePip.pqb = s.pqb := by unfold State.raisePip; split <;> rfl
@[simp] theorem State.raisePip_pqh : s.raisePip.pqh = s.pqh := by unfold State.raisePip; split <;> rfl
@[simp] theorem State.raisePip_pqt : s.raisePip.pqt = s.pqt := by unfold State.raisePip; split <;> rfl
@[simp] theorem State.raisePip_cqcsr : s.raisePip.cqcsr = s.cqcsr := by unfold State.raisePip; split <;> rfl
@[simp] theorem State.raisePip_fqcsr : s.raisePip.fqcsr = s.fqcsr := by unfold State.raisePip; split <;> rfl
@[simp] theorem State.raisePip_pqcsr : s.raisePip.pqcsr = s.pqcsr := by unfold State.raisePip; split <;> rfl
@[simp] theorem State.raisePip_iocountinh : s.raisePip.iocountinh = s.iocountinh := by unfold State.raisePip; split <;> rfl
@[simp] theorem State.raisePip_iohpmcycles : s.raisePip.iohpmcycles = s.iohpmcycles := by unfold State.raisePip; split <;> rfl
@[simp] theorem State.raisePip_iohpmctr : s.raisePip.iohpmctr = s.iohpmctr := by unfold State.raisePip; split <;> rfl
@[simp] theorem State.raisePip_iohpmevt : s.raisePip.iohpmevt = s.iohpmevt := by unfold State.raisePip; split <;> rfl
@[simp] theorem State.raisePip_trReqIova : s.raisePip.trReqIova = s.trReqIova := by unfold State.raisePip; split <;> rfl
@[simp] theorem State.raisePip_trReqCtl : s.raisePip.trReqCtl = s.trReqCtl := by unfold State.raisePip; split <;> rfl
@[simp] theorem State.raisePip_trResponse : s.raisePip.trResponse = s.trResponse := by unfold State.raisePip; split <;> rfl
@[simp] theorem State.raisePip_icvec : s.raisePip.icvec = s.icvec := by unfold State.raisePip; split <;> rfl
@[simp] theorem State.raisePip_msiCfgTbl : s.raisePip.msiCfgTbl = s.msiCfgTbl := by unfold State.raisePip; split <;> rfl
@[simp] theorem State.raisePip_mem : s.raisePip.mem = s.mem := by unfold State.raisePip; split <;> rfl
@[simp] theorem State.raisePip_ioatc : s.raisePip.ioatc = s.ioatc := by unfold State.raisePip; split <;> rfl
@[simp] theorem State.raisePip_inflight : s.raisePip.inflight = s.inflight := by unfold State.raisePip; split <;> rfl
@[simp] theorem State.raisePip_fence : s.raisePip.fence = s.fence := by unfold State.raisePip; split <;> rfl
@[simp] theorem State.raisePip_timedOut : s.raisePip.timedOut = s.timedOut := by unfold State.raisePip; split <;> rfl
@[simp] theorem State.raisePip_requests : s.raisePip.requests = s.requests := by unfold State.raisePip; split <;> rfl
@[simp] theorem State.raisePip_activations : s.raisePip.activations = s.activations := by unfold State.raisePip; split <;> rfl
@[simp] theorem State.raisePip_completions : s.raisePip.completions = s.completions := by unfold State.raisePip; split <;> rfl
@[simp] theorem State.raisePip_accesses : s.raisePip.accesses = s.accesses := by unfold State.raisePip; split <;> rfl
@[simp] theorem State.raisePip_faults : s.raisePip.faults = s.faults := by unfold State.raisePip; split <;> rfl
@[simp] theorem State.raisePip_pages : s.raisePip.pages = s.pages := by unfold State.raisePip; split <;> rfl
@[simp] theorem State.raisePip_pageRecords : s.raisePip.pageRecords = s.pageRecords := by unfold State.raisePip; split <;> rfl
@[simp] theorem State.raisePip_messages : s.raisePip.messages = s.messages := by unfold State.raisePip; split <;> rfl
@[simp] theorem State.raisePip_failed : s.raisePip.failed = s.failed := by unfold State.raisePip; split <;> rfl
@[simp] theorem State.raisePip_halves : s.raisePip.halves = s.halves := by unfold State.raisePip; split <;> rfl
@[simp] theorem State.raisePip_draws : s.raisePip.draws = s.draws := by unfold State.raisePip; split <;> rfl
@[simp] theorem State.raisePip_agenda : s.raisePip.agenda = s.agenda := by unfold State.raisePip; split <;> rfl
@[simp] theorem State.raisePip_hostReads : s.raisePip.hostReads = s.hostReads := by unfold State.raisePip; split <;> rfl

/-! ### `takeCommandError` -/

@[simp] theorem State.takeCommandError_cfg (e : CommandError) : (s.takeCommandError e).cfg = s.cfg := by simp [State.takeCommandError]
@[simp] theorem State.takeCommandError_fctl (e : CommandError) : (s.takeCommandError e).fctl = s.fctl := by simp [State.takeCommandError]
@[simp] theorem State.takeCommandError_ddtp (e : CommandError) : (s.takeCommandError e).ddtp = s.ddtp := by simp [State.takeCommandError]
@[simp] theorem State.takeCommandError_ddtpBusy (e : CommandError) : (s.takeCommandError e).ddtpBusy = s.ddtpBusy := by simp [State.takeCommandError]
@[simp] theorem State.takeCommandError_ddtpOld (e : CommandError) : (s.takeCommandError e).ddtpOld = s.ddtpOld := by simp [State.takeCommandError]
@[simp] theorem State.takeCommandError_cqb (e : CommandError) : (s.takeCommandError e).cqb = s.cqb := by simp [State.takeCommandError]
@[simp] theorem State.takeCommandError_cqh (e : CommandError) : (s.takeCommandError e).cqh = s.cqh := by simp [State.takeCommandError]
@[simp] theorem State.takeCommandError_cqt (e : CommandError) : (s.takeCommandError e).cqt = s.cqt := by simp [State.takeCommandError]
@[simp] theorem State.takeCommandError_fqb (e : CommandError) : (s.takeCommandError e).fqb = s.fqb := by simp [State.takeCommandError]
@[simp] theorem State.takeCommandError_fqh (e : CommandError) : (s.takeCommandError e).fqh = s.fqh := by simp [State.takeCommandError]
@[simp] theorem State.takeCommandError_fqt (e : CommandError) : (s.takeCommandError e).fqt = s.fqt := by simp [State.takeCommandError]
@[simp] theorem State.takeCommandError_pqb (e : CommandError) : (s.takeCommandError e).pqb = s.pqb := by simp [State.takeCommandError]
@[simp] theorem State.takeCommandError_pqh (e : CommandError) : (s.takeCommandError e).pqh = s.pqh := by simp [State.takeCommandError]
@[simp] theorem State.takeCommandError_pqt (e : CommandError) : (s.takeCommandError e).pqt = s.pqt := by simp [State.takeCommandError]
@[simp] theorem State.takeCommandError_fqcsr (e : CommandError) : (s.takeCommandError e).fqcsr = s.fqcsr := by simp [State.takeCommandError]
@[simp] theorem State.takeCommandError_pqcsr (e : CommandError) : (s.takeCommandError e).pqcsr = s.pqcsr := by simp [State.takeCommandError]
@[simp] theorem State.takeCommandError_iocountinh (e : CommandError) : (s.takeCommandError e).iocountinh = s.iocountinh := by simp [State.takeCommandError]
@[simp] theorem State.takeCommandError_iohpmcycles (e : CommandError) : (s.takeCommandError e).iohpmcycles = s.iohpmcycles := by simp [State.takeCommandError]
@[simp] theorem State.takeCommandError_iohpmctr (e : CommandError) : (s.takeCommandError e).iohpmctr = s.iohpmctr := by simp [State.takeCommandError]
@[simp] theorem State.takeCommandError_iohpmevt (e : CommandError) : (s.takeCommandError e).iohpmevt = s.iohpmevt := by simp [State.takeCommandError]
@[simp] theorem State.takeCommandError_trReqIova (e : CommandError) : (s.takeCommandError e).trReqIova = s.trReqIova := by simp [State.takeCommandError]
@[simp] theorem State.takeCommandError_trReqCtl (e : CommandError) : (s.takeCommandError e).trReqCtl = s.trReqCtl := by simp [State.takeCommandError]
@[simp] theorem State.takeCommandError_trResponse (e : CommandError) : (s.takeCommandError e).trResponse = s.trResponse := by simp [State.takeCommandError]
@[simp] theorem State.takeCommandError_icvec (e : CommandError) : (s.takeCommandError e).icvec = s.icvec := by simp [State.takeCommandError]
@[simp] theorem State.takeCommandError_msiCfgTbl (e : CommandError) : (s.takeCommandError e).msiCfgTbl = s.msiCfgTbl := by simp [State.takeCommandError]
@[simp] theorem State.takeCommandError_mem (e : CommandError) : (s.takeCommandError e).mem = s.mem := by simp [State.takeCommandError]
@[simp] theorem State.takeCommandError_ioatc (e : CommandError) : (s.takeCommandError e).ioatc = s.ioatc := by simp [State.takeCommandError]
@[simp] theorem State.takeCommandError_inflight (e : CommandError) : (s.takeCommandError e).inflight = s.inflight := by simp [State.takeCommandError]
@[simp] theorem State.takeCommandError_timedOut (e : CommandError) : (s.takeCommandError e).timedOut = s.timedOut := by simp [State.takeCommandError]
@[simp] theorem State.takeCommandError_requests (e : CommandError) : (s.takeCommandError e).requests = s.requests := by simp [State.takeCommandError]
@[simp] theorem State.takeCommandError_activations (e : CommandError) : (s.takeCommandError e).activations = s.activations := by simp [State.takeCommandError]
@[simp] theorem State.takeCommandError_completions (e : CommandError) : (s.takeCommandError e).completions = s.completions := by simp [State.takeCommandError]
@[simp] theorem State.takeCommandError_accesses (e : CommandError) : (s.takeCommandError e).accesses = s.accesses := by simp [State.takeCommandError]
@[simp] theorem State.takeCommandError_faults (e : CommandError) : (s.takeCommandError e).faults = s.faults := by simp [State.takeCommandError]
@[simp] theorem State.takeCommandError_pages (e : CommandError) : (s.takeCommandError e).pages = s.pages := by simp [State.takeCommandError]
@[simp] theorem State.takeCommandError_pageRecords (e : CommandError) : (s.takeCommandError e).pageRecords = s.pageRecords := by simp [State.takeCommandError]
@[simp] theorem State.takeCommandError_messages (e : CommandError) : (s.takeCommandError e).messages = s.messages := by simp [State.takeCommandError]
@[simp] theorem State.takeCommandError_failed (e : CommandError) : (s.takeCommandError e).failed = s.failed := by simp [State.takeCommandError]
@[simp] theorem State.takeCommandError_halves (e : CommandError) : (s.takeCommandError e).halves = s.halves := by simp [State.takeCommandError]
@[simp] theorem State.takeCommandError_draws (e : CommandError) : (s.takeCommandError e).draws = s.draws := by simp [State.takeCommandError]
@[simp] theorem State.takeCommandError_agenda (e : CommandError) : (s.takeCommandError e).agenda = s.agenda := by simp [State.takeCommandError]
@[simp] theorem State.takeCommandError_hostReads (e : CommandError) : (s.takeCommandError e).hostReads = s.hostReads := by simp [State.takeCommandError]

/-! ### `advanceHead` -/

@[simp] theorem State.advanceHead_cqh : s.advanceHead.cqh = s.cqb.next s.cqh := rfl
@[simp] theorem State.advanceHead_cfg : s.advanceHead.cfg = s.cfg := rfl
@[simp] theorem State.advanceHead_fctl : s.advanceHead.fctl = s.fctl := rfl
@[simp] theorem State.advanceHead_ddtp : s.advanceHead.ddtp = s.ddtp := rfl
@[simp] theorem State.advanceHead_ddtpBusy : s.advanceHead.ddtpBusy = s.ddtpBusy := rfl
@[simp] theorem State.advanceHead_ddtpOld : s.advanceHead.ddtpOld = s.ddtpOld := rfl
@[simp] theorem State.advanceHead_cqb : s.advanceHead.cqb = s.cqb := rfl
@[simp] theorem State.advanceHead_cqt : s.advanceHead.cqt = s.cqt := rfl
@[simp] theorem State.advanceHead_fqb : s.advanceHead.fqb = s.fqb := rfl
@[simp] theorem State.advanceHead_fqh : s.advanceHead.fqh = s.fqh := rfl
@[simp] theorem State.advanceHead_fqt : s.advanceHead.fqt = s.fqt := rfl
@[simp] theorem State.advanceHead_pqb : s.advanceHead.pqb = s.pqb := rfl
@[simp] theorem State.advanceHead_pqh : s.advanceHead.pqh = s.pqh := rfl
@[simp] theorem State.advanceHead_pqt : s.advanceHead.pqt = s.pqt := rfl
@[simp] theorem State.advanceHead_cqcsr : s.advanceHead.cqcsr = s.cqcsr := rfl
@[simp] theorem State.advanceHead_fqcsr : s.advanceHead.fqcsr = s.fqcsr := rfl
@[simp] theorem State.advanceHead_pqcsr : s.advanceHead.pqcsr = s.pqcsr := rfl
@[simp] theorem State.advanceHead_ipsr : s.advanceHead.ipsr = s.ipsr := rfl
@[simp] theorem State.advanceHead_iocountinh : s.advanceHead.iocountinh = s.iocountinh := rfl
@[simp] theorem State.advanceHead_iohpmcycles : s.advanceHead.iohpmcycles = s.iohpmcycles := rfl
@[simp] theorem State.advanceHead_iohpmctr : s.advanceHead.iohpmctr = s.iohpmctr := rfl
@[simp] theorem State.advanceHead_iohpmevt : s.advanceHead.iohpmevt = s.iohpmevt := rfl
@[simp] theorem State.advanceHead_trReqIova : s.advanceHead.trReqIova = s.trReqIova := rfl
@[simp] theorem State.advanceHead_trReqCtl : s.advanceHead.trReqCtl = s.trReqCtl := rfl
@[simp] theorem State.advanceHead_trResponse : s.advanceHead.trResponse = s.trResponse := rfl
@[simp] theorem State.advanceHead_icvec : s.advanceHead.icvec = s.icvec := rfl
@[simp] theorem State.advanceHead_msiCfgTbl : s.advanceHead.msiCfgTbl = s.msiCfgTbl := rfl
@[simp] theorem State.advanceHead_mem : s.advanceHead.mem = s.mem := rfl
@[simp] theorem State.advanceHead_ioatc : s.advanceHead.ioatc = s.ioatc := rfl
@[simp] theorem State.advanceHead_inflight : s.advanceHead.inflight = s.inflight := rfl
@[simp] theorem State.advanceHead_fence : s.advanceHead.fence = s.fence := rfl
@[simp] theorem State.advanceHead_timedOut : s.advanceHead.timedOut = s.timedOut := rfl
@[simp] theorem State.advanceHead_requests : s.advanceHead.requests = s.requests := rfl
@[simp] theorem State.advanceHead_activations : s.advanceHead.activations = s.activations := rfl
@[simp] theorem State.advanceHead_completions : s.advanceHead.completions = s.completions := rfl
@[simp] theorem State.advanceHead_accesses : s.advanceHead.accesses = s.accesses := rfl
@[simp] theorem State.advanceHead_faults : s.advanceHead.faults = s.faults := rfl
@[simp] theorem State.advanceHead_pages : s.advanceHead.pages = s.pages := rfl
@[simp] theorem State.advanceHead_pageRecords : s.advanceHead.pageRecords = s.pageRecords := rfl
@[simp] theorem State.advanceHead_messages : s.advanceHead.messages = s.messages := rfl
@[simp] theorem State.advanceHead_msiOwed : s.advanceHead.msiOwed = s.msiOwed := rfl
@[simp] theorem State.advanceHead_failed : s.advanceHead.failed = s.failed := rfl
@[simp] theorem State.advanceHead_halves : s.advanceHead.halves = s.halves := rfl
@[simp] theorem State.advanceHead_draws : s.advanceHead.draws = s.draws := rfl
@[simp] theorem State.advanceHead_agenda : s.advanceHead.agenda = s.agenda := rfl
@[simp] theorem State.advanceHead_hostReads : s.advanceHead.hostReads = s.hostReads := rfl

/-! ### `invalidate` -/

@[simp] theorem State.invalidate_ioatc (i : Invalidation) : (s.invalidate i).ioatc = s.ioatc.filter (fun e => !i.covers e) := rfl
@[simp] theorem State.invalidate_cfg (i : Invalidation) : (s.invalidate i).cfg = s.cfg := rfl
@[simp] theorem State.invalidate_fctl (i : Invalidation) : (s.invalidate i).fctl = s.fctl := rfl
@[simp] theorem State.invalidate_ddtp (i : Invalidation) : (s.invalidate i).ddtp = s.ddtp := rfl
@[simp] theorem State.invalidate_ddtpBusy (i : Invalidation) : (s.invalidate i).ddtpBusy = s.ddtpBusy := rfl
@[simp] theorem State.invalidate_ddtpOld (i : Invalidation) : (s.invalidate i).ddtpOld = s.ddtpOld := rfl
@[simp] theorem State.invalidate_cqb (i : Invalidation) : (s.invalidate i).cqb = s.cqb := rfl
@[simp] theorem State.invalidate_cqh (i : Invalidation) : (s.invalidate i).cqh = s.cqh := rfl
@[simp] theorem State.invalidate_cqt (i : Invalidation) : (s.invalidate i).cqt = s.cqt := rfl
@[simp] theorem State.invalidate_fqb (i : Invalidation) : (s.invalidate i).fqb = s.fqb := rfl
@[simp] theorem State.invalidate_fqh (i : Invalidation) : (s.invalidate i).fqh = s.fqh := rfl
@[simp] theorem State.invalidate_fqt (i : Invalidation) : (s.invalidate i).fqt = s.fqt := rfl
@[simp] theorem State.invalidate_pqb (i : Invalidation) : (s.invalidate i).pqb = s.pqb := rfl
@[simp] theorem State.invalidate_pqh (i : Invalidation) : (s.invalidate i).pqh = s.pqh := rfl
@[simp] theorem State.invalidate_pqt (i : Invalidation) : (s.invalidate i).pqt = s.pqt := rfl
@[simp] theorem State.invalidate_cqcsr (i : Invalidation) : (s.invalidate i).cqcsr = s.cqcsr := rfl
@[simp] theorem State.invalidate_fqcsr (i : Invalidation) : (s.invalidate i).fqcsr = s.fqcsr := rfl
@[simp] theorem State.invalidate_pqcsr (i : Invalidation) : (s.invalidate i).pqcsr = s.pqcsr := rfl
@[simp] theorem State.invalidate_ipsr (i : Invalidation) : (s.invalidate i).ipsr = s.ipsr := rfl
@[simp] theorem State.invalidate_iocountinh (i : Invalidation) : (s.invalidate i).iocountinh = s.iocountinh := rfl
@[simp] theorem State.invalidate_iohpmcycles (i : Invalidation) : (s.invalidate i).iohpmcycles = s.iohpmcycles := rfl
@[simp] theorem State.invalidate_iohpmctr (i : Invalidation) : (s.invalidate i).iohpmctr = s.iohpmctr := rfl
@[simp] theorem State.invalidate_iohpmevt (i : Invalidation) : (s.invalidate i).iohpmevt = s.iohpmevt := rfl
@[simp] theorem State.invalidate_trReqIova (i : Invalidation) : (s.invalidate i).trReqIova = s.trReqIova := rfl
@[simp] theorem State.invalidate_trReqCtl (i : Invalidation) : (s.invalidate i).trReqCtl = s.trReqCtl := rfl
@[simp] theorem State.invalidate_trResponse (i : Invalidation) : (s.invalidate i).trResponse = s.trResponse := rfl
@[simp] theorem State.invalidate_icvec (i : Invalidation) : (s.invalidate i).icvec = s.icvec := rfl
@[simp] theorem State.invalidate_msiCfgTbl (i : Invalidation) : (s.invalidate i).msiCfgTbl = s.msiCfgTbl := rfl
@[simp] theorem State.invalidate_mem (i : Invalidation) : (s.invalidate i).mem = s.mem := rfl
@[simp] theorem State.invalidate_inflight (i : Invalidation) : (s.invalidate i).inflight = s.inflight := rfl
@[simp] theorem State.invalidate_fence (i : Invalidation) : (s.invalidate i).fence = s.fence := rfl
@[simp] theorem State.invalidate_timedOut (i : Invalidation) : (s.invalidate i).timedOut = s.timedOut := rfl
@[simp] theorem State.invalidate_requests (i : Invalidation) : (s.invalidate i).requests = s.requests := rfl
@[simp] theorem State.invalidate_activations (i : Invalidation) : (s.invalidate i).activations = s.activations.map (Activation.lose i) := rfl
@[simp] theorem State.invalidate_completions (i : Invalidation) : (s.invalidate i).completions = s.completions := rfl
@[simp] theorem State.invalidate_accesses (i : Invalidation) : (s.invalidate i).accesses = s.accesses := rfl
@[simp] theorem State.invalidate_faults (i : Invalidation) : (s.invalidate i).faults = s.faults := rfl
@[simp] theorem State.invalidate_pages (i : Invalidation) : (s.invalidate i).pages = s.pages := rfl
@[simp] theorem State.invalidate_pageRecords (i : Invalidation) : (s.invalidate i).pageRecords = s.pageRecords := rfl
@[simp] theorem State.invalidate_messages (i : Invalidation) : (s.invalidate i).messages = s.messages := rfl
@[simp] theorem State.invalidate_msiOwed (i : Invalidation) : (s.invalidate i).msiOwed = s.msiOwed := rfl
@[simp] theorem State.invalidate_failed (i : Invalidation) : (s.invalidate i).failed = s.failed := rfl
@[simp] theorem State.invalidate_halves (i : Invalidation) : (s.invalidate i).halves = s.halves := rfl
@[simp] theorem State.invalidate_draws (i : Invalidation) : (s.invalidate i).draws = s.draws := rfl
@[simp] theorem State.invalidate_agenda (i : Invalidation) : (s.invalidate i).agenda = s.agenda := rfl
@[simp] theorem State.invalidate_hostReads (i : Invalidation) : (s.invalidate i).hostReads = s.hostReads := rfl

/-! ### `send` -/

@[simp] theorem State.send_messages (m : Message) : (s.send m).messages = s.messages ++ [m] := rfl
@[simp] theorem State.send_cfg (m : Message) : (s.send m).cfg = s.cfg := rfl
@[simp] theorem State.send_fctl (m : Message) : (s.send m).fctl = s.fctl := rfl
@[simp] theorem State.send_ddtp (m : Message) : (s.send m).ddtp = s.ddtp := rfl
@[simp] theorem State.send_ddtpBusy (m : Message) : (s.send m).ddtpBusy = s.ddtpBusy := rfl
@[simp] theorem State.send_ddtpOld (m : Message) : (s.send m).ddtpOld = s.ddtpOld := rfl
@[simp] theorem State.send_cqb (m : Message) : (s.send m).cqb = s.cqb := rfl
@[simp] theorem State.send_cqh (m : Message) : (s.send m).cqh = s.cqh := rfl
@[simp] theorem State.send_cqt (m : Message) : (s.send m).cqt = s.cqt := rfl
@[simp] theorem State.send_fqb (m : Message) : (s.send m).fqb = s.fqb := rfl
@[simp] theorem State.send_fqh (m : Message) : (s.send m).fqh = s.fqh := rfl
@[simp] theorem State.send_fqt (m : Message) : (s.send m).fqt = s.fqt := rfl
@[simp] theorem State.send_pqb (m : Message) : (s.send m).pqb = s.pqb := rfl
@[simp] theorem State.send_pqh (m : Message) : (s.send m).pqh = s.pqh := rfl
@[simp] theorem State.send_pqt (m : Message) : (s.send m).pqt = s.pqt := rfl
@[simp] theorem State.send_cqcsr (m : Message) : (s.send m).cqcsr = s.cqcsr := rfl
@[simp] theorem State.send_fqcsr (m : Message) : (s.send m).fqcsr = s.fqcsr := rfl
@[simp] theorem State.send_pqcsr (m : Message) : (s.send m).pqcsr = s.pqcsr := rfl
@[simp] theorem State.send_ipsr (m : Message) : (s.send m).ipsr = s.ipsr := rfl
@[simp] theorem State.send_iocountinh (m : Message) : (s.send m).iocountinh = s.iocountinh := rfl
@[simp] theorem State.send_iohpmcycles (m : Message) : (s.send m).iohpmcycles = s.iohpmcycles := rfl
@[simp] theorem State.send_iohpmctr (m : Message) : (s.send m).iohpmctr = s.iohpmctr := rfl
@[simp] theorem State.send_iohpmevt (m : Message) : (s.send m).iohpmevt = s.iohpmevt := rfl
@[simp] theorem State.send_trReqIova (m : Message) : (s.send m).trReqIova = s.trReqIova := rfl
@[simp] theorem State.send_trReqCtl (m : Message) : (s.send m).trReqCtl = s.trReqCtl := rfl
@[simp] theorem State.send_trResponse (m : Message) : (s.send m).trResponse = s.trResponse := rfl
@[simp] theorem State.send_icvec (m : Message) : (s.send m).icvec = s.icvec := rfl
@[simp] theorem State.send_msiCfgTbl (m : Message) : (s.send m).msiCfgTbl = s.msiCfgTbl := rfl
@[simp] theorem State.send_mem (m : Message) : (s.send m).mem = s.mem := rfl
@[simp] theorem State.send_ioatc (m : Message) : (s.send m).ioatc = s.ioatc := rfl
@[simp] theorem State.send_inflight (m : Message) : (s.send m).inflight = s.inflight := rfl
@[simp] theorem State.send_fence (m : Message) : (s.send m).fence = s.fence := rfl
@[simp] theorem State.send_timedOut (m : Message) : (s.send m).timedOut = s.timedOut := rfl
@[simp] theorem State.send_requests (m : Message) : (s.send m).requests = s.requests := rfl
@[simp] theorem State.send_activations (m : Message) : (s.send m).activations = s.activations := rfl
@[simp] theorem State.send_completions (m : Message) : (s.send m).completions = s.completions := rfl
@[simp] theorem State.send_accesses (m : Message) : (s.send m).accesses = s.accesses := rfl
@[simp] theorem State.send_faults (m : Message) : (s.send m).faults = s.faults := rfl
@[simp] theorem State.send_pages (m : Message) : (s.send m).pages = s.pages := rfl
@[simp] theorem State.send_pageRecords (m : Message) : (s.send m).pageRecords = s.pageRecords := rfl
@[simp] theorem State.send_msiOwed (m : Message) : (s.send m).msiOwed = s.msiOwed := rfl
@[simp] theorem State.send_failed (m : Message) : (s.send m).failed = s.failed := rfl
@[simp] theorem State.send_halves (m : Message) : (s.send m).halves = s.halves := rfl
@[simp] theorem State.send_draws (m : Message) : (s.send m).draws = s.draws := rfl
@[simp] theorem State.send_agenda (m : Message) : (s.send m).agenda = s.agenda := rfl
@[simp] theorem State.send_hostReads (m : Message) : (s.send m).hostReads = s.hostReads := rfl

/-! ### `await` -/

@[simp] theorem State.await_inflight (i : Instr) : (s.await i).inflight = s.inflight ++ [⟨i, .waiting⟩] := rfl
@[simp] theorem State.await_cfg (i : Instr) : (s.await i).cfg = s.cfg := rfl
@[simp] theorem State.await_fctl (i : Instr) : (s.await i).fctl = s.fctl := rfl
@[simp] theorem State.await_ddtp (i : Instr) : (s.await i).ddtp = s.ddtp := rfl
@[simp] theorem State.await_ddtpBusy (i : Instr) : (s.await i).ddtpBusy = s.ddtpBusy := rfl
@[simp] theorem State.await_ddtpOld (i : Instr) : (s.await i).ddtpOld = s.ddtpOld := rfl
@[simp] theorem State.await_cqb (i : Instr) : (s.await i).cqb = s.cqb := rfl
@[simp] theorem State.await_cqh (i : Instr) : (s.await i).cqh = s.cqh := rfl
@[simp] theorem State.await_cqt (i : Instr) : (s.await i).cqt = s.cqt := rfl
@[simp] theorem State.await_fqb (i : Instr) : (s.await i).fqb = s.fqb := rfl
@[simp] theorem State.await_fqh (i : Instr) : (s.await i).fqh = s.fqh := rfl
@[simp] theorem State.await_fqt (i : Instr) : (s.await i).fqt = s.fqt := rfl
@[simp] theorem State.await_pqb (i : Instr) : (s.await i).pqb = s.pqb := rfl
@[simp] theorem State.await_pqh (i : Instr) : (s.await i).pqh = s.pqh := rfl
@[simp] theorem State.await_pqt (i : Instr) : (s.await i).pqt = s.pqt := rfl
@[simp] theorem State.await_cqcsr (i : Instr) : (s.await i).cqcsr = s.cqcsr := rfl
@[simp] theorem State.await_fqcsr (i : Instr) : (s.await i).fqcsr = s.fqcsr := rfl
@[simp] theorem State.await_pqcsr (i : Instr) : (s.await i).pqcsr = s.pqcsr := rfl
@[simp] theorem State.await_ipsr (i : Instr) : (s.await i).ipsr = s.ipsr := rfl
@[simp] theorem State.await_iocountinh (i : Instr) : (s.await i).iocountinh = s.iocountinh := rfl
@[simp] theorem State.await_iohpmcycles (i : Instr) : (s.await i).iohpmcycles = s.iohpmcycles := rfl
@[simp] theorem State.await_iohpmctr (i : Instr) : (s.await i).iohpmctr = s.iohpmctr := rfl
@[simp] theorem State.await_iohpmevt (i : Instr) : (s.await i).iohpmevt = s.iohpmevt := rfl
@[simp] theorem State.await_trReqIova (i : Instr) : (s.await i).trReqIova = s.trReqIova := rfl
@[simp] theorem State.await_trReqCtl (i : Instr) : (s.await i).trReqCtl = s.trReqCtl := rfl
@[simp] theorem State.await_trResponse (i : Instr) : (s.await i).trResponse = s.trResponse := rfl
@[simp] theorem State.await_icvec (i : Instr) : (s.await i).icvec = s.icvec := rfl
@[simp] theorem State.await_msiCfgTbl (i : Instr) : (s.await i).msiCfgTbl = s.msiCfgTbl := rfl
@[simp] theorem State.await_mem (i : Instr) : (s.await i).mem = s.mem := rfl
@[simp] theorem State.await_ioatc (i : Instr) : (s.await i).ioatc = s.ioatc := rfl
@[simp] theorem State.await_fence (i : Instr) : (s.await i).fence = s.fence := rfl
@[simp] theorem State.await_timedOut (i : Instr) : (s.await i).timedOut = s.timedOut := rfl
@[simp] theorem State.await_requests (i : Instr) : (s.await i).requests = s.requests := rfl
@[simp] theorem State.await_activations (i : Instr) : (s.await i).activations = s.activations := rfl
@[simp] theorem State.await_completions (i : Instr) : (s.await i).completions = s.completions := rfl
@[simp] theorem State.await_accesses (i : Instr) : (s.await i).accesses = s.accesses := rfl
@[simp] theorem State.await_faults (i : Instr) : (s.await i).faults = s.faults := rfl
@[simp] theorem State.await_pages (i : Instr) : (s.await i).pages = s.pages := rfl
@[simp] theorem State.await_pageRecords (i : Instr) : (s.await i).pageRecords = s.pageRecords := rfl
@[simp] theorem State.await_messages (i : Instr) : (s.await i).messages = s.messages := rfl
@[simp] theorem State.await_msiOwed (i : Instr) : (s.await i).msiOwed = s.msiOwed := rfl
@[simp] theorem State.await_failed (i : Instr) : (s.await i).failed = s.failed := rfl
@[simp] theorem State.await_halves (i : Instr) : (s.await i).halves = s.halves := rfl
@[simp] theorem State.await_draws (i : Instr) : (s.await i).draws = s.draws := rfl
@[simp] theorem State.await_agenda (i : Instr) : (s.await i).agenda = s.agenda := rfl
@[simp] theorem State.await_hostReads (i : Instr) : (s.await i).hostReads = s.hostReads := rfl

/-! ### `commitPrevious` -/

@[simp] theorem State.commitPrevious_cfg (pr pw : Bool) : (s.commitPrevious pr pw).cfg = s.cfg := rfl
@[simp] theorem State.commitPrevious_fctl (pr pw : Bool) : (s.commitPrevious pr pw).fctl = s.fctl := rfl
@[simp] theorem State.commitPrevious_ddtp (pr pw : Bool) : (s.commitPrevious pr pw).ddtp = s.ddtp := rfl
@[simp] theorem State.commitPrevious_ddtpBusy (pr pw : Bool) : (s.commitPrevious pr pw).ddtpBusy = s.ddtpBusy := rfl
@[simp] theorem State.commitPrevious_ddtpOld (pr pw : Bool) : (s.commitPrevious pr pw).ddtpOld = s.ddtpOld := rfl
@[simp] theorem State.commitPrevious_cqb (pr pw : Bool) : (s.commitPrevious pr pw).cqb = s.cqb := rfl
@[simp] theorem State.commitPrevious_cqh (pr pw : Bool) : (s.commitPrevious pr pw).cqh = s.cqh := rfl
@[simp] theorem State.commitPrevious_cqt (pr pw : Bool) : (s.commitPrevious pr pw).cqt = s.cqt := rfl
@[simp] theorem State.commitPrevious_fqb (pr pw : Bool) : (s.commitPrevious pr pw).fqb = s.fqb := rfl
@[simp] theorem State.commitPrevious_fqh (pr pw : Bool) : (s.commitPrevious pr pw).fqh = s.fqh := rfl
@[simp] theorem State.commitPrevious_fqt (pr pw : Bool) : (s.commitPrevious pr pw).fqt = s.fqt := rfl
@[simp] theorem State.commitPrevious_pqb (pr pw : Bool) : (s.commitPrevious pr pw).pqb = s.pqb := rfl
@[simp] theorem State.commitPrevious_pqh (pr pw : Bool) : (s.commitPrevious pr pw).pqh = s.pqh := rfl
@[simp] theorem State.commitPrevious_pqt (pr pw : Bool) : (s.commitPrevious pr pw).pqt = s.pqt := rfl
@[simp] theorem State.commitPrevious_cqcsr (pr pw : Bool) : (s.commitPrevious pr pw).cqcsr = s.cqcsr := rfl
@[simp] theorem State.commitPrevious_fqcsr (pr pw : Bool) : (s.commitPrevious pr pw).fqcsr = s.fqcsr := rfl
@[simp] theorem State.commitPrevious_pqcsr (pr pw : Bool) : (s.commitPrevious pr pw).pqcsr = s.pqcsr := rfl
@[simp] theorem State.commitPrevious_ipsr (pr pw : Bool) : (s.commitPrevious pr pw).ipsr = s.ipsr := rfl
@[simp] theorem State.commitPrevious_iocountinh (pr pw : Bool) : (s.commitPrevious pr pw).iocountinh = s.iocountinh := rfl
@[simp] theorem State.commitPrevious_iohpmcycles (pr pw : Bool) : (s.commitPrevious pr pw).iohpmcycles = s.iohpmcycles := rfl
@[simp] theorem State.commitPrevious_iohpmctr (pr pw : Bool) : (s.commitPrevious pr pw).iohpmctr = s.iohpmctr := rfl
@[simp] theorem State.commitPrevious_iohpmevt (pr pw : Bool) : (s.commitPrevious pr pw).iohpmevt = s.iohpmevt := rfl
@[simp] theorem State.commitPrevious_trReqIova (pr pw : Bool) : (s.commitPrevious pr pw).trReqIova = s.trReqIova := rfl
@[simp] theorem State.commitPrevious_trReqCtl (pr pw : Bool) : (s.commitPrevious pr pw).trReqCtl = s.trReqCtl := rfl
@[simp] theorem State.commitPrevious_trResponse (pr pw : Bool) : (s.commitPrevious pr pw).trResponse = s.trResponse := rfl
@[simp] theorem State.commitPrevious_icvec (pr pw : Bool) : (s.commitPrevious pr pw).icvec = s.icvec := rfl
@[simp] theorem State.commitPrevious_msiCfgTbl (pr pw : Bool) : (s.commitPrevious pr pw).msiCfgTbl = s.msiCfgTbl := rfl
@[simp] theorem State.commitPrevious_mem (pr pw : Bool) : (s.commitPrevious pr pw).mem = s.mem := rfl
@[simp] theorem State.commitPrevious_ioatc (pr pw : Bool) : (s.commitPrevious pr pw).ioatc = s.ioatc := rfl
@[simp] theorem State.commitPrevious_inflight (pr pw : Bool) : (s.commitPrevious pr pw).inflight = s.inflight := rfl
@[simp] theorem State.commitPrevious_fence (pr pw : Bool) : (s.commitPrevious pr pw).fence = s.fence := rfl
@[simp] theorem State.commitPrevious_timedOut (pr pw : Bool) : (s.commitPrevious pr pw).timedOut = s.timedOut := rfl
@[simp] theorem State.commitPrevious_requests (pr pw : Bool) : (s.commitPrevious pr pw).requests = s.requests := rfl
@[simp] theorem State.commitPrevious_activations (pr pw : Bool) : (s.commitPrevious pr pw).activations = s.activations := rfl
@[simp] theorem State.commitPrevious_completions (pr pw : Bool) : (s.commitPrevious pr pw).completions = s.completions := rfl
@[simp] theorem State.commitPrevious_faults (pr pw : Bool) : (s.commitPrevious pr pw).faults = s.faults := rfl
@[simp] theorem State.commitPrevious_pages (pr pw : Bool) : (s.commitPrevious pr pw).pages = s.pages := rfl
@[simp] theorem State.commitPrevious_pageRecords (pr pw : Bool) : (s.commitPrevious pr pw).pageRecords = s.pageRecords := rfl
@[simp] theorem State.commitPrevious_messages (pr pw : Bool) : (s.commitPrevious pr pw).messages = s.messages := rfl
@[simp] theorem State.commitPrevious_msiOwed (pr pw : Bool) : (s.commitPrevious pr pw).msiOwed = s.msiOwed := rfl
@[simp] theorem State.commitPrevious_failed (pr pw : Bool) : (s.commitPrevious pr pw).failed = s.failed := rfl
@[simp] theorem State.commitPrevious_halves (pr pw : Bool) : (s.commitPrevious pr pw).halves = s.halves := rfl
@[simp] theorem State.commitPrevious_draws (pr pw : Bool) : (s.commitPrevious pr pw).draws = s.draws := rfl
@[simp] theorem State.commitPrevious_agenda (pr pw : Bool) : (s.commitPrevious pr pw).agenda = s.agenda := rfl
@[simp] theorem State.commitPrevious_hostReads (pr pw : Bool) : (s.commitPrevious pr pw).hostReads = s.hostReads := rfl

/-! ### `nextDraw` -/

@[simp] theorem State.nextDraw_draws : s.nextDraw.draws = s.draws + 1 := rfl
@[simp] theorem State.nextDraw_cfg : s.nextDraw.cfg = s.cfg := rfl
@[simp] theorem State.nextDraw_fctl : s.nextDraw.fctl = s.fctl := rfl
@[simp] theorem State.nextDraw_ddtp : s.nextDraw.ddtp = s.ddtp := rfl
@[simp] theorem State.nextDraw_ddtpBusy : s.nextDraw.ddtpBusy = s.ddtpBusy := rfl
@[simp] theorem State.nextDraw_ddtpOld : s.nextDraw.ddtpOld = s.ddtpOld := rfl
@[simp] theorem State.nextDraw_cqb : s.nextDraw.cqb = s.cqb := rfl
@[simp] theorem State.nextDraw_cqh : s.nextDraw.cqh = s.cqh := rfl
@[simp] theorem State.nextDraw_cqt : s.nextDraw.cqt = s.cqt := rfl
@[simp] theorem State.nextDraw_fqb : s.nextDraw.fqb = s.fqb := rfl
@[simp] theorem State.nextDraw_fqh : s.nextDraw.fqh = s.fqh := rfl
@[simp] theorem State.nextDraw_fqt : s.nextDraw.fqt = s.fqt := rfl
@[simp] theorem State.nextDraw_pqb : s.nextDraw.pqb = s.pqb := rfl
@[simp] theorem State.nextDraw_pqh : s.nextDraw.pqh = s.pqh := rfl
@[simp] theorem State.nextDraw_pqt : s.nextDraw.pqt = s.pqt := rfl
@[simp] theorem State.nextDraw_cqcsr : s.nextDraw.cqcsr = s.cqcsr := rfl
@[simp] theorem State.nextDraw_fqcsr : s.nextDraw.fqcsr = s.fqcsr := rfl
@[simp] theorem State.nextDraw_pqcsr : s.nextDraw.pqcsr = s.pqcsr := rfl
@[simp] theorem State.nextDraw_ipsr : s.nextDraw.ipsr = s.ipsr := rfl
@[simp] theorem State.nextDraw_iocountinh : s.nextDraw.iocountinh = s.iocountinh := rfl
@[simp] theorem State.nextDraw_iohpmcycles : s.nextDraw.iohpmcycles = s.iohpmcycles := rfl
@[simp] theorem State.nextDraw_iohpmctr : s.nextDraw.iohpmctr = s.iohpmctr := rfl
@[simp] theorem State.nextDraw_iohpmevt : s.nextDraw.iohpmevt = s.iohpmevt := rfl
@[simp] theorem State.nextDraw_trReqIova : s.nextDraw.trReqIova = s.trReqIova := rfl
@[simp] theorem State.nextDraw_trReqCtl : s.nextDraw.trReqCtl = s.trReqCtl := rfl
@[simp] theorem State.nextDraw_trResponse : s.nextDraw.trResponse = s.trResponse := rfl
@[simp] theorem State.nextDraw_icvec : s.nextDraw.icvec = s.icvec := rfl
@[simp] theorem State.nextDraw_msiCfgTbl : s.nextDraw.msiCfgTbl = s.msiCfgTbl := rfl
@[simp] theorem State.nextDraw_mem : s.nextDraw.mem = s.mem := rfl
@[simp] theorem State.nextDraw_ioatc : s.nextDraw.ioatc = s.ioatc := rfl
@[simp] theorem State.nextDraw_inflight : s.nextDraw.inflight = s.inflight := rfl
@[simp] theorem State.nextDraw_fence : s.nextDraw.fence = s.fence := rfl
@[simp] theorem State.nextDraw_timedOut : s.nextDraw.timedOut = s.timedOut := rfl
@[simp] theorem State.nextDraw_requests : s.nextDraw.requests = s.requests := rfl
@[simp] theorem State.nextDraw_activations : s.nextDraw.activations = s.activations := rfl
@[simp] theorem State.nextDraw_completions : s.nextDraw.completions = s.completions := rfl
@[simp] theorem State.nextDraw_accesses : s.nextDraw.accesses = s.accesses := rfl
@[simp] theorem State.nextDraw_faults : s.nextDraw.faults = s.faults := rfl
@[simp] theorem State.nextDraw_pages : s.nextDraw.pages = s.pages := rfl
@[simp] theorem State.nextDraw_pageRecords : s.nextDraw.pageRecords = s.pageRecords := rfl
@[simp] theorem State.nextDraw_messages : s.nextDraw.messages = s.messages := rfl
@[simp] theorem State.nextDraw_msiOwed : s.nextDraw.msiOwed = s.msiOwed := rfl
@[simp] theorem State.nextDraw_failed : s.nextDraw.failed = s.failed := rfl
@[simp] theorem State.nextDraw_halves : s.nextDraw.halves = s.halves := rfl
@[simp] theorem State.nextDraw_agenda : s.nextDraw.agenda = s.agenda := rfl
@[simp] theorem State.nextDraw_hostReads : s.nextDraw.hostReads = s.hostReads := rfl

/-! ### `complete` -/

@[simp] theorem State.complete_completions (c : Completion) : (s.complete c).completions = s.completions ++ [c] := rfl
@[simp] theorem State.complete_cfg (c : Completion) : (s.complete c).cfg = s.cfg := rfl
@[simp] theorem State.complete_fctl (c : Completion) : (s.complete c).fctl = s.fctl := rfl
@[simp] theorem State.complete_ddtp (c : Completion) : (s.complete c).ddtp = s.ddtp := rfl
@[simp] theorem State.complete_ddtpBusy (c : Completion) : (s.complete c).ddtpBusy = s.ddtpBusy := rfl
@[simp] theorem State.complete_ddtpOld (c : Completion) : (s.complete c).ddtpOld = s.ddtpOld := rfl
@[simp] theorem State.complete_cqb (c : Completion) : (s.complete c).cqb = s.cqb := rfl
@[simp] theorem State.complete_cqh (c : Completion) : (s.complete c).cqh = s.cqh := rfl
@[simp] theorem State.complete_cqt (c : Completion) : (s.complete c).cqt = s.cqt := rfl
@[simp] theorem State.complete_fqb (c : Completion) : (s.complete c).fqb = s.fqb := rfl
@[simp] theorem State.complete_fqh (c : Completion) : (s.complete c).fqh = s.fqh := rfl
@[simp] theorem State.complete_fqt (c : Completion) : (s.complete c).fqt = s.fqt := rfl
@[simp] theorem State.complete_pqb (c : Completion) : (s.complete c).pqb = s.pqb := rfl
@[simp] theorem State.complete_pqh (c : Completion) : (s.complete c).pqh = s.pqh := rfl
@[simp] theorem State.complete_pqt (c : Completion) : (s.complete c).pqt = s.pqt := rfl
@[simp] theorem State.complete_cqcsr (c : Completion) : (s.complete c).cqcsr = s.cqcsr := rfl
@[simp] theorem State.complete_fqcsr (c : Completion) : (s.complete c).fqcsr = s.fqcsr := rfl
@[simp] theorem State.complete_pqcsr (c : Completion) : (s.complete c).pqcsr = s.pqcsr := rfl
@[simp] theorem State.complete_ipsr (c : Completion) : (s.complete c).ipsr = s.ipsr := rfl
@[simp] theorem State.complete_iocountinh (c : Completion) : (s.complete c).iocountinh = s.iocountinh := rfl
@[simp] theorem State.complete_iohpmcycles (c : Completion) : (s.complete c).iohpmcycles = s.iohpmcycles := rfl
@[simp] theorem State.complete_iohpmctr (c : Completion) : (s.complete c).iohpmctr = s.iohpmctr := rfl
@[simp] theorem State.complete_iohpmevt (c : Completion) : (s.complete c).iohpmevt = s.iohpmevt := rfl
@[simp] theorem State.complete_trReqIova (c : Completion) : (s.complete c).trReqIova = s.trReqIova := rfl
@[simp] theorem State.complete_trReqCtl (c : Completion) : (s.complete c).trReqCtl = s.trReqCtl := rfl
@[simp] theorem State.complete_trResponse (c : Completion) : (s.complete c).trResponse = s.trResponse := rfl
@[simp] theorem State.complete_icvec (c : Completion) : (s.complete c).icvec = s.icvec := rfl
@[simp] theorem State.complete_msiCfgTbl (c : Completion) : (s.complete c).msiCfgTbl = s.msiCfgTbl := rfl
@[simp] theorem State.complete_mem (c : Completion) : (s.complete c).mem = s.mem := rfl
@[simp] theorem State.complete_ioatc (c : Completion) : (s.complete c).ioatc = s.ioatc := rfl
@[simp] theorem State.complete_inflight (c : Completion) : (s.complete c).inflight = s.inflight := rfl
@[simp] theorem State.complete_fence (c : Completion) : (s.complete c).fence = s.fence := rfl
@[simp] theorem State.complete_timedOut (c : Completion) : (s.complete c).timedOut = s.timedOut := rfl
@[simp] theorem State.complete_requests (c : Completion) : (s.complete c).requests = s.requests := rfl
@[simp] theorem State.complete_activations (c : Completion) : (s.complete c).activations = s.activations := rfl
@[simp] theorem State.complete_accesses (c : Completion) : (s.complete c).accesses = s.accesses := rfl
@[simp] theorem State.complete_faults (c : Completion) : (s.complete c).faults = s.faults := rfl
@[simp] theorem State.complete_pages (c : Completion) : (s.complete c).pages = s.pages := rfl
@[simp] theorem State.complete_pageRecords (c : Completion) : (s.complete c).pageRecords = s.pageRecords := rfl
@[simp] theorem State.complete_messages (c : Completion) : (s.complete c).messages = s.messages := rfl
@[simp] theorem State.complete_msiOwed (c : Completion) : (s.complete c).msiOwed = s.msiOwed := rfl
@[simp] theorem State.complete_failed (c : Completion) : (s.complete c).failed = s.failed := rfl
@[simp] theorem State.complete_halves (c : Completion) : (s.complete c).halves = s.halves := rfl
@[simp] theorem State.complete_draws (c : Completion) : (s.complete c).draws = s.draws := rfl
@[simp] theorem State.complete_agenda (c : Completion) : (s.complete c).agenda = s.agenda := rfl
@[simp] theorem State.complete_hostReads (c : Completion) : (s.complete c).hostReads = s.hostReads := rfl

/-! ### `release` -/

@[simp] theorem State.release_cfg (r : Request) : (s.release r).cfg = s.cfg := rfl
@[simp] theorem State.release_fctl (r : Request) : (s.release r).fctl = s.fctl := rfl
@[simp] theorem State.release_ddtp (r : Request) : (s.release r).ddtp = s.ddtp := rfl
@[simp] theorem State.release_ddtpBusy (r : Request) : (s.release r).ddtpBusy = s.ddtpBusy := rfl
@[simp] theorem State.release_ddtpOld (r : Request) : (s.release r).ddtpOld = s.ddtpOld := rfl
@[simp] theorem State.release_cqb (r : Request) : (s.release r).cqb = s.cqb := rfl
@[simp] theorem State.release_cqh (r : Request) : (s.release r).cqh = s.cqh := rfl
@[simp] theorem State.release_cqt (r : Request) : (s.release r).cqt = s.cqt := rfl
@[simp] theorem State.release_fqb (r : Request) : (s.release r).fqb = s.fqb := rfl
@[simp] theorem State.release_fqh (r : Request) : (s.release r).fqh = s.fqh := rfl
@[simp] theorem State.release_fqt (r : Request) : (s.release r).fqt = s.fqt := rfl
@[simp] theorem State.release_pqb (r : Request) : (s.release r).pqb = s.pqb := rfl
@[simp] theorem State.release_pqh (r : Request) : (s.release r).pqh = s.pqh := rfl
@[simp] theorem State.release_pqt (r : Request) : (s.release r).pqt = s.pqt := rfl
@[simp] theorem State.release_cqcsr (r : Request) : (s.release r).cqcsr = s.cqcsr := rfl
@[simp] theorem State.release_fqcsr (r : Request) : (s.release r).fqcsr = s.fqcsr := rfl
@[simp] theorem State.release_pqcsr (r : Request) : (s.release r).pqcsr = s.pqcsr := rfl
@[simp] theorem State.release_ipsr (r : Request) : (s.release r).ipsr = s.ipsr := rfl
@[simp] theorem State.release_iocountinh (r : Request) : (s.release r).iocountinh = s.iocountinh := rfl
@[simp] theorem State.release_iohpmcycles (r : Request) : (s.release r).iohpmcycles = s.iohpmcycles := rfl
@[simp] theorem State.release_iohpmctr (r : Request) : (s.release r).iohpmctr = s.iohpmctr := rfl
@[simp] theorem State.release_iohpmevt (r : Request) : (s.release r).iohpmevt = s.iohpmevt := rfl
@[simp] theorem State.release_trReqIova (r : Request) : (s.release r).trReqIova = s.trReqIova := rfl
@[simp] theorem State.release_trReqCtl (r : Request) : (s.release r).trReqCtl = s.trReqCtl := rfl
@[simp] theorem State.release_trResponse (r : Request) : (s.release r).trResponse = s.trResponse := rfl
@[simp] theorem State.release_icvec (r : Request) : (s.release r).icvec = s.icvec := rfl
@[simp] theorem State.release_msiCfgTbl (r : Request) : (s.release r).msiCfgTbl = s.msiCfgTbl := rfl
@[simp] theorem State.release_mem (r : Request) : (s.release r).mem = s.mem := rfl
@[simp] theorem State.release_ioatc (r : Request) : (s.release r).ioatc = s.ioatc := rfl
@[simp] theorem State.release_inflight (r : Request) : (s.release r).inflight = s.inflight := rfl
@[simp] theorem State.release_fence (r : Request) : (s.release r).fence = s.fence := rfl
@[simp] theorem State.release_timedOut (r : Request) : (s.release r).timedOut = s.timedOut := rfl
@[simp] theorem State.release_requests (r : Request) : (s.release r).requests = s.requests := rfl
@[simp] theorem State.release_activations (r : Request) : (s.release r).activations = s.activations := rfl
@[simp] theorem State.release_completions (r : Request) : (s.release r).completions = s.completions := rfl
@[simp] theorem State.release_faults (r : Request) : (s.release r).faults = s.faults := rfl
@[simp] theorem State.release_pages (r : Request) : (s.release r).pages = s.pages := rfl
@[simp] theorem State.release_pageRecords (r : Request) : (s.release r).pageRecords = s.pageRecords := rfl
@[simp] theorem State.release_messages (r : Request) : (s.release r).messages = s.messages := rfl
@[simp] theorem State.release_msiOwed (r : Request) : (s.release r).msiOwed = s.msiOwed := rfl
@[simp] theorem State.release_failed (r : Request) : (s.release r).failed = s.failed := rfl
@[simp] theorem State.release_halves (r : Request) : (s.release r).halves = s.halves := rfl
@[simp] theorem State.release_draws (r : Request) : (s.release r).draws = s.draws := rfl
@[simp] theorem State.release_agenda (r : Request) : (s.release r).agenda = s.agenda := rfl
@[simp] theorem State.release_hostReads (r : Request) : (s.release r).hostReads = s.hostReads := rfl

/-! ### `pinInFlight` -/

@[simp] theorem State.pinInFlight_requests (p : DdtPointer) : (s.pinInFlight p).requests = s.requests.map (Received.pin p) := rfl
@[simp] theorem State.pinInFlight_activations (p : DdtPointer) : (s.pinInFlight p).activations = s.activations := rfl
@[simp] theorem State.pinInFlight_pages (p : DdtPointer) : (s.pinInFlight p).pages = s.pages.map (Received.pin p) := rfl
@[simp] theorem State.pinInFlight_cfg (p : DdtPointer) : (s.pinInFlight p).cfg = s.cfg := rfl
@[simp] theorem State.pinInFlight_fctl (p : DdtPointer) : (s.pinInFlight p).fctl = s.fctl := rfl
@[simp] theorem State.pinInFlight_ddtp (p : DdtPointer) : (s.pinInFlight p).ddtp = s.ddtp := rfl
@[simp] theorem State.pinInFlight_ddtpBusy (p : DdtPointer) : (s.pinInFlight p).ddtpBusy = s.ddtpBusy := rfl
@[simp] theorem State.pinInFlight_ddtpOld (p : DdtPointer) : (s.pinInFlight p).ddtpOld = s.ddtpOld := rfl
@[simp] theorem State.pinInFlight_cqb (p : DdtPointer) : (s.pinInFlight p).cqb = s.cqb := rfl
@[simp] theorem State.pinInFlight_cqh (p : DdtPointer) : (s.pinInFlight p).cqh = s.cqh := rfl
@[simp] theorem State.pinInFlight_cqt (p : DdtPointer) : (s.pinInFlight p).cqt = s.cqt := rfl
@[simp] theorem State.pinInFlight_fqb (p : DdtPointer) : (s.pinInFlight p).fqb = s.fqb := rfl
@[simp] theorem State.pinInFlight_fqh (p : DdtPointer) : (s.pinInFlight p).fqh = s.fqh := rfl
@[simp] theorem State.pinInFlight_fqt (p : DdtPointer) : (s.pinInFlight p).fqt = s.fqt := rfl
@[simp] theorem State.pinInFlight_pqb (p : DdtPointer) : (s.pinInFlight p).pqb = s.pqb := rfl
@[simp] theorem State.pinInFlight_pqh (p : DdtPointer) : (s.pinInFlight p).pqh = s.pqh := rfl
@[simp] theorem State.pinInFlight_pqt (p : DdtPointer) : (s.pinInFlight p).pqt = s.pqt := rfl
@[simp] theorem State.pinInFlight_cqcsr (p : DdtPointer) : (s.pinInFlight p).cqcsr = s.cqcsr := rfl
@[simp] theorem State.pinInFlight_fqcsr (p : DdtPointer) : (s.pinInFlight p).fqcsr = s.fqcsr := rfl
@[simp] theorem State.pinInFlight_pqcsr (p : DdtPointer) : (s.pinInFlight p).pqcsr = s.pqcsr := rfl
@[simp] theorem State.pinInFlight_ipsr (p : DdtPointer) : (s.pinInFlight p).ipsr = s.ipsr := rfl
@[simp] theorem State.pinInFlight_iocountinh (p : DdtPointer) : (s.pinInFlight p).iocountinh = s.iocountinh := rfl
@[simp] theorem State.pinInFlight_iohpmcycles (p : DdtPointer) : (s.pinInFlight p).iohpmcycles = s.iohpmcycles := rfl
@[simp] theorem State.pinInFlight_iohpmctr (p : DdtPointer) : (s.pinInFlight p).iohpmctr = s.iohpmctr := rfl
@[simp] theorem State.pinInFlight_iohpmevt (p : DdtPointer) : (s.pinInFlight p).iohpmevt = s.iohpmevt := rfl
@[simp] theorem State.pinInFlight_trReqIova (p : DdtPointer) : (s.pinInFlight p).trReqIova = s.trReqIova := rfl
@[simp] theorem State.pinInFlight_trReqCtl (p : DdtPointer) : (s.pinInFlight p).trReqCtl = s.trReqCtl := rfl
@[simp] theorem State.pinInFlight_trResponse (p : DdtPointer) : (s.pinInFlight p).trResponse = s.trResponse := rfl
@[simp] theorem State.pinInFlight_icvec (p : DdtPointer) : (s.pinInFlight p).icvec = s.icvec := rfl
@[simp] theorem State.pinInFlight_msiCfgTbl (p : DdtPointer) : (s.pinInFlight p).msiCfgTbl = s.msiCfgTbl := rfl
@[simp] theorem State.pinInFlight_mem (p : DdtPointer) : (s.pinInFlight p).mem = s.mem := rfl
@[simp] theorem State.pinInFlight_ioatc (p : DdtPointer) : (s.pinInFlight p).ioatc = s.ioatc := rfl
@[simp] theorem State.pinInFlight_inflight (p : DdtPointer) : (s.pinInFlight p).inflight = s.inflight := rfl
@[simp] theorem State.pinInFlight_fence (p : DdtPointer) : (s.pinInFlight p).fence = s.fence := rfl
@[simp] theorem State.pinInFlight_timedOut (p : DdtPointer) : (s.pinInFlight p).timedOut = s.timedOut := rfl
@[simp] theorem State.pinInFlight_completions (p : DdtPointer) : (s.pinInFlight p).completions = s.completions := rfl
@[simp] theorem State.pinInFlight_accesses (p : DdtPointer) : (s.pinInFlight p).accesses = s.accesses := rfl
@[simp] theorem State.pinInFlight_faults (p : DdtPointer) : (s.pinInFlight p).faults = s.faults := rfl
@[simp] theorem State.pinInFlight_pageRecords (p : DdtPointer) : (s.pinInFlight p).pageRecords = s.pageRecords := rfl
@[simp] theorem State.pinInFlight_messages (p : DdtPointer) : (s.pinInFlight p).messages = s.messages := rfl
@[simp] theorem State.pinInFlight_msiOwed (p : DdtPointer) : (s.pinInFlight p).msiOwed = s.msiOwed := rfl
@[simp] theorem State.pinInFlight_failed (p : DdtPointer) : (s.pinInFlight p).failed = s.failed := rfl
@[simp] theorem State.pinInFlight_halves (p : DdtPointer) : (s.pinInFlight p).halves = s.halves := rfl
@[simp] theorem State.pinInFlight_draws (p : DdtPointer) : (s.pinInFlight p).draws = s.draws := rfl
@[simp] theorem State.pinInFlight_agenda (p : DdtPointer) : (s.pinInFlight p).agenda = s.agenda := rfl
@[simp] theorem State.pinInFlight_hostReads (p : DdtPointer) : (s.pinInFlight p).hostReads = s.hostReads := rfl

/-! ### `setDdtpHigh` -/

@[simp] theorem State.setDdtpHigh_ddtp (v : DWord) : (s.setDdtpHigh v).ddtp = { s.ddtp with ppn := v.extractLsb' 10 44 } := rfl
@[simp] theorem State.setDdtpHigh_cfg (v : DWord) : (s.setDdtpHigh v).cfg = s.cfg := rfl
@[simp] theorem State.setDdtpHigh_fctl (v : DWord) : (s.setDdtpHigh v).fctl = s.fctl := rfl
@[simp] theorem State.setDdtpHigh_ddtpBusy (v : DWord) : (s.setDdtpHigh v).ddtpBusy = s.ddtpBusy := rfl
@[simp] theorem State.setDdtpHigh_ddtpOld (v : DWord) : (s.setDdtpHigh v).ddtpOld = s.ddtpOld := rfl
@[simp] theorem State.setDdtpHigh_cqb (v : DWord) : (s.setDdtpHigh v).cqb = s.cqb := rfl
@[simp] theorem State.setDdtpHigh_cqh (v : DWord) : (s.setDdtpHigh v).cqh = s.cqh := rfl
@[simp] theorem State.setDdtpHigh_cqt (v : DWord) : (s.setDdtpHigh v).cqt = s.cqt := rfl
@[simp] theorem State.setDdtpHigh_fqb (v : DWord) : (s.setDdtpHigh v).fqb = s.fqb := rfl
@[simp] theorem State.setDdtpHigh_fqh (v : DWord) : (s.setDdtpHigh v).fqh = s.fqh := rfl
@[simp] theorem State.setDdtpHigh_fqt (v : DWord) : (s.setDdtpHigh v).fqt = s.fqt := rfl
@[simp] theorem State.setDdtpHigh_pqb (v : DWord) : (s.setDdtpHigh v).pqb = s.pqb := rfl
@[simp] theorem State.setDdtpHigh_pqh (v : DWord) : (s.setDdtpHigh v).pqh = s.pqh := rfl
@[simp] theorem State.setDdtpHigh_pqt (v : DWord) : (s.setDdtpHigh v).pqt = s.pqt := rfl
@[simp] theorem State.setDdtpHigh_cqcsr (v : DWord) : (s.setDdtpHigh v).cqcsr = s.cqcsr := rfl
@[simp] theorem State.setDdtpHigh_fqcsr (v : DWord) : (s.setDdtpHigh v).fqcsr = s.fqcsr := rfl
@[simp] theorem State.setDdtpHigh_pqcsr (v : DWord) : (s.setDdtpHigh v).pqcsr = s.pqcsr := rfl
@[simp] theorem State.setDdtpHigh_ipsr (v : DWord) : (s.setDdtpHigh v).ipsr = s.ipsr := rfl
@[simp] theorem State.setDdtpHigh_iocountinh (v : DWord) : (s.setDdtpHigh v).iocountinh = s.iocountinh := rfl
@[simp] theorem State.setDdtpHigh_iohpmcycles (v : DWord) : (s.setDdtpHigh v).iohpmcycles = s.iohpmcycles := rfl
@[simp] theorem State.setDdtpHigh_iohpmctr (v : DWord) : (s.setDdtpHigh v).iohpmctr = s.iohpmctr := rfl
@[simp] theorem State.setDdtpHigh_iohpmevt (v : DWord) : (s.setDdtpHigh v).iohpmevt = s.iohpmevt := rfl
@[simp] theorem State.setDdtpHigh_trReqIova (v : DWord) : (s.setDdtpHigh v).trReqIova = s.trReqIova := rfl
@[simp] theorem State.setDdtpHigh_trReqCtl (v : DWord) : (s.setDdtpHigh v).trReqCtl = s.trReqCtl := rfl
@[simp] theorem State.setDdtpHigh_trResponse (v : DWord) : (s.setDdtpHigh v).trResponse = s.trResponse := rfl
@[simp] theorem State.setDdtpHigh_icvec (v : DWord) : (s.setDdtpHigh v).icvec = s.icvec := rfl
@[simp] theorem State.setDdtpHigh_msiCfgTbl (v : DWord) : (s.setDdtpHigh v).msiCfgTbl = s.msiCfgTbl := rfl
@[simp] theorem State.setDdtpHigh_mem (v : DWord) : (s.setDdtpHigh v).mem = s.mem := rfl
@[simp] theorem State.setDdtpHigh_ioatc (v : DWord) : (s.setDdtpHigh v).ioatc = s.ioatc := rfl
@[simp] theorem State.setDdtpHigh_inflight (v : DWord) : (s.setDdtpHigh v).inflight = s.inflight := rfl
@[simp] theorem State.setDdtpHigh_fence (v : DWord) : (s.setDdtpHigh v).fence = s.fence := rfl
@[simp] theorem State.setDdtpHigh_timedOut (v : DWord) : (s.setDdtpHigh v).timedOut = s.timedOut := rfl
@[simp] theorem State.setDdtpHigh_requests (v : DWord) : (s.setDdtpHigh v).requests = s.requests := rfl
@[simp] theorem State.setDdtpHigh_activations (v : DWord) : (s.setDdtpHigh v).activations = s.activations := rfl
@[simp] theorem State.setDdtpHigh_completions (v : DWord) : (s.setDdtpHigh v).completions = s.completions := rfl
@[simp] theorem State.setDdtpHigh_accesses (v : DWord) : (s.setDdtpHigh v).accesses = s.accesses := rfl
@[simp] theorem State.setDdtpHigh_faults (v : DWord) : (s.setDdtpHigh v).faults = s.faults := rfl
@[simp] theorem State.setDdtpHigh_pages (v : DWord) : (s.setDdtpHigh v).pages = s.pages := rfl
@[simp] theorem State.setDdtpHigh_pageRecords (v : DWord) : (s.setDdtpHigh v).pageRecords = s.pageRecords := rfl
@[simp] theorem State.setDdtpHigh_messages (v : DWord) : (s.setDdtpHigh v).messages = s.messages := rfl
@[simp] theorem State.setDdtpHigh_msiOwed (v : DWord) : (s.setDdtpHigh v).msiOwed = s.msiOwed := rfl
@[simp] theorem State.setDdtpHigh_failed (v : DWord) : (s.setDdtpHigh v).failed = s.failed := rfl
@[simp] theorem State.setDdtpHigh_halves (v : DWord) : (s.setDdtpHigh v).halves = s.halves := rfl
@[simp] theorem State.setDdtpHigh_draws (v : DWord) : (s.setDdtpHigh v).draws = s.draws := rfl
@[simp] theorem State.setDdtpHigh_agenda (v : DWord) : (s.setDdtpHigh v).agenda = s.agenda := rfl
@[simp] theorem State.setDdtpHigh_hostReads (v : DWord) : (s.setDdtpHigh v).hostReads = s.hostReads := rfl

/-! ### `endOperation` -/

@[simp] theorem State.endOperation_halves (o : Nat) : (s.endOperation o).halves = s.halves.map (HalfAccess.ended o) := rfl
@[simp] theorem State.endOperation_cfg (o : Nat) : (s.endOperation o).cfg = s.cfg := rfl
@[simp] theorem State.endOperation_fctl (o : Nat) : (s.endOperation o).fctl = s.fctl := rfl
@[simp] theorem State.endOperation_ddtp (o : Nat) : (s.endOperation o).ddtp = s.ddtp := rfl
@[simp] theorem State.endOperation_ddtpBusy (o : Nat) : (s.endOperation o).ddtpBusy = s.ddtpBusy := rfl
@[simp] theorem State.endOperation_ddtpOld (o : Nat) : (s.endOperation o).ddtpOld = s.ddtpOld := rfl
@[simp] theorem State.endOperation_cqb (o : Nat) : (s.endOperation o).cqb = s.cqb := rfl
@[simp] theorem State.endOperation_cqh (o : Nat) : (s.endOperation o).cqh = s.cqh := rfl
@[simp] theorem State.endOperation_cqt (o : Nat) : (s.endOperation o).cqt = s.cqt := rfl
@[simp] theorem State.endOperation_fqb (o : Nat) : (s.endOperation o).fqb = s.fqb := rfl
@[simp] theorem State.endOperation_fqh (o : Nat) : (s.endOperation o).fqh = s.fqh := rfl
@[simp] theorem State.endOperation_fqt (o : Nat) : (s.endOperation o).fqt = s.fqt := rfl
@[simp] theorem State.endOperation_pqb (o : Nat) : (s.endOperation o).pqb = s.pqb := rfl
@[simp] theorem State.endOperation_pqh (o : Nat) : (s.endOperation o).pqh = s.pqh := rfl
@[simp] theorem State.endOperation_pqt (o : Nat) : (s.endOperation o).pqt = s.pqt := rfl
@[simp] theorem State.endOperation_cqcsr (o : Nat) : (s.endOperation o).cqcsr = s.cqcsr := rfl
@[simp] theorem State.endOperation_fqcsr (o : Nat) : (s.endOperation o).fqcsr = s.fqcsr := rfl
@[simp] theorem State.endOperation_pqcsr (o : Nat) : (s.endOperation o).pqcsr = s.pqcsr := rfl
@[simp] theorem State.endOperation_ipsr (o : Nat) : (s.endOperation o).ipsr = s.ipsr := rfl
@[simp] theorem State.endOperation_iocountinh (o : Nat) : (s.endOperation o).iocountinh = s.iocountinh := rfl
@[simp] theorem State.endOperation_iohpmcycles (o : Nat) : (s.endOperation o).iohpmcycles = s.iohpmcycles := rfl
@[simp] theorem State.endOperation_iohpmctr (o : Nat) : (s.endOperation o).iohpmctr = s.iohpmctr := rfl
@[simp] theorem State.endOperation_iohpmevt (o : Nat) : (s.endOperation o).iohpmevt = s.iohpmevt := rfl
@[simp] theorem State.endOperation_trReqIova (o : Nat) : (s.endOperation o).trReqIova = s.trReqIova := rfl
@[simp] theorem State.endOperation_trReqCtl (o : Nat) : (s.endOperation o).trReqCtl = s.trReqCtl := rfl
@[simp] theorem State.endOperation_trResponse (o : Nat) : (s.endOperation o).trResponse = s.trResponse := rfl
@[simp] theorem State.endOperation_icvec (o : Nat) : (s.endOperation o).icvec = s.icvec := rfl
@[simp] theorem State.endOperation_msiCfgTbl (o : Nat) : (s.endOperation o).msiCfgTbl = s.msiCfgTbl := rfl
@[simp] theorem State.endOperation_mem (o : Nat) : (s.endOperation o).mem = s.mem := rfl
@[simp] theorem State.endOperation_ioatc (o : Nat) : (s.endOperation o).ioatc = s.ioatc := rfl
@[simp] theorem State.endOperation_inflight (o : Nat) : (s.endOperation o).inflight = s.inflight := rfl
@[simp] theorem State.endOperation_fence (o : Nat) : (s.endOperation o).fence = s.fence := rfl
@[simp] theorem State.endOperation_timedOut (o : Nat) : (s.endOperation o).timedOut = s.timedOut := rfl
@[simp] theorem State.endOperation_requests (o : Nat) : (s.endOperation o).requests = s.requests := rfl
@[simp] theorem State.endOperation_activations (o : Nat) : (s.endOperation o).activations = s.activations := rfl
@[simp] theorem State.endOperation_completions (o : Nat) : (s.endOperation o).completions = s.completions := rfl
@[simp] theorem State.endOperation_accesses (o : Nat) : (s.endOperation o).accesses = s.accesses := rfl
@[simp] theorem State.endOperation_faults (o : Nat) : (s.endOperation o).faults = s.faults := rfl
@[simp] theorem State.endOperation_pages (o : Nat) : (s.endOperation o).pages = s.pages := rfl
@[simp] theorem State.endOperation_pageRecords (o : Nat) : (s.endOperation o).pageRecords = s.pageRecords := rfl
@[simp] theorem State.endOperation_messages (o : Nat) : (s.endOperation o).messages = s.messages := rfl
@[simp] theorem State.endOperation_msiOwed (o : Nat) : (s.endOperation o).msiOwed = s.msiOwed := rfl
@[simp] theorem State.endOperation_failed (o : Nat) : (s.endOperation o).failed = s.failed := rfl
@[simp] theorem State.endOperation_draws (o : Nat) : (s.endOperation o).draws = s.draws := rfl
@[simp] theorem State.endOperation_agenda (o : Nat) : (s.endOperation o).agenda = s.agenda := rfl
@[simp] theorem State.endOperation_hostReads (o : Nat) : (s.endOperation o).hostReads = s.hostReads := rfl

/-! ### `absorb` -/

@[simp] theorem State.absorb_mem (w : Walk) : (s.absorb w).mem = w.mem := rfl
@[simp] theorem State.absorb_draws (w : Walk) : (s.absorb w).draws = w.draws := rfl
@[simp] theorem State.absorb_ioatc (w : Walk) : (s.absorb w).ioatc = w.ioatc := rfl
@[simp] theorem State.absorb_cfg (w : Walk) : (s.absorb w).cfg = s.cfg := rfl
@[simp] theorem State.absorb_fctl (w : Walk) : (s.absorb w).fctl = s.fctl := rfl
@[simp] theorem State.absorb_ddtp (w : Walk) : (s.absorb w).ddtp = s.ddtp := rfl
@[simp] theorem State.absorb_ddtpBusy (w : Walk) : (s.absorb w).ddtpBusy = s.ddtpBusy := rfl
@[simp] theorem State.absorb_ddtpOld (w : Walk) : (s.absorb w).ddtpOld = s.ddtpOld := rfl
@[simp] theorem State.absorb_cqb (w : Walk) : (s.absorb w).cqb = s.cqb := rfl
@[simp] theorem State.absorb_cqh (w : Walk) : (s.absorb w).cqh = s.cqh := rfl
@[simp] theorem State.absorb_cqt (w : Walk) : (s.absorb w).cqt = s.cqt := rfl
@[simp] theorem State.absorb_fqb (w : Walk) : (s.absorb w).fqb = s.fqb := rfl
@[simp] theorem State.absorb_fqh (w : Walk) : (s.absorb w).fqh = s.fqh := rfl
@[simp] theorem State.absorb_fqt (w : Walk) : (s.absorb w).fqt = s.fqt := rfl
@[simp] theorem State.absorb_pqb (w : Walk) : (s.absorb w).pqb = s.pqb := rfl
@[simp] theorem State.absorb_pqh (w : Walk) : (s.absorb w).pqh = s.pqh := rfl
@[simp] theorem State.absorb_pqt (w : Walk) : (s.absorb w).pqt = s.pqt := rfl
@[simp] theorem State.absorb_cqcsr (w : Walk) : (s.absorb w).cqcsr = s.cqcsr := rfl
@[simp] theorem State.absorb_fqcsr (w : Walk) : (s.absorb w).fqcsr = s.fqcsr := rfl
@[simp] theorem State.absorb_pqcsr (w : Walk) : (s.absorb w).pqcsr = s.pqcsr := rfl
@[simp] theorem State.absorb_ipsr (w : Walk) : (s.absorb w).ipsr = s.ipsr := rfl
@[simp] theorem State.absorb_iocountinh (w : Walk) : (s.absorb w).iocountinh = s.iocountinh := rfl
@[simp] theorem State.absorb_iohpmcycles (w : Walk) : (s.absorb w).iohpmcycles = s.iohpmcycles := rfl
@[simp] theorem State.absorb_iohpmctr (w : Walk) : (s.absorb w).iohpmctr = s.iohpmctr := rfl
@[simp] theorem State.absorb_iohpmevt (w : Walk) : (s.absorb w).iohpmevt = s.iohpmevt := rfl
@[simp] theorem State.absorb_trReqIova (w : Walk) : (s.absorb w).trReqIova = s.trReqIova := rfl
@[simp] theorem State.absorb_trReqCtl (w : Walk) : (s.absorb w).trReqCtl = s.trReqCtl := rfl
@[simp] theorem State.absorb_trResponse (w : Walk) : (s.absorb w).trResponse = s.trResponse := rfl
@[simp] theorem State.absorb_icvec (w : Walk) : (s.absorb w).icvec = s.icvec := rfl
@[simp] theorem State.absorb_msiCfgTbl (w : Walk) : (s.absorb w).msiCfgTbl = s.msiCfgTbl := rfl
@[simp] theorem State.absorb_inflight (w : Walk) : (s.absorb w).inflight = s.inflight := rfl
@[simp] theorem State.absorb_fence (w : Walk) : (s.absorb w).fence = s.fence := rfl
@[simp] theorem State.absorb_timedOut (w : Walk) : (s.absorb w).timedOut = s.timedOut := rfl
@[simp] theorem State.absorb_requests (w : Walk) : (s.absorb w).requests = s.requests := rfl
@[simp] theorem State.absorb_activations (w : Walk) : (s.absorb w).activations = s.activations := rfl
@[simp] theorem State.absorb_completions (w : Walk) : (s.absorb w).completions = s.completions := rfl
@[simp] theorem State.absorb_accesses (w : Walk) : (s.absorb w).accesses = s.accesses := rfl
@[simp] theorem State.absorb_faults (w : Walk) : (s.absorb w).faults = s.faults := rfl
@[simp] theorem State.absorb_pages (w : Walk) : (s.absorb w).pages = s.pages := rfl
@[simp] theorem State.absorb_pageRecords (w : Walk) : (s.absorb w).pageRecords = s.pageRecords := rfl
@[simp] theorem State.absorb_messages (w : Walk) : (s.absorb w).messages = s.messages := rfl
@[simp] theorem State.absorb_msiOwed (w : Walk) : (s.absorb w).msiOwed = s.msiOwed := rfl
@[simp] theorem State.absorb_failed (w : Walk) : (s.absorb w).failed = s.failed := rfl
@[simp] theorem State.absorb_halves (w : Walk) : (s.absorb w).halves = s.halves := rfl
@[simp] theorem State.absorb_agenda (w : Walk) : (s.absorb w).agenda = s.agenda := rfl
@[simp] theorem State.absorb_hostReads (w : Walk) : (s.absorb w).hostReads = s.hostReads := rfl

/-! ### `share` -/

@[simp] theorem State.share_mem (x : Shared) : (s.share x).mem = x.mem := rfl
@[simp] theorem State.share_draws (x : Shared) : (s.share x).draws = x.draws := rfl
@[simp] theorem State.share_ioatc (x : Shared) : (s.share x).ioatc = x.ioatc := rfl
@[simp] theorem State.share_cfg (x : Shared) : (s.share x).cfg = s.cfg := rfl
@[simp] theorem State.share_fctl (x : Shared) : (s.share x).fctl = s.fctl := rfl
@[simp] theorem State.share_ddtp (x : Shared) : (s.share x).ddtp = s.ddtp := rfl
@[simp] theorem State.share_ddtpBusy (x : Shared) : (s.share x).ddtpBusy = s.ddtpBusy := rfl
@[simp] theorem State.share_ddtpOld (x : Shared) : (s.share x).ddtpOld = s.ddtpOld := rfl
@[simp] theorem State.share_cqb (x : Shared) : (s.share x).cqb = s.cqb := rfl
@[simp] theorem State.share_cqh (x : Shared) : (s.share x).cqh = s.cqh := rfl
@[simp] theorem State.share_cqt (x : Shared) : (s.share x).cqt = s.cqt := rfl
@[simp] theorem State.share_fqb (x : Shared) : (s.share x).fqb = s.fqb := rfl
@[simp] theorem State.share_fqh (x : Shared) : (s.share x).fqh = s.fqh := rfl
@[simp] theorem State.share_fqt (x : Shared) : (s.share x).fqt = s.fqt := rfl
@[simp] theorem State.share_pqb (x : Shared) : (s.share x).pqb = s.pqb := rfl
@[simp] theorem State.share_pqh (x : Shared) : (s.share x).pqh = s.pqh := rfl
@[simp] theorem State.share_pqt (x : Shared) : (s.share x).pqt = s.pqt := rfl
@[simp] theorem State.share_cqcsr (x : Shared) : (s.share x).cqcsr = s.cqcsr := rfl
@[simp] theorem State.share_fqcsr (x : Shared) : (s.share x).fqcsr = s.fqcsr := rfl
@[simp] theorem State.share_pqcsr (x : Shared) : (s.share x).pqcsr = s.pqcsr := rfl
@[simp] theorem State.share_ipsr (x : Shared) : (s.share x).ipsr = s.ipsr := rfl
@[simp] theorem State.share_iocountinh (x : Shared) : (s.share x).iocountinh = s.iocountinh := rfl
@[simp] theorem State.share_iohpmcycles (x : Shared) : (s.share x).iohpmcycles = s.iohpmcycles := rfl
@[simp] theorem State.share_iohpmctr (x : Shared) : (s.share x).iohpmctr = s.iohpmctr := rfl
@[simp] theorem State.share_iohpmevt (x : Shared) : (s.share x).iohpmevt = s.iohpmevt := rfl
@[simp] theorem State.share_trReqIova (x : Shared) : (s.share x).trReqIova = s.trReqIova := rfl
@[simp] theorem State.share_trReqCtl (x : Shared) : (s.share x).trReqCtl = s.trReqCtl := rfl
@[simp] theorem State.share_trResponse (x : Shared) : (s.share x).trResponse = s.trResponse := rfl
@[simp] theorem State.share_icvec (x : Shared) : (s.share x).icvec = s.icvec := rfl
@[simp] theorem State.share_msiCfgTbl (x : Shared) : (s.share x).msiCfgTbl = s.msiCfgTbl := rfl
@[simp] theorem State.share_inflight (x : Shared) : (s.share x).inflight = s.inflight := rfl
@[simp] theorem State.share_fence (x : Shared) : (s.share x).fence = s.fence := rfl
@[simp] theorem State.share_timedOut (x : Shared) : (s.share x).timedOut = s.timedOut := rfl
@[simp] theorem State.share_requests (x : Shared) : (s.share x).requests = s.requests := rfl
@[simp] theorem State.share_activations (x : Shared) : (s.share x).activations = s.activations := rfl
@[simp] theorem State.share_completions (x : Shared) : (s.share x).completions = s.completions := rfl
@[simp] theorem State.share_accesses (x : Shared) : (s.share x).accesses = s.accesses := rfl
@[simp] theorem State.share_faults (x : Shared) : (s.share x).faults = s.faults := rfl
@[simp] theorem State.share_pages (x : Shared) : (s.share x).pages = s.pages := rfl
@[simp] theorem State.share_pageRecords (x : Shared) : (s.share x).pageRecords = s.pageRecords := rfl
@[simp] theorem State.share_messages (x : Shared) : (s.share x).messages = s.messages := rfl
@[simp] theorem State.share_msiOwed (x : Shared) : (s.share x).msiOwed = s.msiOwed := rfl
@[simp] theorem State.share_failed (x : Shared) : (s.share x).failed = s.failed := rfl
@[simp] theorem State.share_halves (x : Shared) : (s.share x).halves = s.halves := rfl
@[simp] theorem State.share_agenda (x : Shared) : (s.share x).agenda = s.agenda := rfl
@[simp] theorem State.share_hostReads (x : Shared) : (s.share x).hostReads = s.hostReads := rfl

/-! ### `dropActivation` -/

@[simp] theorem State.dropActivation_mem (k : Nat) : (s.dropActivation k).mem = s.mem := rfl
@[simp] theorem State.dropActivation_draws (k : Nat) : (s.dropActivation k).draws = s.draws := rfl
@[simp] theorem State.dropActivation_ioatc (k : Nat) : (s.dropActivation k).ioatc = s.ioatc := rfl
@[simp] theorem State.dropActivation_cfg (k : Nat) : (s.dropActivation k).cfg = s.cfg := rfl
@[simp] theorem State.dropActivation_fctl (k : Nat) : (s.dropActivation k).fctl = s.fctl := rfl
@[simp] theorem State.dropActivation_ddtp (k : Nat) : (s.dropActivation k).ddtp = s.ddtp := rfl
@[simp] theorem State.dropActivation_ddtpBusy (k : Nat) : (s.dropActivation k).ddtpBusy = s.ddtpBusy := rfl
@[simp] theorem State.dropActivation_ddtpOld (k : Nat) : (s.dropActivation k).ddtpOld = s.ddtpOld := rfl
@[simp] theorem State.dropActivation_cqb (k : Nat) : (s.dropActivation k).cqb = s.cqb := rfl
@[simp] theorem State.dropActivation_cqh (k : Nat) : (s.dropActivation k).cqh = s.cqh := rfl
@[simp] theorem State.dropActivation_cqt (k : Nat) : (s.dropActivation k).cqt = s.cqt := rfl
@[simp] theorem State.dropActivation_fqb (k : Nat) : (s.dropActivation k).fqb = s.fqb := rfl
@[simp] theorem State.dropActivation_fqh (k : Nat) : (s.dropActivation k).fqh = s.fqh := rfl
@[simp] theorem State.dropActivation_fqt (k : Nat) : (s.dropActivation k).fqt = s.fqt := rfl
@[simp] theorem State.dropActivation_pqb (k : Nat) : (s.dropActivation k).pqb = s.pqb := rfl
@[simp] theorem State.dropActivation_pqh (k : Nat) : (s.dropActivation k).pqh = s.pqh := rfl
@[simp] theorem State.dropActivation_pqt (k : Nat) : (s.dropActivation k).pqt = s.pqt := rfl
@[simp] theorem State.dropActivation_cqcsr (k : Nat) : (s.dropActivation k).cqcsr = s.cqcsr := rfl
@[simp] theorem State.dropActivation_fqcsr (k : Nat) : (s.dropActivation k).fqcsr = s.fqcsr := rfl
@[simp] theorem State.dropActivation_pqcsr (k : Nat) : (s.dropActivation k).pqcsr = s.pqcsr := rfl
@[simp] theorem State.dropActivation_ipsr (k : Nat) : (s.dropActivation k).ipsr = s.ipsr := rfl
@[simp] theorem State.dropActivation_iocountinh (k : Nat) : (s.dropActivation k).iocountinh = s.iocountinh := rfl
@[simp] theorem State.dropActivation_iohpmcycles (k : Nat) : (s.dropActivation k).iohpmcycles = s.iohpmcycles := rfl
@[simp] theorem State.dropActivation_iohpmctr (k : Nat) : (s.dropActivation k).iohpmctr = s.iohpmctr := rfl
@[simp] theorem State.dropActivation_iohpmevt (k : Nat) : (s.dropActivation k).iohpmevt = s.iohpmevt := rfl
@[simp] theorem State.dropActivation_trReqIova (k : Nat) : (s.dropActivation k).trReqIova = s.trReqIova := rfl
@[simp] theorem State.dropActivation_trReqCtl (k : Nat) : (s.dropActivation k).trReqCtl = s.trReqCtl := rfl
@[simp] theorem State.dropActivation_trResponse (k : Nat) : (s.dropActivation k).trResponse = s.trResponse := rfl
@[simp] theorem State.dropActivation_icvec (k : Nat) : (s.dropActivation k).icvec = s.icvec := rfl
@[simp] theorem State.dropActivation_msiCfgTbl (k : Nat) : (s.dropActivation k).msiCfgTbl = s.msiCfgTbl := rfl
@[simp] theorem State.dropActivation_inflight (k : Nat) : (s.dropActivation k).inflight = s.inflight := rfl
@[simp] theorem State.dropActivation_fence (k : Nat) : (s.dropActivation k).fence = s.fence := rfl
@[simp] theorem State.dropActivation_timedOut (k : Nat) : (s.dropActivation k).timedOut = s.timedOut := rfl
@[simp] theorem State.dropActivation_requests (k : Nat) : (s.dropActivation k).requests = s.requests := rfl
@[simp] theorem State.dropActivation_activations (k : Nat) : (s.dropActivation k).activations = removeAt s.activations k := rfl
@[simp] theorem State.dropActivation_completions (k : Nat) : (s.dropActivation k).completions = s.completions := rfl
@[simp] theorem State.dropActivation_accesses (k : Nat) : (s.dropActivation k).accesses = s.accesses := rfl
@[simp] theorem State.dropActivation_faults (k : Nat) : (s.dropActivation k).faults = s.faults := rfl
@[simp] theorem State.dropActivation_pages (k : Nat) : (s.dropActivation k).pages = s.pages := rfl
@[simp] theorem State.dropActivation_pageRecords (k : Nat) : (s.dropActivation k).pageRecords = s.pageRecords := rfl
@[simp] theorem State.dropActivation_messages (k : Nat) : (s.dropActivation k).messages = s.messages := rfl
@[simp] theorem State.dropActivation_msiOwed (k : Nat) : (s.dropActivation k).msiOwed = s.msiOwed := rfl
@[simp] theorem State.dropActivation_failed (k : Nat) : (s.dropActivation k).failed = s.failed := rfl
@[simp] theorem State.dropActivation_halves (k : Nat) : (s.dropActivation k).halves = s.halves := rfl
@[simp] theorem State.dropActivation_agenda (k : Nat) : (s.dropActivation k).agenda = s.agenda := rfl
@[simp] theorem State.dropActivation_hostReads (k : Nat) : (s.dropActivation k).hostReads = s.hostReads := rfl

/-! ### `completed` -/

@[simp] theorem State.completed_mem (k : Nat) : (s.completed k).mem = s.mem := rfl
@[simp] theorem State.completed_draws (k : Nat) : (s.completed k).draws = s.draws := rfl
@[simp] theorem State.completed_ioatc (k : Nat) : (s.completed k).ioatc = s.ioatc := rfl
@[simp] theorem State.completed_cfg (k : Nat) : (s.completed k).cfg = s.cfg := rfl
@[simp] theorem State.completed_fctl (k : Nat) : (s.completed k).fctl = s.fctl := rfl
@[simp] theorem State.completed_ddtp (k : Nat) : (s.completed k).ddtp = s.ddtp := rfl
@[simp] theorem State.completed_ddtpBusy (k : Nat) : (s.completed k).ddtpBusy = s.ddtpBusy := rfl
@[simp] theorem State.completed_ddtpOld (k : Nat) : (s.completed k).ddtpOld = s.ddtpOld := rfl
@[simp] theorem State.completed_cqb (k : Nat) : (s.completed k).cqb = s.cqb := rfl
@[simp] theorem State.completed_cqh (k : Nat) : (s.completed k).cqh = s.cqh := rfl
@[simp] theorem State.completed_cqt (k : Nat) : (s.completed k).cqt = s.cqt := rfl
@[simp] theorem State.completed_fqb (k : Nat) : (s.completed k).fqb = s.fqb := rfl
@[simp] theorem State.completed_fqh (k : Nat) : (s.completed k).fqh = s.fqh := rfl
@[simp] theorem State.completed_fqt (k : Nat) : (s.completed k).fqt = s.fqt := rfl
@[simp] theorem State.completed_pqb (k : Nat) : (s.completed k).pqb = s.pqb := rfl
@[simp] theorem State.completed_pqh (k : Nat) : (s.completed k).pqh = s.pqh := rfl
@[simp] theorem State.completed_pqt (k : Nat) : (s.completed k).pqt = s.pqt := rfl
@[simp] theorem State.completed_cqcsr (k : Nat) : (s.completed k).cqcsr = s.cqcsr := rfl
@[simp] theorem State.completed_fqcsr (k : Nat) : (s.completed k).fqcsr = s.fqcsr := rfl
@[simp] theorem State.completed_pqcsr (k : Nat) : (s.completed k).pqcsr = s.pqcsr := rfl
@[simp] theorem State.completed_ipsr (k : Nat) : (s.completed k).ipsr = s.ipsr := rfl
@[simp] theorem State.completed_iocountinh (k : Nat) : (s.completed k).iocountinh = s.iocountinh := rfl
@[simp] theorem State.completed_iohpmcycles (k : Nat) : (s.completed k).iohpmcycles = s.iohpmcycles := rfl
@[simp] theorem State.completed_iohpmctr (k : Nat) : (s.completed k).iohpmctr = s.iohpmctr := rfl
@[simp] theorem State.completed_iohpmevt (k : Nat) : (s.completed k).iohpmevt = s.iohpmevt := rfl
@[simp] theorem State.completed_trReqIova (k : Nat) : (s.completed k).trReqIova = s.trReqIova := rfl
@[simp] theorem State.completed_trReqCtl (k : Nat) : (s.completed k).trReqCtl = s.trReqCtl := rfl
@[simp] theorem State.completed_trResponse (k : Nat) : (s.completed k).trResponse = s.trResponse := rfl
@[simp] theorem State.completed_icvec (k : Nat) : (s.completed k).icvec = s.icvec := rfl
@[simp] theorem State.completed_msiCfgTbl (k : Nat) : (s.completed k).msiCfgTbl = s.msiCfgTbl := rfl
@[simp] theorem State.completed_inflight (k : Nat) : (s.completed k).inflight = removeAt s.inflight k := rfl
@[simp] theorem State.completed_fence (k : Nat) : (s.completed k).fence = s.fence := rfl
@[simp] theorem State.completed_timedOut (k : Nat) : (s.completed k).timedOut = s.timedOut := rfl
@[simp] theorem State.completed_requests (k : Nat) : (s.completed k).requests = s.requests := rfl
@[simp] theorem State.completed_activations (k : Nat) : (s.completed k).activations = s.activations := rfl
@[simp] theorem State.completed_completions (k : Nat) : (s.completed k).completions = s.completions := rfl
@[simp] theorem State.completed_accesses (k : Nat) : (s.completed k).accesses = s.accesses := rfl
@[simp] theorem State.completed_faults (k : Nat) : (s.completed k).faults = s.faults := rfl
@[simp] theorem State.completed_pages (k : Nat) : (s.completed k).pages = s.pages := rfl
@[simp] theorem State.completed_pageRecords (k : Nat) : (s.completed k).pageRecords = s.pageRecords := rfl
@[simp] theorem State.completed_messages (k : Nat) : (s.completed k).messages = s.messages := rfl
@[simp] theorem State.completed_msiOwed (k : Nat) : (s.completed k).msiOwed = s.msiOwed := rfl
@[simp] theorem State.completed_failed (k : Nat) : (s.completed k).failed = s.failed := rfl
@[simp] theorem State.completed_halves (k : Nat) : (s.completed k).halves = s.halves := rfl
@[simp] theorem State.completed_agenda (k : Nat) : (s.completed k).agenda = s.agenda := rfl
@[simp] theorem State.completed_hostReads (k : Nat) : (s.completed k).hostReads = s.hostReads := rfl

/-! ### `fenceStore` -/

@[simp] theorem State.fenceStore_cfg (av : Bool) (d : BitVec 32) (a : BitVec 62) : (s.fenceStore av d a).cfg = s.cfg := by cases av <;> rfl
@[simp] theorem State.fenceStore_fctl (av : Bool) (d : BitVec 32) (a : BitVec 62) : (s.fenceStore av d a).fctl = s.fctl := by cases av <;> rfl
@[simp] theorem State.fenceStore_ddtp (av : Bool) (d : BitVec 32) (a : BitVec 62) : (s.fenceStore av d a).ddtp = s.ddtp := by cases av <;> rfl
@[simp] theorem State.fenceStore_ddtpBusy (av : Bool) (d : BitVec 32) (a : BitVec 62) : (s.fenceStore av d a).ddtpBusy = s.ddtpBusy := by cases av <;> rfl
@[simp] theorem State.fenceStore_ddtpOld (av : Bool) (d : BitVec 32) (a : BitVec 62) : (s.fenceStore av d a).ddtpOld = s.ddtpOld := by cases av <;> rfl
@[simp] theorem State.fenceStore_cqb (av : Bool) (d : BitVec 32) (a : BitVec 62) : (s.fenceStore av d a).cqb = s.cqb := by cases av <;> rfl
@[simp] theorem State.fenceStore_cqh (av : Bool) (d : BitVec 32) (a : BitVec 62) : (s.fenceStore av d a).cqh = s.cqh := by cases av <;> rfl
@[simp] theorem State.fenceStore_cqt (av : Bool) (d : BitVec 32) (a : BitVec 62) : (s.fenceStore av d a).cqt = s.cqt := by cases av <;> rfl
@[simp] theorem State.fenceStore_fqb (av : Bool) (d : BitVec 32) (a : BitVec 62) : (s.fenceStore av d a).fqb = s.fqb := by cases av <;> rfl
@[simp] theorem State.fenceStore_fqh (av : Bool) (d : BitVec 32) (a : BitVec 62) : (s.fenceStore av d a).fqh = s.fqh := by cases av <;> rfl
@[simp] theorem State.fenceStore_fqt (av : Bool) (d : BitVec 32) (a : BitVec 62) : (s.fenceStore av d a).fqt = s.fqt := by cases av <;> rfl
@[simp] theorem State.fenceStore_pqb (av : Bool) (d : BitVec 32) (a : BitVec 62) : (s.fenceStore av d a).pqb = s.pqb := by cases av <;> rfl
@[simp] theorem State.fenceStore_pqh (av : Bool) (d : BitVec 32) (a : BitVec 62) : (s.fenceStore av d a).pqh = s.pqh := by cases av <;> rfl
@[simp] theorem State.fenceStore_pqt (av : Bool) (d : BitVec 32) (a : BitVec 62) : (s.fenceStore av d a).pqt = s.pqt := by cases av <;> rfl
@[simp] theorem State.fenceStore_cqcsr (av : Bool) (d : BitVec 32) (a : BitVec 62) : (s.fenceStore av d a).cqcsr = s.cqcsr := by cases av <;> rfl
@[simp] theorem State.fenceStore_fqcsr (av : Bool) (d : BitVec 32) (a : BitVec 62) : (s.fenceStore av d a).fqcsr = s.fqcsr := by cases av <;> rfl
@[simp] theorem State.fenceStore_pqcsr (av : Bool) (d : BitVec 32) (a : BitVec 62) : (s.fenceStore av d a).pqcsr = s.pqcsr := by cases av <;> rfl
@[simp] theorem State.fenceStore_ipsr (av : Bool) (d : BitVec 32) (a : BitVec 62) : (s.fenceStore av d a).ipsr = s.ipsr := by cases av <;> rfl
@[simp] theorem State.fenceStore_iocountinh (av : Bool) (d : BitVec 32) (a : BitVec 62) : (s.fenceStore av d a).iocountinh = s.iocountinh := by cases av <;> rfl
@[simp] theorem State.fenceStore_iohpmcycles (av : Bool) (d : BitVec 32) (a : BitVec 62) : (s.fenceStore av d a).iohpmcycles = s.iohpmcycles := by cases av <;> rfl
@[simp] theorem State.fenceStore_iohpmctr (av : Bool) (d : BitVec 32) (a : BitVec 62) : (s.fenceStore av d a).iohpmctr = s.iohpmctr := by cases av <;> rfl
@[simp] theorem State.fenceStore_iohpmevt (av : Bool) (d : BitVec 32) (a : BitVec 62) : (s.fenceStore av d a).iohpmevt = s.iohpmevt := by cases av <;> rfl
@[simp] theorem State.fenceStore_trReqIova (av : Bool) (d : BitVec 32) (a : BitVec 62) : (s.fenceStore av d a).trReqIova = s.trReqIova := by cases av <;> rfl
@[simp] theorem State.fenceStore_trReqCtl (av : Bool) (d : BitVec 32) (a : BitVec 62) : (s.fenceStore av d a).trReqCtl = s.trReqCtl := by cases av <;> rfl
@[simp] theorem State.fenceStore_trResponse (av : Bool) (d : BitVec 32) (a : BitVec 62) : (s.fenceStore av d a).trResponse = s.trResponse := by cases av <;> rfl
@[simp] theorem State.fenceStore_icvec (av : Bool) (d : BitVec 32) (a : BitVec 62) : (s.fenceStore av d a).icvec = s.icvec := by cases av <;> rfl
@[simp] theorem State.fenceStore_msiCfgTbl (av : Bool) (d : BitVec 32) (a : BitVec 62) : (s.fenceStore av d a).msiCfgTbl = s.msiCfgTbl := by cases av <;> rfl
@[simp] theorem State.fenceStore_ioatc (av : Bool) (d : BitVec 32) (a : BitVec 62) : (s.fenceStore av d a).ioatc = s.ioatc := by cases av <;> rfl
@[simp] theorem State.fenceStore_inflight (av : Bool) (d : BitVec 32) (a : BitVec 62) : (s.fenceStore av d a).inflight = s.inflight := by cases av <;> rfl
@[simp] theorem State.fenceStore_fence (av : Bool) (d : BitVec 32) (a : BitVec 62) : (s.fenceStore av d a).fence = s.fence := by cases av <;> rfl
@[simp] theorem State.fenceStore_timedOut (av : Bool) (d : BitVec 32) (a : BitVec 62) : (s.fenceStore av d a).timedOut = s.timedOut := by cases av <;> rfl
@[simp] theorem State.fenceStore_requests (av : Bool) (d : BitVec 32) (a : BitVec 62) : (s.fenceStore av d a).requests = s.requests := by cases av <;> rfl
@[simp] theorem State.fenceStore_activations (av : Bool) (d : BitVec 32) (a : BitVec 62) : (s.fenceStore av d a).activations = s.activations := by cases av <;> rfl
@[simp] theorem State.fenceStore_completions (av : Bool) (d : BitVec 32) (a : BitVec 62) : (s.fenceStore av d a).completions = s.completions := by cases av <;> rfl
@[simp] theorem State.fenceStore_accesses (av : Bool) (d : BitVec 32) (a : BitVec 62) : (s.fenceStore av d a).accesses = s.accesses := by cases av <;> rfl
@[simp] theorem State.fenceStore_faults (av : Bool) (d : BitVec 32) (a : BitVec 62) : (s.fenceStore av d a).faults = s.faults := by cases av <;> rfl
@[simp] theorem State.fenceStore_pages (av : Bool) (d : BitVec 32) (a : BitVec 62) : (s.fenceStore av d a).pages = s.pages := by cases av <;> rfl
@[simp] theorem State.fenceStore_pageRecords (av : Bool) (d : BitVec 32) (a : BitVec 62) : (s.fenceStore av d a).pageRecords = s.pageRecords := by cases av <;> rfl
@[simp] theorem State.fenceStore_messages (av : Bool) (d : BitVec 32) (a : BitVec 62) : (s.fenceStore av d a).messages = s.messages := by cases av <;> rfl
@[simp] theorem State.fenceStore_msiOwed (av : Bool) (d : BitVec 32) (a : BitVec 62) : (s.fenceStore av d a).msiOwed = s.msiOwed := by cases av <;> rfl
@[simp] theorem State.fenceStore_failed (av : Bool) (d : BitVec 32) (a : BitVec 62) : (s.fenceStore av d a).failed = s.failed := by cases av <;> rfl
@[simp] theorem State.fenceStore_halves (av : Bool) (d : BitVec 32) (a : BitVec 62) : (s.fenceStore av d a).halves = s.halves := by cases av <;> rfl
@[simp] theorem State.fenceStore_draws (av : Bool) (d : BitVec 32) (a : BitVec 62) : (s.fenceStore av d a).draws = s.draws := by cases av <;> rfl
@[simp] theorem State.fenceStore_agenda (av : Bool) (d : BitVec 32) (a : BitVec 62) : (s.fenceStore av d a).agenda = s.agenda := by cases av <;> rfl
@[simp] theorem State.fenceStore_hostReads (av : Bool) (d : BitVec 32) (a : BitVec 62) : (s.fenceStore av d a).hostReads = s.hostReads := by cases av <;> rfl

/-! ### `fenceSignal` -/

@[simp] theorem State.fenceSignal_cfg (w : Bool) : (s.fenceSignal w).cfg = s.cfg := by cases w <;> simp [State.fenceSignal]
@[simp] theorem State.fenceSignal_fctl (w : Bool) : (s.fenceSignal w).fctl = s.fctl := by cases w <;> simp [State.fenceSignal]
@[simp] theorem State.fenceSignal_ddtp (w : Bool) : (s.fenceSignal w).ddtp = s.ddtp := by cases w <;> simp [State.fenceSignal]
@[simp] theorem State.fenceSignal_ddtpBusy (w : Bool) : (s.fenceSignal w).ddtpBusy = s.ddtpBusy := by cases w <;> simp [State.fenceSignal]
@[simp] theorem State.fenceSignal_ddtpOld (w : Bool) : (s.fenceSignal w).ddtpOld = s.ddtpOld := by cases w <;> simp [State.fenceSignal]
@[simp] theorem State.fenceSignal_cqb (w : Bool) : (s.fenceSignal w).cqb = s.cqb := by cases w <;> simp [State.fenceSignal]
@[simp] theorem State.fenceSignal_cqh (w : Bool) : (s.fenceSignal w).cqh = s.cqh := by cases w <;> simp [State.fenceSignal]
@[simp] theorem State.fenceSignal_cqt (w : Bool) : (s.fenceSignal w).cqt = s.cqt := by cases w <;> simp [State.fenceSignal]
@[simp] theorem State.fenceSignal_fqb (w : Bool) : (s.fenceSignal w).fqb = s.fqb := by cases w <;> simp [State.fenceSignal]
@[simp] theorem State.fenceSignal_fqh (w : Bool) : (s.fenceSignal w).fqh = s.fqh := by cases w <;> simp [State.fenceSignal]
@[simp] theorem State.fenceSignal_fqt (w : Bool) : (s.fenceSignal w).fqt = s.fqt := by cases w <;> simp [State.fenceSignal]
@[simp] theorem State.fenceSignal_pqb (w : Bool) : (s.fenceSignal w).pqb = s.pqb := by cases w <;> simp [State.fenceSignal]
@[simp] theorem State.fenceSignal_pqh (w : Bool) : (s.fenceSignal w).pqh = s.pqh := by cases w <;> simp [State.fenceSignal]
@[simp] theorem State.fenceSignal_pqt (w : Bool) : (s.fenceSignal w).pqt = s.pqt := by cases w <;> simp [State.fenceSignal]
@[simp] theorem State.fenceSignal_fqcsr (w : Bool) : (s.fenceSignal w).fqcsr = s.fqcsr := by cases w <;> simp [State.fenceSignal]
@[simp] theorem State.fenceSignal_pqcsr (w : Bool) : (s.fenceSignal w).pqcsr = s.pqcsr := by cases w <;> simp [State.fenceSignal]
@[simp] theorem State.fenceSignal_iocountinh (w : Bool) : (s.fenceSignal w).iocountinh = s.iocountinh := by cases w <;> simp [State.fenceSignal]
@[simp] theorem State.fenceSignal_iohpmcycles (w : Bool) : (s.fenceSignal w).iohpmcycles = s.iohpmcycles := by cases w <;> simp [State.fenceSignal]
@[simp] theorem State.fenceSignal_iohpmctr (w : Bool) : (s.fenceSignal w).iohpmctr = s.iohpmctr := by cases w <;> simp [State.fenceSignal]
@[simp] theorem State.fenceSignal_iohpmevt (w : Bool) : (s.fenceSignal w).iohpmevt = s.iohpmevt := by cases w <;> simp [State.fenceSignal]
@[simp] theorem State.fenceSignal_trReqIova (w : Bool) : (s.fenceSignal w).trReqIova = s.trReqIova := by cases w <;> simp [State.fenceSignal]
@[simp] theorem State.fenceSignal_trReqCtl (w : Bool) : (s.fenceSignal w).trReqCtl = s.trReqCtl := by cases w <;> simp [State.fenceSignal]
@[simp] theorem State.fenceSignal_trResponse (w : Bool) : (s.fenceSignal w).trResponse = s.trResponse := by cases w <;> simp [State.fenceSignal]
@[simp] theorem State.fenceSignal_icvec (w : Bool) : (s.fenceSignal w).icvec = s.icvec := by cases w <;> simp [State.fenceSignal]
@[simp] theorem State.fenceSignal_msiCfgTbl (w : Bool) : (s.fenceSignal w).msiCfgTbl = s.msiCfgTbl := by cases w <;> simp [State.fenceSignal]
@[simp] theorem State.fenceSignal_mem (w : Bool) : (s.fenceSignal w).mem = s.mem := by cases w <;> simp [State.fenceSignal]
@[simp] theorem State.fenceSignal_ioatc (w : Bool) : (s.fenceSignal w).ioatc = s.ioatc := by cases w <;> simp [State.fenceSignal]
@[simp] theorem State.fenceSignal_inflight (w : Bool) : (s.fenceSignal w).inflight = s.inflight := by cases w <;> simp [State.fenceSignal]
@[simp] theorem State.fenceSignal_fence (w : Bool) : (s.fenceSignal w).fence = s.fence := by cases w <;> simp [State.fenceSignal]
@[simp] theorem State.fenceSignal_timedOut (w : Bool) : (s.fenceSignal w).timedOut = s.timedOut := by cases w <;> simp [State.fenceSignal]
@[simp] theorem State.fenceSignal_requests (w : Bool) : (s.fenceSignal w).requests = s.requests := by cases w <;> simp [State.fenceSignal]
@[simp] theorem State.fenceSignal_activations (w : Bool) : (s.fenceSignal w).activations = s.activations := by cases w <;> simp [State.fenceSignal]
@[simp] theorem State.fenceSignal_completions (w : Bool) : (s.fenceSignal w).completions = s.completions := by cases w <;> simp [State.fenceSignal]
@[simp] theorem State.fenceSignal_accesses (w : Bool) : (s.fenceSignal w).accesses = s.accesses := by cases w <;> simp [State.fenceSignal]
@[simp] theorem State.fenceSignal_faults (w : Bool) : (s.fenceSignal w).faults = s.faults := by cases w <;> simp [State.fenceSignal]
@[simp] theorem State.fenceSignal_pages (w : Bool) : (s.fenceSignal w).pages = s.pages := by cases w <;> simp [State.fenceSignal]
@[simp] theorem State.fenceSignal_pageRecords (w : Bool) : (s.fenceSignal w).pageRecords = s.pageRecords := by cases w <;> simp [State.fenceSignal]
@[simp] theorem State.fenceSignal_messages (w : Bool) : (s.fenceSignal w).messages = s.messages := by cases w <;> simp [State.fenceSignal]
@[simp] theorem State.fenceSignal_failed (w : Bool) : (s.fenceSignal w).failed = s.failed := by cases w <;> simp [State.fenceSignal]
@[simp] theorem State.fenceSignal_halves (w : Bool) : (s.fenceSignal w).halves = s.halves := by cases w <;> simp [State.fenceSignal]
@[simp] theorem State.fenceSignal_draws (w : Bool) : (s.fenceSignal w).draws = s.draws := by cases w <;> simp [State.fenceSignal]
@[simp] theorem State.fenceSignal_agenda (w : Bool) : (s.fenceSignal w).agenda = s.agenda := by cases w <;> simp [State.fenceSignal]
@[simp] theorem State.fenceSignal_hostReads (w : Bool) : (s.fenceSignal w).hostReads = s.hostReads := by cases w <;> simp [State.fenceSignal]

@[simp] theorem State.takeCommandError_fence (e : CommandError) : (s.takeCommandError e).fence = none := by
  simp [State.takeCommandError]

@[simp] theorem State.takeCommandError_cqcsr (e : CommandError) :
    (s.takeCommandError e).cqcsr = s.cqcsr.withError e := by
  simp [State.takeCommandError]

end Sys2Proof.Machine
end

