-- ==== Sys2Proof/Laws/Hpm.lean ====
section
/-! SUPPORT. What counting events can change, and what reporting a fault can change. -/

namespace Sys2Proof.Machine

/-- `t` is `s` but for the event counters, their selectors' `OF` bits, the pending bits and the MSIs they owe. -/
def OnlyCounters (s t : State) : Prop :=
  t = { s with iohpmctr := t.iohpmctr, iohpmevt := t.iohpmevt, ipsr := t.ipsr, msiOwed := t.msiOwed }

theorem OnlyCounters.refl (s : State) : OnlyCounters s s := rfl

theorem OnlyCounters.trans {s t u : State} (h : OnlyCounters s t) (k : OnlyCounters t u) : OnlyCounters s u := by
  unfold OnlyCounters at *
  rw [k, h]

theorem onlyCounters_incrementCounter (s : State) (n : Fin 31) : OnlyCounters s (s.incrementCounter n) := by
  unfold State.incrementCounter
  simp only
  split
  · split <;> simp [OnlyCounters, State.raisePmip, State.setPending]
  · simp [OnlyCounters]

theorem onlyCounters_countOn (event : Nat) (t : HpmIds) (ns : List (Fin 31)) (s : State) :
    OnlyCounters s (s.countOn event t ns) := by
  induction ns generalizing s with
  | nil => exact OnlyCounters.refl s
  | cons n ns ih =>
    unfold State.countOn
    split
    · exact (onlyCounters_incrementCounter s n).trans (ih _)
    · exact ih s

theorem onlyCounters_countEvent (event : Nat) (t : HpmIds) (k : Nat) (s : State) :
    OnlyCounters s (s.countEvent event t k) := by
  induction k generalizing s with
  | zero => exact OnlyCounters.refl s
  | succ k ih => exact (onlyCounters_countOn event t _ s).trans (ih _)

/-- The events of an activation change only the counters and what an overflow raises. -/
theorem onlyCounters_countActivation (s : State) (type : RequestType) (did : BitVec 24) (pid : Option (BitVec 20))
    (w : Walk) : OnlyCounters s (s.countActivation type did pid w) := by
  unfold State.countActivation
  exact ((((((onlyCounters_countEvent _ _ _ s).trans (onlyCounters_countEvent _ _ _ _)).trans
    (onlyCounters_countEvent _ _ _ _)).trans (onlyCounters_countEvent _ _ _ _)).trans
    (onlyCounters_countEvent _ _ _ _)).trans (onlyCounters_countEvent _ _ _ _))

/-- Reporting a fault only adds its record to the pending ones, or does nothing. -/
theorem State.reportFault_cases (s : State) (cause : Nat) (dtf : Bool) (r : FaultRecord) :
    (s.reportFault cause dtf r = s ∧ (s.fqcsr.fqon = false ∨ dtf = true ∧ reportedWithDtf cause = false)) ∨
    (s.reportFault cause dtf r = { s with faults := s.faults ++ [r] } ∧ s.fqcsr.fqon = true) := by
  unfold State.reportFault State.offerRecord
  cases dtf <;> cases hr : reportedWithDtf cause <;> cases hq : s.fqcsr.fqon <;> simp_all

end Sys2Proof.Machine
end

