-- ==== Sys2Proof/Laws/Memory.lean ====
section
/-! SUPPORT. The laws of memory: a read after a write, and the canonical form kept by every operation. -/

namespace Sys2Proof.Machine

theorem Memory.read_erase_same (m : Memory) (a : Nat) : (m.erase a).read a = Memory.unlisted := by
  induction m with
  | nil => rfl
  | cons e m ih =>
    obtain ⟨b, v⟩ := e
    by_cases h : b = a <;> simp [Memory.erase, Memory.read, h, ih]

theorem Memory.read_erase_other (m : Memory) {a b : Nat} (h : b ≠ a) : (m.erase a).read b = m.read b := by
  induction m with
  | nil => rfl
  | cons e m ih =>
    obtain ⟨c, v⟩ := e
    by_cases hc : c = a
    · subst hc
      simp [Memory.erase, Memory.read, ih, Ne.symm h]
    · rcases eq_or_ne c b with rfl | hb <;> simp [Memory.erase, Memory.read, *]

theorem Memory.read_insert_other (m : Memory) {a b : Nat} (v : Byte) (h : b ≠ a) :
    (m.insert a v).read b = m.read b := by
  induction m with
  | nil => simp [Memory.insert, Memory.read, Ne.symm h]
  | cons e m ih =>
    obtain ⟨c, w⟩ := e
    by_cases hc : a < c
    · simp [Memory.insert, Memory.read, hc, Ne.symm h]
    · rcases eq_or_ne c b with rfl | hb <;> simp [Memory.insert, Memory.read, *]

theorem Memory.read_insert_erase_same (m : Memory) (a : Nat) (v : Byte) : ((m.erase a).insert a v).read a = v := by
  induction m with
  | nil => simp [Memory.erase, Memory.insert, Memory.read]
  | cons e m ih =>
    obtain ⟨c, w⟩ := e
    by_cases hc : c = a
    · simpa [Memory.erase, hc] using ih
    · by_cases hl : a < c <;> simp [Memory.erase, Memory.insert, Memory.read, hc, hl, ih]

/-- A byte read back after it is written. -/
theorem Memory.read_write_same (m : Memory) (a : Nat) (v : Byte) : (m.write a v).read a = v := by
  unfold Memory.write
  split
  · next h => rw [Memory.read_erase_same, h]
  · exact Memory.read_insert_erase_same m a v

/-- Every other byte is left alone. -/
theorem Memory.read_write_other (m : Memory) {a b : Nat} (v : Byte) (h : b ≠ a) : (m.write a v).read b = m.read b := by
  unfold Memory.write
  split
  · exact Memory.read_erase_other m h
  · rw [Memory.read_insert_other _ _ h, Memory.read_erase_other m h]

/-- Bytes outside the stored range are left alone. -/
theorem Memory.read_writeBytes_outside (bs : List Byte) (m : Memory) (a b : Nat) (h : b < a ∨ a + bs.length ≤ b) :
    (m.writeBytes a bs).read b = m.read b := by
  induction bs generalizing m a with
  | nil => rfl
  | cons x xs ih =>
    simp only [List.length_cons] at h
    rw [Memory.writeBytes, ih _ _ (by omega), Memory.read_write_other _ _ (by omega)]

/-- The bytes stored are read back. -/
theorem Memory.readBytes_writeBytes (bs : List Byte) (m : Memory) (a : Nat) :
    (m.writeBytes a bs).readBytes a bs.length = bs := by
  induction bs generalizing m a with
  | nil => rfl
  | cons x xs ih =>
    rw [List.length_cons, Memory.readBytes, Memory.writeBytes, ih,
      Memory.read_writeBytes_outside _ _ _ _ (by omega), Memory.read_write_same]

/-! ## The canonical form -/

/-- Every entry of `m` lies at or above `a`. -/
def Memory.above (a : Nat) (m : Memory) : Prop := ∀ e ∈ m, a < e.1

/-- The canonical form of a memory with a first entry. -/
theorem Memory.wf_cons (a : Nat) (v : Byte) (m : Memory) :
    Memory.wf ((a, v) :: m) = true ↔ v ≠ Memory.unlisted ∧ Memory.above a m ∧ Memory.wf m = true := by
  induction m generalizing a v with
  | nil => simp [Memory.wf, Memory.above]
  | cons e m ih =>
    obtain ⟨b, w⟩ := e
    have hb := ih b w
    constructor
    · intro h
      simp only [Memory.wf, Bool.and_eq_true, decide_eq_true_eq, bne_iff_ne] at h
      obtain ⟨⟨h1, h2⟩, h3⟩ := h
      refine ⟨h2, ?_, h3⟩
      intro e he
      rcases List.mem_cons.mp he with rfl | he
      · exact h1
      · exact Nat.lt_trans h1 ((hb.mp h3).2.1 e he)
    · rintro ⟨h1, h2, h3⟩
      simp only [Memory.wf, Bool.and_eq_true, decide_eq_true_eq, bne_iff_ne]
      exact ⟨⟨h2 (b, w) (by simp), h1⟩, h3⟩

theorem Memory.mem_erase {m : Memory} {a : Nat} {e : Host.Cell} (h : e ∈ m.erase a) : e ∈ m ∧ e.1 ≠ a := by
  induction m with
  | nil => simp [Memory.erase] at h
  | cons x m ih =>
    obtain ⟨b, v⟩ := x
    by_cases hb : b = a
    · simp only [Memory.erase, hb, if_true] at h
      exact ⟨List.mem_cons_of_mem _ (ih h).1, (ih h).2⟩
    · simp only [Memory.erase, hb, if_false] at h
      rcases List.mem_cons.mp h with rfl | h
      · exact ⟨by simp, hb⟩
      · exact ⟨List.mem_cons_of_mem _ (ih h).1, (ih h).2⟩

theorem Memory.wf_erase {m : Memory} (a : Nat) (h : m.wf = true) : (m.erase a).wf = true := by
  induction m with
  | nil => rfl
  | cons x m ih =>
    obtain ⟨b, v⟩ := x
    obtain ⟨h1, h2, h3⟩ := (Memory.wf_cons b v m).mp h
    by_cases hb : b = a
    · simpa [Memory.erase, hb] using ih h3
    · simp only [Memory.erase, hb, if_false]
      exact (Memory.wf_cons _ _ _).mpr ⟨h1, fun e he => h2 e (Memory.mem_erase he).1, ih h3⟩

theorem Memory.mem_insert {m : Memory} {a : Nat} {v : Byte} {e : Host.Cell} (h : e ∈ m.insert a v) :
    e = (a, v) ∨ e ∈ m := by
  induction m with
  | nil => simpa [Memory.insert] using h
  | cons x m ih =>
    obtain ⟨b, w⟩ := x
    by_cases hb : a < b
    · simpa [Memory.insert, hb] using h
    · simp only [Memory.insert, hb, if_false, List.mem_cons] at h ⊢
      rcases h with h | h
      · exact .inr (.inl h)
      · exact (ih h).imp_right .inr

theorem Memory.wf_insert {m : Memory} (a : Nat) {v : Byte} (h : m.wf = true) (hv : v ≠ Memory.unlisted)
    (ha : ∀ e ∈ m, e.1 ≠ a) : (m.insert a v).wf = true := by
  induction m with
  | nil => simp [Memory.insert, Memory.wf, hv]
  | cons x m ih =>
    obtain ⟨b, w⟩ := x
    obtain ⟨h1, h2, h3⟩ := (Memory.wf_cons b w m).mp h
    by_cases hb : a < b
    · simp only [Memory.insert, hb, if_true]
      refine (Memory.wf_cons _ _ _).mpr ⟨hv, ?_, h⟩
      intro e he
      rcases List.mem_cons.mp he with rfl | he
      · exact hb
      · exact Nat.lt_trans hb (h2 e he)
    · simp only [Memory.insert, hb, if_false]
      refine (Memory.wf_cons _ _ _).mpr ⟨h1, ?_, ih h3 (fun e he => ha e (List.mem_cons_of_mem _ he))⟩
      intro e he
      rcases Memory.mem_insert he with rfl | he
      · have := ha (b, w) (by simp)
        simp only [ne_eq] at this ⊢
        omega
      · exact h2 e he

/-- A write keeps the canonical form. -/
theorem Memory.wf_write {m : Memory} (a : Nat) (v : Byte) (h : m.wf = true) : (m.write a v).wf = true := by
  unfold Memory.write
  split
  · exact Memory.wf_erase a h
  · next hv => exact Memory.wf_insert a (Memory.wf_erase a h) hv (fun e he => (Memory.mem_erase he).2)

/-- A store of bytes keeps the canonical form. -/
theorem Memory.wf_writeBytes (bs : List Byte) {m : Memory} (a : Nat) (h : m.wf = true) :
    (m.writeBytes a bs).wf = true := by
  induction bs generalizing m a with
  | nil => exact h
  | cons x xs ih => exact ih _ (Memory.wf_write a x h)

theorem Memory.wf_write32 {m : Memory} (a : Nat) (v : Word) (be : Bool) (h : m.wf = true) :
    (m.write32 a v be).wf = true := Memory.wf_writeBytes _ a h

theorem Memory.wf_write64 {m : Memory} (a : Nat) (v : DWord) (be : Bool) (h : m.wf = true) :
    (m.write64 a v be).wf = true := Memory.wf_writeBytes _ a h

end Sys2Proof.Machine
end

