-- ==== Sys2Proof/Laws/Ops.lean ====
section
/-! SUPPORT. For each shared operation one lemma that says what it can do. -/

namespace Sys2Proof.Machine

/-! ## Queue indices -/

theorem QueueBase.entries_pos (b : QueueBase) : 0 < b.entries := Nat.two_pow_pos _

theorem QueueBase.entries_le (b : QueueBase) : b.entries ≤ 2 ^ 32 :=
  Nat.pow_le_pow_right (by decide) (by have := b.log2szm1.isLt; omega)

/-- A clipped index lies in the queue. -/
theorem QueueBase.clip_lt (b : QueueBase) (i : BitVec 32) : (b.clip i).toNat < b.entries := by
  have h := Nat.mod_lt i.toNat b.entries_pos
  have := b.entries_le
  simp only [QueueBase.clip, BitVec.toNat_ofNat]
  rwa [Nat.mod_eq_of_lt (by omega)]

/-- The index after another lies in the queue. -/
theorem QueueBase.next_lt (b : QueueBase) (i : BitVec 32) : (b.next i).toNat < b.entries := by
  have h := Nat.mod_lt (i.toNat + 1) b.entries_pos
  have := b.entries_le
  simp only [QueueBase.next, BitVec.toNat_ofNat]
  rwa [Nat.mod_eq_of_lt (by omega)]

/-! ## Interrupts -/

/-- A value written to `ipsr` by hardware owes the MSIs of the bits that rose, in MSI mode. -/
theorem State.setPending_msiOwed (s : State) (p : Ipsr) :
    (s.setPending p).msiOwed =
      if s.msiMode then
        s.msiOwed ||| owedBit (p.cip && !s.ipsr.cip) s.icvec.civ ||| owedBit (p.fip && !s.ipsr.fip) s.icvec.fiv |||
          owedBit (p.pmip && !s.ipsr.pmip) s.icvec.pmiv ||| owedBit (p.pip && !s.ipsr.pip) s.icvec.piv
      else s.msiOwed := rfl

/-- `raise_cip` sets `cip` iff `cie` is 1. -/
@[simp] theorem State.raiseCip_ipsr (s : State) :
    s.raiseCip.ipsr = { s.ipsr with cip := s.ipsr.cip || s.cqcsr.cie } := by
  unfold State.raiseCip
  split <;> next h => simp [h]

/-- `raise_fip` sets `fip` iff `fie` is 1. -/
@[simp] theorem State.raiseFip_ipsr (s : State) :
    s.raiseFip.ipsr = { s.ipsr with fip := s.ipsr.fip || s.fqcsr.fie } := by
  unfold State.raiseFip
  split <;> next h => simp [h]

/-- `raise_pip` sets `pip` iff `pie` is 1. -/
@[simp] theorem State.raisePip_ipsr (s : State) :
    s.raisePip.ipsr = { s.ipsr with pip := s.ipsr.pip || s.pqcsr.pie } := by
  unfold State.raisePip
  split <;> next h => simp [h]

/-- Re-evaluation keeps every pending bit and adds those whose level condition holds. -/
@[simp] theorem State.reevaluate_ipsr (s : State) :
    s.reevaluate.ipsr =
      { s.ipsr with
        cip := s.ipsr.cip || s.cipLevel
        fip := s.ipsr.fip || s.fipLevel
        pip := s.ipsr.pip || s.pipLevel } := rfl

/-! ## The command-queue error -/

/-- Taking an error raises `cip` iff `cie` is 1. -/
@[simp] theorem State.takeCommandError_ipsr (s : State) (e : CommandError) :
    (s.takeCommandError e).ipsr = { s.ipsr with cip := s.ipsr.cip || s.cqcsr.cie } := by
  cases e <;> simp [State.takeCommandError, Cqcsr.withError]

/-- After an error the queue fetches nothing. -/
theorem State.takeCommandError_stops (s : State) (e : CommandError) : (s.takeCommandError e).cqReady = false := by
  cases e <;> simp [State.cqReady, Cqcsr.withError, Cqcsr.stopped]

/-! ## Fetch and execution -/

/-- The fetch gives a command iff the read is allowed and the bytes decode to it. -/
theorem State.fetch_ok_iff (s : State) (i : Instr) :
    s.fetch = .ok i ↔ s.fetchAllowed = true ∧ decodeBytes s.fctl.be (s.mem.readBytes s.commandAddr 16) = .ok i := by
  unfold State.fetch
  cases hc : s.fetchAllowed <;>
    cases hd : decodeBytes s.fctl.be (s.mem.readBytes s.commandAddr 16) <;> simp

/-- A supported command other than `IOFENCE.C` has its effect and `cqh` advances. -/
theorem State.executeFetched_supported {s : State} {i : Instr} (effect : State → State) (h : s.supports i = true) :
    s.executeFetched i effect = .next (effect s).advanceHead := by
  simp [State.executeFetched, h]

/-- An unsupported command is the error `cmd_ill`. -/
theorem State.executeFetched_unsupported {s : State} {i : Instr} (effect : State → State) (h : s.supports i = false) :
    s.executeFetched i effect = .next (s.takeCommandError .illegal) := by
  simp [State.executeFetched, h]

/-- What a completing fence can do: report a timeout, fault on its store, or complete. -/
theorem State.completeFence_cases (s : State) (av wsi pr pw : Bool) (data : BitVec 32) (addr : BitVec 62) :
    (s.timedOut = true ∧
      s.completeFence av wsi pr pw data addr = { s with timedOut := false }.takeCommandError .timeout) ∨
    (s.timedOut = false ∧ (s.commitPrevious pr pw).fenceStoreFaults av addr = true ∧
      s.completeFence av wsi pr pw data addr = (s.commitPrevious pr pw).takeCommandError .memoryFault) ∨
    (s.timedOut = false ∧ (s.commitPrevious pr pw).fenceStoreFaults av addr = false ∧
      s.completeFence av wsi pr pw data addr =
        State.advanceHead { ((s.commitPrevious pr pw).fenceStore av data addr).fenceSignal wsi with fence := none }) := by
  unfold State.completeFence
  cases ht : s.timedOut
  · cases hf : (s.commitPrevious pr pw).fenceStoreFaults av addr <;> simp [hf]
  · simp

/-- With no agenda and a command to fetch, the step is the fetch. -/
theorem step_of_cqReady {s : State} (ha : s.agenda = []) (hr : s.cqReady = true) : step s = s.fetchAndExecute := by
  have hf : s.failed = false := by
    simp only [State.cqReady, Bool.and_eq_true, Bool.not_eq_true'] at hr
    exact hr.2
  simp [step, ha, State.scheduled, State.commandStep, hf, hr, perform]

/-- The step of an event on the agenda. -/
theorem step_of_agenda {s : State} {e : Event} {es : List Event} (ha : s.agenda = e :: es) :
    step s = perform e { s with agenda := es } := by
  simp [step, ha]

/-! ## Stores of records -/

/-- A read or write of `n` bytes is permitted iff each of its accesses is. -/
theorem permitted_iff (c : Config) (addr n : Nat) (kind : CheckKind) :
    permitted c addr n kind = true ↔
      ∀ k, k < n / accessBytes c n → check c (addr + accessBytes c n * k) (accessBytes c n) kind = .ok := by
  simp [permitted, verdicts]

/-- What the store of a doubleword can do: all of it, its first access only, or nothing. -/
theorem storeDword_cases (c : Config) (be : Bool) (m : Memory) (a : Nat) (d : DWord) :
    (permitted c a 8 .write = true ∧ storeDword c be m a d = (m.write64 a d be, true)) ∨
    (permitted c a 8 .write = false ∧ ∃ n, storeDword c be m a d = (m.writeBytes a ((toBytes be 8 d.toNat).take n), false)) := by
  cases hp : permitted c a 8 .write
  · refine .inr ⟨rfl, ?_⟩
    by_cases h : (check c a (accessBytes c 8) .write == .ok) = true
    · exact ⟨accessBytes c 8, by simp [storeDword, hp, h]⟩
    · exact ⟨0, by simp [storeDword, hp, h, Memory.writeBytes]⟩
  · exact .inl ⟨rfl, by simp [storeDword, hp]⟩

theorem storeDword_wf (c : Config) (be : Bool) {m : Memory} (a : Nat) (d : DWord) (h : m.wf = true) :
    (storeDword c be m a d).1.wf = true := by
  obtain ⟨_, e⟩ | ⟨_, n, e⟩ := storeDword_cases c be m a d <;> rw [e] <;> exact Memory.wf_writeBytes _ a h

/-- The stores of a record keep the canonical form. -/
theorem storeDwords_wf (c : Config) (be : Bool) (ds : List DWord) {m : Memory} (a : Nat) (h : m.wf = true) :
    (storeDwords c be m a ds).1.wf = true := by
  induction ds generalizing m a with
  | nil => exact h
  | cons d ds ih =>
    have hs := storeDword_wf c be a d h
    unfold storeDwords
    split <;> next e => rw [e] at hs; first | exact ih _ hs | exact hs

theorem leBytes_length (n v : Nat) : (leBytes n v).length = n := by
  induction n generalizing v with
  | zero => rfl
  | succ n ih => simp [leBytes, ih]

theorem toBytes_length (be : Bool) (n v : Nat) : (toBytes be n v).length = n := by
  cases be <;> simp [toBytes, leBytes_length]

/-- The store of a doubleword changes only its eight bytes. -/
theorem storeDword_outside (c : Config) (be : Bool) (m : Memory) (a b : Nat) (d : DWord) (h : b < a ∨ a + 8 ≤ b) :
    (storeDword c be m a d).1.read b = m.read b := by
  obtain ⟨_, e⟩ | ⟨_, n, e⟩ := storeDword_cases c be m a d <;> rw [e] <;>
    exact Memory.read_writeBytes_outside _ _ _ _ (by simp [toBytes_length]; omega)

/-- The stores of a record change only its own bytes. -/
theorem storeDwords_outside (c : Config) (be : Bool) (ds : List DWord) (m : Memory) (a b : Nat)
    (h : b < a ∨ a + 8 * ds.length ≤ b) : (storeDwords c be m a ds).1.read b = m.read b := by
  induction ds generalizing m a with
  | nil => rfl
  | cons d ds ih =>
    simp only [List.length_cons] at h
    have hd := storeDword_outside c be m a b d (by omega)
    unfold storeDwords
    split <;> next e =>
      rw [e] at hd
      first
      | rw [ih _ _ (by omega), hd]
      | exact hd

/-! ## Lists numbered from 0 -/

/-- What is left when an element is removed was there before. -/
theorem mem_of_mem_removeAt {α : Type} {x : α} : ∀ {xs : List α} {k : Nat}, x ∈ removeAt xs k → x ∈ xs
  | _ :: _, 0, h => List.mem_cons_of_mem _ h
  | _ :: _, _ + 1, h => (List.mem_cons.mp h).elim (fun e => e ▸ List.mem_cons_self ..) fun h =>
      List.mem_cons_of_mem _ (mem_of_mem_removeAt h)

/-- An element found by its number is in the list. -/
theorem mem_of_elementAt {α : Type} {x : α} : ∀ {xs : List α} {k : Nat}, elementAt xs k = some x → x ∈ xs
  | _ :: _, 0, h => Option.some.inj h ▸ List.mem_cons_self ..
  | _ :: _, _ + 1, h => List.mem_cons_of_mem _ (mem_of_elementAt h)

/-! ## Page-request records and split accesses -/

/-- A response is a message sent, or nothing. -/
theorem State.respond_frame (s : State) (m : PageRequest) (st : PageStatus) (b : Bool) :
    ∃ ms, s.respond m st b = { s with messages := ms } := by
  unfold State.respond
  split
  · exact ⟨s.messages, rfl⟩
  · exact ⟨_, rfl⟩

theorem State.raisePip_frame (s : State) :
    ∃ ipsr owed, s.raisePip = { s with ipsr := ipsr, msiOwed := owed } := by
  unfold State.raisePip
  split
  · exact ⟨_, _, rfl⟩
  · exact ⟨s.ipsr, s.msiOwed, rfl⟩

/-- What writing one page-request record can change. -/
theorem State.storePage_frame (s : State) (m : PageRequest) (prpr : Bool) :
    ∃ mem pqt pqcsr ipsr owed messages, s.storePage m prpr =
      { s with mem := mem, pqt := pqt, pqcsr := pqcsr, ipsr := ipsr, msiOwed := owed, messages := messages } := by
  have answered (t : State) (st : PageStatus) (b : Bool) : ∃ ipsr owed ms, t.raisePip.respond m st b =
      { t with ipsr := ipsr, msiOwed := owed, messages := ms } := by
    obtain ⟨i, o, hi⟩ := t.raisePip_frame
    obtain ⟨ms, hm⟩ := t.raisePip.respond_frame m st b
    exact ⟨i, o, ms, by rw [hm, hi]⟩
  unfold State.storePage
  split
  · obtain ⟨ms, h⟩ := s.respond_frame m .responseFailure true
    exact ⟨_, _, _, _, _, ms, h⟩
  split
  · obtain ⟨ms, h⟩ := s.respond_frame m .success prpr
    exact ⟨_, _, _, _, _, ms, h⟩
  split
  · obtain ⟨i, o, ms, h⟩ := answered { s with pqcsr := { s.pqcsr with pqof := true } } .success prpr
    exact ⟨_, _, _, i, o, ms, h⟩
  dsimp only
  split
  · obtain ⟨i, o, h⟩ := State.raisePip_frame { s with
      mem := (storeDwords s.cfg s.fctl.be s.mem (s.pqb.entryAddr 16 s.pqt) m.dwords).1, pqt := s.pqb.next s.pqt }
    exact ⟨_, _, _, i, o, _, h⟩
  · obtain ⟨i, o, ms, h⟩ := answered { s with
      mem := (storeDwords s.cfg s.fctl.be s.mem (s.pqb.entryAddr 16 s.pqt) m.dwords).1
      pqcsr := { s.pqcsr with pqmf := true } } .responseFailure true
    exact ⟨_, _, _, i, o, ms, h⟩

/-- What holds before writing the decided records and is kept by each holds after. -/
theorem State.storePages_keeps (P : State → Prop) (h : ∀ t m b, P t → P (State.storePage t m b))
    (xs : List PageRecord) : ∀ s : State, P s → P (s.storePages xs) := by
  induction xs with
  | nil => exact fun _ hs => hs
  | cons x xs ih => exact fun s hs => ih _ (h s x.msg x.prpr hs)

/-- What the second half of a split access is: a read noted, or a write of one half. -/
theorem State.finishHalf_cases (s : State) (k : Nat) :
    (elementAt s.halves k = none ∧ s.finishHalf k = .next s) ∨
    (∃ o high v, elementAt s.halves k = some (.read o high v) ∧
      s.finishHalf k = .next (State.readSecondHalf { s with halves := removeAt s.halves k } o high v)) ∨
    (∃ o high v b, elementAt s.halves k = some (.write o high v b) ∧
      s.finishHalf k = State.writeSecondHalf { s with halves := removeAt s.halves k } o high v b) := by
  unfold State.finishHalf
  cases h : elementAt s.halves k with
  | none => exact .inl ⟨rfl, rfl⟩
  | some x =>
    cases x with
    | read o high v => exact .inr (.inl ⟨o, high, v, rfl, rfl⟩)
    | write o high v b => exact .inr (.inr ⟨o, high, v, b, rfl, rfl⟩)

end Sys2Proof.Machine
end

