-- ==== Sys2Proof/Laws/Walk.lean ====
section
/-! SUPPORT. What a process of the translation engine may do to memory: it keeps the canonical form, whether it answers or faults; what a lookup leaves of the cache; and what an access finds. -/

namespace Sys2Proof.Machine

/-- Every memory a walk state holds is in canonical form. -/
def Walk.Canonical (w : Walk) : Prop :=
  w.mem.wf = true ∧ (∀ t ∈ w.turns, t.shared.mem.wf = true) ∧ ∀ x, w.reached = some x → x.mem.wf = true

/-- A walk state at the beginning of an activation is canonical if what it is given is. -/
theorem Walk.start_canonical {b : Shared} {turns : List Turn} (hb : b.mem.wf = true)
    (ht : ∀ t ∈ turns, t.shared.mem.wf = true) : (Walk.start b turns).Canonical := ⟨hb, ht, fun _ h => by cases h⟩

/-- A walk state with another memory in canonical form. -/
theorem Walk.Canonical.withMem {w : Walk} (h : w.Canonical) {m : Memory} (hm : m.wf = true) :
    Walk.Canonical { w with mem := m } := ⟨hm, h.2⟩

/-- The process keeps every memory canonical. -/
def KeepsCanonical {α : Type} (p : Proc α) : Prop :=
  ∀ w : Walk, w.Canonical → (walkAfter (p w)).Canonical

protected theorem KeepsCanonical.pure {α : Type} (a : α) : KeepsCanonical (Pure.pure a : Proc α) := fun _ h => h

protected theorem KeepsCanonical.raise {α : Type} (cause : Nat) (v : DWord) : KeepsCanonical (raise cause v : Proc α) :=
  fun _ h => h

protected theorem KeepsCanonical.throw {α : Type} (e : FaultInfo) : KeepsCanonical (throw e : Proc α) := fun _ h => h

protected theorem KeepsCanonical.handling {α : Type} {p : Proc α} {f : FaultInfo → Proc α} (hp : KeepsCanonical p)
    (hf : ∀ e, KeepsCanonical (f e)) : KeepsCanonical (handling p f) := by
  intro w hw
  have h := hp w hw
  unfold Machine.handling
  cases hr : p w with
  | ok a w' => rw [hr] at h; exact h
  | error e w' => rw [hr] at h; exact hf e w' h

protected theorem KeepsCanonical.get : KeepsCanonical (get : Proc Walk) := fun _ h => h

protected theorem KeepsCanonical.bind {α β : Type} {p : Proc α} {f : α → Proc β} (hp : KeepsCanonical p)
    (hf : ∀ a, KeepsCanonical (f a)) : KeepsCanonical (p >>= f) := by
  intro w hw
  have h := hp w hw
  show (walkAfter (EStateM.bind p f w)).Canonical
  unfold EStateM.bind
  cases hr : p w with
  | ok a w' => rw [hr] at h; exact hf a w' h
  | error e w' => rw [hr] at h; exact h

protected theorem KeepsCanonical.modify {f : Walk → Walk} (hf : ∀ w, w.Canonical → (f w).Canonical) :
    KeepsCanonical (modify f : Proc PUnit) := fun w h => hf w h

protected theorem KeepsCanonical.choose (n : Nat) : KeepsCanonical (choose n) := by
  intro w h
  unfold Machine.choose
  split <;> exact h

protected theorem KeepsCanonical.note (s : State) (e : CacheEntry) : KeepsCanonical (note s e) := by
  refine KeepsCanonical.modify fun w h => ?_
  split <;> exact h

/-- Caching a copy changes nothing else of the walk state. -/
theorem Walk.cache_frame (w : Walk) (e : CacheEntry) : ∃ io ad, w.cache e = { w with ioatc := io, added := ad } := by
  unfold Walk.cache
  split
  · exact ⟨w.ioatc, w.added, rfl⟩
  · exact ⟨_, _, rfl⟩

theorem Walk.foldl_cache_frame (es : List CacheEntry) :
    ∀ w : Walk, ∃ io ad, es.foldl Walk.cache w = { w with ioatc := io, added := ad } := by
  induction es with
  | nil => exact fun w => ⟨w.ioatc, w.added, rfl⟩
  | cons e es ih =>
    intro w
    obtain ⟨io, ad, h⟩ := w.cache_frame e
    obtain ⟨io', ad', h'⟩ := ih (w.cache e)
    exact ⟨io', ad', by rw [List.foldl_cons, h', h]⟩

/-- No copy that is cached anew is covered by an invalidation executed since the activation began. -/
theorem Walk.mem_cache {w : Walk} {e x : CacheEntry} (h : x ∈ (w.cache e).ioatc) :
    x ∈ w.ioatc ∨ x = e ∧ ∀ i ∈ w.lost, i.covers e = false := by
  unfold Walk.cache at h
  split at h
  · exact .inl h
  · next hn =>
    simp only [Bool.or_eq_true, not_or, List.any_eq_true, not_exists, not_and, Bool.not_eq_true] at hn
    rcases List.mem_append.mp h with h | h
    · exact .inl h
    · exact .inr ⟨List.mem_singleton.mp h, hn.2⟩

/-- A lookup is its process, but for the cached copies it leaves. -/
protected theorem KeepsCanonical.lookup {α : Type} {p : Proc α} (hp : KeepsCanonical p) : KeepsCanonical (lookup p) := by
  intro w hw
  have h := hp { w with fill := [] } hw
  unfold Machine.lookup
  cases hr : p { w with fill := [] } with
  | ok a w' =>
    rw [hr] at h
    obtain ⟨io, ad, e⟩ := Walk.foldl_cache_frame w'.fill w'
    simp only [walkAfter, e]
    exact h
  | error e w' => rw [hr] at h; exact h

/-- What a lookup leaves of the cache: with a fault nothing is added, and with an answer the copies it noted. -/
theorem lookup_ioatc {α : Type} (p : Proc α) (w : Walk) :
    (walkAfter (lookup p w)).ioatc =
      match p { w with fill := [] } with
      | .ok _ w' => (w'.fill.foldl Walk.cache w').ioatc
      | .error _ w' => w'.ioatc := by
  unfold Machine.lookup
  cases p { w with fill := [] } <;> rfl

/-! ## Accesses -/

/-- With no turn left an access finds what the process has, and it is noted what was reached. -/
theorem takeTurn_nil {w : Walk} (h : w.turns = []) :
    takeTurn w = .ok 0 { w with reached := some (w.reached.getD w.shared) } := by
  unfold takeTurn
  rw [h]

/-- An access for which a turn is given finds what the agents shared then. -/
theorem takeTurn_cons {w : Walk} {t : Turn} {ts : List Turn} (h : w.turns = t :: ts) :
    takeTurn w = .ok t.pick
      { w with
        mem := t.shared.mem, ioatc := t.shared.ioatc, draws := t.shared.draws, turns := ts, lost := w.lost ++ t.lost } := by
  unfold takeTurn
  rw [h]

protected theorem KeepsCanonical.takeTurn : KeepsCanonical takeTurn := by
  intro w hw
  cases h : w.turns with
  | nil =>
    rw [takeTurn_nil h]
    refine ⟨hw.1, hw.2.1, fun x hx => ?_⟩
    cases hr : w.reached with
    | none =>
      rw [hr] at hx
      obtain rfl : w.shared = x := Option.some.inj hx
      exact hw.1
    | some y =>
      rw [hr] at hx
      obtain rfl : y = x := Option.some.inj hx
      exact hw.2.2 y hr
  | cons t ts =>
    rw [takeTurn_cons h]
    have ht := hw.2.1
    rw [h] at ht
    exact ⟨ht t (List.mem_cons_self ..), fun u hu => ht u (List.mem_cons_of_mem _ hu), hw.2.2⟩

protected theorem KeepsCanonical.readPieces (b n : Nat) (addrs : List Nat) (found : Memory) :
    KeepsCanonical (readPieces b n addrs found) := by
  induction n generalizing addrs found with
  | zero => exact .pure _
  | succ n ih => exact .bind .takeTurn fun _ => .bind .get fun _ => ih _ _

/-- Reads in one go leave the walk state as it is, but for what they reached. -/
theorem readPieces_alone (b n : Nat) (addrs : List Nat) (found : Memory) {w : Walk} (h : w.turns = []) :
    ∃ m x, readPieces b n addrs found w = .ok m { w with reached := x } := by
  induction n generalizing addrs found w with
  | zero => exact ⟨found, w.reached, rfl⟩
  | succ n ih =>
    obtain ⟨m, x, e⟩ := ih (removeAt addrs (0 % addrs.length))
      (found.writeBytes ((elementAt addrs (0 % addrs.length)).getD 0)
        (w.mem.readBytes ((elementAt addrs (0 % addrs.length)).getD 0) b))
      (w := { w with reached := some (w.reached.getD w.shared) }) h
    refine ⟨m, x, ?_⟩
    show EStateM.bind takeTurn _ w = _
    unfold EStateM.bind
    rw [takeTurn_nil h]
    exact e

/-- What a process has of memory, turns and what it reached it keeps while it counts. -/
theorem Walk.Canonical.congr {w v : Walk} (h : w.Canonical) (hm : v.mem = w.mem) (ht : v.turns = w.turns)
    (hr : v.reached = w.reached) : v.Canonical := by
  unfold Walk.Canonical
  rw [hm, ht, hr]
  exact h

theorem Walk.Canonical.countRead_canonical {w : Walk} (h : w.Canonical) (k : Structure) : (w.countRead k).Canonical :=
  h.congr (by cases k <;> rfl) (by cases k <;> rfl) (by cases k <;> rfl)

theorem Walk.Canonical.countWalk_canonical {w : Walk} (h : w.Canonical) (k : Structure) : (w.countWalk k).Canonical :=
  h.congr (by cases k <;> rfl) (by cases k <;> rfl) (by cases k <;> rfl)

protected theorem KeepsCanonical.counted {α : Type} (k : Structure) {p : Proc α} (hp : KeepsCanonical p) :
    KeepsCanonical (counted k p) := by
  intro w hw
  have h := hp w hw
  unfold Machine.counted
  cases hr : p w <;> rw [hr] at h <;> simp only [walkAfter] at h ⊢ <;> split <;>
    first | exact h.countWalk_canonical k | exact h

protected theorem KeepsCanonical.countRead (k : Structure) : KeepsCanonical (modify fun w => w.countRead k : Proc PUnit) :=
  KeepsCanonical.modify fun _ h => h.countRead_canonical k

protected theorem KeepsCanonical.raiseOne (causes : List Nat) : KeepsCanonical (raiseOne causes) := by
  unfold Machine.raiseOne
  split
  · exact .pure _
  · exact .bind (.choose _) fun _ => .raise _ _

protected theorem KeepsCanonical.readStructure (s : State) (k : Structure) (addr n a p : Nat)
    (early : Memory → List Nat) : KeepsCanonical (readStructure s k addr n a p early) := by
  unfold Machine.readStructure
  refine .bind (.countRead k) fun _ => ?_
  split
  · exact .readPieces _ _ _ _
  · exact .bind .takeTurn fun _ => .bind .get fun _ => .bind (.raiseOne _) fun _ => .pure _

protected theorem KeepsCanonical.implicitRead (s : State) (k : Structure) (addr n : Nat) (be : Bool) (a p : Nat) :
    KeepsCanonical (implicitRead s k addr n be a p) := .bind (.readStructure _ _ _ _ _ _ _) fun _ => .pure _

/-! ## PTEs visited -/

protected theorem KeepsCanonical.visitLeaf (c : Context) (g : Stage) (global : Bool) (pte : DWord) (i k : Nat)
    (fresh : Bool) {update : Bool → Proc Update} (hu : ∀ b, KeepsCanonical (update b)) :
    KeepsCanonical (visitLeaf c g global pte i k fresh update) := by
  unfold Machine.visitLeaf
  dsimp only
  repeat' split
  all_goals
    first
    | exact .throw _
    | exact .pure _
    | exact .bind (hu _) fun u => by split <;> exact .pure _

protected theorem KeepsCanonical.readPte (s : State) (c : Context) (g : Stage) (a : Nat) :
    KeepsCanonical (readPte s c g a) := .bind (.implicitRead _ _ _ _ _ _ _) fun _ => .pure _

protected theorem KeepsCanonical.visitPte (s : State) (c : Context) (g : Stage) (global : Bool) (i : Nat) (pte : DWord)
    {update : Bool → Proc Update} (hu : ∀ b, KeepsCanonical (update b)) :
    KeepsCanonical (visitPte s c g global i pte update) := by
  unfold Machine.visitPte
  split
  · exact .throw _
  · split
    · exact .visitLeaf _ _ _ _ _ _ _ hu
    · exact .pure _

protected theorem KeepsCanonical.updatePte (s : State) (c : Context) (g : Stage) (a : Nat) (pte : DWord) (setD : Bool) :
    KeepsCanonical (updatePte s c g a pte setD) := by
  unfold Machine.updatePte
  split
  · exact .raise _ _
  · exact .raise _ _
  · refine .bind .takeTurn fun _ => .bind .get fun w => ?_
    split
    · exact .bind (.modify fun _ h => h.withMem (Memory.wf_writeBytes _ _ h.1)) fun _ => .pure _
    · exact .pure _

protected theorem KeepsCanonical.visitAt (s : State) (c : Context) (g : Stage) (global : Bool) (i a fuel : Nat) :
    KeepsCanonical (visitAt s c g global i a fuel) := by
  induction fuel with
  | zero => exact .throw _
  | succ fuel ih =>
    refine .bind (.readPte _ _ _ _) fun pte => .visitPte _ _ _ _ _ _ fun setD => .bind (.updatePte _ _ _ _ _ _) fun u => ?_
    split
    · exact .pure _
    · exact .bind ih fun _ => .pure _

protected theorem KeepsCanonical.visit (s : State) (c : Context) (g : Stage) (global : Bool) (i a : Nat) :
    KeepsCanonical (visit s c g global i a) := .bind .get fun _ => .visitAt _ _ _ _ _ _ _

/-! ## The second stage -/

protected theorem KeepsCanonical.secondLevels (s : State) (c : Context) (m : Scheme) (gpa : Nat) (purpose : Purpose) (i a : Nat) :
    KeepsCanonical (secondLevels s c m gpa purpose i a) := by
  induction i generalizing a with
  | zero => exact .raise _ _
  | succ i ih =>
    unfold Machine.secondLevels
    refine .bind .get fun w => .bind (.choose _) fun k => ?_
    split
    · exact ih _
    · refine .bind (.visit _ _ _ _ _ _) fun v => ?_
      split
      · exact .bind (.note _ _) fun _ => .pure _
      · exact .bind (.note _ _) fun _ => ih _

protected theorem KeepsCanonical.secondStage (s : State) (c : Context) (gpa : Nat) (purpose : Purpose) :
    KeepsCanonical (secondStage s c gpa purpose) := by
  unfold Machine.secondStage guestPageFault
  split
  · exact .pure _
  · refine .lookup (.counted _ ?_)
    split
    · exact .raise _ _
    · refine .bind .get fun w => .bind (.choose _) fun k => ?_
      split
      · refine .bind (.visitLeaf _ _ _ _ _ _ _ fun _ => .raise _ _) fun x => ?_
        split
        · exact .pure _
        · exact .raise _ _
      · exact .secondLevels _ _ _ _ _ _ _

protected theorem KeepsCanonical.noteContext (s : State) (c : Context) (e : DirectoryEntry) (table : Option Nat) :
    KeepsCanonical (noteContext s c e table) := by
  unfold Machine.noteContext
  refine .bind (.note _ _) fun _ => ?_
  split
  · refine .bind (.choose _) fun k => ?_
    split
    · exact .pure _
    · exact .handling (.bind (.secondStage _ _ _ _) fun _ => .note _ _) fun _ => .pure _
  · exact .pure _

protected theorem KeepsCanonical.resolvePointer (s : State) (c : Context) (e : DirectoryEntry) (q : Option Nat)
    (table offset whole : Nat) : KeepsCanonical (resolvePointer s c e q table offset whole) := by
  unfold Machine.resolvePointer
  refine .bind (.choose _) fun k => ?_
  split
  · exact .pure _
  · split
    · exact .pure _
    · refine .bind (.secondStage _ _ _ _) fun leaf => ?_
      dsimp only
      split
      · exact .bind (.note _ _) fun _ => .pure _
      · exact .pure _

/-! ## The first stage -/

protected theorem KeepsCanonical.permitUpdate (s : State) (c : Context) (gpa spa : Nat) (setA : Bool) :
    KeepsCanonical (permitUpdate s c gpa spa setA) := by
  unfold Machine.permitUpdate
  split
  · exact .pure _
  · refine .handling (.bind (.secondStage _ _ _ _) fun _ => .pure _) fun e => ?_
    split
    · refine .bind (.choose _) fun k => ?_
      split
      · exact .throw _
      · exact .pure _
    · exact .throw _

protected theorem KeepsCanonical.visitFirst (s : State) (c : Context) (g : Stage) (global : Bool)
    (i gpa spa : Nat) : KeepsCanonical (visitFirst s c g global i gpa spa) := by
  unfold Machine.visitFirst
  refine .bind (.readPte _ _ _ _) fun pte => .visitPte _ _ _ _ _ _ fun setD => .bind (.permitUpdate _ _ _ _ _) fun a => ?_
  split
  · exact .pure _
  · refine .bind (.updatePte _ _ _ _ _ _) fun u => ?_
    split
    · exact .pure _
    · exact .bind (.visit _ _ _ _ _ _) fun _ => .pure _

protected theorem KeepsCanonical.firstLevels (s : State) (c : Context) (f : FirstStage) (m : Scheme) (va i a : Nat)
    (global : Bool) : KeepsCanonical (firstLevels s c f m va i a global) := by
  induction i generalizing a global with
  | zero => exact .raise _ _
  | succ i ih =>
    unfold Machine.firstLevels
    refine .bind .get fun w => .bind (.choose _) fun k => ?_
    split
    · exact ih _ _
    · dsimp only
      split
      all_goals
        first
        | refine .bind (.resolvePointer _ _ _ _ _ _ _) fun spa => .bind (.visitFirst _ _ _ _ _ _ _) fun v => ?_
        | refine .bind (.bind (.secondStage _ _ _ _) fun _ => .pure _) fun spa =>
            .bind (.visitFirst _ _ _ _ _ _ _) fun v => ?_
        split
        · exact .bind (.note _ _) fun _ => .pure _
        · exact .bind (.note _ _) fun _ => ih _ _

protected theorem KeepsCanonical.firstStage (s : State) (c : Context) (f : FirstStage) (va : Nat) :
    KeepsCanonical (firstStage s c f va) := by
  unfold Machine.firstStage pageFault
  split
  · exact .pure _
  · refine .lookup (.counted _ ?_)
    split
    · exact .raise _ _
    · refine .bind .get fun w => .bind (.choose _) fun k => ?_
      split
      · refine .bind (.visitLeaf _ _ _ _ _ _ _ fun _ => .raise _ _) fun x => ?_
        split
        · exact .pure _
        · exact .raise _ _
      · exact .firstLevels _ _ _ _ _ _ _ _

/-! ## The directories and MSI -/

protected theorem KeepsCanonical.readDc (s : State) (did : BitVec 24) (skip : Bool) (allowed : DeviceContext → Bool)
    (a : Nat) : KeepsCanonical (readDc s did skip allowed a) := by
  unfold Machine.readDc
  refine .bind (.readStructure _ _ _ _ _ _ _) fun m => ?_
  dsimp only
  split
  · exact .raise _ _
  · split
    · exact .raise _ _
    · split
      · exact .bind (.noteContext _ _ _ _) fun _ => .pure _
      · exact .pure _

protected theorem KeepsCanonical.ddtLevels (s : State) (did : BitVec 24) (skip : Bool) (allowed : DeviceContext → Bool)
    (i a : Nat) : KeepsCanonical (ddtLevels s did skip allowed i a) := by
  induction i generalizing a with
  | zero => exact .readDc _ _ _ _ _
  | succ i ih =>
    unfold Machine.ddtLevels
    refine .bind .get fun w => .bind (.choose _) fun k => ?_
    split
    · exact ih _
    · refine .bind (.implicitRead _ _ _ _ _ _ _) fun v => ?_
      dsimp only
      repeat' split
      all_goals
        first
        | exact .raise _ _
        | exact .bind (.note _ _) fun _ => ih _

protected theorem KeepsCanonical.locateDc (s : State) (p : DdtPointer) (did : BitVec 24) (skip : Bool)
    (allowed : DeviceContext → Bool) : KeepsCanonical (locateDc s p did skip allowed) := by
  unfold Machine.locateDc
  refine .bind .get fun w => .bind (.choose _) fun k => ?_
  dsimp only
  split
  · exact .bind (.pure _) fun d => .bind (.modify fun w h => h) fun _ => .pure _
  · refine .bind (.lookup (.counted _ ?_)) fun d => .bind (.pure _) fun d => .bind (.modify fun w h => h) fun _ => .pure _
    split
    · exact .raise _ _
    · exact .ddtLevels _ _ _ _ _ _

protected theorem KeepsCanonical.readPc (s : State) (c : Context) (pid : BitVec 20) (a : Nat) :
    KeepsCanonical (readPc s c pid a) := by
  unfold Machine.readPc
  refine .bind (.readStructure _ _ _ _ _ _ _) fun m => ?_
  dsimp only
  split
  · exact .raise _ _
  · split
    · exact .raise _ _
    · split
      · exact .bind (.noteContext _ _ _ _) fun _ => .pure _
      · exact .pure _

protected theorem KeepsCanonical.pdtLevels (s : State) (c : Context) (pid : BitVec 20) (i a : Nat)
    (o : DirectoryEntry) (q : Option Nat) : KeepsCanonical (pdtLevels s c pid i a o q) := by
  induction i generalizing a o q with
  | zero => exact .bind (.resolvePointer _ _ _ _ _ _ _) fun _ => .readPc _ _ _ _
  | succ i ih =>
    unfold Machine.pdtLevels
    refine .bind (.resolvePointer _ _ _ _ _ _ _) fun spa => .bind .get fun w => .bind (.choose _) fun k => ?_
    split
    · exact ih _ _ _
    · refine .bind (.implicitRead _ _ _ _ _ _ _) fun v => ?_
      dsimp only
      repeat' split
      all_goals
        first
        | exact .raise _ _
        | exact .bind (.note _ _) fun _ => ih _ _ _

protected theorem KeepsCanonical.locatePc (s : State) (c : Context) (q : Option Nat) (pid : BitVec 20) :
    KeepsCanonical (locatePc s c q pid) := by
  unfold Machine.locatePc
  refine .bind .get fun w => .bind (.choose _) fun k => ?_
  split
  · exact .pure _
  · exact .bind (.lookup (.counted _ (.pdtLevels _ _ _ _ _ _ _))) fun _ => .pure _

protected theorem KeepsCanonical.interpretMsi (s : State) (a : Nat) (debug : Bool) (d0 d1 : DWord) :
    KeepsCanonical (interpretMsi s a debug d0 d1) := by
  unfold Machine.interpretMsi
  repeat' split
  all_goals
    first
    | exact .raise _ _
    | exact .pure _

protected theorem KeepsCanonical.useMsiPte (s : State) (a : Nat) (exec debug : Bool) (d0 d1 : DWord) :
    KeepsCanonical (useMsiPte s a exec debug d0 d1) := by
  refine .bind (.interpretMsi _ _ _ _ _) fun r => ?_
  split
  · exact .raise _ _
  · exact .pure _

protected theorem KeepsCanonical.readMsiPte (s : State) (c : Context) (page a : Nat) (exec debug : Bool) :
    KeepsCanonical (readMsiPte s c page a exec debug) :=
  .bind (.readStructure _ _ _ _ _ _ _) fun _ => .bind (.useMsiPte _ _ _ _ _ _) fun _ => .bind (.note _ _) fun _ => .pure _

protected theorem KeepsCanonical.msiTranslate (s : State) (c : Context) (a : Nat) (exec debug : Bool) :
    KeepsCanonical (msiTranslate s c a exec debug) := by
  unfold Machine.msiTranslate
  refine .bind .get fun w => .bind (.choose _) fun k => ?_
  split
  · exact .useMsiPte _ _ _ _ _ _
  · exact .lookup (.readMsiPte _ _ _ _ _ _)

protected theorem KeepsCanonical.storePieces (s : State) (b cause n a : Nat) (bytes : List Byte) :
    KeepsCanonical (storePieces s b cause n a bytes) := by
  induction n generalizing a bytes with
  | zero => exact .pure _
  | succ n ih =>
    unfold Machine.storePieces
    split
    · exact .raise _ _
    · exact .bind .takeTurn fun _ => .bind (.modify fun _ h => h.withMem (Memory.wf_writeBytes _ _ h.1)) fun _ => ih _ _

protected theorem KeepsCanonical.readMrif (s : State) (p : Nat) : KeepsCanonical (readMrif s p) :=
  .bind (.raiseOne _) fun _ => .bind (.readPieces _ _ _ _) fun _ => .pure _

protected theorem KeepsCanonical.setPendingBit (s : State) (p b : Nat) : KeepsCanonical (setPendingBit s p b) := by
  unfold Machine.setPendingBit
  split
  · split
    · exact .bind .takeTurn fun _ => .modify fun _ h => h.withMem (Memory.wf_write64 _ _ _ h.1)
    · exact .raise _ _
    · exact .raise _ _
  · exact .bind (.readMrif _ _) fun _ => .storePieces _ _ _ _ _ _

protected theorem KeepsCanonical.mrifStore (s : State) (t : MrifTarget) (data : BitVec 32) :
    KeepsCanonical (mrifStore s t data) := by
  unfold Machine.mrifStore
  dsimp only
  split
  · exact .pure _
  · refine .bind (.setPendingBit _ _ _) fun _ => .bind (.readMrif _ _) fun e => ?_
    split
    · exact .bind (.raiseOne _) fun _ => .bind .takeTurn fun _ =>
        .modify fun _ h => h.withMem (Memory.wf_write32 _ _ _ h.1)
    · exact .pure _

/-! ## The whole process -/

protected theorem KeepsCanonical.firstConfig (s : State) (c : Context) (q : Option Nat) (f : FirstChoice) :
    KeepsCanonical (firstConfig s c q f) := by
  unfold Machine.firstConfig
  split
  · exact .pure _
  · exact .pure _
  · refine .bind (.locatePc _ _ _ _) fun p => ?_
    dsimp only
    split
    · exact .raise _ _
    · exact .pure _

protected theorem KeepsCanonical.noteCombined (s : State) (c : Context) (pscid : BitVec 20) (l1 l2 : Leaf) :
    KeepsCanonical (noteCombined s c pscid l1 l2) := by
  unfold Machine.noteCombined
  split
  · exact .lookup (.note _ _)
  · exact .pure _

protected theorem KeepsCanonical.twoStages (s : State) (c : Context) (f : Option FirstStage) (r : Request) (debug : Bool) :
    KeepsCanonical (twoStages s c f r debug) := by
  unfold Machine.twoStages
  refine .bind ?_ fun l1 => ?_
  · unfold Machine.firstOf
    split
    · exact .pure _
    · exact .bind (.modify fun w h => by split <;> exact h) fun _ => .firstStage _ _ _ _
  · split
    · unfold Machine.msiStage
      refine .bind (.modify fun w h => h) fun _ => .bind (.msiTranslate _ _ _ _ _) fun x => ?_
      dsimp only
      split <;> exact .pure _
    · exact .bind (.secondStage _ _ _ _) fun l2 => .bind (.noteCombined _ _ _ _ _) fun _ => .pure _

protected theorem KeepsCanonical.cachedIfGranted (r : Request) {p : Proc Translated} (hp : KeepsCanonical p) :
    KeepsCanonical (cachedIfGranted r p) := by
  intro w hw
  have h := hp w hw
  unfold Machine.cachedIfGranted
  cases hr : p w <;> rw [hr] at h <;> simp only [walkAfter] at h ⊢ <;> split <;> exact h

/-- The whole translation process keeps the memory canonical (22_page_tables R320: its only writes are A/D updates). -/
protected theorem KeepsCanonical.translate (s : State) (ps : List DdtPointer) (r : Request) (debug skip : Bool) :
    KeepsCanonical (Machine.translate s ps r debug skip) := by
  refine .cachedIfGranted _ ?_
  unfold Machine.translateSteps Machine.choosePointer
  refine .bind (.bind (.choose _) fun _ => .pure _) fun p => ?_
  dsimp only
  split
  · exact .raise _ _
  · split
    · exact .pure _
    · exact .raise _ _
  · split
    · exact .raise _ _
    · refine .bind (.locateDc _ _ _ _ _) fun d => ?_
      split
      · exact .raise _ _
      · split
        · exact .pure _
        · exact .bind (.firstConfig _ _ _ _) fun x => .twoStages _ _ _ _ _

/-- What the engine does for a request of a device keeps the memory canonical. -/
protected theorem KeepsCanonical.serveProcess (s : State) (ps : List DdtPointer) (r : Request) :
    KeepsCanonical (Machine.serveProcess s ps r) := by
  refine .bind (.translate _ _ _ _ _) fun t => ?_
  split
  · split
    · exact .pure _
    · exact .bind (.mrifStore _ _ _) fun _ => .pure _
  · exact .pure _

/-- What the IOMMU reads for a message keeps the memory canonical. -/
protected theorem KeepsCanonical.messageDc (s : State) (ps : List DdtPointer) (did : BitVec 24)
    (allowed : DeviceContext → Bool) : KeepsCanonical (Machine.messageDc s ps did allowed) := by
  unfold Machine.messageDc Machine.choosePointer
  refine .bind (.bind (.choose _) fun _ => .pure _) fun p => ?_
  split
  · exact .raise _ _
  · exact .raise _ _
  · split
    · exact .raise _ _
    · exact .bind (.locateDc _ _ _ _ _) fun d => .pure _

end Sys2Proof.Machine
end

