-- ==== Sys2Proof/Laws/Activation.lean ====
section
/-! SUPPORT. What the next piece of an activation under way can do, and what its end can change. -/

namespace Sys2Proof.Machine

/-- Where an activation stands at an access, it is under way; else it has ended. -/
theorem State.proceed_cases (s : State) (a : Activation) (w : Walk) (ended : Host.Outcome State Fault Refusal) :
    (∃ x, w.reached = some x ∧
      s.proceed a w ended = .next { s.share x with activations := s.activations ++ [a] }) ∨
    (w.reached = none ∧ s.proceed a w ended = ended) := by
  unfold State.proceed
  cases w.reached with
  | none => exact .inr ⟨rfl, rfl⟩
  | some x => exact .inl ⟨x, rfl, rfl⟩

/-- The walk state an activation is run from is canonical if what it has found is. -/
theorem Activation.startWalk_canonical {a : Activation} (h : a.MemoryCanonical) : a.startWalk.Canonical :=
  Walk.start_canonical h.1 h.2

/-- What a run of an activation gives, if it gives a next state: the activation stands at its next access, or it ended as its
task says, with what its process `y` left. -/
theorem State.run_cases {s t : State} {a : Activation} (h : s.run a = .next t) :
    (∃ x : Shared, (a.MemoryCanonical → x.mem.wf = true) ∧
      t = { s.share x with activations := s.activations ++ [a] }) ∨
    (∃ r y, a.task = .request r ∧ (a.MemoryCanonical → (walkAfter y).Canonical) ∧ s.answerRequest r y = .next t) ∨
    (∃ r b y, a.task = .debug r b ∧ (a.MemoryCanonical → (walkAfter y).Canonical) ∧ t = s.answerDebug r y) ∨
    (∃ m y, a.task = .page m ∧ (a.MemoryCanonical → (walkAfter y).Canonical) ∧
      t = s.answerPage State.acceptPage m y) ∨
    (∃ m y, a.task = .other m ∧ (a.MemoryCanonical → (walkAfter y).Canonical) ∧ t = s.answerOther m y) ∨
    (∃ did y, a.task = .completion did ∧ (a.MemoryCanonical → (walkAfter y).Canonical) ∧
      t = s.answerCompletion did y) := by
  have key {α : Type} {p : Proc α} (hp : KeepsCanonical p) (ended : Host.Outcome State Fault Refusal)
      (e : s.proceed a (walkAfter (p a.startWalk)) ended = .next t) :
      (∃ x : Shared, (a.MemoryCanonical → x.mem.wf = true) ∧
        t = { s.share x with activations := s.activations ++ [a] }) ∨
      ((a.MemoryCanonical → (walkAfter (p a.startWalk)).Canonical) ∧ ended = .next t) := by
    have hc : a.MemoryCanonical → (walkAfter (p a.startWalk)).Canonical := fun ha =>
      hp _ (Activation.startWalk_canonical ha)
    obtain ⟨x, hx, e'⟩ | ⟨_, e'⟩ := s.proceed_cases a (walkAfter (p a.startWalk)) ended
    · rw [e'] at e
      exact .inl ⟨x, fun ha => (hc ha).2.2 x hx, by injection e with e; exact e.symm⟩
    · exact .inr ⟨hc, e' ▸ e⟩
  have next {u : State} (e : Host.Outcome.next u = (.next t : Host.Outcome State Fault Refusal)) : t = u := by
    injection e with e
    exact e.symm
  unfold State.run at h
  cases ht : a.task with
  | request r =>
    rw [ht] at h
    obtain hx | ⟨hc, e⟩ := key (.serveProcess _ _ _) _ h
    · exact .inl hx
    · exact .inr (.inl ⟨r, _, rfl, hc, e⟩)
  | debug r b =>
    rw [ht] at h
    obtain hx | ⟨hc, e⟩ := key (.translate _ _ _ _ _) _ h
    · exact .inl hx
    · exact .inr (.inr (.inl ⟨r, b, _, rfl, hc, next e⟩))
  | page m =>
    rw [ht] at h
    obtain hx | ⟨hc, e⟩ := key (.messageDc _ _ _ _) _ h
    · exact .inl hx
    · exact .inr (.inr (.inr (.inl ⟨m, _, rfl, hc, next e⟩)))
  | other m =>
    rw [ht] at h
    obtain hx | ⟨hc, e⟩ := key (.messageDc _ _ _ _) _ h
    · exact .inl hx
    · exact .inr (.inr (.inr (.inr (.inl ⟨m, _, rfl, hc, next e⟩))))
  | completion did =>
    rw [ht] at h
    obtain hx | ⟨hc, e⟩ := key (.messageDc _ _ _ _) _ h
    · exact .inl hx
    · exact .inr (.inr (.inr (.inr (.inr ⟨did, _, rfl, hc, next e⟩))))

/-- What the next access of activation `k` gives, if it gives a next state. -/
theorem State.advance_cases {s t : State} {k pick : Nat} (h : s.advance k pick = .next t) :
    (elementAt s.activations k = none ∧ t = s) ∨
    (∃ a, elementAt s.activations k = some a ∧ s.failed = true ∧ t = (s.dropActivation k).endFailed a.task) ∨
    (∃ a, elementAt s.activations k = some a ∧ s.failed = false ∧
      (s.dropActivation k).run (a.turn s pick) = .next t) := by
  unfold State.advance at h
  cases ha : elementAt s.activations k with
  | none => rw [ha] at h; injection h with h; exact .inl ⟨rfl, h.symm⟩
  | some a =>
    rw [ha] at h
    cases hf : s.failed with
    | true => simp only [hf, ↓reduceIte] at h; injection h with h; exact .inr (.inl ⟨a, rfl, rfl, h.symm⟩)
    | false => simp only [hf, Bool.false_eq_true, ↓reduceIte] at h; exact .inr (.inr ⟨a, rfl, rfl, h⟩)

/-- An activation that makes an access has found the memory of the machine there. -/
theorem Activation.turn_canonical {a : Activation} {s : State} (ha : a.MemoryCanonical) (hs : s.mem.wf = true)
    (pick : Nat) : (a.turn s pick).MemoryCanonical := by
  refine ⟨ha.1, fun t ht => ?_⟩
  rcases List.mem_append.mp ht with ht | ht
  · exact ha.2 t ht
  · obtain rfl := List.mem_singleton.mp ht
    exact hs

/-- An invalidation tells the activations nothing but that. -/
theorem State.invalidate_unaware (s : State) (i : Invalidation) :
    (s.invalidate i).activations.map (fun a => { a with lost := [] }) =
      s.activations.map (fun a => { a with lost := [] }) := by
  rw [State.invalidate_activations, List.map_map]
  rfl

/-! ## The end of an activation -/

/-- `t` is `s` but for what the end of an activation that left `w` may change: what the agents share, the counters with the
pending bits and MSIs of an overflow, completions and released accesses, pending fault records, decided page-request records
and messages, and for a debug request its registers and what is left of a split write to them. -/
def OnlyAnswer (s t : State) (w : Walk) : Prop :=
  t = { s with
    mem := w.mem, ioatc := w.ioatc, draws := t.draws, iohpmctr := t.iohpmctr, iohpmevt := t.iohpmevt, ipsr := t.ipsr
    msiOwed := t.msiOwed, completions := t.completions, accesses := t.accesses, faults := t.faults
    pageRecords := t.pageRecords, messages := t.messages, trResponse := t.trResponse, trReqCtl := t.trReqCtl
    halves := t.halves }

/-- What counting leaves of an absorbed walk is an answer. -/
theorem OnlyAnswer.of_counters {s t : State} {w : Walk} (h : OnlyCounters (s.absorb w) t) : OnlyAnswer s t w := by
  unfold OnlyCounters at h
  unfold OnlyAnswer
  rw [h]
  rfl

/-- Further changes of what an answer may change are an answer. -/
theorem OnlyAnswer.trans {s t u : State} {w : Walk} (h : OnlyAnswer s t w)
    (k : u = { t with
      draws := u.draws, completions := u.completions, accesses := u.accesses, faults := u.faults
      pageRecords := u.pageRecords, messages := u.messages, trResponse := u.trResponse, trReqCtl := u.trReqCtl
      halves := u.halves }) : OnlyAnswer s u w := by
  unfold OnlyAnswer at *
  rw [k, h]

theorem State.reportFault_frame (s : State) (cause : Nat) (dtf : Bool) (r : FaultRecord) :
    ∃ fs, s.reportFault cause dtf r = { s with faults := fs } := by
  obtain ⟨h, _⟩ | ⟨h, _⟩ := s.reportFault_cases cause dtf r <;> exact ⟨_, h⟩

/-- A fault reported, or a message answered, beside an answer. -/
theorem OnlyAnswer.report {s t : State} {w : Walk} (h : OnlyAnswer s t w) (cause : Nat) (dtf : Bool) (r : FaultRecord) :
    OnlyAnswer s (t.reportFault cause dtf r) w := by
  obtain ⟨fs, e⟩ := t.reportFault_frame cause dtf r
  exact h.trans (by rw [e])

theorem OnlyAnswer.respond {s t : State} {w : Walk} (h : OnlyAnswer s t w) (m : PageRequest) (st : PageStatus) (b : Bool) :
    OnlyAnswer s (t.respond m st b) w := by
  obtain ⟨ms, e⟩ := t.respond_frame m st b
  exact h.trans (by rw [e])

theorem OnlyAnswer.fail {s t : State} {w : Walk} (h : OnlyAnswer s t w) (r : Request) (dtf known : Bool) (e : FaultInfo) :
    OnlyAnswer s (t.failRequest r dtf known e) w := by
  unfold State.failRequest
  dsimp only
  split
  · split
    · exact h.trans rfl
    · exact OnlyAnswer.report (h.trans rfl) _ _ _
    · exact OnlyAnswer.report (h.trans rfl) _ _ _
  · exact OnlyAnswer.report (h.trans rfl) _ _ _

theorem OnlyAnswer.finish {s t : State} {w : Walk} (h : OnlyAnswer s t w) (r : Request) (x : Translated) :
    OnlyAnswer s (t.finishRequest r x) w := by
  unfold State.finishRequest
  split
  · exact h.trans rfl
  · split <;> exact h.trans rfl

/-- The end of a device's request. -/
theorem State.answerRequest_frame {s t : State} {r : Request} {y : EStateM.Result FaultInfo Walk Served}
    (h : s.answerRequest r y = .next t) : OnlyAnswer s t (walkAfter y) := by
  have counted (w : Walk) : OnlyAnswer s (s.absorbRequest w r) w :=
    .of_counters (onlyCounters_countActivation _ _ _ _ _)
  cases y with
  | error e w =>
    injection h with h
    exact h ▸ (counted w).fail _ _ _ _
  | ok v w =>
    cases v with
    | translated x =>
      injection h with h
      exact h ▸ (counted w).finish _ _
    | stored => injection h with h; exact h ▸ (counted w).trans rfl
    | unstorable => cases h

/-- The end of a debug request. -/
theorem State.answerDebug_frame (s : State) (r : Request) (y : EStateM.Result FaultInfo Walk Translated) :
    OnlyAnswer s (s.answerDebug r y) (walkAfter y) := by
  have counted (w : Walk) : OnlyAnswer s ((s.absorb w).countDebug r w) w := by
    unfold State.countDebug
    split
    · exact .of_counters (onlyCounters_countActivation _ _ _ _ _)
    · exact .of_counters (.refl _)
  cases y with
  | error e w => exact OnlyAnswer.trans ((counted w).report _ _ _) rfl
  | ok t w => exact (counted w).trans rfl

theorem State.absorbMessage_frame (s : State) (w : Walk) (did : BitVec 24) (pid : Option (BitVec 20)) :
    OnlyAnswer s (s.absorbMessage w did pid) w :=
  .of_counters ((onlyCounters_countEvent _ _ _ _).trans (onlyCounters_countEvent _ _ _ _))

/-- The end of the handling of a message the IOMMU does not support. -/
theorem State.answerOther_frame (s : State) (m : OtherMessage) (y : EStateM.Result FaultInfo Walk DeviceContext) :
    OnlyAnswer s (s.answerOther m y) (walkAfter y) := by
  cases y <;> exact (s.absorbMessage_frame _ _ _).report _ _ _

/-- The end of the report on the sender of an Invalidation Completion. -/
theorem State.answerCompletion_frame (s : State) (did : BitVec 24) (y : EStateM.Result FaultInfo Walk DeviceContext) :
    OnlyAnswer s (s.answerCompletion did y) (walkAfter y) := by
  cases y with
  | error e w => exact s.absorbMessage_frame w _ _
  | ok d w =>
    unfold State.answerCompletion
    dsimp only
    split
    · exact s.absorbMessage_frame w _ _
    · exact (s.absorbMessage_frame w _ _).report _ _ _

/-- The end of the handling of a page-request message, its record being left unwritten. -/
theorem State.answerPage_frame (s : State) (m : PageRequest) (y : EStateM.Result FaultInfo Walk DeviceContext) :
    OnlyAnswer s (s.answerPage State.acceptPage m y) (walkAfter y) := by
  cases y with
  | error e w => exact ((s.absorbMessage_frame w _ _).report _ _ _).respond _ _ _
  | ok d w =>
    have h := s.absorbMessage_frame w m.deviceId m.pasid
    unfold State.answerPage
    dsimp only
    split
    · unfold State.acceptPage
      split
      · exact h.respond _ _ _
      · exact h.trans rfl
    · exact (h.report _ _ _).respond _ _ _

end Sys2Proof.Machine
end

