-- ==== Sys2Proof/Laws/PerInstr.lean ====
section
/-! SUPPORT. Statements about every command, one lemma per constructor. -/

namespace Sys2Proof.Laws.EncodeOpcode

/-- The value of `cmd[9:0]` of each row of the opcode table (30_encoding R353). -/
def opcodeBits : Instr → BitVec 10
  | .iotinvalVma _ _ _ _ _ _ => 0x001#10
  | .iotinvalGvma _ _ _ _ _ _ => 0x081#10
  | .iofenceC _ _ _ _ _ _ => 0x002#10
  | .iodirInvalDdt _ _ _ => 0x003#10
  | .iodirInvalPdt _ _ _ => 0x083#10
  | .atsInval _ _ _ _ _ _ => 0x004#10
  | .atsPrgr _ _ _ _ _ _ => 0x084#10

/-- The encoder writes the row's opcode and function. -/
def Statement (i : Instr) : Prop := (encode i).1.extractLsb' 0 10 = opcodeBits i

theorem iotinvalVma (av : Bool) (pscid : BitVec 20) (pscv gv : Bool) (gscid : BitVec 16) (addr : BitVec 52) :
    Statement (.iotinvalVma av pscid pscv gv gscid addr) := by
  apply BitVec.eq_of_getLsbD_eq
  intro k hk
  interval_cases k <;> simp [encode, encodeIotinval0, opcodeBits, place, flag]

theorem iotinvalGvma (av : Bool) (pscid : BitVec 20) (pscv gv : Bool) (gscid : BitVec 16) (addr : BitVec 52) :
    Statement (.iotinvalGvma av pscid pscv gv gscid addr) := by
  apply BitVec.eq_of_getLsbD_eq
  intro k hk
  interval_cases k <;> simp [encode, encodeIotinval0, opcodeBits, place, flag]

theorem iofenceC (av wsi pr pw : Bool) (data : BitVec 32) (addr : BitVec 62) :
    Statement (.iofenceC av wsi pr pw data addr) := by
  apply BitVec.eq_of_getLsbD_eq
  intro k hk
  interval_cases k <;> simp [encode, encodeIofence0, opcodeBits, place, flag]

theorem iodirInvalDdt (pid : BitVec 20) (dv : Bool) (did : BitVec 24) : Statement (.iodirInvalDdt pid dv did) := by
  apply BitVec.eq_of_getLsbD_eq
  intro k hk
  interval_cases k <;> simp [encode, encodeIodir0, opcodeBits, place, flag]

theorem iodirInvalPdt (pid : BitVec 20) (dv : Bool) (did : BitVec 24) : Statement (.iodirInvalPdt pid dv did) := by
  apply BitVec.eq_of_getLsbD_eq
  intro k hk
  interval_cases k <;> simp [encode, encodeIodir0, opcodeBits, place, flag]

theorem atsInval (pid : BitVec 20) (pv dsv : Bool) (rid : BitVec 16) (dseg : BitVec 8) (payload : BitVec 64) :
    Statement (.atsInval pid pv dsv rid dseg payload) := by
  apply BitVec.eq_of_getLsbD_eq
  intro k hk
  interval_cases k <;> simp [encode, encodeAts0, opcodeBits, place, flag]

theorem atsPrgr (pid : BitVec 20) (pv dsv : Bool) (rid : BitVec 16) (dseg : BitVec 8) (payload : BitVec 64) :
    Statement (.atsPrgr pid pv dsv rid dseg payload) := by
  apply BitVec.eq_of_getLsbD_eq
  intro k hk
  interval_cases k <;> simp [encode, encodeAts0, opcodeBits, place, flag]

end Sys2Proof.Laws.EncodeOpcode
end

