-- ==== Sys2Proof/Tests/Slice0.lean ====
section
/-! SUPPORT. Small tests of one step each, with expected values from 95_test_vectors or from the rules named, and for every statement with hypotheses a witness that meets them. -/

namespace Sys2Proof.Tests

open Sys2Proof.Machine

/-! ## Helpers -/

/-- The outcome is a next state with a property. -/
def nextWith (o : Host.Outcome State Fault Refusal) (p : State → Bool) : Bool :=
  match o with
  | .next t => p t
  | .fault _ => false
  | .refused _ => false

/-- The outcome is this refusal. -/
def refusedWith (o : Host.Outcome State Fault Refusal) (r : Refusal) : Bool :=
  match o with
  | .refused q => q == r
  | .next _ => false
  | .fault _ => false

/-- The decoder gives this command. -/
def decodes (dw0 dw1 : DWord) (i : Instr) : Bool :=
  match decode dw0 dw1 with
  | .ok j => j == i
  | .error _ => false

/-- The decoder refuses for this reason. -/
def refuses (dw0 dw1 : DWord) (e : DecodeError) : Bool :=
  match decode dw0 dw1 with
  | .ok _ => false
  | .error d => d == e

/-- After reset, with one command in the queue. -/
def loaded (w : Nat) : State := State.reset.withFetchWord 128 w

/-- After reset, on a platform with one more rule. -/
def ruled (r : PmaRule) : State := { State.reset with cfg := { Config.platform with pma := [r] } }

/-- After reset, with the command queue's status. -/
def withCq (c : Cqcsr) : State := { State.reset with cqcsr := c }

/-- A status with the queue on and enabled. -/
def cqOnStatus : Cqcsr := ⟨true, true, false, false, false, false, true, false⟩

/-- A request of device 5. -/
def req (iova : DWord) (type : RequestType) (kind : AccessKind) : Request :=
  ⟨5#24, none, iova, type, kind, false, false, false, 4, 0#32, 9⟩

/-- A request received under no older value of `ddtp`. -/
def recv (r : Request) : Received Request := ⟨r, none⟩

/-- A status of the fault queue that is on and enabled, with interrupts. -/
def fqOn (s : State) : State := { s with fqcsr := ⟨true, true, false, false, true, false⟩, fqb := ⟨1#5, 0x80040#44⟩ }

/-- A status of the page-request queue that is on and enabled, with interrupts. -/
def pqOn (s : State) : State := { s with pqcsr := ⟨true, true, false, false, true, false⟩, pqb := ⟨1#5, 0x80050#44⟩ }

/-! ## WellFormed refuses (30_encoding R376 items 4 to 6) -/

theorem test_wellFormed_gvma_pscv : (Instr.iotinvalGvma true 0#20 true false 0#16 0#52).wellFormed = false := by decide
theorem test_wellFormed_pdt_dv : (Instr.iodirInvalPdt 0#20 false 0#24).wellFormed = false := by decide
theorem test_wellFormed_ddt_pid : (Instr.iodirInvalDdt 1#20 true 0#24).wellFormed = false := by decide

/-! ## Words written out from the encodings (95_test_vectors T1) -/

-- T1 1.2
theorem test_decode_iotinvalVma : decodes 0x0000000112345401#64 0x0000001000080400#64
    (.iotinvalVma true 0x12345#20 true false 0#16 0x4000201#52) = true := by decide
-- T1 1.4, every operand bit set
theorem test_decode_iotinvalVma_full : decodes 0x0FFFF003FFFFF401#64 0x3FFFFFFFFFFFFC00#64
    (.iotinvalVma true 0xFFFFF#20 true true 0xFFFF#16 0xFFFFFFFFFFFFF#52) = true := by decide
-- T1 1.9
theorem test_decode_iotinvalGvma : decodes 0x0000700200000481#64 0x000000003FB75400#64
    (.iotinvalGvma true 0#20 false true 7#16 0xFEDD5#52) = true := by decide
-- T1 1.12
theorem test_decode_iofenceC : decodes 0xCAFEF00D00003402#64 0x0000000020000400#64
    (.iofenceC true false true true 0xCAFEF00D#32 0x20000400#62) = true := by decide
-- T1 1.13
theorem test_decode_iofenceC_wsi : decodes 0x0000000000000802#64 0#64
    (.iofenceC false true false false 0#32 0#62) = true := by decide
-- T1 1.17
theorem test_decode_iodirInvalDdt : decodes 0x0001230200000003#64 0#64
    (.iodirInvalDdt 0#20 true 0x000123#24) = true := by decide
-- T1 1.19
theorem test_decode_iodirInvalPdt : decodes 0x0001230200042083#64 0#64
    (.iodirInvalPdt 0x00042#20 true 0x000123#24) = true := by decide
-- T1 1.22
theorem test_decode_atsInval : decodes 0x0202080300009004#64 0x7FFFFFFFFFFFF800#64
    (.atsInval 9#20 true true 0x0208#16 2#8 0x7FFFFFFFFFFFF800#64) = true := by decide
-- T1 1.23
theorem test_decode_atsPrgr : decodes 0x0001000100007084#64 0x0100000500000000#64
    (.atsPrgr 7#20 true false 0x0100#16 0#8 0x0100000500000000#64) = true := by decide

-- the byte image of T1 1.2 in both byte orders
theorem test_encodeBytes_little : encodeBytes false (.iotinvalVma true 0x12345#20 true false 0#16 0x4000201#52) =
    [0x01#8, 0x54#8, 0x34#8, 0x12#8, 0x01#8, 0#8, 0#8, 0#8, 0#8, 0x04#8, 0x08#8, 0#8, 0x10#8, 0#8, 0#8, 0#8] := by
  decide
theorem test_encodeBytes_big : encodeBytes true (.iotinvalVma true 0x12345#20 true false 0#16 0x4000201#52) =
    [0#8, 0#8, 0#8, 0x01#8, 0x12#8, 0x34#8, 0x54#8, 0x01#8, 0#8, 0#8, 0#8, 0x10#8, 0#8, 0x08#8, 0x04#8, 0#8] := by
  decide
theorem test_decodeTableWord : decodeTableWord 128 0x1080 = none ∧
    decodeTableWord 128 0x0001230200042083 = some (.iodirInvalPdt 0x00042#20 true 0x000123#24) := by decide

/-! ## Illegal words (95_test_vectors T2) -/

theorem test_illegal_opcode0 : refuses 0#64 0#64 .reservedOpcode = true := by decide
theorem test_illegal_opcode64 : refuses 0x40#64 0#64 .customOpcode = true := by decide
theorem test_illegal_func3 : refuses 0x82#64 0#64 .reservedFunction = true := by decide
theorem test_illegal_bit11 : refuses 0x801#64 0#64 .reservedBit = true := by decide
theorem test_illegal_pscv : refuses 0x100000081#64 0#64 .pscvSet = true := by decide
theorem test_illegal_dv : refuses 0x0001230000042083#64 0#64 .dvClear = true := by decide
theorem test_illegal_pid : refuses 0x0001230200001003#64 0#64 .pidSet = true := by decide
theorem test_illegal_dw1 : refuses 3#64 1#64 .reservedBit = true := by decide

/-! ## One step of each command -/

/-- The cached entries E1 to E8 of 95_test_vectors T5. -/
def cached : List CacheEntry :=
  [.first none 0x10#20 false ⟨0#64, 1, 0x40200000, 21, true⟩, .first none 0x10#20 true ⟨0#64, 0, 0x40403000, 12, true⟩,
   .first none 0x11#20 false ⟨0#64, 0, 0x40403000, 12, true⟩, .first none 0x10#20 false ⟨0#64, 1, 0x40200000, 21, false⟩,
   .first (some 7#16) 0x10#20 false ⟨0#64, 0, 0x40403000, 12, true⟩, .second 7#16 ⟨0#64, 0, 0xFEDD5000, 12, true⟩,
   .second 8#16 ⟨0#64, 0, 0xFEDD5000, 12, true⟩, .msi 7#16 none 0xFEDD5 0#64 0#64]

-- T5 5.2: E1 and E4 go
theorem test_exec_iotinvalVma : nextWith (exec (.iotinvalVma false 0x10#20 true false 0#16 0#52)
    { State.reset with ioatc := cached }) (fun t => t.ioatc == (cached.drop 1).take 2 ++ cached.drop 4) = true := by
  decide
-- T5 5.5: E2 and E3 go
theorem test_exec_iotinvalVma_addr : nextWith (exec (.iotinvalVma true 0#20 false false 0#16 0x40403#52)
    { State.reset with ioatc := cached }) (fun t => t.ioatc == cached.take 1 ++ cached.drop 3 && t.cqh == 1#32) = true := by
  decide
-- T5 5.10: E6 and E8 go
theorem test_exec_iotinvalGvma : nextWith (exec (.iotinvalGvma true 0#20 false true 7#16 0xFEDD5#52)
    { State.reset with ioatc := cached }) (fun t => t.ioatc == cached.take 5 ++ (cached.drop 6).take 1) = true := by
  decide
-- T7 7.2: the bytes in big-endian order
theorem test_exec_iofenceC_big : nextWith (exec (.iofenceC true false true true 0xCAFEF00D#32 0x20000400#62)
    { State.reset with fctl := ⟨true, false, false⟩ })
    (fun t => t.mem == [(0x80001000, 0xCA#8), (0x80001001, 0xFE#8), (0x80001002, 0xF0#8), (0x80001003, 0x0D#8)]) = true := by
  decide
-- T7 7.3: fence_w_ip, cip, and the head moves
theorem test_exec_iofenceC_wsi : nextWith (exec (.iofenceC false true false false 0#32 0#62)
    { withCq cqOnStatus with fctl := ⟨false, true, false⟩ })
    (fun t => t.cqcsr.fenceWIp && t.ipsr.cip && t.cqh == 1#32) = true := by decide

/-- The directory entries of 95_test_vectors T6, with a cached pointer. -/
def directory : List CacheEntry :=
  [.dc 5#24 ⟨0#64, 0#64, 0#64, 0#64, 0#64, 0#64, 0#64, 0#64⟩ (some 7),
   .dc 6#24 ⟨0#64, 0#64, 0#64, 0#64, 0#64, 0#64, 0#64, 0#64⟩ none, .pc 5#24 0x42#20 ⟨0#64, 0#64⟩ (some 8),
   .pc 5#24 0x43#20 ⟨0#64, 0#64⟩ none, .pc 6#24 0x42#20 ⟨0#64, 0#64⟩ none, .ddte 5#24 1 1#64,
   .pdte 5#24 0x42#20 1 1#64 none]

-- T6 6.2
theorem test_exec_iodirInvalDdt : nextWith (exec (.iodirInvalDdt 0#20 true 5#24) { State.reset with ioatc := directory })
    (fun t => t.ioatc == (directory.drop 1).take 1 ++ (directory.drop 4).take 2) = true := by decide
-- T6 6.3, and the PDT entry read for the process (20_memory R212)
theorem test_exec_iodirInvalPdt : nextWith (exec (.iodirInvalPdt 0x42#20 true 5#24) { State.reset with ioatc := directory })
    (fun t => t.ioatc == directory.take 2 ++ (directory.drop 3).take 3) = true := by decide
-- T8 8.2
theorem test_exec_atsInval : nextWith (exec (.atsInval 9#20 true true 0x0208#16 2#8 0x7FFFFFFFFFFFF800#64) State.reset)
    (fun t => t.messages == [.invalidationRequest 0x0208#16 (some 2#8) (some 9#20) 0x7FFFFFFFFFFFF800#64] &&
      t.inflight.length == 1) = true := by decide
-- T8 8.6
theorem test_exec_atsPrgr : nextWith (exec (.atsPrgr 7#20 true false 0x0100#16 0#8 0x0100000500000000#64) State.reset)
    (fun t => t.messages == [.groupResponse 0x0100#16 none (some 7#20) 0x0100000500000000#64] &&
      t.inflight.length == 0) = true := by decide

/-! ## Steps of the machine -/

-- T7 7.1 through the fetch
theorem test_step_fence : nextWith (step (loaded 0x20000400CAFEF00D00003402))
    (fun t => t.cqh == 1#32 && t.cqcsr == (loaded 0).cqcsr) = true := by decide
-- T2 2.1: an all-zero entry
theorem test_step_illegal : nextWith (step (loaded 0)) (fun t => t.cqh == 0#32 && t.cqcsr.cmdIll) = true := by decide
-- T9 9.5
theorem test_cqcsr_write_one_clears :
    nextWith ({ withCq ⟨true, true, true, true, true, true, true, false⟩ with fctl := ⟨false, true, false⟩ }.hostWrite 72 4
      0xA03#64) (fun t => t.readRegister 72 4 == 0x10503#64) = true := by decide
-- T9 9.7
theorem test_ipsr_set_again :
    nextWith ({ withCq ⟨true, true, false, false, true, false, true, false⟩ with ipsr := ⟨true, false, false, false⟩ }.hostWrite
      84 4 1#64) (fun t => t.ipsr.cip && t.msiOwed == 1#16) = true := by decide
-- T9 9.14
theorem test_icvec_width : nextWith (State.reset.hostWrite 760 8 0xFFFF#64)
    (fun t => t.readRegister 760 8 == 0x1111#64) = true := by decide
-- T12 12.1
theorem test_off_record : nextWith (perform (.translate 0) { fqOn State.reset with
    requests := [recv { req 0x1000#64 .untranslated .read with deviceId := 0x123#24 }] })
    (fun t => t.faults.map FaultRecord.dwords == [[0x0001230800000100#64, 0#64, 0x1000#64, 0#64]] &&
      t.completions == [.aborted 9]) = true := by decide +kernel
-- S1, T14 14.3, 14.5: the bit extraction
theorem test_extract : extract 0xB5 0xA6 = 0xE ∧ extract 0xFEDD5 0x303 = 0x5 ∧ extract 0xABCDE 0xF0F0F = 0xACE := by
  decide
-- T16 16.1
theorem test_page_record : (PageRequest.mk 0x100#24 (some 7#20) false false 0x4040302F#64).dwords =
    [0x0001000100007000#64, 0x4040302F#64] := by decide
-- T17, first lines
theorem test_dmask : didMatch { HpmEvent.zero with dmask := true, didGscid := 0x012343#24 } 0x012347 = true ∧
    didMatch { HpmEvent.zero with dmask := true, didGscid := 0x012343#24 } 0x012348 = false := by decide
-- T18 18.1: the two ends of the range of sizes
theorem test_encodeRange : encodeRange 0x800234000 12 = (false, 0x800234#44) ∧
    encodeRange 0x800234000 21 = (true, 0x8002FF#44) := by decide
-- T14 14.1, 14.2
theorem test_isMsiAddr :
    isMsiAddr ⟨1#64, 0#64, 0#64, 0#64, 0x1000000000080100#64, 0x3F#64, 0xFEDC0#64, 0#64⟩ 0xFEDD5008 = true ∧
    isMsiAddr ⟨1#64, 0#64, 0#64, 0#64, 0x1000000000080100#64, 0x3F#64, 0xFEDC0#64, 0#64⟩ 0xFEE15008 = false := by decide

/-- The memory of 95_test_vectors T11 and T13. -/
def tables : Memory :=
  [(0x80030140, 1#64), (0x80030150, 0x10000#64), (0x80030158, 0x8000000000080020#64), (0x80020008, 0x20008401#64),
   (0x80021008, 0x2000800D7#64), (0x80021010, 0x20008801#64), (0x80022018, 0x2048D1453#64)].foldl
    (fun m p => Memory.write64 m p.1 p.2 false) []

/-- Mode `1LVL` over those tables, with one request. -/
def walking (r : Request) : State :=
  { fqOn State.reset with mem := tables, ddtp := ⟨.lvl1, 0x80030#44⟩, requests := [recv r] }

-- T13 13.1
theorem test_walk_superpage : nextWith (perform (.translate 0) (walking (req 0x40234567#64 .untranslated .read)))
    (fun t => t.completions == [.success 9 0x800234567#64 none]) = true := by decide +kernel
-- T13 13.4
theorem test_walk_write_fault : nextWith (perform (.translate 0) (walking (req 0x40403ABC#64 .untranslated .write)))
    (fun t => t.faults.map FaultRecord.dwords == [[0x0000050C0000000F#64, 0#64, 0x40403ABC#64, 0#64]]) = true := by decide +kernel

/-- Those tables with the leaf of T13 13.10 (`A`=0) and a device context with `SADE`=1, on a platform with `AMO_HWAD`. -/
def updating (r : Request) : State :=
  let s := walking r
  { s with cfg := { Config.platform with caps := 0x000001F8E3420210#64 }
           mem := (s.mem.write64 0x80030140 0x101#64 false).write64 0x80021008 0x200080017#64 false }

-- 22_page_tables R320: a read sets `A` only
theorem test_walk_sets_a : nextWith (perform (.translate 0) (updating (req 0x40234567#64 .untranslated .read)))
    (fun t => t.completions == [.success 9 0x800234567#64 none] && t.mem.read64 0x80021008 false == 0x200080057#64) =
    true := by decide +kernel
-- 22_page_tables R320: a write sets both
theorem test_walk_sets_ad : nextWith (perform (.translate 0) (updating (req 0x40234567#64 .untranslated .write)))
    (fun t => t.mem.read64 0x80021008 false == 0x2000800D7#64) = true := by decide +kernel

/-- A hart's read in two accesses: the high half of `capabilities` returned, the low half to come. -/
def halfRead : State := { State.reset with halves := [.read 0 false 0x1F8#32] }

-- 20_memory R182: the two halves give the register's value, once
theorem test_split_read : nextWith (perform (.finishHalf 0) halfRead)
    (fun t => t.hostReads == [⟨0, 8, 0x000001F8E2420210#64⟩] && t.halves.isEmpty) = true := by decide
-- 10_state R43, R105: a change from a directory mode to Off, high half first
theorem test_split_ddtp_off :
    nextWith ({ State.reset with ddtp := ⟨.lvl1, 0x80030#44⟩ }.hostWrite 20 4 0#64)
      (fun t => nextWith (t.hostWrite 16 4 0#64) (fun u => u.ddtp == ⟨.off, 0#44⟩)) = true := by decide
/-- A debug request in progress, and the high half of a split write to come; `started` says that its low half set
`Go/Busy`. -/
def debugHalf (offset : Nat) (started : Bool) : State :=
  { State.reset with
    trReqCtl := { State.reset.trReqCtl with goBusy := true }, halves := [.write offset true 0x500#32 started] }

-- 48_debug_interface R633: a high half that modifies a register during a debug request, unless it is part of the write
-- that started it
theorem test_split_debug_refused :
    refusedWith (perform (.finishHalf 0) (debugHalf 608 false)) (.debugInProgress 608) = true ∧
    refusedWith (perform (.finishHalf 0) (debugHalf 16 false)) (.debugInProgress 20) = true ∧
    nextWith (perform (.finishHalf 0) (debugHalf 608 true)) (fun t => t.trReqCtl.did == 5#24 && t.trReqCtl.goBusy) =
      true := by decide
-- 48_debug_interface R633: the request that the low half started has ended, so its high half no longer belongs to one
theorem test_split_debug_ended :
    ((debugHalf 608 true).publish State.reset.trResponse).halves = [.write 608 true 0x500#32 false] := by decide
-- 48_debug_interface R633: in the failed state too the debug request ends with nothing on the agenda
theorem test_failed_debug_ends : ({ debugHalf 608 true with failed := true, halves := [] } : State).scheduled =
    some .debug := by decide
-- 10_state R45: a write whose mode is not accepted sets `busy`; 95_test_vectors T9.11: it keeps the register
theorem test_ddtp_illegal_mode_busy :
    nextWith ({ State.reset with cfg := { Config.platform with busySync := false } }.hostWrite 16 8 0x2000C005#64)
      (fun t => t.ddtpBusy && t.ddtp == State.reset.ddtp) = true ∧
    nextWith (State.reset.hostWrite 16 8 0x2000C005#64) (fun t => !t.ddtpBusy && t.ddtp == State.reset.ddtp) = true := by
  decide

-- 10_state R48, 70_reset R741: a directory mode not in MODES is refused in a directory mode; 95_test_vectors T9.13: mode 15
-- is not
theorem test_ddtp_probe_directory_mode :
    let s : State := { State.reset with cfg := { Config.platform with lvl2 := false }, ddtp := ⟨.lvl1, 0x80030#44⟩ }
    refusedWith (s.hostWrite 16 8 0x2000C003#64) .illegalModeTransition = true ∧
    nextWith (s.hostWrite 16 8 0x2000C00F#64) (fun t => t.readRegister 16 8 == 0x2000C002#64) = true := by decide
-- 47_ats_pri R585: an ATS answer with R=W=0 after a guest page fault leaves the DC cached and no PTE
theorem test_denied_ats_caches_nothing :
    let entries : List CacheEntry := [.dc 5#24 ⟨0#64, 0#64, 0#64, 0#64, 0#64, 0#64, 0#64, 0#64⟩ none,
      .first (some 7#16) 0x10#20 false ⟨0#64, 0, 0x40403000, 12, true⟩]
    let p : Proc Translated := fun w => .error ⟨21, 0#64⟩ { w with ioatc := w.ioatc ++ entries, added := entries }
    let left := fun (type : RequestType) =>
      match cachedIfGranted (req 0#64 type .read) p State.reset.startWalk with
      | .ok _ _ => []
      | .error _ w => w.ioatc
    left .atsRequest = entries.take 1 ∧ left .untranslated = entries := by decide

/-- A context of a device with this GSCID and a second stage that is Bare or Sv39x4. -/
def msiContext (did : BitVec 24) (iohgatp : DWord) : Context :=
  ⟨⟨1#64, iohgatp, 0#64, 0#64, 0#64, 0#64, 0#64, 0#64⟩, did, .read, .exercise .read, false, false, false⟩

-- 46_msi_translation R556, 21_data_structures R248: under a Bare second stage the device is the tag, not the GSCID
theorem test_msi_tag :
    let bare := msiContext 5#24 0x0000700000000000#64
    let staged := msiContext 5#24 0x8000700000000000#64
    (bare.msiDevice, staged.msiDevice) = (some 5#24, none) ∧
    msiCopies bare 9 [.msi 7#16 (some 6#24) 9 1#64 0#64, .msi 7#16 none 9 2#64 0#64, .msi 8#16 (some 5#24) 9 3#64 0#64] =
      [(3#64, 0#64)] ∧
    msiCopies staged 9 [.msi 7#16 (some 5#24) 9 1#64 0#64, .msi 7#16 none 9 2#64 0#64, .msi 8#16 none 9 3#64 0#64] =
      [(2#64, 0#64)] := by decide

/-- A platform that refuses accesses of four bytes to this doubleword. -/
def narrow (a : Nat) (atomic : AtomicSize) : Config :=
  { Config.platform with pma := [⟨a + 4, 4, some 4, none, .accessFault⟩], atomicSize := atomic }

-- 20_memory R195: with 32-bit atomic accesses an 8-byte entry is two accesses, each with a verdict of its own
theorem test_atomic_size : accessCauses (narrow 64 .bits32) 64 8 .read 257 268 = [257] ∧
    accessCauses (narrow 64 .bits64) 64 8 .read 257 268 = [] ∧
    storeDword (narrow 64 .bits32) false [] 64 0x0807060504030201#64 =
      ([(64, 1#8), (65, 2#8), (66, 3#8), (67, 4#8)], false) := by decide
-- 20_memory R213: the DC of a lookup that succeeded is cached though the walk after it faults, whose copies are not
theorem test_dc_cached_before_fault : nextWith (perform (.translate 0) (walking (req 0x40403ABC#64 .untranslated .write)))
    (fun t => t.ioatc.map (fun e => match e with | .dc d _ _ => some d | _ => none) == [some 5#24]) = true := by
  decide +kernel
-- 10_state R47: what is in flight keeps the directory
theorem test_off_keeps_directory :
    nextWith ((walking (req 0x40234567#64 .untranslated .read)).hostWrite 16 8 0#64)
      (fun t => t.ddtp == ⟨.off, 0#44⟩ && t.requests.map (·.under) == [some ⟨.lvl1, 0x80030#44⟩]) = true := by decide
-- 10_state R87: a record decided before `pqen` is cleared is written
theorem test_pq_off_writes_decided :
    nextWith ({ pqOn State.reset with
      pageRecords := [⟨⟨0x100#24, some 7#20, false, false, 0x4040302F#64⟩, false⟩] }.hostWrite 80 4 0#64)
      (fun t => t.pqt == 1#32 && t.mem.read64 0x80050000 false == 0x0001000100007000#64 && !t.pqcsr.pqon) = true := by
  decide +kernel

/-- The device context of device 5 of 95_test_vectors T14, with the MRIF-mode MSI PTE of page 0xFEDC0, whose file stands at
0x80200000, and the pending bits `pending` there. -/
def mrifMemory (pending : DWord) : Memory :=
  [(0x80030140, 1#64), (0x80030160, 0x1000000000080100#64), (0x80030168, 0x3F#64), (0x80030170, 0xFEDC0#64),
   (0x80100000, 0x20080003#64), (0x80200000, pending)].foldl (fun m p => Memory.write64 m p.1 p.2 false) []

/-- A platform that stores to MRIFs, with 512-bit atomic accesses and no IOATC; `caps` are its capabilities. -/
def mrifConfig (caps : DWord) : Config :=
  { Config.platform with caps := caps, mrifInIommu := true, atomicSize := .bits512, ioatc := false }

/-- The write of interrupt identity 3 under way, its device context, MSI PTE and old pending bits read when no bit was set;
another agent has since set bit 5. `amo` is the bit of `AMO_MRIF`. -/
def interleaved (amo : DWord) : State :=
  let r : Request := { req 0xFEDC0000#64 .untranslated .write with data := 3#32 }
  let p : DdtPointer := ⟨.lvl1, 0x80030#44⟩
  let found : Shared := ⟨mrifMemory 0#64, [], 0⟩
  { State.reset with
    cfg := mrifConfig (0x000001F8E2C20210#64 ||| amo), mem := mrifMemory 0x20#64, ddtp := p
    activations := [⟨.request r, [p], State.reset.fctl, found, (if amo == 0#64 then [0, 1, 2] else [0, 1]).map fun k =>
      ⟨found, [], k⟩, []⟩] }

-- 20_memory R200, 46_msi_translation R567: the bit set between the read and the write of the pending bits is lost
theorem test_mrif_update_loses_bit : nextWith (perform (.advance 0 0) (interleaved 0#64))
    (fun t => t.mem.read64 0x80200000 false == 0x8#64 && t.activations.length == 1 && t.completions.isEmpty) = true := by
  decide +kernel
-- and with `AMO_MRIF` it is not
theorem test_mrif_atomic_update : nextWith (perform (.advance 0 0) (interleaved 0x200000#64))
    (fun t => t.mem.read64 0x80200000 false == 0x28#64 && t.activations.length == 1) = true := by decide +kernel
-- 10_state R112: a walk begun stands at its first access, with nothing read or answered
theorem test_begin_translate :
    nextWith (perform (.beginTranslate 0) (walking (req 0x40234567#64 .untranslated .read)))
      (fun t => t.activations.map (fun a => a.turns.length) == [0] && t.requests.isEmpty && t.completions.isEmpty) =
      true := by decide +kernel
-- 45_translation_process R537: the request fails by the context that a hart stored after the walk had begun
theorem test_walk_sees_later_store :
    let s : State := { interleaved 0#64 with mem := [] }
    nextWith (perform (.advance 0 0) { s with activations := s.activations.map fun a => { a with turns := [] } })
      (fun t => t.activations.isEmpty && t.completions == [.aborted 9]) = true := by decide +kernel
-- 22_page_tables R320: the leaf changed after it was read (another agent set `A`), so it is not written and the walk stands at
-- its second read of it; else it is written
theorem test_update_restarts :
    let s := updating (req 0x40234567#64 .untranslated .write)
    let underway := fun (now : DWord) => { s with
      cfg := { s.cfg with ioatc := false }, mem := s.mem.write64 0x80021008 now false, requests := []
      activations := [⟨.request (req 0x40234567#64 .untranslated .write), [s.ddtp], s.fctl, s.shared,
        (List.range 10).map fun k => ⟨s.shared, [], k⟩, []⟩] }
    nextWith (perform (.advance 0 0) (underway 0x200080057#64)) (fun t => t.activations.length == 1 &&
      t.mem.read64 0x80021008 false == 0x200080057#64 && t.completions.isEmpty) = true ∧
    nextWith (perform (.advance 0 0) (underway 0x200080017#64)) (fun t => t.activations.isEmpty &&
      t.mem.read64 0x80021008 false == 0x2000800D7#64 && t.completions == [.success 9 0x800234567#64 none]) = true := by
  decide +kernel
-- 20_memory R211, 46_msi_translation R562: the MSI PTE of a read-for-execute, which faults, is not cached; that of a write is
theorem test_msi_execute_not_cached :
    let s := fun (k : AccessKind) => { interleaved 0#64 with
      cfg := { mrifConfig 0x000001F8E2C20210#64 with ioatc := true, mrifInIommu := false }
      activations := [], requests := [recv { req 0xFEDC0000#64 .untranslated k with data := 3#32 }] }
    let cachedMsi := fun (t : State) => t.ioatc.any (fun e => match e with | .msi _ _ _ _ _ => true | _ => false)
    nextWith (perform (.translate 0) (s .exec)) (fun t => t.ioatc.length == 1 && !cachedMsi t) = true ∧
    nextWith (perform (.translate 0) (s .write)) (fun t => t.ioatc.length == 2 && cachedMsi t) = true := by decide +kernel
-- 20_memory R213: a device context that disallows the request (`EN_ATS`=0) is not cached
theorem test_disallowing_dc_not_cached : nextWith (perform (.translate 0) (walking (req 0#64 .translated .read)))
    (fun t => t.ioatc.isEmpty && t.completions == [.aborted 9]) = true := by decide +kernel
-- 20_memory R214: a copy that an invalidation covers is not cached again by an activation it overtook
theorem test_overtaken_caches_nothing :
    let e : CacheEntry := .second 7#16 ⟨0#64, 0, 0, 12, true⟩
    (({ State.reset.startWalk with lost := [.gvma false false 0#16 0#52] }).cache e).ioatc = [] ∧
    (({ State.reset.startWalk with lost := [.ddt false 0#24] }).cache e).ioatc = [e] := by decide
-- 42_cmd_iofence R442: the fence waits for the activation that the invalidation overtook
theorem test_fence_waits_for_overtaken :
    nextWith (exec (.iotinvalGvma false 0#20 false false 0#16 0#52) (interleaved 0#64)) (fun t =>
      nextWith (exec (.iofenceC false false false false 0#32 0#62) t) (fun u => u.fence.isSome && u.cqh == t.cqh)) =
      true := by decide

/-! ## Witnesses: for each statement with hypotheses, a state and operands that meet them -/

/-- The outcome is a next state. -/
def isNext (o : Host.Outcome State Fault Refusal) : Bool := nextWith o (fun _ => true)

theorem witness_DecodeOfEncodeIsIdentity :
    (Instr.iotinvalGvma true 0xFFFFF#20 false true 0xFFFF#16 0xFFFFFFFFFFFFF#52).wellFormed = true := by decide

theorem witness_EncodeOfDecodeIsIdentity : decode 0x0202080300009004#64 0x7FFFFFFFFFFFF800#64 =
    .ok (.atsInval 9#20 true true 0x0208#16 2#8 0x7FFFFFFFFFFFF800#64) := by rfl

-- the three ends of the range: 0, 5 and 127
theorem witness_OtherOpcodesNeverDecode : ((0#64).extractLsb' 0 7).toNat = 0 ∧ 5 ≤ ((5#64).extractLsb' 0 7).toNat ∧
    5 ≤ ((0x7F#64).extractLsb' 0 7).toNat := by decide

theorem witness_StepRunsDecodedCommand : (loaded 1).cqReady = true ∧ (loaded 1).fetchAllowed = true ∧
    decodeBytes (loaded 1).fctl.be ((loaded 1).mem.readBytes (loaded 1).commandAddr 16) =
      .ok (.iotinvalVma false 0#20 false false 0#16 0#52) ∧ (loaded 1).agenda = [] ∧
    { loaded 1 with agenda := [.cqFetch] }.agenda = .cqFetch :: [] ∧
    { loaded 1 with agenda := [.cqFetch] }.cqReady = true := by
  refine ⟨by decide, by decide, rfl, rfl, rfl, by decide⟩

/-- The loaded state on a platform that refuses a fetch made of accesses of this size. -/
def refusing (size : Nat) (atomic : AtomicSize) : State :=
  { loaded 1 with cfg := { Config.platform with pma := [⟨0, 16, some size, none, .accessFault⟩], atomicSize := atomic } }

-- the sixteen bytes refused as one access; each access of four bytes refused
theorem witness_FetchFaultStalls : (refusing 16 .bits64).agenda = [] ∧ (refusing 16 .bits64).cqReady = true ∧
    check (refusing 16 .bits64).cfg (refusing 16 .bits64).commandAddr 16 .read ≠ .ok ∧
    (refusing 4 .bits32).agenda = [] ∧ (refusing 4 .bits32).cqReady = true ∧
    permitted (refusing 4 .bits32).cfg (refusing 4 .bits32).commandAddr 16 .read = false := by decide

-- an undecodable entry, and one that decodes but is not supported
theorem witness_IllegalCommandStops : (loaded 0).agenda = [] ∧ (loaded 0).cqReady = true ∧
    (loaded 0).fetchAllowed = true ∧
    (∀ i, decodeBytes (loaded 0).fctl.be ((loaded 0).mem.readBytes (loaded 0).commandAddr 16) = .ok i →
      (loaded 0).supports i = false) ∧ (loaded 0x802).cqReady = true ∧
    (∀ i, decodeBytes (loaded 0x802).fctl.be ((loaded 0x802).mem.readBytes (loaded 0x802).commandAddr 16) = .ok i →
      (loaded 0x802).supports i = false) := by
  have h0 : decodeBytes (loaded 0).fctl.be ((loaded 0).mem.readBytes (loaded 0).commandAddr 16) =
      .error .reservedOpcode := rfl
  have h1 : decodeBytes (loaded 0x802).fctl.be ((loaded 0x802).mem.readBytes (loaded 0x802).commandAddr 16) =
      .ok (.iofenceC false true false false 0#32 0#62) := rfl
  refine ⟨rfl, by decide, by decide, ?_, by decide, ?_⟩
  · intro i h
    rw [h0] at h
    cases h
  · intro i h
    rw [h1] at h
    cases h
    decide

theorem witness_ErrorBitStopsFetch : (withCq { cqOnStatus with cqmf := true }).cqcsr.cqmf = true ∧
    (withCq { cqOnStatus with cmdTo := true }).cqcsr.cmdTo = true ∧
    (withCq { cqOnStatus with cmdIll := true }).cqcsr.cmdIll = true := by decide

/-- A queue stopped on an illegal command. -/
def stoppedCq : State := { withCq { cqOnStatus with cmdIll := true } with cqt := 1#32 }

theorem witness_ClearingErrorsRestarts : stoppedCq.cqcsr.busy = false ∧ stoppedCq.cqcsr.cqen = true ∧
    stoppedCq.cqcsr.cqon = true ∧ stoppedCq.failed = false ∧ stoppedCq.fence = none ∧ stoppedCq.cqh ≠ stoppedCq.cqt ∧
    (0x703#64).getLsbD 0 = true ∧ (0x703#64).getLsbD 8 = true ∧ (0x703#64).getLsbD 9 = true ∧
    (0x703#64).getLsbD 10 = true := by decide

theorem witness_AtsInvalResult : State.reset.cfg.ats = true := by decide
theorem witness_AtsPrgrResult : State.reset.cfg.ats = true := by decide

/-- An `ATS.INVAL` in flight. -/
def waitingAts : State := { State.reset with inflight := [⟨.atsInval 0#20 false false 0x100#16 0#8 0x1000#64, .waiting⟩] }

theorem witness_AtsTimeoutOnlyMarks : elementAt waitingAts.inflight 0 =
    some ⟨.atsInval 0#20 false false 0x100#16 0#8 0x1000#64, .waiting⟩ := by decide

theorem witness_AtsCompletionCompletes : waitingAts.failed = false ∧ elementAt waitingAts.inflight 0 =
    some ⟨.atsInval 0#20 false false 0x100#16 0#8 0x1000#64, .waiting⟩ := by decide

/-- After reset, with wired interrupts. -/
def wired : State := { State.reset with fctl := ⟨false, true, false⟩ }

-- both a store at the top of the address space and a wired interrupt
theorem witness_IofenceResult : wired.inflight = [] ∧ wired.settled = true ∧ wired.timedOut = false ∧
    (true = true → wired.cfg.igs ≠ 0#2 ∧ wired.fctl.wsi = true) ∧
    (true = true → check wired.cfg (fenceAddr 0x3FFFFFFFFFFFFF#62) 4 .write = .ok) := by decide

-- a command in flight; an activation that an invalidation overtook, before its next access or before one it has made
theorem witness_IofenceWaits :
    let busy : State := { waitingAts with fctl := ⟨false, true, false⟩ }
    let lost : Activation := ⟨.completion 5#24, [], ⟨false, true, false⟩, wired.shared, [], [.ddt false 0#24]⟩
    let turned : Activation := lost.turn wired 0
    busy.inflight ≠ [] ∧ ({ wired with activations := [lost] } : State).settled = false ∧
    ({ wired with activations := [turned] } : State).settled = false ∧
    (true = true → wired.cfg.igs ≠ 0#2 ∧ wired.fctl.wsi = true) := by decide

theorem witness_IofenceReportsTimeout : ({ wired with timedOut := true } : State).inflight = [] ∧
    ({ wired with timedOut := true } : State).settled = true ∧
    ({ wired with timedOut := true } : State).timedOut = true ∧
    (true = true → wired.cfg.igs ≠ 0#2 ∧ ({ wired with timedOut := true } : State).fctl.wsi = true) := by decide

-- the first word beyond the 56-bit space
theorem witness_IofenceStoreFault : wired.inflight = [] ∧ wired.settled = true ∧ wired.timedOut = false ∧
    (true = true → wired.cfg.igs ≠ 0#2 ∧ wired.fctl.wsi = true) ∧
    check wired.cfg (fenceAddr 0x40000000000000#62) 4 .write ≠ .ok := by decide

-- the state-dependent disjuncts: no wired interrupts, and no ATS
theorem witness_IllegalOperandsTakeError : State.reset.fctl.wsi = false ∧ (1#20 : BitVec 20) ≠ 0#20 ∧
    ({ State.reset with cfg := { Config.platform with caps := 0x210#64 } } : State).cfg.ats = false ∧
    ({ State.reset with cfg := { Config.platform with caps := 0x210#64 } } : State).cfg.igs = 0#2 := by decide

theorem witness_DirectoryCoverage :
    isNext (exec (.iodirInvalDdt 0#20 false 0#24) State.reset) = true ∧
    isNext (exec (.iodirInvalDdt 0#20 true 5#24) State.reset) = true ∧
    isNext (exec (.iodirInvalPdt 0x42#20 true 5#24) State.reset) = true ∧
    isNext (exec (.iodirInvalPdt 0x42#20 false 5#24) State.reset) = true ∧
    isNext (exec (.iotinvalVma false 0#20 false false 0#16 0#52) State.reset) = true ∧
    isNext (exec (.iotinvalGvma false 0#20 true false 0#16 0#52) State.reset) = true := by decide

theorem witness_CommandEffectsAreLimited :
    ∀ wsi pr pw data addr, Instr.iofenceC false false false false 0#32 0#62 ≠ .iofenceC true wsi pr pw data addr := by
  intro wsi pr pw data addr h
  cases h

theorem witness_EnableCommandQueue : State.reset.cqcsr.busy = false ∧ State.reset.cqcsr.cqen = false ∧
    State.reset.cqb.aligned 16 = true ∧ (3#64).getLsbD 0 = true := by decide

theorem witness_DisableCommandQueue : (withCq cqOnStatus).cqcsr.busy = false ∧ (withCq cqOnStatus).cqcsr.cqen = true ∧
    (2#64).getLsbD 0 = false ∧
    ({ withCq cqOnStatus with cfg := { Config.platform with busySync := false } } : State).cfg.busySync = false := by
  decide

theorem witness_RegisterReadHasNoSideEffect : isNext (State.reset.hostRead 0 8) = true ∧
    State.reset.cfg.splitAccesses = false ∧ isNext (State.reset.hostRead 4 4) = true ∧
    isNext ({ State.reset with trReqCtl := { State.reset.trReqCtl with goBusy := true } }.hostRead 616 8) = true := by
  decide

theorem witness_RegisterAccessLeavesMemory : isNext (State.reset.hostRead 4092 4) = true ∧
    isNext (State.reset.hostWrite 72 4 1#64) = true ∧ isNext (State.reset.hostWrite 80 4 1#64) = true ∧
    ¬ (80 = 80 ∧ State.reset.cfg.busySync = true ∧ State.reset.pageRecords ≠ []) := by decide

theorem witness_CapabilitiesNeverChange : isNext (perform (.hostWrite 0 8 0#64) State.reset) = true := by decide

-- a mode that is accepted, from Off and from a directory mode to Off; a directory mode in a directory mode; a mode that is
-- not accepted and none of 2 to 4
theorem witness_DdtpWrite : State.reset.ddtpBusy = false ∧ State.reset.trReqCtl.goBusy = false ∧
    State.reset.halves = [] ∧ State.reset.cfg.splitAccesses = false ∧
    acceptedMode Config.platform ((0x2000C002#64).extractLsb' 0 4) = some .lvl1 ∧
    acceptedMode Config.platform ((0#64).extractLsb' 0 4) = some .off ∧
    ¬ (IommuMode.lvl1.isDirectory = true ∧ State.reset.ddtp.mode.isDirectory = true) ∧
    ¬ (IommuMode.off.isDirectory = true ∧ IommuMode.lvl3.isDirectory = true) ∧
    ((0x2000C004#64).extractLsb' 0 4 ∈ [2#4, 3#4, 4#4] ∧
      ({ State.reset with ddtp := ⟨.lvl1, 0#44⟩ } : State).ddtp.mode.isDirectory = true) ∧
    acceptedMode Config.platform ((0x2000C005#64).extractLsb' 0 4) = none ∧
    ¬ ((0x2000C005#64).extractLsb' 0 4 ∈ [2#4, 3#4, 4#4] ∧ State.reset.ddtp.mode.isDirectory = true) := by decide

-- the sizes beside 4 and 8, an offset between two registers, the first access beyond the page, the first and the last
-- pair of registers; and the shapes next to them that are legal
theorem witness_OtherAccessesAreRefused :
    let two : Nat → Prop := fun offset =>
      offset ∈ [8, 32, 48, 64, 72, 80, 88] ∨ 768 ≤ offset ∧ offset < 1024 ∧ offset % 16 = 8
    ((2 ≠ 4 ∧ 2 ≠ 8) ∧ (16 ≠ 4 ∧ 16 ≠ 8) ∧ 2 % 4 ≠ 0 ∧ 4 % 8 ≠ 0 ∧ 4096 < 4096 + 4 ∧ two 8 ∧ two 776 ∧ two 1016) ∧
    (4092 % 4 = 0 ∧ 4092 + 4 ≤ 4096 ∧ 4088 % 8 = 0 ∧ 4088 + 8 ≤ 4096 ∧
      ¬ two 16 ∧ ¬ two 760 ∧ ¬ two 768 ∧ ¬ two 1008 ∧ ¬ two 1024) := by decide

/-- The message of vector 15 owed. -/
def owing : State := { State.reset with
  msiOwed := 0x8000#16, msiCfgTbl := State.reset.msiCfgTbl.set 15 ⟨0xA000000#54, 0x22#32, false⟩ }

theorem witness_MsiDelivery : owing.msiReady (BitVec.ofFin (15 : Fin 16)) = true ∧
    check owing.cfg (owing.msiCfgTbl.get (15 : Fin 16)).byteAddr 4 .write = .ok ∧
    (({ owing with msiCfgTbl := owing.msiCfgTbl.set 0 ⟨0#54, 0#32, true⟩ } : State).msiCfgTbl.get (0 : Fin 16)).mask = true := by
  decide

/-- The same on a platform that refuses the write, the fault queue on. -/
def owingRefused : State :=
  fqOn { owing with cfg := { Config.platform with pma := [⟨0x28000000, 4, none, some .write, .accessFault⟩] } }

theorem witness_MsiWriteFault : owingRefused.msiReady (BitVec.ofFin (15 : Fin 16)) = true ∧
    owingRefused.fqcsr.fqon = true ∧
    check owingRefused.cfg (owingRefused.msiCfgTbl.get (15 : Fin 16)).byteAddr 4 .write ≠ .ok := by decide

theorem witness_FaultQueueOffLosesFaults : State.reset.fqcsr.fqon = false := by decide

-- the last entry of the queue, with room
theorem witness_FaultRecordWritten :
    let s : State := { fqOn State.reset with fqt := 3#32, fqh := 1#32 }
    s.fqcsr.fqon = true ∧ s.fqcsr.fqof = false ∧ s.fqcsr.fqmf = false ∧ s.fqFull = false ∧
    ∀ k, k < 4 → permitted s.cfg (s.fqb.entryAddr 32 s.fqt + 8 * k) 8 .write = true := by decide

-- each error bit set before; the queue full; its last store refused
theorem witness_FaultQueueOverflow :
    let s : State := { fqOn State.reset with fqt := 3#32, fqh := 0#32 }
    let u : State := { s with cfg := { Config.platform with pma := [⟨0x80040078, 8, none, none, .accessFault⟩] }, fqh := 1#32 }
    (s.fqcsr.fqon = true ∧ { s.fqcsr with fqmf := true }.fqmf = true ∧ { s.fqcsr with fqof := true }.fqof = true) ∧
    (s.fqcsr.fqof = false ∧ s.fqcsr.fqmf = false ∧ s.fqFull = true) ∧
    (u.fqcsr.fqon = true ∧ u.fqcsr.fqof = false ∧ u.fqcsr.fqmf = false ∧ u.fqFull = false ∧
      ∃ k, k < 4 ∧ permitted u.cfg (u.fqb.entryAddr 32 u.fqt + 8 * k) 8 .write = false) := by
  refine ⟨by decide, by decide, by decide, by decide, by decide, by decide, 3, by decide⟩

-- each type of request
theorem witness_OffDisallowsEverything :
    let s : State := { fqOn State.reset with
      requests := [req 0#64 .untranslated .read, req 0#64 .translated .write, req 0#64 .atsRequest .exec].map recv }
    s.failed = false ∧ s.ddtp.mode = .off ∧ s.ddtpBusy = false ∧ s.fqcsr.fqon = true ∧
    elementAt s.requests 0 = some ⟨req 0#64 .untranslated .read, none⟩ ∧
    elementAt s.requests 2 = some ⟨req 0#64 .atsRequest .exec, none⟩ := by decide

theorem witness_BareIsIdentity :
    let s : State := { fqOn State.reset with
      ddtp := ⟨.bare, 0#44⟩
      requests := [req 0xFFFFFFFFFFFFFFFF#64 .untranslated .read, req 0#64 .translated .write,
        req 0#64 .atsRequest .exec].map recv }
    s.failed = false ∧ s.ddtp.mode = .bare ∧ s.ddtpBusy = false ∧ s.fqcsr.fqon = true ∧
    elementAt s.requests 0 = some ⟨req 0xFFFFFFFFFFFFFFFF#64 .untranslated .read, none⟩ ∧
    elementAt s.requests 1 = some ⟨req 0#64 .translated .write, none⟩ ∧
    elementAt s.requests 2 = some ⟨req 0#64 .atsRequest .exec, none⟩ := by decide

-- the least device_id that is too wide, in 1LVL and in 2LVL
theorem witness_DeviceIdRangeCheck :
    let r : Request := { req 0#64 .untranslated .read with deviceId := 0x40#24 }
    let q : Request := { req 0#64 .untranslated .read with deviceId := 0x8000#24 }
    let s : State := { fqOn State.reset with ddtp := ⟨.lvl1, 0#44⟩, requests := [recv r] }
    let t : State := { fqOn State.reset with ddtp := ⟨.lvl2, 0#44⟩, requests := [recv q] }
    (s.failed = false ∧ s.ddtp.mode.isDirectory = true ∧ s.ddtpBusy = false ∧
      didTooWide s.cfg.msiFlat s.ddtp.mode r.deviceId = true ∧ elementAt s.requests 0 = some ⟨r, none⟩) ∧
    (t.failed = false ∧ t.ddtp.mode.isDirectory = true ∧ t.ddtpBusy = false ∧
      didTooWide t.cfg.msiFlat t.ddtp.mode q.deviceId = true ∧ elementAt t.requests 0 = some ⟨q, none⟩) := by decide

theorem witness_FailedStateIsTerminal :
    let s : State := { State.reset with failed := true, requests := [recv (req 0#64 .untranslated .read)] }
    let a : Activation := ⟨.request (req 0#64 .atsRequest .read), [s.ddtp], s.fctl, s.shared, [], []⟩
    s.failed = true ∧ isNext (step s) = true ∧ elementAt s.requests 0 = some (recv (req 0#64 .untranslated .read)) ∧
    elementAt ({ s with activations := [a] } : State).activations 0 = some a ∧
    a.task = .request (req 0#64 .atsRequest .read) := by decide

/-- A walk's context with the baseline device context of 95_test_vectors T11, and `SXL`. -/
def contextOf (tc : DWord) : Context :=
  ⟨⟨tc, 0#64, 0x10000#64, 0x8000000000080020#64, 0#64, 0#64, 0#64, 0#64⟩, 5#24, .read, .exercise .read, false, false, false⟩

-- Sv39 with bit 39 set and bit 38 clear; Sv32 with bit 32 set
theorem witness_IovaOutsideSchemeFaults :
    (firstScheme (contextOf 1#64).dc.sxl 8 = some ⟨3, 8, 9, 0⟩ ∧ Scheme.addrBits ⟨3, 8, 9, 0⟩ ≤ 64 ∧
      (if (contextOf 1#64).dc.sxl then (0x8000000000#64).extractLsb' 32 32 ≠ 0#32
       else ∃ k, Scheme.addrBits ⟨3, 8, 9, 0⟩ ≤ k ∧ k < 64 ∧
        (0x8000000000#64).getLsbD k ≠ (0x8000000000#64).getLsbD (Scheme.addrBits ⟨3, 8, 9, 0⟩ - 1))) ∧
    (firstScheme (contextOf 0x801#64).dc.sxl 8 = some ⟨2, 4, 10, 0⟩ ∧ Scheme.addrBits ⟨2, 4, 10, 0⟩ ≤ 64 ∧
      (if (contextOf 0x801#64).dc.sxl then (0x100000000#64).extractLsb' 32 32 ≠ 0#32
       else ∃ k, Scheme.addrBits ⟨2, 4, 10, 0⟩ ≤ k ∧ k < 64 ∧
        (0x100000000#64).getLsbD k ≠ (0x100000000#64).getLsbD (Scheme.addrBits ⟨2, 4, 10, 0⟩ - 1))) := by
  refine ⟨⟨by decide, by decide, ?_⟩, ⟨by decide, by decide, ?_⟩⟩
  · rw [if_neg (by decide)]
    exact ⟨39, by decide⟩
  · rw [if_pos (by decide)]
    decide

theorem witness_PageRequestQueued :
    let s : State := { pqOn State.reset with pqt := 3#32, pqh := 1#32 }
    s.pqcsr.pqen = true ∧ s.pqcsr.pqon = true ∧ s.pqcsr.pqmf = false ∧ s.pqcsr.pqof = false ∧ s.pqFull = false ∧
    ∀ k, k < 2 → permitted s.cfg (s.pqb.entryAddr 16 s.pqt + 8 * k) 8 .write = true := by decide

-- with a message that is answered, one that is not the last of its group, and a Stop Marker
theorem witness_PageQueueOverflow :
    let s : State := { pqOn State.reset with pqt := 3#32, pqh := 0#32 }
    let m : BitVec 64 → PageRequest := fun p => ⟨0x100#24, some 7#20, false, false, p⟩
    s.pqcsr.pqen = true ∧ s.pqcsr.pqon = true ∧ s.pqcsr.pqmf = false ∧ s.pqcsr.pqof = false ∧ s.pqFull = true ∧
    (m 0x2F#64).last = true ∧ (m 0x2F#64).stopMarker = false ∧ (m 0x2B#64).last = false ∧
    (m 4#64).stopMarker = true := by decide

-- inhibited; not inhibited, one before the end and at the end
theorem witness_CycleCounterStep :
    let s : Nat → State := fun n => { State.reset with iohpmcycles := ⟨BitVec.ofNat 63 n, false⟩ }
    (s 0).cfg.hpm = true ∧ (s 0).cfg.cyclesWidth ≤ 63 ∧
    (s (2 ^ 63 - 1)).iohpmcycles.counter.toNat + 1 = 2 ^ (s 0).cfg.cyclesWidth ∧
    (s (2 ^ 63 - 2)).iohpmcycles.counter.toNat + 1 < 2 ^ (s 0).cfg.cyclesWidth ∧
    (s 0).iocountinh.getLsbD 0 = false ∧ ({ s 0 with iocountinh := 1#32 } : State).iocountinh.getLsbD 0 = true := by
  decide

theorem witness_EventCounterIncrement :
    let s : Nat → State := fun n => { State.reset with iohpmctr := State.reset.iohpmctr.set 0 (BitVec.ofNat 64 n) }
    (s 0).cfg.hpmWidth ≤ 64 ∧
    ((s (2 ^ 64 - 1)).iohpmctr.get (0 : Fin 31)).toNat + 1 = 2 ^ (s 0).cfg.hpmWidth ∧
    ((s (2 ^ 64 - 2)).iohpmctr.get (0 : Fin 31)).toNat + 1 < 2 ^ (s 0).cfg.hpmWidth := by decide

-- no mask; the lowest 0 bit at 23; no 0 bit
theorem witness_DmaskMatch :
    HpmEvent.zero.dmask = false ∧
    (let e : HpmEvent := { HpmEvent.zero with dmask := true, didGscid := 0x7FFFFF#24 }
     e.dmask = true ∧ e.didGscid.getLsbD 23 = false ∧ ∀ j, j < 23 → e.didGscid.getLsbD j = true) ∧
    (let e : HpmEvent := { HpmEvent.zero with dmask := true, didGscid := 0xFFFFFF#24 }
     e.dmask = true ∧ e.didGscid = 0xFFFFFF#24) := by decide

theorem witness_DebugRequestFaults :
    let s : State := { fqOn State.reset with trReqCtl := { State.reset.trReqCtl with goBusy := true } }
    s.failed = false ∧ s.trReqCtl.goBusy = true ∧ s.debugUnderway = false ∧ s.ddtp.mode = .off ∧ s.ddtpBusy = false ∧
    s.fqcsr.fqon = true := by
  decide

-- the last byte of the address space
theorem witness_HartStoreReadsBack : 2 ^ 56 - 1 + [1#8].length ≤ 2 ^ 56 := by decide

-- a store that a hart makes while an activation that has made accesses is under way
theorem witness_StepKeepsMemoryCanonical :
    let s : State := { interleaved 0#64 with agenda := [.hostStore 0 [1#8]] }
    s.MemoryCanonical ∧ s.activations ≠ [] ∧ isNext (step s) = true := by
  refine ⟨⟨by decide, fun a ha => ?_⟩, by decide, by decide⟩
  obtain rfl := List.mem_singleton.mp ha
  exact ⟨by decide, by decide⟩

theorem witness_StepKeepsInterruptsHeld : (loaded 0).InterruptsHeld ∧ isNext (step (loaded 0)) = true :=
  ⟨⟨by decide, by decide, by decide⟩, by decide⟩

theorem witness_StepKeepsCommandsCoherent : (loaded 1).CommandsCoherent ∧ isNext (step (loaded 1)) = true := by
  refine ⟨⟨fun i h => ?_, fun c h => ?_⟩, by decide⟩
  · cases h
  · cases h

theorem witness_StepKeepsIndicesInRange : (loaded 1).IndicesInRange ∧ isNext (step (loaded 1)) = true :=
  ⟨⟨by decide, by decide, by decide, by decide, by decide, by decide⟩, by decide⟩

theorem witness_StepKeepsLegalValues : (loaded 1).LegalValues ∧ isNext (step (loaded 1)) = true :=
  ⟨⟨by decide, by decide, by decide, by decide, by decide, by decide, fun _ h => nomatch h⟩, by decide⟩

theorem witness_OnlyTheQueueMovesItsHead : State.reset.HalvesLegal ∧
    (Event.clock 1).isCommandStep = false ∧ (Event.clock 1).writesCqcsr = false ∧
    isNext (perform (.clock 1) State.reset) = true ∧ (Event.hostWrite 24 8 0#64).writesCqcsr = false ∧
    isNext (perform (.hostWrite 24 8 0#64) State.reset) = true :=
  ⟨(fun _ h => by cases h), by decide⟩

end Sys2Proof.Tests
end

section
/-! SUPPORT. What a step keeps: the relations `Keeps` and `Steady`, and the performance monitor. -/

namespace Sys2Proof.Machine

/-! ## What a step keeps -/

/-- What the invariants on interrupts and legal values speak of, and `cqh`. -/
def State.watched (s : State) :=
  ((s.cfg, s.cqh), (s.cipLevel, s.fipLevel, s.pipLevel, s.ipsr), (s.iohpmcycles, s.iohpmctr, s.iohpmevt), s.icvec,
    s.halves)

/-- From `s` to `t` the platform stays, values stay legal and pending bits whose level condition holds stay set. -/
structure Keeps (s t : State) : Prop where
  cfg : t.cfg = s.cfg
  legal : s.LegalValues → t.LegalValues
  held : s.InterruptsHeld → t.InterruptsHeld

/-- `Keeps`, and `cqh` stays where it is. -/
structure Steady (s t : State) : Prop extends Keeps s t where
  cqh : t.cqh = s.cqh

theorem Keeps.trans {s t u : State} (h : Keeps s t) (k : Keeps t u) : Keeps s u :=
  ⟨k.cfg.trans h.cfg, k.legal ∘ h.legal, k.held ∘ h.held⟩

theorem Steady.refl (s : State) : Steady s s := ⟨⟨rfl, id, id⟩, rfl⟩

theorem Steady.trans {s t u : State} (h : Steady s t) (k : Steady t u) : Steady s u :=
  ⟨h.toKeeps.trans k.toKeeps, k.cqh.trans h.cqh⟩

/-- An update of what is not watched is steady. -/
theorem Steady.of_watched {s t : State} (h : t.watched = s.watched) : Steady s t := by
  simp only [State.watched, Prod.mk.injEq] at h
  obtain ⟨⟨hcfg, hcqh⟩, ⟨hcip, hfip, hpip, hipsr⟩, ⟨hcy, hctr, hevt⟩, hvec, hhalves⟩ := h
  refine ⟨⟨hcfg, fun k => ?_, fun k => ?_⟩, hcqh⟩
  · unfold State.LegalValues State.HalvesLegal at *
    rwa [hcfg, hcy, hctr, hevt, hvec, hhalves]
  · unfold State.InterruptsHeld at *
    rwa [hcip, hfip, hpip, hipsr]

/-- A steady change, as the answer of an operation. -/
theorem Steady.of_next {s t u : State} (h : Host.Outcome.next u = (.next t : Host.Outcome State Fault Refusal))
    (k : Steady s u) : Steady s t := by
  injection h with h
  exact h ▸ k

/-- Before a steady change, an update of what is not watched. -/
theorem Steady.before {s t u : State} (k : Steady t u) (h : t.watched = s.watched) : Steady s u :=
  (Steady.of_watched h).trans k

/-- After a steady change, an update of what is not watched. -/
theorem Steady.after {s t u : State} (k : Steady s t) (h : u.watched = t.watched) : Steady s u :=
  k.trans (Steady.of_watched h)

/-- The half-done accesses become others to 64-bit registers. -/
theorem Steady.setHalves (s : State) {hs : List HalfAccess}
    (h : s.HalvesLegal → ∀ x ∈ hs, legalAccess x.offset 8 = true) : Steady s { s with halves := hs } :=
  ⟨⟨rfl, fun ⟨hctr, hcy, hciv, hfiv, hpmiv, hpiv, hhalves⟩ =>
    ⟨hctr, hcy, hciv, hfiv, hpmiv, hpiv, h hhalves⟩, id⟩, rfl⟩

/-- Raising `pmip` is steady: it has no level condition. -/
theorem Steady.raisePmip (s : State) : Steady s s.raisePmip := ⟨⟨rfl, id, id⟩, rfl⟩

/-- After re-evaluation every bit whose level condition holds is set (10_state R95). -/
theorem State.interruptsHeld_reevaluate (s : State) : s.reevaluate.InterruptsHeld := by
  refine ⟨fun h => ?_, fun h => ?_, fun h => ?_⟩
  · have : s.cipLevel = true := h
    simp [this]
  · have : s.fipLevel = true := h
    simp [this]
  · have : s.pipLevel = true := h
    simp [this]

/-- An update followed by re-evaluation, where what was updated is neither `cqh` nor a value with illegal ones. -/
theorem Steady.reevaluate {s t : State} (hc : t.cfg = s.cfg) (hq : t.cqh = s.cqh)
    (hl : s.LegalValues → t.LegalValues) : Steady s t.reevaluate :=
  ⟨⟨hc, hl, fun _ => t.interruptsHeld_reevaluate⟩, hq⟩

/-! ## The performance monitor -/

/-- Setting element `i` keeps a property of every element if the new value has it. -/
theorem forall_get_set {α : Type} {m i : Nat} {P : α → Prop} {v : Vector α m} (hi : i < m) {x : α} (hx : P x)
    (hv : ∀ n : Fin m, P (v.get n)) (n : Fin m) : P ((v.set i x hi).get n) := by
  have hn := hv n
  simp only [Vector.get_eq_getElem, Vector.getElem_set] at hn ⊢
  split
  · exact hx
  · exact hn

/-- A counter takes a value within its width. -/
theorem Steady.setCounter (s : State) (i : Nat) (hi : i < 31) {v : DWord}
    (hv : s.LegalValues → v.toNat < 2 ^ s.cfg.hpmWidth) :
    Steady s { s with iohpmctr := s.iohpmctr.set i v hi } := by
  refine ⟨⟨rfl, fun h => ⟨fun n => ⟨(h.1 n).1, ?_⟩, h.2⟩, id⟩, rfl⟩
  exact forall_get_set (P := fun c : DWord => c.toNat < 2 ^ s.cfg.hpmWidth) hi (hv h) (fun n => (h.1 n).2) n

/-- A selector takes a legal event. -/
theorem Steady.setSelector (s : State) (i : Nat) (hi : i < 31) {e : HpmEvent}
    (he : s.LegalValues → e.eventId.toNat ≤ 8) : Steady s { s with iohpmevt := s.iohpmevt.set i e hi } := by
  refine ⟨⟨rfl, fun h => ⟨fun n => ⟨?_, (h.1 n).2⟩, h.2⟩, id⟩, rfl⟩
  exact forall_get_set (P := fun e : HpmEvent => e.eventId.toNat ≤ 8) hi (he h) (fun n => (h.1 n).1) n

/-- An increment stays within the width of the counter, since it wraps there (11_state_hpm_debug R137). -/
theorem Steady.incrementCounter (s : State) (n : Fin 31) : Steady s (s.incrementCounter n) := by
  have wrapped : Steady s { s with iohpmctr := s.iohpmctr.set n 0#64 } :=
    .setCounter s n n.isLt fun _ => Nat.two_pow_pos _
  have marked := wrapped.trans
    (.setSelector _ n n.isLt (e := { s.iohpmevt.get n with of := true }) fun h => (h.1 n).1)
  unfold State.incrementCounter
  simp only []
  split
  · split
    · exact wrapped
    · exact marked.trans (.raisePmip _)
  · next hw =>
    refine .setCounter s n n.isLt fun h => lt_of_le_of_lt (Nat.mod_le _ _) ?_
    have hlt := (h.1 n).2
    have : (s.iohpmctr.get n).toNat + 1 ≠ 2 ^ s.cfg.hpmWidth := by simpa using hw
    omega

theorem Steady.countOn (event : Nat) (t : HpmIds) (ns : List (Fin 31)) (s : State) :
    Steady s (s.countOn event t ns) := by
  induction ns generalizing s with
  | nil => exact .refl s
  | cons n ns ih =>
    unfold State.countOn
    split
    · exact (Steady.incrementCounter s n).trans (ih _)
    · exact ih s

theorem Steady.countEvent (event : Nat) (t : HpmIds) (k : Nat) (s : State) : Steady s (s.countEvent event t k) := by
  induction k generalizing s with
  | zero => exact .refl s
  | succ k ih => exact (Steady.countOn event t _ s).trans (ih _)

theorem Steady.countActivation (s : State) (type : RequestType) (did : BitVec 24) (pid : Option (BitVec 20))
    (w : Walk) : Steady s (s.countActivation type did pid w) :=
  (((((Steady.countEvent _ _ _ s).trans (.countEvent _ _ _ _)).trans (.countEvent _ _ _ _)).trans
    (.countEvent _ _ _ _)).trans (.countEvent _ _ _ _)).trans (.countEvent _ _ _ _)

/-- The cycle counter takes a value within its width. -/
theorem Steady.setCycles (s : State) (v : Nat) (of : Bool) :
    Steady s { s with iohpmcycles := ⟨BitVec.ofNat 63 (v % 2 ^ s.cfg.cyclesWidth), of⟩ } := by
  refine ⟨⟨rfl, fun ⟨hctr, _, hrest⟩ => ⟨hctr, ?_, hrest⟩, id⟩, rfl⟩
  exact lt_of_le_of_lt (Nat.mod_le _ _) (Nat.mod_lt _ (Nat.two_pow_pos _))

theorem Steady.advanceClock (s : State) (n : Nat) : Steady s (s.advanceClock n) := by
  unfold State.advanceClock
  split
  · exact .refl s
  · have counted := Steady.setCycles s (s.iohpmcycles.counter.toNat + n)
      (s.iohpmcycles.of || decide (2 ^ s.cfg.cyclesWidth ≤ s.iohpmcycles.counter.toNat + n))
    simp only []
    split
    · exact counted.trans (.raisePmip _)
    · exact counted

end Sys2Proof.Machine
end


section
/-! SUPPORT. Reports, records, messages, requests and activations are steady. -/

namespace Sys2Proof.Machine

/-! ## Answers and reports -/

theorem Steady.reportFault (s : State) (cause : Nat) (dtf : Bool) (r : FaultRecord) :
    Steady s (s.reportFault cause dtf r) := by
  obtain ⟨fs, e⟩ := s.reportFault_frame cause dtf r
  exact .of_watched (by rw [e]; rfl)

theorem Steady.respond (s : State) (m : PageRequest) (st : PageStatus) (b : Bool) : Steady s (s.respond m st b) := by
  obtain ⟨ms, e⟩ := s.respond_frame m st b
  exact .of_watched (by rw [e]; rfl)

/-- What is left of the half-done accesses when an operation ends is to the same registers. -/
theorem HalfAccess.ended_offset (o : Nat) (h : HalfAccess) : (h.ended o).offset = h.offset := by
  cases h <;> rfl

theorem Steady.endOperation (s : State) (o : Nat) : Steady s (s.endOperation o) := by
  refine .setHalves s fun hs x hx => ?_
  obtain ⟨y, hy, rfl⟩ := List.mem_map.mp hx
  rw [HalfAccess.ended_offset]
  exact hs y hy

theorem Steady.publish (s : State) (r : TrResponse) : Steady s (s.publish r) :=
  (Steady.endOperation s 608).after rfl

theorem Steady.absorbRequest (s : State) (w : Walk) (r : Request) : Steady s (s.absorbRequest w r) :=
  (Steady.countActivation (s.absorb w) _ _ _ _).before rfl

theorem Steady.failRequest (s : State) (r : Request) (dtf known : Bool) (e : FaultInfo) :
    Steady s (s.failRequest r dtf known e) := by
  unfold State.failRequest
  simp only []
  split
  · split
    · exact .of_watched rfl
    · exact (Steady.reportFault _ _ _ _).before rfl
    · exact (Steady.reportFault _ _ _ _).before rfl
  · exact (Steady.reportFault _ _ _ _).before rfl

theorem Steady.finishRequest (s : State) (r : Request) (t : Translated) : Steady s (s.finishRequest r t) := by
  unfold State.finishRequest
  split
  · exact .of_watched rfl
  · split <;> exact .of_watched rfl

theorem Steady.answerRequest {s t : State} {r : Request} {y : EStateM.Result FaultInfo Walk Served}
    (h : s.answerRequest r y = .next t) : Steady s t := by
  cases y with
  | error e w =>
    exact .of_next h ((Steady.absorbRequest s w r).trans (.failRequest _ _ _ _ _))
  | ok v w =>
    cases v with
    | translated x =>
      exact .of_next h ((Steady.absorbRequest s w r).trans (.finishRequest _ _ _))
    | stored =>
      exact .of_next h ((Steady.absorbRequest s w r).after rfl)
    | unstorable => cases h

theorem Steady.countDebug (s : State) (r : Request) (w : Walk) : Steady s ((s.absorb w).countDebug r w) := by
  have absorbed : Steady s (s.absorb w) := .of_watched rfl
  unfold State.countDebug
  split
  · exact absorbed.trans (.countActivation _ _ _ _ _)
  · exact absorbed

theorem Steady.answerDebug (s : State) (r : Request) (y : EStateM.Result FaultInfo Walk Translated) :
    Steady s (s.answerDebug r y) := by
  cases y with
  | error e w => exact ((Steady.countDebug s r w).trans (.reportFault _ _ _ _)).trans (.publish _ _)
  | ok t w => exact (Steady.countDebug s r w).trans (.publish _ _)

theorem Steady.absorbMessage (s : State) (w : Walk) (did : BitVec 24) (pid : Option (BitVec 20)) :
    Steady s (s.absorbMessage w did pid) :=
  ((Steady.countEvent _ _ _ (s.absorb w)).trans (.countEvent _ _ _ _)).before rfl

theorem Steady.answerOther (s : State) (m : OtherMessage) (y : EStateM.Result FaultInfo Walk DeviceContext) :
    Steady s (s.answerOther m y) := by
  cases y <;> exact (Steady.absorbMessage _ _ _ _).trans (.reportFault _ _ _ _)

theorem Steady.answerCompletion (s : State) (did : BitVec 24) (y : EStateM.Result FaultInfo Walk DeviceContext) :
    Steady s (s.answerCompletion did y) := by
  cases y with
  | error e w => exact .absorbMessage s w _ _
  | ok d w =>
    have absorbed := Steady.absorbMessage s w did none
    unfold State.answerCompletion
    simp only []
    split
    · exact absorbed
    · exact absorbed.trans (.reportFault _ _ _ _)

/-! ## Records -/

/-- An error of the page-request queue raises `pip` if `pie` is 1, which is its level condition. -/
theorem Steady.pqError (s : State) (m : Memory) (mf off : Bool) :
    Steady s (State.raisePip { s with mem := m, pqcsr := { s.pqcsr with pqmf := mf, pqof := off } }) := by
  refine ⟨⟨by simp, fun h => ?_, fun ⟨hc, hf, _⟩ => ⟨?_, ?_, fun hl => ?_⟩⟩, by simp⟩
  · simpa [State.LegalValues, State.HalvesLegal] using h
  · simpa [State.cipLevel, State.fenceWIp] using hc
  · simpa [State.fipLevel] using hf
  · simp only [State.pipLevel, State.raisePip_pqcsr, Bool.and_eq_true] at hl
    simp [hl.1]

theorem Steady.raisePip (s : State) : Steady s s.raisePip := .pqError s s.mem s.pqcsr.pqmf s.pqcsr.pqof

theorem Steady.storePage (s : State) (m : PageRequest) (prpr : Bool) : Steady s (s.storePage m prpr) := by
  unfold State.storePage
  split
  · exact .respond _ _ _ _
  split
  · exact .respond _ _ _ _
  split
  · exact (Steady.pqError s s.mem s.pqcsr.pqmf true).trans (.respond _ _ _ _)
  simp only []
  split
  · exact (Steady.raisePip _).before rfl
  · exact (Steady.pqError s _ true s.pqcsr.pqof).trans (.respond _ _ _ _)

theorem Steady.storePages (xs : List PageRecord) (s : State) : Steady s (s.storePages xs) :=
  State.storePages_keeps (Steady s) (fun t m b h => h.trans (.storePage t m b)) xs s (.refl s)

/-- An error of the fault queue raises `fip` if `fie` is 1, which is its level condition. -/
theorem Steady.fqError (s : State) (m : Memory) (mf off : Bool) :
    Steady s (State.raiseFip { s with mem := m, fqcsr := { s.fqcsr with fqmf := mf, fqof := off } }) := by
  refine ⟨⟨by simp, fun h => ?_, fun ⟨hc, _, hp⟩ => ⟨?_, fun hl => ?_, ?_⟩⟩, by simp⟩
  · simpa [State.LegalValues, State.HalvesLegal] using h
  · simpa [State.cipLevel, State.fenceWIp] using hc
  · simp only [State.fipLevel, State.raiseFip_fqcsr, Bool.and_eq_true] at hl
    simp [hl.1]
  · simpa [State.pipLevel] using hp

theorem Steady.raiseFip (s : State) : Steady s s.raiseFip := .fqError s s.mem s.fqcsr.fqmf s.fqcsr.fqof

theorem Steady.writeRecord (s : State) (r : FaultRecord) : Steady s (s.writeRecord r) := by
  unfold State.writeRecord
  split
  · exact .refl s
  split
  · exact .refl s
  split
  · exact .fqError s s.mem s.fqcsr.fqmf true
  simp only []
  split
  · exact (Steady.raiseFip _).before rfl
  · exact .fqError s _ true s.fqcsr.fqof

theorem Steady.writeFault (s : State) (k : Nat) : Steady s (s.writeFault k) := by
  unfold State.writeFault
  split
  · exact (Steady.writeRecord _ _).before rfl
  · exact .refl s

theorem Steady.dropFault (s : State) (k : Nat) : Steady s (s.dropFault k) := by
  unfold State.dropFault
  split
  · split
    · exact .of_watched rfl
    · exact .refl s
  · exact .refl s

/-! ## Messages -/

theorem Steady.acceptPage (s : State) (m : PageRequest) (prpr : Bool) : Steady s (s.acceptPage m prpr) := by
  unfold State.acceptPage
  split
  · exact .respond _ _ _ _
  · exact .of_watched rfl

theorem Steady.queuePage (s : State) (m : PageRequest) (prpr : Bool) : Steady s (s.queuePage m prpr) := by
  unfold State.queuePage
  split
  · exact .respond _ _ _ _
  · exact .storePage _ _ _

theorem Steady.answerPage {queue : State → PageRequest → Bool → State} (hq : ∀ u m b, Steady u (queue u m b))
    (s : State) (m : PageRequest) (y : EStateM.Result FaultInfo Walk DeviceContext) :
    Steady s (s.answerPage queue m y) := by
  cases y with
  | error e w => exact ((Steady.absorbMessage s w _ _).trans (.reportFault _ _ _ _)).trans (.respond _ _ _ _)
  | ok d w =>
    have absorbed := Steady.absorbMessage s w m.deviceId m.pasid
    unfold State.answerPage
    simp only []
    split
    · exact absorbed.trans (hq _ _ _)
    · exact (absorbed.trans (.reportFault _ _ _ _)).trans (.respond _ _ _ _)

theorem Steady.handleOther (s : State) (ps : List DdtPointer) (m : OtherMessage) : Steady s (s.handleOther ps m) := by
  unfold State.handleOther
  split
  · exact .refl s
  · exact .answerOther _ _ _

theorem Steady.handlePage {queue : State → PageRequest → Bool → State} (hq : ∀ u m b, Steady u (queue u m b))
    (s : State) (ps : List DdtPointer) (m : PageRequest) : Steady s (s.handlePage ps queue m) := by
  unfold State.handlePage
  split
  · exact .refl s
  split
  · exact .handleOther _ _ _
  · exact .answerPage hq _ _ _

theorem Steady.writePage (s : State) : Steady s s.writePage := by
  unfold State.writePage
  split
  · exact (Steady.storePage _ _ _).before rfl
  · split
    · exact .refl s
    · exact (Steady.handlePage Steady.queuePage _ _ _).before rfl
  · exact .refl s

theorem Steady.decidePage (s : State) : Steady s s.decidePage := by
  unfold State.decidePage
  split
  · split
    · exact .refl s
    · exact (Steady.handlePage Steady.acceptPage _ _ _).before rfl
  · exact .refl s

theorem Steady.invalCompleted (s : State) (did : BitVec 24) (k : Nat) : Steady s (s.invalCompleted did k) := by
  unfold State.invalCompleted
  split
  · exact .refl s
  · exact (Steady.answerCompletion (s.completed k) _ _).before rfl

theorem Steady.invalTimedOut (s : State) (k : Nat) : Steady s (s.invalTimedOut k) := by
  unfold State.invalTimedOut
  split
  · exact .of_watched rfl
  · exact .refl s

theorem Steady.msiSend (s : State) (v : BitVec 4) : Steady s (s.msiSend v) := by
  unfold State.msiSend
  split
  · exact .refl s
  simp only []
  split
  · exact .of_watched rfl
  · exact (Steady.reportFault _ _ _ _).before rfl

/-! ## Requests, debug requests and activations -/

theorem Steady.abortFailed (s : State) (r : Request) : Steady s (s.abortFailed r) := .of_watched rfl

theorem Steady.serveAt {s t : State} {k : Nat} (h : s.serveAt k = .next t) : Steady s t := by
  unfold State.serveAt at h
  split at h
  · unfold serveRequest at h
    split at h
    · exact .of_next h ((Steady.abortFailed _ _).before rfl)
    · exact (Steady.answerRequest h).before rfl
  · exact .of_next h (.refl s)

theorem Steady.breakRequest (s : State) (r : Request) : Steady s (s.breakRequest r) := by
  unfold State.breakRequest
  split
  · exact .abortFailed _ _
  · exact (Steady.countEvent _ _ _ s).trans (.failRequest _ _ _ _ _)

theorem Steady.internalErrorAt (s : State) (k : Nat) : Steady s (s.internalErrorAt k) := by
  unfold State.internalErrorAt
  split
  · exact (Steady.breakRequest _ _).before rfl
  · exact .refl s

theorem Steady.internalErrorActive (s : State) (k : Nat) : Steady s (s.internalErrorActive k) := by
  unfold State.internalErrorActive
  split
  case h_1 => exact (Steady.breakRequest (s.dropActivation k) _).before rfl
  all_goals exact .refl s

theorem Steady.drawSkips (s : State) : Steady s s.drawSkips := by
  unfold State.drawSkips
  split
  · exact .of_watched rfl
  · exact .refl s

theorem Steady.debugStep (s : State) : Steady s s.debugStep := by
  unfold State.debugStep
  split
  · exact .refl s
  split
  · exact .publish _ _
  · exact (Steady.drawSkips s).trans (.answerDebug _ _ _)

/-- An activation goes on to its next access, or ends as its task says. -/
theorem Steady.run {s t : State} {a : Activation} (h : s.run a = .next t) : Steady s t := by
  obtain ⟨x, _, rfl⟩ | ⟨r, y, _, _, h⟩ | ⟨r, b, y, _, _, rfl⟩ | ⟨m, y, _, _, rfl⟩ | ⟨m, y, _, _, rfl⟩ |
    ⟨did, y, _, _, rfl⟩ := State.run_cases h
  · exact .of_watched rfl
  · exact .answerRequest h
  · exact .answerDebug _ _ _
  · exact .answerPage Steady.acceptPage _ _ _
  · exact .answerOther _ _ _
  · exact .answerCompletion _ _ _

theorem Steady.endFailed (s : State) (t : Task) : Steady s (s.endFailed t) := by
  cases t with
  | request r => exact .abortFailed _ _
  | debug r b => exact .publish _ _
  | page m => exact .refl s
  | other m => exact .refl s
  | completion did => exact .refl s

theorem Steady.advance {s t : State} {k pick : Nat} (h : s.advance k pick = .next t) : Steady s t := by
  obtain ⟨_, rfl⟩ | ⟨a, _, _, rfl⟩ | ⟨a, _, _, h⟩ := State.advance_cases h
  · exact .refl _
  · exact (Steady.endFailed (s.dropActivation k) _).before rfl
  · exact (Steady.run h).before rfl

theorem Steady.beginTranslate {s t : State} {k : Nat} (h : s.beginTranslate k = .next t) : Steady s t := by
  unfold State.beginTranslate at h
  split at h
  · exact .of_next h (.refl s)
  simp only [] at h
  split at h
  · exact .of_next h ((Steady.abortFailed _ _).before rfl)
  · exact (Steady.run h).before rfl

theorem Steady.beginPage {s t : State} (h : s.beginPage = .next t) : Steady s t := by
  unfold State.beginPage at h
  split at h
  · exact .of_next h (.refl s)
  simp only [] at h
  split at h
  · exact .of_next h (.refl s)
  split at h
  · exact .of_next h (Steady.of_watched rfl)
  · exact (Steady.run h).before rfl

theorem Steady.beginOther {s t : State} {m : OtherMessage} (h : s.beginOther m = .next t) : Steady s t := by
  unfold State.beginOther at h
  split at h
  · exact .of_next h (.refl s)
  · exact .run h

theorem Steady.beginCompletion {s t : State} {did : BitVec 24} {k : Nat} (h : s.beginCompletion did k = .next t) :
    Steady s t := by
  unfold State.beginCompletion at h
  split at h
  · exact .of_next h (.refl s)
  · exact (Steady.run h).before rfl

theorem Steady.beginDebug {s t : State} (h : s.beginDebug = .next t) : Steady s t := by
  unfold State.beginDebug at h
  split at h
  · exact .of_next h (.refl s)
  split at h
  · exact .of_next h (.publish _ _)
  · exact (Steady.drawSkips s).trans (.run h)

end Sys2Proof.Machine
end


section
/-! SUPPORT. Commands keep the invariants; so do the operations of `ddtp` and the queues. -/

namespace Sys2Proof.Machine

/-! ## Commands -/

theorem Keeps.of_next {s t u : State} (h : Host.Outcome.next u = (.next t : Host.Outcome State Fault Refusal))
    (k : Keeps s u) : Keeps s t := by
  injection h with h
  exact h ▸ k

theorem Keeps.of_watched {s t : State} (h : t.watched = s.watched) : Keeps s t := (Steady.of_watched h).toKeeps

theorem Keeps.before {s t u : State} (k : Keeps t u) (h : t.watched = s.watched) : Keeps s u :=
  (Keeps.of_watched h).trans k

/-- The head of the command queue moves, and nothing else that is watched. -/
theorem Keeps.advanceHead (s : State) : Keeps s s.advanceHead := ⟨rfl, id, id⟩

/-- An error of the command queue, or a fence's wired interrupt, raises `cip` if `cie` is 1, which is its level
condition. -/
theorem Steady.cqError (s : State) (mf timeout ill fence : Bool) :
    Steady s (State.raiseCip { s with cqcsr := { s.cqcsr with
      cqmf := mf, cmdTo := timeout, cmdIll := ill, fenceWIp := fence } }) := by
  refine ⟨⟨by simp, fun h => ?_, fun ⟨_, hf, hp⟩ => ⟨fun hl => ?_, ?_, ?_⟩⟩, by simp⟩
  · simpa [State.LegalValues, State.HalvesLegal] using h
  · simp only [State.cipLevel, State.raiseCip_cqcsr, Bool.and_eq_true] at hl
    simp [hl.1]
  · simpa [State.fipLevel] using hf
  · simpa [State.pipLevel] using hp

theorem Steady.takeCommandError (s : State) (e : CommandError) : Steady s (s.takeCommandError e) := by
  have raised (mf timeout ill : Bool) := Steady.cqError { s with fence := none } mf timeout ill s.cqcsr.fenceWIp
  cases e with
  | memoryFault => exact (raised true s.cqcsr.cmdTo s.cqcsr.cmdIll).before rfl
  | timeout => exact (raised s.cqcsr.cqmf true s.cqcsr.cmdIll).before rfl
  | illegal => exact (raised s.cqcsr.cqmf s.cqcsr.cmdTo true).before rfl

theorem Steady.fenceSignal (s : State) (wsi : Bool) : Steady s (s.fenceSignal wsi) := by
  unfold State.fenceSignal
  split
  · exact .cqError s s.cqcsr.cqmf s.cqcsr.cmdTo s.cqcsr.cmdIll true
  · exact .refl s

theorem Steady.fenceStore (s : State) (av : Bool) (data : BitVec 32) (addr : BitVec 62) :
    Steady s (s.fenceStore av data addr) := by
  unfold State.fenceStore
  split
  · exact .of_watched rfl
  · exact .refl s

theorem Keeps.completeFence (s : State) (av wsi pr pw : Bool) (data : BitVec 32) (addr : BitVec 62) :
    Keeps s (s.completeFence av wsi pr pw data addr) := by
  obtain ⟨_, e⟩ | ⟨_, _, e⟩ | ⟨_, _, e⟩ := s.completeFence_cases av wsi pr pw data addr <;> rw [e]
  case inl => exact Steady.toKeeps ((Steady.takeCommandError _ _).before rfl)
  case inr.inl => exact Steady.toKeeps ((Steady.takeCommandError _ _).before rfl)
  case inr.inr =>
    have stored : Steady s
        { ((s.commitPrevious pr pw).fenceStore av data addr).fenceSignal wsi with fence := none } :=
      .after (.before ((Steady.fenceStore (s.commitPrevious pr pw) av data addr).trans (.fenceSignal _ wsi)) rfl) rfl
    exact stored.toKeeps.trans (.advanceHead _)

/-- A command executed as it is fetched keeps what its effect keeps. -/
theorem Keeps.executeFetched {s t : State} {i : Instr} {effect : State → State}
    (h : s.executeFetched i effect = .next t) (he : Steady s (effect s)) : Keeps s t := by
  unfold State.executeFetched at h
  split at h
  · exact .of_next h (he.toKeeps.trans (.advanceHead _))
  · exact .of_next h (Steady.takeCommandError s _).toKeeps

/-- The effect of a command other than a fence that executes as it is fetched: an `ATS.INVAL` then waits for its
completion (44_cmd_ats R482). -/
def fetchedEffect (i : Instr) (s : State) : State :=
  match i with
  | .atsInval _ _ _ _ _ _ => (deferredEffect i s).await i
  | _ => deferredEffect i s

/-- A command other than a fence executes as `State.executeFetched` says. -/
theorem exec_of_not_fence {i : Instr} (hi : isFence i = false) (s : State) :
    Machine.exec i s = s.executeFetched i (fetchedEffect i) := by
  cases i with
  | iofenceC => cases hi
  | _ => rfl

theorem isFence_iff (i : Instr) :
    isFence i = true ↔ ∃ av wsi pr pw data addr, i = .iofenceC av wsi pr pw data addr := by
  cases i <;> simp [isFence]

theorem Steady.deferredEffect (i : Instr) (s : State) : Steady s (deferredEffect i s) := by
  cases i <;> exact .of_watched rfl

theorem Steady.fetchedEffect (i : Instr) (s : State) : Steady s (fetchedEffect i s) := by
  have effect := Steady.deferredEffect i s
  cases i with
  | atsInval => exact effect.after rfl
  | _ => exact effect

theorem Keeps.execIofenceC {av wsi pr pw : Bool} {data : BitVec 32} {addr : BitVec 62} {s t : State}
    (h : execIofenceC av wsi pr pw data addr s = .next t) : Keeps s t := by
  unfold Machine.execIofenceC at h
  split at h
  · exact .of_next h (Steady.takeCommandError s _).toKeeps
  split at h
  · exact .of_next h (.completeFence _ _ _ _ _ _ _)
  · exact .of_next h (.of_watched rfl)

theorem Keeps.exec {i : Instr} {s t : State} (h : Machine.exec i s = .next t) : Keeps s t := by
  cases hi : isFence i with
  | false =>
    rw [exec_of_not_fence hi] at h
    exact .executeFetched h (.fetchedEffect i s)
  | true =>
    obtain ⟨av, wsi, pr, pw, data, addr, rfl⟩ := (isFence_iff i).mp hi
    exact .execIofenceC h

theorem Keeps.fetchAndExecute {s t : State} (h : s.fetchAndExecute = .next t) : Keeps s t := by
  unfold State.fetchAndExecute at h
  split at h
  · exact .of_next h (Steady.refl s).toKeeps
  split at h
  · exact .of_next h (Steady.takeCommandError s _).toKeeps
  · exact .exec h

theorem Keeps.fetchDeferred (s : State) : Keeps s s.fetchDeferred := by
  unfold State.fetchDeferred
  split
  · exact (Steady.refl s).toKeeps
  split
  · exact (Steady.takeCommandError s _).toKeeps
  split
  · exact (Steady.takeCommandError s _).toKeeps
  split
  · exact .of_watched rfl
  · exact .before (.advanceHead _) rfl

theorem Keeps.tryFence {s t : State} (h : s.tryFence = .next t) : Keeps s t := by
  unfold State.tryFence at h
  split at h
  · split at h
    · exact .before (.exec h) rfl
    · exact .of_next h (Steady.refl s).toKeeps
  · exact .of_next h (Steady.refl s).toKeeps

theorem Steady.executeInFlight (s : State) (k : Nat) : Steady s (s.executeInFlight k) := by
  unfold State.executeInFlight
  split
  · exact .refl s
  split
  · exact (Steady.deferredEffect _ s).after rfl
  · exact .refl s

theorem Steady.abandon (s : State) (k : Nat) : Steady s (s.abandon k) := by
  unfold State.abandon
  split
  · exact .of_watched rfl
  · exact .refl s

/-! ## The operations of `ddtp` and of the queues -/

theorem Steady.ddtpComplete (s : State) : Steady s s.ddtpComplete := by
  unfold State.ddtpComplete
  split
  · exact .refl s
  · exact (Steady.endOperation s 16).after rfl

theorem Steady.cqComplete (s : State) : Steady s s.cqComplete := by
  unfold State.cqComplete
  split
  · exact .refl s
  split <;> exact .of_watched rfl

theorem Steady.fqComplete (s : State) : Steady s s.fqComplete := by
  unfold State.fqComplete
  split
  · exact .refl s
  split <;> exact .of_watched rfl

theorem Steady.pqOff (s : State) : Steady s s.pqOff :=
  .after (.before (.storePages s.pageRecords { s with pageRecords := [] }) rfl) rfl

theorem Steady.pqComplete (s : State) : Steady s s.pqComplete := by
  unfold State.pqComplete
  split
  · exact .refl s
  split
  · exact .of_watched rfl
  · exact .pqOff s

end Sys2Proof.Machine
end


section
/-! SUPPORT. What a write of each register is, and what it keeps. -/

namespace Sys2Proof.Machine

/-! ## Register writes -/

theorem Steady.writeFctl {s t : State} {w : Word} (h : s.writeFctl w = .next t) : Steady s t := by
  unfold State.writeFctl at h
  extract_lets f at h
  split at h
  · exact .of_next h (.refl s)
  split at h
  · cases h
  split at h
  · cases h
  · exact .of_next h (.reevaluate rfl rfl id)

theorem Steady.setDdtp (s : State) (p : DdtPointer) : Steady s (s.setDdtp p) := by
  have pinned : Steady s
      { (if p.mode == .off && s.ddtp.mode != .off then s.pinInFlight s.ddtp else s) with
        ddtpOld := s.ddtp, ddtp := p, ddtpBusy := true } := by
    split <;> exact .of_watched rfl
  unfold State.setDdtp
  simp only []
  split
  · exact pinned.trans (.ddtpComplete _)
  · exact pinned

theorem Steady.writeDdtp {s t : State} {v : DWord} (h : s.writeDdtp v = .next t) : Steady s t := by
  unfold State.writeDdtp at h
  split at h
  · cases h
  split at h
  · cases h
  split at h
  · exact .of_next h (.setDdtp s _)
  simp only [] at h
  split at h
  · cases h
  · exact .of_next h (.setDdtp s _)

theorem Steady.writeDdtpHigh {s t : State} {v : DWord} (h : s.writeDdtpHigh v = .next t) : Steady s t := by
  unfold State.writeDdtpHigh at h
  split at h
  · cases h
  split at h
  · cases h
  refine .of_next h ?_
  split <;> exact .of_watched rfl

theorem Steady.finishDdtp {s t : State} {v : DWord} {started : Bool} (h : s.finishDdtp v started = .next t) :
    Steady s t := by
  unfold State.finishDdtp at h
  split at h
  · cases h
  split at h
  · cases h
  · exact .of_next h (.of_watched rfl)

/-- A write of `cqb` cuts `cqh` to the new size (log entry 33) and moves nothing else that is watched. -/
theorem State.writeCqb_keeps {s t : State} {v : DWord} (h : s.writeCqb v = .next t) :
    Keeps s t ∧ t.cqh = t.cqb.clip s.cqh := by
  unfold State.writeCqb at h
  split at h
  · cases h
  · injection h with h
    exact h ▸ ⟨⟨rfl, id, id⟩, rfl⟩

theorem Steady.writeFqb {s t : State} {v : DWord} (h : s.writeFqb v = .next t) : Steady s t := by
  unfold State.writeFqb at h
  split at h
  · cases h
  · exact .of_next h (.of_watched rfl)

theorem Steady.writePqb {s t : State} {v : DWord} (h : s.writePqb v = .next t) : Steady s t := by
  unfold State.writePqb at h
  split at h
  · cases h
  · exact .of_next h (.of_watched rfl)

/-- What draws the free `busy` bit of a queue write changes nothing else. -/
theorem State.drawBusy_frame (s : State) : ∃ n, s.drawBusy = { s with draws := n } := by
  unfold State.drawBusy
  split
  · exact ⟨s.draws, rfl⟩
  · exact ⟨_, rfl⟩

theorem Keeps.reevaluate {s t : State} (hc : t.cfg = s.cfg) (hl : s.LegalValues → t.LegalValues) :
    Keeps s t.reevaluate :=
  ⟨hc, hl, fun _ => t.interruptsHeld_reevaluate⟩

theorem Keeps.writeCqcsr {s t : State} {w : Word} (h : s.writeCqcsr w = .next t) : Keeps s t := by
  unfold State.writeCqcsr at h
  simp only [] at h
  split at h
  · cases h
  split at h
  · split at h
    · exact .of_next h (.reevaluate rfl id)
    · cases h
  split at h
  · refine .of_next h ?_
    unfold State.cqDisable
    simp only []
    split <;> exact .reevaluate rfl id
  · refine .of_next h ?_
    obtain ⟨n, e⟩ := State.drawBusy_frame _
    rw [e]
    exact .reevaluate rfl id

theorem Steady.writeFqcsr {s t : State} {w : Word} (h : s.writeFqcsr w = .next t) : Steady s t := by
  unfold State.writeFqcsr at h
  simp only [] at h
  split at h
  · cases h
  split at h
  · split at h
    · exact .of_next h (.reevaluate rfl rfl id)
    · cases h
  split at h
  · refine .of_next h ?_
    unfold State.fqDisable
    simp only []
    split <;> exact .reevaluate rfl rfl id
  · refine .of_next h ?_
    obtain ⟨n, e⟩ := State.drawBusy_frame _
    rw [e]
    exact .reevaluate rfl rfl id

theorem Steady.writePqcsr {s t : State} {w : Word} (h : s.writePqcsr w = .next t) : Steady s t := by
  unfold State.writePqcsr at h
  simp only [] at h
  split at h
  · cases h
  split at h
  · split at h
    · exact .of_next h (.reevaluate rfl rfl id)
    · cases h
  split at h
  · refine .of_next h ?_
    unfold State.pqDisable
    simp only []
    split
    · exact .reevaluate (Steady.pqOff _).cfg (Steady.pqOff _).cqh fun hs => (Steady.pqOff _).legal hs
    · exact .reevaluate rfl rfl id
  · refine .of_next h ?_
    obtain ⟨n, e⟩ := State.drawBusy_frame _
    rw [e]
    exact .reevaluate rfl rfl id

theorem Steady.writeIpsr (s : State) (w : Word) : Steady s (s.writeIpsr w) := .reevaluate rfl rfl id

theorem Steady.writeTrReqIova {s t : State} {v : DWord} (h : s.writeTrReqIova v = .next t) : Steady s t := by
  unfold State.writeTrReqIova at h
  split at h
  · cases h
  · exact .of_next h (.of_watched rfl)

theorem Steady.writeTrReqCtl {s t : State} {v : DWord} {low : Bool} (h : s.writeTrReqCtl v low = .next t) :
    Steady s t := by
  unfold State.writeTrReqCtl at h
  simp only [] at h
  split at h
  · cases h
  · exact .of_next h (.of_watched rfl)

/-- A vector is cut to the implemented bits (10_state R98). -/
theorem newVector_lt (c : Config) (v : BitVec 4) : (newVector c v).toNat < 2 ^ c.vecBits :=
  lt_of_le_of_lt (Nat.mod_le _ _) (Nat.mod_lt _ (Nat.two_pow_pos _))

theorem Steady.writeIcvec (s : State) (v : DWord) : Steady s (s.writeIcvec v) := by
  have implemented (b : Bool) (x : BitVec 4) : (if b then newVector s.cfg x else 0#4).toNat < 2 ^ s.cfg.vecBits := by
    split
    · exact newVector_lt _ _
    · exact Nat.two_pow_pos _
  exact ⟨⟨rfl, fun ⟨hctr, hcy, _, _, _, _, hhalves⟩ =>
    ⟨hctr, hcy, newVector_lt _ _, newVector_lt _ _, implemented _ _, implemented _ _, hhalves⟩, id⟩, rfl⟩

theorem Steady.writeMsiEntry (s : State) (x : Fin 16) (upper : Bool) (v : DWord) :
    Steady s (s.writeMsiEntry x upper v) := by
  unfold State.writeMsiEntry
  split
  · exact .of_watched rfl
  · exact .refl s

/-- A selector keeps its event where the one written is illegal (11_state_hpm_debug R139). -/
theorem newHpmEvent_legal {old : HpmEvent} (v : DWord) (h : old.eventId.toNat ≤ 8) :
    (newHpmEvent old v).eventId.toNat ≤ 8 := by
  unfold newHpmEvent
  simp only []
  split
  · assumption
  · exact h

/-! ### The registers of the page: what a write of each doubleword is -/

section
variable (s : State) (v : DWord) (low high : Bool)

theorem State.writeDword_fctl :
    s.writeDword 1 v low high = if low then s.writeFctl (v.extractLsb' 0 32) else .next s := rfl

theorem State.writeDword_ddtp :
    s.writeDword 2 v low high = if low then s.writeDdtp v else s.writeDdtpHigh v := rfl

theorem State.writeDword_cqb : s.writeDword 3 v low high = s.writeCqb v := rfl

theorem State.writeDword_cqt : s.writeDword 4 v low high =
    .next (if high then { s with cqt := s.cqb.clip (v.extractLsb' 32 32) } else s) := rfl

theorem State.writeDword_fqb : s.writeDword 5 v low high = s.writeFqb v := rfl

theorem State.writeDword_fqh : s.writeDword 6 v low high =
    .next (if low then { s with fqh := s.fqb.clip (v.extractLsb' 0 32) } else s) := rfl

theorem State.writeDword_pqb :
    s.writeDword 7 v low high = if s.cfg.ats then s.writePqb v else .next s := rfl

theorem State.writeDword_pqh : s.writeDword 8 v low high =
    .next (if s.cfg.ats && low then { s with pqh := s.pqb.clip (v.extractLsb' 0 32) } else s) := rfl

theorem State.writeDword_cqcsr : s.writeDword 9 v low high =
    if low then s.writeCqcsr (v.extractLsb' 0 32) else s.writeFqcsr (v.extractLsb' 32 32) := rfl

theorem State.writeDword_pqcsr : s.writeDword 10 v low high =
    if low then (if s.cfg.ats then s.writePqcsr (v.extractLsb' 0 32) else .next s)
    else .next (s.writeIpsr (v.extractLsb' 32 32)) := rfl

theorem State.writeDword_countInhibit : s.writeDword 11 v low high =
    .next (if s.cfg.hpm && high then s.writeCountInhibit (v.extractLsb' 32 32) else s) := rfl

theorem State.writeDword_cycles : s.writeDword 12 v low high =
    .next (if s.cfg.hpm then s.writeCycles v else s) := rfl

theorem State.writeDword_trReqIova :
    s.writeDword 75 v low high = if s.cfg.dbg then s.writeTrReqIova v else .next s := rfl

theorem State.writeDword_trReqCtl :
    s.writeDword 76 v low high = if s.cfg.dbg then s.writeTrReqCtl v low else .next s := rfl

theorem State.writeDword_icvec : s.writeDword 95 v low high = .next (s.writeIcvec v) := rfl

theorem State.writeDword_counter {k : Nat} (h : 13 ≤ k ∧ k < 44) : s.writeDword k v low high =
    .next (if s.cfg.hpm && decide (k - 13 < s.cfg.hpmCounters) then
      { s with iohpmctr := s.iohpmctr.set (k - 13) (BitVec.ofNat 64 (v.toNat % 2 ^ s.cfg.hpmWidth)) (by omega) }
     else s) := by
  have skip (n : Nat) (hn : n < 13) : ¬ (k == n) = true := by simp; omega
  unfold State.writeDword
  iterate 12 rw [if_neg (skip _ (by decide))]
  rw [dif_pos h]

theorem State.writeDword_selector {k : Nat} (h : 44 ≤ k ∧ k < 75) : s.writeDword k v low high =
    .next (if s.cfg.hpm && decide (k - 44 < s.cfg.hpmCounters) then
      { s with iohpmevt := s.iohpmevt.set (k - 44) (newHpmEvent (s.iohpmevt[k - 44]'(by omega)) v) (by omega) }
     else s) := by
  have skip (n : Nat) (hn : n < 13) : ¬ (k == n) = true := by simp; omega
  unfold State.writeDword
  iterate 12 rw [if_neg (skip _ (by decide))]
  rw [dif_neg (by omega), dif_pos h]

theorem State.writeDword_msi {k : Nat} (h : 96 ≤ k ∧ k < 128) : s.writeDword k v low high =
    .next (s.writeMsiEntry ⟨(k - 96) / 2, by omega⟩ ((k - 96) % 2 == 1) v) := by
  have skip (n : Nat) (hn : n < 96) : ¬ (k == n) = true := by simp; omega
  unfold State.writeDword
  iterate 12 rw [if_neg (skip _ (by decide))]
  rw [dif_neg (by omega), dif_neg (by omega)]
  iterate 3 rw [if_neg (skip _ (by decide))]
  rw [dif_pos h]

/-- Read-only registers and reserved space ignore a write (10_state R31). -/
theorem State.writeDword_other {k : Nat} (h : k = 0 ∨ 77 ≤ k ∧ k < 95 ∨ 128 ≤ k) :
    s.writeDword k v low high = .next s := by
  have skip (n : Nat) (hn : 1 ≤ n ∧ n < 77 ∨ n = 95) : ¬ (k == n) = true := by simp; omega
  unfold State.writeDword
  iterate 12 rw [if_neg (skip _ (by decide))]
  rw [dif_neg (by omega), dif_neg (by omega)]
  iterate 3 rw [if_neg (skip _ (by decide))]
  rw [dif_neg (by omega)]

end

/-- The registers, by the number of their doubleword. -/
theorem dword_cases (k : Nat) :
    k = 1 ∨ k = 2 ∨ k = 3 ∨ k = 4 ∨ k = 5 ∨ k = 6 ∨ k = 7 ∨ k = 8 ∨ k = 9 ∨ k = 10 ∨ k = 11 ∨ k = 12 ∨
    (13 ≤ k ∧ k < 44) ∨ (44 ≤ k ∧ k < 75) ∨ k = 75 ∨ k = 76 ∨ k = 95 ∨ (96 ≤ k ∧ k < 128) ∨
    (k = 0 ∨ 77 ≤ k ∧ k < 95 ∨ 128 ≤ k) := by omega

/-- A conditional update that is steady where it is made. -/
theorem Steady.ite {s t : State} {b : Prop} [Decidable b] (h : Steady s t) : Steady s (if b then t else s) := by
  split
  · exact h
  · exact .refl s

/-- A write of any register but `cqb` and `cqcsr` is steady. -/
theorem Steady.writeDword {s t : State} {k : Nat} {v : DWord} {low high : Bool}
    (h : s.writeDword k v low high = .next t) (hb : k ≠ 3) (hc : ¬ (k = 9 ∧ low = true)) : Steady s t := by
  obtain rfl | rfl | rfl | rfl | rfl | rfl | rfl | rfl | rfl | rfl | rfl | rfl | hk | hk | rfl | rfl | rfl | hk | hk :=
    dword_cases k
  · rw [State.writeDword_fctl] at h
    split at h
    · exact .writeFctl h
    · exact .of_next h (.refl s)
  · rw [State.writeDword_ddtp] at h
    split at h
    · exact .writeDdtp h
    · exact .writeDdtpHigh h
  · exact absurd rfl hb
  · rw [State.writeDword_cqt] at h
    exact .of_next h (.ite (.of_watched rfl))
  · rw [State.writeDword_fqb] at h
    exact .writeFqb h
  · rw [State.writeDword_fqh] at h
    exact .of_next h (.ite (.of_watched rfl))
  · rw [State.writeDword_pqb] at h
    split at h
    · exact .writePqb h
    · exact .of_next h (.refl s)
  · rw [State.writeDword_pqh] at h
    exact .of_next h (.ite (.of_watched rfl))
  · rw [State.writeDword_cqcsr] at h
    split at h
    · next hl => exact absurd ⟨rfl, hl⟩ hc
    · exact .writeFqcsr h
  · rw [State.writeDword_pqcsr] at h
    split at h
    · split at h
      · exact .writePqcsr h
      · exact .of_next h (.refl s)
    · exact .of_next h (.writeIpsr s _)
  · rw [State.writeDword_countInhibit] at h
    exact .of_next h (.ite (.of_watched rfl))
  · rw [State.writeDword_cycles] at h
    exact .of_next h (.ite (.setCycles s _ _))
  · rw [State.writeDword_counter s v low high hk] at h
    exact .of_next h (.ite (.setCounter s _ _ fun _ =>
      lt_of_le_of_lt (Nat.mod_le _ _) (Nat.mod_lt _ (Nat.two_pow_pos _))))
  · rw [State.writeDword_selector s v low high hk] at h
    exact .of_next h (.ite (.setSelector s _ _ fun hs => newHpmEvent_legal _ (hs.1 ⟨k - 44, by omega⟩).1))
  · rw [State.writeDword_trReqIova] at h
    split at h
    · exact .writeTrReqIova h
    · exact .of_next h (.refl s)
  · rw [State.writeDword_trReqCtl] at h
    split at h
    · exact .writeTrReqCtl h
    · exact .of_next h (.refl s)
  · rw [State.writeDword_icvec] at h
    exact .of_next h (.writeIcvec s _)
  · rw [State.writeDword_msi s v low high hk] at h
    exact .of_next h (.writeMsiEntry s _ _ _)
  · rw [State.writeDword_other s v low high hk] at h
    exact .of_next h (.refl s)

/-- A write of a register in one access keeps the invariants. -/
theorem Keeps.writeDword {s t : State} {k : Nat} {v : DWord} {low high : Bool}
    (h : s.writeDword k v low high = .next t) : Keeps s t := by
  by_cases hb : k = 3
  · subst hb
    rw [State.writeDword_cqb] at h
    exact (State.writeCqb_keeps h).1
  by_cases hc : k = 9 ∧ low = true
  · obtain ⟨rfl, rfl⟩ := hc
    rw [State.writeDword_cqcsr] at h
    exact .writeCqcsr h
  · exact (Steady.writeDword h hb hc).toKeeps

end Sys2Proof.Machine
end


section
/-! SUPPORT. Register accesses, events and steps; the invariants of the whole machine. -/

namespace Sys2Proof.Machine

/-! ## Register accesses -/

/-- An 8-byte access is to one 64-bit register, so not to the status registers (20_memory R182). -/
theorem legalAccess_eight {o : Nat} (h : legalAccess o 8 = true) : o % 8 = 0 ∧ o / 8 ≠ 9 := by
  simp only [legalAccess, Bool.and_eq_true, Bool.or_eq_true, decide_eq_true_eq, beq_iff_eq, Bool.not_eq_true'] at h
  obtain ⟨_, ⟨h, _⟩ | ⟨⟨_, ho⟩, hp⟩⟩ := h
  · cases h
  · refine ⟨ho, fun e => ?_⟩
    rw [e] at hp
    exact absurd hp (by decide)

/-- An access of a legal shape is aligned to four bytes. -/
theorem legalAccess_aligned {o n : Nat} (h : legalAccess o n = true) : o % 4 = 0 ∧ (n = 8 → o % 8 = 0) := by
  simp only [legalAccess, Bool.and_eq_true, Bool.or_eq_true, decide_eq_true_eq, beq_iff_eq] at h
  omega

/-- A half-done access to a 64-bit register is added. -/
theorem Steady.addHalf (s : State) {x : HalfAccess} (hx : legalAccess x.offset 8 = true) :
    Steady s { s with halves := s.halves ++ [x] } := by
  refine .setHalves s fun hs y hy => ?_
  obtain hy | hy := List.mem_append.mp hy
  · exact hs y hy
  · exact List.mem_singleton.mp hy ▸ hx

/-- A half-done access is taken from the list. -/
theorem Steady.takeHalf (s : State) (k : Nat) : Steady s { s with halves := removeAt s.halves k } :=
  .setHalves s fun hs y hy => hs y (mem_of_mem_removeAt hy)

/-- A read may draw the free value of `tr_response`, and does nothing else (10_state R107). -/
theorem State.drawRead_frame (s : State) (o : Nat) : ∃ n, s.drawRead o = { s with draws := n } := by
  unfold State.drawRead
  split
  · exact ⟨_, rfl⟩
  · exact ⟨s.draws, rfl⟩

theorem Steady.drawRead (s : State) (o : Nat) : Steady s (s.drawRead o) := by
  obtain ⟨n, e⟩ := s.drawRead_frame o
  exact .of_watched (by rw [e]; rfl)

/-- What a register read that answers is: the first half of a split one, or all of it. -/
theorem State.hostRead_cases {s t : State} {o n : Nat} (h : s.hostRead o n = .next t) :
    legalAccess o n = true ∧
    ((n = 8 ∧ s.cfg.splitAccesses = true ∧ ∃ high, t = s.nextDraw.readFirstHalf o high) ∨
     (n = 8 ∧ s.cfg.splitAccesses = true ∧ t = s.nextDraw.readWhole o n) ∨
     t = s.readWhole o n) := by
  unfold State.hostRead at h
  split at h
  · cases h
  · next hl =>
    refine ⟨by simpa using hl, ?_⟩
    split at h
    · next hs =>
      simp only [Bool.and_eq_true, beq_iff_eq] at hs
      injection h with h
      exact .inl ⟨hs.1.1, hs.1.2, _, h.symm⟩
    split at h
    · next hs =>
      simp only [Bool.and_eq_true, beq_iff_eq] at hs
      injection h with h
      exact .inr (.inl ⟨hs.1, hs.2, h.symm⟩)
    · injection h with h
      exact .inr (.inr h.symm)

theorem Steady.readWhole (s : State) (o n : Nat) : Steady s (s.readWhole o n) :=
  .before (.drawRead _ _) rfl

theorem Steady.hostRead {s t : State} {o n : Nat} (h : s.hostRead o n = .next t) : Steady s t := by
  obtain ⟨hl, ⟨rfl, _, high, rfl⟩ | ⟨rfl, _, rfl⟩ | rfl⟩ := State.hostRead_cases h
  · exact .trans (.before (.addHalf s.nextDraw (x := .read o (!high) _) hl) rfl) (.drawRead _ _)
  · exact .before (.readWhole s.nextDraw _ _) rfl
  · exact .readWhole s _ _

/-- What a register write that answers is: the first half of a split one, or all of it. -/
theorem State.hostWrite_cases {s t : State} {o n : Nat} {v : DWord} (h : s.hostWrite o n v = .next t) :
    legalAccess o n = true ∧
    ((n = 8 ∧ ∃ high, s.nextDraw.writeFirstHalf o high v = .next t) ∨
     s.nextDraw.writeWhole o n v = .next t ∨ s.writeWhole o n v = .next t) := by
  unfold State.hostWrite at h
  split at h
  · cases h
  · next hl =>
    refine ⟨by simpa using hl, ?_⟩
    split at h
    · next hs =>
      simp only [Bool.and_eq_true, beq_iff_eq] at hs
      exact .inl ⟨hs.1.1, _, h⟩
    split at h
    · exact .inr (.inl h)
    · exact .inr (.inr h)

/-- The first half of a split write is a 4-byte write, of which the other half is noted. -/
theorem State.writeFirstHalf_cases {s t : State} {o : Nat} {high : Bool} {v : DWord}
    (h : s.writeFirstHalf o high v = .next t) :
    ∃ u x w b, s.writeWhole (if high then o + 4 else o) 4 x = .next u ∧
      t = { u with halves := u.halves ++ [.write o (!high) w b] } := by
  unfold State.writeFirstHalf at h
  simp only [] at h
  split at h
  · next u e =>
    injection h with h
    exact ⟨u, _, _, _, e, h.symm⟩
  · cases h
  · cases h

/-- The second half of a split write: of `ddtp`, of the `tr_req_ctl` whose operation the first half started, or a 4-byte
write. -/
theorem State.writeSecondHalf_cases {s t : State} {o : Nat} {high : Bool} {v : Word} {started : Bool}
    (h : s.writeSecondHalf o high v started = .next t) :
    (∃ d, s.finishDdtp d started = .next t) ∨ (∃ c, t = { s with trReqCtl := c }) ∨
    s.writeWhole (if high then o + 4 else o) 4 (v.setWidth 64) = .next t := by
  unfold State.writeSecondHalf at h
  simp only [] at h
  split at h
  · exact .inl ⟨_, h⟩
  split at h
  · injection h with h
    exact .inr (.inl ⟨_, h.symm⟩)
  · exact .inr (.inr h)

theorem Keeps.hostWrite {s t : State} {o n : Nat} {v : DWord} (h : s.hostWrite o n v = .next t) : Keeps s t := by
  obtain ⟨hl, ⟨rfl, high, h⟩ | h | h⟩ := State.hostWrite_cases h
  · obtain ⟨u, x, w, b, hu, rfl⟩ := State.writeFirstHalf_cases h
    exact .trans (.before (.writeDword hu) rfl) (Steady.addHalf u (x := .write o (!high) w b) hl).toKeeps
  · exact .before (.writeDword h) rfl
  · exact .writeDword h

theorem Steady.readSecondHalf (s : State) (o : Nat) (high : Bool) (w : Word) :
    Steady s (s.readSecondHalf o high w) :=
  .before (.drawRead _ _) rfl

theorem Keeps.finishHalf {s t : State} {k : Nat} (h : s.finishHalf k = .next t) : Keeps s t := by
  obtain ⟨_, e⟩ | ⟨o, high, v, _, e⟩ | ⟨o, high, v, b, _, e⟩ := s.finishHalf_cases k <;> rw [e] at h
  · exact .of_next h (Steady.refl s).toKeeps
  · exact .of_next h ((Steady.takeHalf s k).trans (.readSecondHalf _ _ _ _)).toKeeps
  · refine (Steady.takeHalf s k).toKeeps.trans ?_
    obtain ⟨d, h⟩ | ⟨c, rfl⟩ | h := State.writeSecondHalf_cases h
    · exact (Steady.finishDdtp h).toKeeps
    · exact .of_watched rfl
    · exact .writeDword h

theorem Steady.hostStore {s t : State} {a : Nat} {bs : List Byte} (h : s.hostStore a bs = .next t) : Steady s t := by
  unfold State.hostStore at h
  split at h
  · exact .of_next h (.of_watched rfl)
  · cases h

/-! ## Events and steps -/

/-- The event is a write of a register by a hart, or the second half of a split access. -/
def Event.writesRegister : Event → Bool
  | .hostWrite _ _ _ => true
  | .finishHalf _ => true
  | _ => false

/-- Every event but the command queue's steps and register writes is steady. -/
theorem Steady.perform {e : Event} {s t : State} (hq : e.isCommandStep = false) (hw : e.writesRegister = false)
    (h : perform e s = .next t) : Steady s t := by
  cases e with
  | hostRead o n => exact .hostRead h
  | hostWrite => cases hw
  | hostStore a bs => exact .hostStore h
  | request r => exact .of_next h (.of_watched rfl)
  | pageRequest m => exact .of_next h (.of_watched rfl)
  | otherMessage m => exact .of_next h (.handleOther _ _ _)
  | beginOther m => exact .beginOther h
  | invalCompletion did k => exact .of_next h (.invalCompleted _ _ _)
  | beginCompletion did k => exact .beginCompletion h
  | invalTimeout k => exact .of_next h (.invalTimedOut _ _)
  | cqFetch => cases hq
  | cqFetchDeferred => cases hq
  | cqFence => cases hq
  | cqExecute k => exact .of_next h (.executeInFlight _ _)
  | cqDrop k => exact .of_next h (.abandon _ _)
  | translate k => exact .serveAt h
  | beginTranslate k => exact .beginTranslate h
  | advance k pick => exact .advance h
  | writeFault k => exact .of_next h (.writeFault _ _)
  | dropFault k => exact .of_next h (.dropFault _ _)
  | writePage => exact .of_next h (.writePage _)
  | decidePage => exact .of_next h (.decidePage _)
  | beginPage => exact .beginPage h
  | finishHalf => cases hw
  | msiSend v => exact .of_next h (.msiSend _ _)
  | ddtpDone => exact .of_next h (.ddtpComplete _)
  | cqDone => exact .of_next h (.cqComplete _)
  | fqDone => exact .of_next h (.fqComplete _)
  | pqDone => exact .of_next h (.pqComplete _)
  | debug => exact .of_next h (.debugStep _)
  | beginDebug => exact .beginDebug h
  | clock n => exact .of_next h (.advanceClock _ _)
  | evict k => exact .of_next h (.of_watched rfl)
  | commit k => exact .of_next h (.of_watched rfl)
  | internalError k => exact .of_next h (.internalErrorAt _ _)
  | internalErrorActive k => exact .of_next h (.internalErrorActive _ _)
  | fail => exact .of_next h (.of_watched rfl)

theorem Keeps.perform {e : Event} {s t : State} (h : perform e s = .next t) : Keeps s t := by
  cases hq : e.isCommandStep with
  | true =>
    cases e with
    | cqFetch => exact .fetchAndExecute h
    | cqFetchDeferred => exact .of_next h (.fetchDeferred _)
    | cqFence => exact .tryFence h
    | _ => cases hq
  | false =>
    cases hw : e.writesRegister with
    | true =>
      cases e with
      | hostWrite => exact .hostWrite h
      | finishHalf => exact .finishHalf h
      | _ => cases hw
    | false => exact (Steady.perform hq hw h).toKeeps

/-- A step is an event of the agenda, an event that is scheduled, or nothing. -/
theorem step_cases {s t : State} (h : step s = .next t) :
    (∃ e rest, s.agenda = e :: rest ∧ perform e { s with agenda := rest } = .next t) ∨
    (s.agenda = [] ∧ ∃ e, s.scheduled = some e ∧ perform e s = .next t) ∨
    (s.agenda = [] ∧ s.scheduled = none ∧ t = s) := by
  unfold step at h
  split at h
  · next e rest ha => exact .inl ⟨e, rest, ha, h⟩
  · next ha =>
    split at h
    · next e he => exact .inr (.inl ⟨ha, e, he, h⟩)
    · next he =>
      injection h with h
      exact .inr (.inr ⟨ha, he, h.symm⟩)

/-- Every step keeps the platform, the legal values and the pending bits whose level condition holds. -/
theorem Keeps.step {s t : State} (h : step s = .next t) : Keeps s t := by
  obtain ⟨e, rest, _, h⟩ | ⟨_, e, _, h⟩ | ⟨_, _, rfl⟩ := step_cases h
  · exact .before (.perform h) rfl
  · exact .perform h
  · exact (Steady.refl _).toKeeps

/-- Settles O55: every operation keeps the pending bits whose level condition holds. -/
theorem stepKeepsInterruptsHeld : Obligations.StepKeepsInterruptsHeld :=
  fun _ _ hs h => (Keeps.step h).held hs

/-- Settles O58: every operation keeps the legal values. -/
theorem stepKeepsLegalValues : Obligations.StepKeepsLegalValues :=
  fun _ _ hs h => (Keeps.step h).legal hs

/-! ## The head of the command queue -/

/-- A write that does not reach `cqcsr` leaves `cqh`, or is one of `cqb` and cuts it. -/
theorem State.writeWhole_head {s t : State} {o n : Nat} {v : DWord} (h : s.writeWhole o n v = .next t)
    (hc : ¬ (o / 8 = 9 ∧ (n = 8 ∨ o % 8 = 0))) : t.cqh = s.cqh ∨ (o / 8 = 3 ∧ t.cqh = t.cqb.clip s.cqh) := by
  by_cases hb : o / 8 = 3
  · refine .inr ⟨hb, ?_⟩
    unfold State.writeWhole at h
    simp only [hb] at h
    exact (State.writeCqb_keeps h).2
  · exact .inl (Steady.writeDword h hb (by simpa using hc)).cqh

/-- A write by a hart elsewhere than at `cqcsr` leaves `cqh`, or is one of `cqb` and cuts it. -/
theorem State.hostWrite_head {s t : State} {o n : Nat} {v : DWord} (h : s.hostWrite o n v = .next t) (ho : o ≠ 72) :
    t.cqh = s.cqh ∨ ((o = 24 ∨ o = 28) ∧ t.cqh = t.cqb.clip s.cqh) := by
  obtain ⟨hl, hcases⟩ := State.hostWrite_cases h
  obtain ⟨h4, h8⟩ := legalAccess_aligned hl
  obtain ⟨rfl, high, h⟩ | h | h := hcases
  · obtain ⟨u, x, w, b, hu, rfl⟩ := State.writeFirstHalf_cases h
    have hd : (if high then o + 4 else o) / 8 = o / 8 := by have := h8 rfl; split <;> omega
    have := legalAccess_eight hl
    obtain e | ⟨hk, e⟩ := State.writeWhole_head hu (by omega)
    · exact .inl e
    · exact .inr ⟨by omega, e⟩
  all_goals
    obtain e | ⟨hk, e⟩ := State.writeWhole_head h (by omega)
    · exact .inl e
    · exact .inr ⟨by omega, e⟩

/-- The second half of a split access to a 64-bit register leaves `cqh`, or is one of `cqb` and cuts it. -/
theorem State.finishHalf_head {s t : State} {k : Nat} (hs : s.HalvesLegal) (h : s.finishHalf k = .next t) :
    t.cqh = s.cqh ∨ t.cqh = t.cqb.clip s.cqh := by
  obtain ⟨_, e⟩ | ⟨o, high, v, _, e⟩ | ⟨o, high, v, b, hx, e⟩ := s.finishHalf_cases k <;> rw [e] at h
  · exact .inl (Steady.of_next h (.refl s)).cqh
  · exact .inl (Steady.of_next h ((Steady.takeHalf s k).trans (.readSecondHalf _ _ _ _))).cqh
  · have hl := legalAccess_eight (o := o) (hs _ (mem_of_elementAt hx))
    obtain ⟨d, h⟩ | ⟨c, rfl⟩ | h := State.writeSecondHalf_cases h
    · exact .inl (Steady.finishDdtp h).cqh
    · exact .inl rfl
    · have hd : (if high then o + 4 else o) / 8 = o / 8 := by split <;> omega
      exact (State.writeWhole_head h (by omega)).imp id And.right

/-- Settles O59: every event but those of the engine and register writes is steady; of the registers only `cqcsr` and
`cqb` reach `cqh`. -/
theorem onlyTheQueueMovesItsHead : Obligations.OnlyTheQueueMovesItsHead := by
  intro e s t hs hq hc h
  cases hw : e.writesRegister with
  | false => exact .inl (Steady.perform hq hw h).cqh
  | true =>
    cases e with
    | hostWrite o n v =>
      refine (State.hostWrite_head h (by simpa [Event.writesCqcsr] using hc)).imp id fun ⟨ho, e⟩ => ⟨?_, e⟩
      simpa [Event.writesCqb] using ho
    | finishHalf k => exact (State.finishHalf_head hs h).imp id fun e => ⟨rfl, e⟩
    | _ => cases hw

end Sys2Proof.Machine
end


section
/-! SUPPORT. Single registers: the command queue's status and tail, `ipsr`, `capabilities`, reads. -/

namespace Sys2Proof.Machine

/-! ## Writes of 4 bytes -/

/-- A write of the low 4 bytes of a doubleword, in one access. -/
theorem State.writeWhole_low (s : State) {o : Nat} (v : DWord) (ho : o % 8 = 0) :
    s.writeWhole o 4 v =
      s.writeDword (o / 8) ((s.readDword (o / 8)).extractLsb' 32 32 ++ v.extractLsb' 0 32) true false := by
  simp [State.writeWhole, mergeWrite, ho]

/-- A write of the high 4 bytes of a doubleword, in one access. -/
theorem State.writeWhole_high (s : State) {o : Nat} (v : DWord) (ho : o % 8 = 4) :
    s.writeWhole o 4 v =
      s.writeDword (o / 8) (v.extractLsb' 0 32 ++ (s.readDword (o / 8)).extractLsb' 0 32) false true := by
  simp [State.writeWhole, mergeWrite, ho]

/-- A write of 4 bytes by a hart is never split. -/
theorem State.hostWrite_four (s : State) {o : Nat} (v : DWord) (hl : legalAccess o 4 = true) :
    s.hostWrite o 4 v = s.writeWhole o 4 v := by
  simp [State.hostWrite, hl]

/-- A bit of the low word of a value. -/
theorem getLsbD_low (v : DWord) {i : Nat} (hi : i < 32) : (v.extractLsb' 0 32).getLsbD i = v.getLsbD i := by
  simp [hi]

/-! ## The tail of the command queue -/

/-- A clipped index is the index modulo the queue size (10_state R57). -/
theorem QueueBase.clip_toNat (b : QueueBase) (i : BitVec 32) : (b.clip i).toNat = i.toNat % b.entries :=
  Nat.mod_eq_of_lt (lt_of_lt_of_le (Nat.mod_lt _ b.entries_pos) b.entries_le)

theorem State.hostWrite_cqt (s : State) (v : DWord) :
    s.hostWrite 36 4 v = .next { s with cqt := s.cqb.clip (v.extractLsb' 0 32) } := by
  rw [s.hostWrite_four v (by decide), s.writeWhole_high v (by decide), State.writeDword_cqt,
    BitVec.extractLsb'_append_eq_left]
  rfl

/-- Settles O28: the written value is clipped to the queue. -/
theorem cqtWrite : Obligations.CqtWrite := by
  intro s v
  refine ⟨_, s.hostWrite_cqt v, ?_, rfl⟩
  rw [QueueBase.clip_toNat, BitVec.extractLsb'_toNat, Nat.shiftRight_zero]
  rfl

/-! ## `ipsr` -/

theorem State.hostWrite_ipsr (s : State) (v : DWord) :
    s.hostWrite 84 4 v = .next (s.writeIpsr (v.extractLsb' 0 32)) := by
  rw [s.hostWrite_four v (by decide), s.writeWhole_high v (by decide), State.writeDword_pqcsr,
    BitVec.extractLsb'_append_eq_left]
  rfl

/-- Settles O32: re-evaluation after the bits written 1 are cleared. -/
theorem ipsrWrite : Obligations.IpsrWrite := by
  intro s v
  refine ⟨_, s.hostWrite_ipsr v, ?_, ?_, ?_, ?_, rfl⟩ <;>
    simp only [State.writeIpsr, State.reevaluate_ipsr, getLsbD_low v (by decide : 0 < 32),
      getLsbD_low v (by decide : 1 < 32), getLsbD_low v (by decide : 2 < 32), getLsbD_low v (by decide : 3 < 32)] <;>
    rfl

/-! ## The status of the command queue -/

theorem State.hostWrite_cqcsr (s : State) (v : DWord) : s.hostWrite 72 4 v = s.writeCqcsr (v.extractLsb' 0 32) := by
  rw [s.hostWrite_four v (by decide), s.writeWhole_low v (by decide), State.writeDword_cqcsr,
    BitVec.extractLsb'_append_eq_right]
  rfl

/-- `cqcsr` with what a write of `w` leaves of its error bits and sets of `cie`. -/
def State.acknowledged (s : State) (w : Word) : State :=
  { s with cqcsr := { s.cqcsr.clearErrors (w.getLsbD 8) (w.getLsbD 9) (w.getLsbD 10) (w.getLsbD 11) with
    cie := w.getLsbD 1 } }

section
variable {s : State} {w : Word} (hb : s.cqcsr.busy = false)
include hb

/-- A write that turns the queue on. -/
theorem State.writeCqcsr_enable (he : s.cqcsr.cqen = false) (ha : s.cqb.aligned 16 = true) (h0 : w.getLsbD 0 = true) :
    s.writeCqcsr w = .next (s.acknowledged w).cqEnable.reevaluate := by
  simp only [State.writeCqcsr, hb, he, ha, h0, Bool.not_false, Bool.and_self, Bool.false_eq_true, ↓reduceIte]
  rfl

/-- A write that turns the queue off. -/
theorem State.writeCqcsr_disable (he : s.cqcsr.cqen = true) (h0 : w.getLsbD 0 = false) :
    s.writeCqcsr w = .next (s.acknowledged w).cqDisable.reevaluate := by
  simp only [State.writeCqcsr, hb, he, h0, Bool.not_false, Bool.not_true, Bool.and_self, Bool.false_eq_true,
    ↓reduceIte]
  rfl

/-- A write that keeps `cqen`. -/
theorem State.writeCqcsr_keep (he : w.getLsbD 0 = s.cqcsr.cqen) :
    s.writeCqcsr w = .next (State.reevaluate (State.drawBusy { s.acknowledged w with
      cqcsr := { (s.acknowledged w).cqcsr with busy := s.anyWriteBusy } })) := by
  cases hc : s.cqcsr.cqen <;> rw [hc] at he <;>
    simp only [State.writeCqcsr, hb, hc, he, Bool.not_false, Bool.not_true, Bool.and_false, Bool.and_true,
      Bool.false_eq_true, ↓reduceIte] <;>
    rfl

end

/-- Settles O9: the error bits are cleared and nothing else that keeps the queue from fetching stands. -/
theorem clearingErrorsRestarts : Obligations.ClearingErrorsRestarts := by
  intro s v hb he hon hf hfence hne h0 h8 h9 h10
  have hkeep := s.writeCqcsr_keep hb (w := v.extractLsb' 0 32) (by rw [getLsbD_low v (by decide), h0, he])
  obtain ⟨n, hn⟩ := State.drawBusy_frame { s.acknowledged (v.extractLsb' 0 32) with
    cqcsr := { (s.acknowledged (v.extractLsb' 0 32)).cqcsr with busy := s.anyWriteBusy } }
  rw [hn] at hkeep
  refine ⟨_, (s.hostWrite_cqcsr v).trans hkeep, ?_, rfl, rfl, getLsbD_low v (by decide), rfl, rfl⟩
  simp [State.cqReady, State.reevaluate, State.acknowledged, Cqcsr.clearErrors, Cqcsr.stopped, he, hon, hf, hfence,
    hne, h8, h9, h10]

/-- Settles O26: the queue is enabled with everything cleared, at once or when its operations complete. -/
theorem enableCommandQueue : Obligations.EnableCommandQueue := by
  intro s v hb he ha h0
  have hcie := getLsbD_low v (by decide : 1 < 32)
  refine ⟨_, (s.hostWrite_cqcsr v).trans (State.writeCqcsr_enable hb he ha ((getLsbD_low v (by decide)).trans h0)),
    rfl, ?_, _, rfl, ?_⟩
  · rw [← hcie]
    rfl
  · rw [← hcie]
    cases hs : s.cfg.busySync <;>
      simp [State.cqComplete, State.cqEnable, State.reevaluate, State.acknowledged, hs]

/-- A queue that is not enabled fetches nothing. -/
theorem State.cqReady_of_disabled {s : State} (h : s.cqcsr.cqen = false) : s.cqReady = false := by
  simp [State.cqReady, h]

/-- The status of a queue being turned off: off at once with `BUSY_SYNC`, else busy as it was (10_state R71). -/
theorem State.cqDisable_cqcsr (s : State) : s.cqDisable.cqcsr = { s.cqcsr with
    cqen := false, cqon := s.cqcsr.cqon && !s.cfg.busySync, busy := !s.cfg.busySync } := by
  cases hs : s.cfg.busySync <;> simp [State.cqDisable, State.cqOff, hs]

@[simp] theorem State.cqDisable_mem (s : State) : s.cqDisable.mem = s.mem := by
  unfold State.cqDisable State.cqOff
  simp only []
  split <;> rfl

/-- When the operations that turn a queue off have completed it is off, with nothing in flight (40_command_queue
R404). -/
theorem State.cqComplete_cqDisable (s : State) :
    let u := s.cqDisable.reevaluate.cqComplete
    u.cqcsr = { s.cqcsr with cqen := false, cqon := false, busy := false } ∧ u.inflight = [] ∧ u.fence = none := by
  cases hs : s.cfg.busySync <;> simp [State.cqComplete, State.cqDisable, State.cqOff, State.reevaluate, hs]

/-- Settles O27: nothing is fetched with `cqen` at 0, and the queue is off when the operations have completed. -/
theorem disableCommandQueue : Obligations.DisableCommandQueue := by
  intro s v hb he h0
  have hstatus := State.cqDisable_cqcsr (s.acknowledged (v.extractLsb' 0 32))
  obtain ⟨hdone, hinflight, hfence⟩ := State.cqComplete_cqDisable (s.acknowledged (v.extractLsb' 0 32))
  refine ⟨_, (s.hostWrite_cqcsr v).trans (State.writeCqcsr_disable hb he ((getLsbD_low v (by decide)).trans h0)),
    State.cqReady_of_disabled (congrArg Cqcsr.cqen hstatus), congrArg Cqcsr.cqen hstatus, State.cqDisable_mem _,
    fun hs => ?_, _, rfl, congrArg Cqcsr.cqon hdone, congrArg Cqcsr.busy hdone,
    State.cqReady_of_disabled (congrArg Cqcsr.cqen hdone), hinflight, hfence⟩
  refine ⟨(congrArg Cqcsr.busy hstatus).trans ?_, (congrArg Cqcsr.cqon hstatus).trans ?_⟩ <;>
    simp [State.acknowledged, Cqcsr.clearErrors, hs]

/-! ## Reads, and `capabilities` -/

/-- A read notes the value read, and may draw. -/
theorem State.readWhole_frame (s : State) (o n : Nat) : ∃ d,
    s.readWhole o n = { s with hostReads := s.hostReads ++ [⟨o, n, s.readRegister o n⟩], draws := d } :=
  State.drawRead_frame _ o

/-- The first half of a split read is noted among the half-done accesses. -/
theorem State.readFirstHalf_frame (s : State) (o : Nat) (high : Bool) : ∃ d,
    s.readFirstHalf o high = { s with halves := s.halves ++ [.read o (!high) (s.readHalf o high)], draws := d } :=
  State.drawRead_frame _ o

/-- Settles O29, by the two forms of a read. -/
theorem registerReadHasNoSideEffect : Obligations.RegisterReadHasNoSideEffect := by
  intro s t o n h
  obtain ⟨_, ⟨hn, hs, high, rfl⟩ | ⟨hn, hs, rfl⟩ | rfl⟩ := State.hostRead_cases h
  · obtain ⟨d, e⟩ := s.nextDraw.readFirstHalf_frame o high
    rw [e]
    exact ⟨rfl, fun hw => by simp [hn, hs] at hw⟩
  · obtain ⟨d, e⟩ := s.nextDraw.readWhole_frame o n
    rw [e]
    exact ⟨rfl, fun hw => by simp [hn, hs] at hw⟩
  · obtain ⟨d, e⟩ := s.readWhole_frame o n
    rw [e]
    exact ⟨rfl, fun _ => ⟨rfl, rfl⟩⟩

theorem elementAt_append_length {α : Type} (x : α) (xs : List α) : elementAt (xs ++ [x]) xs.length = some x := by
  induction xs with
  | nil => rfl
  | cons y ys ih => exact ih

theorem elementAt_length {α : Type} (xs : List α) : elementAt xs xs.length = none := by
  induction xs with
  | nil => rfl
  | cons y ys ih => exact ih

theorem removeAt_append_length {α : Type} (x : α) (xs : List α) : removeAt (xs ++ [x]) xs.length = xs := by
  induction xs with
  | nil => rfl
  | cons y ys ih => exact congrArg (y :: ·) ih

/-- A write of `capabilities`, whole or of a half, is ignored. -/
theorem State.writeWhole_capabilities (s : State) {o : Nat} (ho : o < 8) (n : Nat) (v : DWord) :
    s.writeWhole o n v = .next s :=
  s.writeDword_other _ _ _ (.inl (by omega))

/-- The forms of an 8-byte write: one half first, or all of it at once. -/
theorem State.hostWrite_eight (s : State) {o : Nat} (v : DWord) (hl : legalAccess o 8 = true) :
    (s.cfg.splitAccesses = true ∧ ∃ high, s.hostWrite o 8 v = s.nextDraw.writeFirstHalf o high v) ∨
    (s.cfg.splitAccesses = true ∧ s.hostWrite o 8 v = s.nextDraw.writeWhole o 8 v) ∨
    (s.cfg.splitAccesses = false ∧ s.hostWrite o 8 v = s.writeWhole o 8 v) := by
  cases hs : s.cfg.splitAccesses with
  | false => exact .inr (.inr ⟨rfl, by simp [State.hostWrite, hl, hs]⟩)
  | true =>
    cases hc : s.splitChoice != 0 with
    | false => exact .inr (.inl ⟨rfl, by simp [State.hostWrite, hl, hs, hc]⟩)
    | true => exact .inl ⟨rfl, s.splitChoice == 1, by simp [State.hostWrite, hl, hs, hc]⟩

/-- The first half of a split write, where the register accepts it. -/
theorem State.writeFirstHalf_next {s u : State} {o : Nat} {high : Bool} {v : DWord}
    (h : s.writeWhole (if high then o + 4 else o) 4
      ((if high then v.extractLsb' 32 32 else v.extractLsb' 0 32).setWidth 64) = .next u) :
    s.writeFirstHalf o high v = .next { u with halves := u.halves ++
      [.write o (!high) (if high then v.extractLsb' 0 32 else v.extractLsb' 32 32) (s.startedIn u)] } := by
  unfold State.writeFirstHalf
  simp only [h]

/-- The half of a split write that was noted last is performed. -/
theorem State.finishHalf_write {t : State} {xs : List HalfAccess} {o : Nat} {high : Bool} {w : Word} {b : Bool}
    (ht : t.halves = xs ++ [.write o high w b]) :
    t.finishHalf xs.length = State.writeSecondHalf { t with halves := xs } o high w b := by
  simp only [State.finishHalf, ht, elementAt_append_length, removeAt_append_length]

/-- A number beyond the half-done accesses names none. -/
theorem State.finishHalf_length (t : State) : t.finishHalf t.halves.length = .next t := by
  simp only [State.finishHalf, elementAt_length]

/-- The second half of a split write of a register without an operation of its own. -/
theorem State.writeSecondHalf_plain (s : State) {o : Nat} (hd : o ≠ 16) (hr : o ≠ 608) (high : Bool) (w : Word)
    (b : Bool) : s.writeSecondHalf o high w b = s.writeWhole (if high then o + 4 else o) 4 (w.setWidth 64) := by
  simp [State.writeSecondHalf, hd, hr]

/-- An 8-byte write of `capabilities` is ignored, with its second half where it is split. -/
theorem State.hostWrite_capabilities (s : State) (v : DWord) :
    ∃ t, s.hostWrite 0 8 v = .next t ∧ t = { s with draws := t.draws, halves := t.halves } ∧
      ∃ u, perform (.finishHalf s.halves.length) t = .next u ∧ u = { s with draws := u.draws } := by
  have half (high : Bool) : (if high then 0 + 4 else 0) < 8 := by cases high <;> decide
  obtain ⟨_, high, e⟩ | ⟨_, e⟩ | ⟨_, e⟩ := s.hostWrite_eight v (o := 0) (by decide) <;> rw [e]
  · refine ⟨_, State.writeFirstHalf_next (s.nextDraw.writeWhole_capabilities (half high) _ _), rfl,
      s.nextDraw, ?_, rfl⟩
    refine (State.finishHalf_write (xs := s.halves) rfl).trans ?_
    rw [State.writeSecondHalf_plain _ (by decide) (by decide)]
    exact State.writeWhole_capabilities _ (half (!high)) _ _
  · exact ⟨_, s.nextDraw.writeWhole_capabilities (by decide) _ _, rfl, _, s.nextDraw.finishHalf_length, rfl⟩
  · exact ⟨_, s.writeWhole_capabilities (by decide) _ _, rfl, _, s.finishHalf_length, rfl⟩

/-- Settles O31: writes are ignored, in every form, and every operation keeps the platform. -/
theorem capabilitiesNeverChange : Obligations.CapabilitiesNeverChange := by
  intro s v
  refine ⟨?_, ?_, s.hostWrite_capabilities v, rfl, fun e t h => congrArg Config.caps (Keeps.perform h).cfg⟩
  · exact (s.hostWrite_four v (by decide)).trans (s.writeWhole_capabilities (by decide) 4 v)
  · exact (s.hostWrite_four v (by decide)).trans (s.writeWhole_capabilities (by decide) 4 v)

end Sys2Proof.Machine
end


section
/-! SUPPORT. Writes of `ddtp` (10_state R43 to R48, R105). -/

namespace Sys2Proof.Machine

/-! ## What a write of `ddtp` holds -/

/-- A mode is accepted as the mode its value encodes (10_state R44). -/
theorem acceptedMode_bits {c : Config} {v : BitVec 4} {m : IommuMode} (h : acceptedMode c v = some m) :
    v = m.bits := by
  unfold acceptedMode at h
  split_ifs at h <;> simp_all [IommuMode.bits] <;> subst h <;> rfl

theorem directoryValue_bits (m : IommuMode) : directoryValue m.bits = m.isDirectory := by
  cases m <;> rfl

/-- What the operation of a `ddtp` write leaves, still pending or, with `BUSY_SYNC`, complete (10_state R45, R47). -/
theorem State.setDdtp_frame (s : State) (p : DdtPointer) : ∃ pages accesses,
    s.setDdtp p = { s with
      ddtp := p, ddtpOld := s.ddtp, ddtpBusy := !s.cfg.busySync
      requests := if p.mode == .off && s.ddtp.mode != .off then s.requests.map (Received.pin s.ddtp) else s.requests
      halves := if s.cfg.busySync then s.halves.map (HalfAccess.ended 16) else s.halves
      pages := pages, accesses := accesses } := by
  unfold State.setDdtp
  simp only []
  cases s.cfg.busySync <;> cases p.mode == .off && s.ddtp.mode != .off <;> exact ⟨_, _, rfl⟩

@[simp] theorem State.setDdtp_trReqCtl (s : State) (p : DdtPointer) : (s.setDdtp p).trReqCtl = s.trReqCtl := by
  obtain ⟨_, _, e⟩ := s.setDdtp_frame p
  rw [e]

/-- The operations of a `ddtp` write keep its value and clear `busy`. -/
theorem State.ddtpComplete_ddtp (s : State) : s.ddtpComplete.ddtp = s.ddtp ∧ s.ddtpComplete.ddtpBusy = false := by
  unfold State.ddtpComplete
  cases h : s.ddtpBusy
  · exact ⟨rfl, h⟩
  · exact ⟨rfl, rfl⟩

/-- A write of an accepted mode that is no change between directory modes. -/
theorem State.writeDdtp_accepted {s : State} {v : DWord} {m : IommuMode} (hb : s.ddtpBusy = false)
    (hg : s.trReqCtl.goBusy = false) (hm : acceptedMode s.cfg (v.extractLsb' 0 4) = some m)
    (hd : ¬ (m.isDirectory = true ∧ s.ddtp.mode.isDirectory = true)) :
    s.writeDdtp v = .next (s.setDdtp ⟨m, v.extractLsb' 10 44⟩) := by
  have hv : directoryValue (v.extractLsb' 0 4) = m.isDirectory := by
    rw [acceptedMode_bits hm, directoryValue_bits]
  have hd' : ¬ (m.isDirectory && s.ddtp.mode.isDirectory) = true := by simpa using hd
  simp only [State.writeDdtp, hb, hv, hd', hm, hg, Bool.false_and, Bool.false_eq_true, ↓reduceIte]

/-! ## The two halves of `ddtp` -/

/-- `ddtp` reads its `PPN` at bits 10 to 53 (10_state R43). -/
theorem State.readDdtp_ppn (s : State) : s.readDdtp.extractLsb' 10 44 = s.ddtp.ppn := by
  unfold State.readDdtp
  rw [BitVec.extractLsb'_append_eq_of_le (by decide), BitVec.extractLsb'_append_eq_of_le (by decide),
    BitVec.extractLsb'_append_eq_of_le (by decide)]
  exact BitVec.extractLsb'_append_eq_right

/-- A doubleword is its two words. -/
theorem words_append (v : DWord) : v.extractLsb' 32 32 ++ v.extractLsb' 0 32 = v := by
  refine BitVec.eq_of_getLsbD_eq fun i hi => ?_
  simp only [BitVec.getLsbD_append, BitVec.getLsbD_extractLsb']
  by_cases h : i < 32
  · simp [h]
  · simp [h, show i - 32 < 32 by omega, show 32 + (i - 32) = i by omega]

/-- A bit of the `PPN` in a doubleword of two words: 22 bits are in the low word, 22 in the high one. -/
theorem ppn_append_getLsbD (hi lo : Word) {i : Nat} (h : i < 44) :
    ((hi ++ lo : DWord).extractLsb' 10 44).getLsbD i = if i < 22 then lo.getLsbD (10 + i) else hi.getLsbD (i - 22) := by
  simp only [BitVec.getLsbD_extractLsb', BitVec.getLsbD_append, h, decide_true, Bool.true_and]
  by_cases h22 : i < 22
  · simp only [h22, show 10 + i < 32 by omega, ↓reduceIte]
  · simp only [h22, show ¬ 10 + i < 32 by omega, show 10 + i - 32 = i - 22 by omega, ↓reduceIte]

/-- Writing the low word after the high one gives the `PPN` of both. -/
theorem ppn_high_first {d : DWord} {hi x : Word} (lo : Word)
    (h : d.extractLsb' 10 44 = (hi ++ x : DWord).extractLsb' 10 44) :
    (d.extractLsb' 32 32 ++ lo : DWord).extractLsb' 10 44 = (hi ++ lo : DWord).extractLsb' 10 44 := by
  refine BitVec.eq_of_getLsbD_eq fun i hi' => ?_
  have hx := congrArg (·.getLsbD i) h
  simp only [ppn_append_getLsbD _ _ hi'] at hx ⊢
  by_cases h22 : i < 22
  · simp only [h22, ↓reduceIte]
  · simp only [h22, ↓reduceIte] at hx ⊢
    rw [← hx]
    simp [hi', show i - 22 < 32 by omega, show 32 + (i - 22) = 10 + i by omega]

/-- Writing the high word after the low one gives the `PPN` of both. -/
theorem ppn_low_first {d : DWord} {lo x : Word} (hi : Word)
    (h : d.extractLsb' 10 44 = (x ++ lo : DWord).extractLsb' 10 44) :
    (hi ++ d.extractLsb' 0 32 : DWord).extractLsb' 10 44 = (hi ++ lo : DWord).extractLsb' 10 44 := by
  refine BitVec.eq_of_getLsbD_eq fun i hi' => ?_
  have hx := congrArg (·.getLsbD i) h
  simp only [ppn_append_getLsbD _ _ hi'] at hx ⊢
  by_cases h22 : i < 22
  · simp only [h22, ↓reduceIte] at hx ⊢
    rw [← hx]
    simp [hi', show 10 + i < 32 by omega]
  · simp only [h22, ↓reduceIte]

/-- The mode field is in the low word. -/
theorem mode_append (hi lo : Word) : (hi ++ lo : DWord).extractLsb' 0 4 = lo.extractLsb' 0 4 :=
  BitVec.extractLsb'_append_eq_of_add_le (by decide)

/-! ## A whole write of `ddtp` -/

/-- What a whole write of `p` to `ddtp` in state `s` leaves when its halves are performed (10_state R43, R45, R47). -/
structure DdtpWritten (s u : State) (p : DdtPointer) : Prop where
  ddtp : u.ddtp = p
  busy : u.ddtpBusy = !s.cfg.busySync
  halves : u.halves = []
  mem : u.mem = s.mem
  ioatc : u.ioatc = s.ioatc
  requests : p.mode = .off → s.ddtp.mode.isDirectory = true → u.requests = s.requests.map (Received.pin s.ddtp)

/-- A whole write in one access. -/
theorem DdtpWritten.setDdtp {s : State} (hh : s.halves = []) (p : DdtPointer) : DdtpWritten s (s.setDdtp p) p := by
  obtain ⟨pages, accesses, e⟩ := s.setDdtp_frame p
  rw [e]
  refine ⟨rfl, rfl, by simp [hh], rfl, rfl, fun hp hs => ?_⟩
  have hne : s.ddtp.mode ≠ .off := fun h => by simp [h, IommuMode.isDirectory] at hs
  simp [hp, hne]

/-- Pinning what is pinned changes nothing. -/
theorem Received.pin_pin {α : Type} (p q : DdtPointer) (x : Received α) : (x.pin p).pin q = x.pin p := rfl

/-- A word as the value of a 4-byte access. -/
theorem extractLsb'_setWidth_word (w : Word) : (w.setWidth 64).extractLsb' 0 32 = w := by
  refine BitVec.eq_of_getLsbD_eq fun i hi => ?_
  simp [hi, show i < 64 by omega]

/-- A write of the low half of `ddtp`. -/
theorem State.writeWhole_ddtpLow (s : State) (w : Word) :
    s.writeWhole 16 4 (w.setWidth 64) = s.writeDdtp (s.readDdtp.extractLsb' 32 32 ++ w) := by
  rw [s.writeWhole_low _ (by decide), extractLsb'_setWidth_word]
  rfl

/-- A write of the high half of `ddtp`. -/
theorem State.writeWhole_ddtpHigh (s : State) (w : Word) :
    s.writeWhole 20 4 (w.setWidth 64) = s.writeDdtpHigh (w ++ s.readDdtp.extractLsb' 0 32) := by
  rw [s.writeWhole_high _ (by decide), extractLsb'_setWidth_word]
  rfl

/-- The high half of `ddtp` after the low one. -/
theorem State.writeSecondHalf_ddtpHigh (s : State) (w : Word) (b : Bool) :
    s.writeSecondHalf 16 true w b = s.finishDdtp (w ++ s.readDdtp.extractLsb' 0 32) b := by
  have merged : mergeWrite (s.readDword 2) 20 4 (w.setWidth 64) = w ++ s.readDdtp.extractLsb' 0 32 :=
    congrArg (· ++ s.readDdtp.extractLsb' 0 32) (extractLsb'_setWidth_word w)
  simp [State.writeSecondHalf, merged]

/-- The low half of `ddtp` after the high one. -/
theorem State.writeSecondHalf_ddtpLow (s : State) (w : Word) (b : Bool) :
    s.writeSecondHalf 16 false w b = s.writeDdtp (s.readDdtp.extractLsb' 32 32 ++ w) :=
  s.writeWhole_ddtpLow w

/-- While no operation is in progress but that of the same write, the high half of `ddtp` is accepted. -/
theorem State.finishDdtp_started {s : State} {b : Bool} (d : DWord) (hb : s.ddtpBusy = b)
    (hg : s.trReqCtl.goBusy = false) : s.finishDdtp d b = .next (s.setDdtpHigh d) := by
  simp [State.finishDdtp, hb, hg]

/-- A split write with no other access pending: its second half meets what the first one left. -/
theorem State.split_write {s t : State} {o : Nat} {high : Bool} {v : DWord}
    (h : s.writeWhole (if high then o + 4 else o) 4
      ((if high then v.extractLsb' 32 32 else v.extractLsb' 0 32).setWidth 64) = .next t) (ht : t.halves = []) :
    ∃ x, s.writeFirstHalf o high v = .next x ∧ x.finishHalf 0 =
      t.writeSecondHalf o (!high) (if high then v.extractLsb' 0 32 else v.extractLsb' 32 32) (s.startedIn t) := by
  refine ⟨_, State.writeFirstHalf_next h, (State.finishHalf_write (xs := []) (by rw [ht])).trans ?_⟩
  rw [← ht]

section
variable {s : State} {v : DWord} {m : IommuMode} (hb : s.ddtpBusy = false) (hg : s.trReqCtl.goBusy = false)
  (hm : acceptedMode s.cfg (v.extractLsb' 0 4) = some m)
  (hd : ¬ (m.isDirectory = true ∧ s.ddtp.mode.isDirectory = true)) (hh : s.halves = [])
include hb hg hm hd hh

/-- The low half first: it starts the operation, and the high half belongs to it. -/
theorem State.writeDdtp_low_first : ∃ t u, s.writeFirstHalf 16 false v = .next t ∧ t.finishHalf 0 = .next u ∧
    DdtpWritten s u ⟨m, v.extractLsb' 10 44⟩ := by
  let lo := v.extractLsb' 0 32
  let hi := v.extractLsb' 32 32
  let d := s.readDdtp.extractLsb' 32 32 ++ lo
  have hmode : d.extractLsb' 0 4 = v.extractLsb' 0 4 := by
    rw [← words_append v, mode_append, mode_append]
  have hlow : s.writeWhole 16 4 (lo.setWidth 64) = .next (s.setDdtp ⟨m, d.extractLsb' 10 44⟩) :=
    (s.writeWhole_ddtpLow lo).trans (State.writeDdtp_accepted hb hg (hmode ▸ hm) hd)
  have hw := DdtpWritten.setDdtp hh ⟨m, d.extractLsb' 10 44⟩
  have hctl := s.setDdtp_trReqCtl ⟨m, d.extractLsb' 10 44⟩
  generalize s.setDdtp ⟨m, d.extractLsb' 10 44⟩ = t at hlow hw hctl
  have hppn : (hi ++ t.readDdtp.extractLsb' 0 32 : DWord).extractLsb' 10 44 = v.extractLsb' 10 44 := by
    conv_rhs => rw [← words_append v]
    exact ppn_low_first hi (t.readDdtp_ppn.trans (congrArg DdtPointer.ppn hw.ddtp))
  have hstarted : s.startedIn t = t.ddtpBusy := by simp [State.startedIn, hb, hg, hctl]
  obtain ⟨x, hx, hfinish⟩ := State.split_write (high := false) hlow hw.halves
  refine ⟨x, t.setDdtpHigh (hi ++ t.readDdtp.extractLsb' 0 32), hx, ?_,
    ⟨?_, hw.busy, hw.halves, hw.mem, hw.ioatc, hw.requests⟩⟩
  · exact hfinish.trans ((t.writeSecondHalf_ddtpHigh hi _).trans
      (State.finishDdtp_started _ hstarted.symm (hctl ▸ hg)))
  · rw [State.setDdtpHigh_ddtp, hppn, hw.ddtp]

/-- The high half first, with the old mode; the low half is then a write of the register. -/
theorem State.writeDdtp_high_first : ∃ t u, s.writeFirstHalf 16 true v = .next t ∧ t.finishHalf 0 = .next u ∧
    DdtpWritten s u ⟨m, v.extractLsb' 10 44⟩ := by
  let lo := v.extractLsb' 0 32
  let hi := v.extractLsb' 32 32
  let d := hi ++ s.readDdtp.extractLsb' 0 32
  let t := State.setDdtpHigh (if s.ddtp.mode.isDirectory then s.pinInFlight s.ddtp else s) d
  have hhigh : s.writeWhole 20 4 (hi.setWidth 64) = .next t := by
    refine (s.writeWhole_ddtpHigh hi).trans ?_
    simp only [State.writeDdtpHigh, hb, hg, Bool.false_and, Bool.false_eq_true, ↓reduceIte]
    rfl
  have kept : t.cfg = s.cfg ∧ t.ddtpBusy = s.ddtpBusy ∧ t.trReqCtl = s.trReqCtl ∧ t.ddtp.mode = s.ddtp.mode ∧
      t.halves = s.halves ∧ t.mem = s.mem ∧ t.ioatc = s.ioatc ∧ t.ddtp.ppn = d.extractLsb' 10 44 ∧
      (s.ddtp.mode.isDirectory = true → t.requests = s.requests.map (Received.pin s.ddtp)) := by
    cases hdir : s.ddtp.mode.isDirectory <;> simp [t, hdir]
  generalize t = t at hhigh kept
  obtain ⟨hcfg, hbusy, hctl, hmode, hhalves, hmem, hioatc, hppn, hpin⟩ := kept
  let low := t.readDdtp.extractLsb' 32 32 ++ lo
  have hlow : low.extractLsb' 0 4 = v.extractLsb' 0 4 ∧ low.extractLsb' 10 44 = v.extractLsb' 10 44 := by
    rw [← words_append v, mode_append, mode_append]
    exact ⟨rfl, ppn_high_first lo (t.readDdtp_ppn.trans hppn)⟩
  have hacc := State.writeDdtp_accepted (s := t) (v := low) (m := m) (hbusy.trans hb) (hctl ▸ hg)
    (by rw [hlow.1, hcfg]; exact hm) (by rwa [hmode])
  rw [hlow.2] at hacc
  have hw := DdtpWritten.setDdtp (hhalves.trans hh) ⟨m, v.extractLsb' 10 44⟩
  obtain ⟨x, hx, hfinish⟩ := State.split_write (high := true) hhigh (hhalves.trans hh)
  refine ⟨x, _, hx, hfinish.trans ((t.writeSecondHalf_ddtpLow lo _).trans hacc),
    ⟨hw.ddtp, hw.busy.trans (by rw [hcfg]), hw.halves, hw.mem.trans hmem, hw.ioatc.trans hioatc, fun hp hs => ?_⟩⟩
  rw [hw.requests hp (hmode ▸ hs), hpin hs, List.map_map]
  exact List.map_congr_left fun r _ => r.pin_pin _ _

/-- In one access. -/
theorem State.writeDdtp_whole : ∃ t u, s.writeWhole 16 8 v = .next t ∧ t.finishHalf 0 = .next u ∧
    DdtpWritten s u ⟨m, v.extractLsb' 10 44⟩ := by
  have hw := DdtpWritten.setDdtp hh ⟨m, v.extractLsb' 10 44⟩
  have hf := State.finishHalf_length (s.setDdtp ⟨m, v.extractLsb' 10 44⟩)
  rw [hw.halves] at hf
  exact ⟨_, _, State.writeDdtp_accepted hb hg hm hd, hf, hw⟩

end

theorem DdtpWritten.of_nextDraw {s u : State} {p : DdtPointer} (h : DdtpWritten s.nextDraw u p) : DdtpWritten s u p :=
  ⟨h.ddtp, h.busy, h.halves, h.mem, h.ioatc, h.requests⟩

section
variable {s : State} {v : DWord} (hb : s.ddtpBusy = false)
include hb

/-- A whole write of an accepted mode that is no change between directory modes, in any form. -/
theorem State.hostWrite_ddtp {m : IommuMode} (hg : s.trReqCtl.goBusy = false) (hh : s.halves = [])
    (hm : acceptedMode s.cfg (v.extractLsb' 0 4) = some m)
    (hd : ¬ (m.isDirectory = true ∧ s.ddtp.mode.isDirectory = true)) :
    ∃ t u, s.hostWrite 16 8 v = .next t ∧ t.finishHalf 0 = .next u ∧ DdtpWritten s u ⟨m, v.extractLsb' 10 44⟩ := by
  obtain ⟨_, high, e⟩ | ⟨_, e⟩ | ⟨_, e⟩ := s.hostWrite_eight v (o := 16) (by decide) <;> rw [e]
  · cases high with
    | false =>
      obtain ⟨t, u, ht, hu, hw⟩ := State.writeDdtp_low_first (s := s.nextDraw) hb hg hm hd hh
      exact ⟨t, u, ht, hu, hw.of_nextDraw⟩
    | true =>
      obtain ⟨t, u, ht, hu, hw⟩ := State.writeDdtp_high_first (s := s.nextDraw) hb hg hm hd hh
      exact ⟨t, u, ht, hu, hw.of_nextDraw⟩
  · obtain ⟨t, u, ht, hu, hw⟩ := State.writeDdtp_whole (s := s.nextDraw) hb hg hm hd hh
    exact ⟨t, u, ht, hu, hw.of_nextDraw⟩
  · exact State.writeDdtp_whole hb hg hm hd hh

/-- A directory mode in a directory mode is refused (10_state R48, U6). -/
theorem State.writeDdtp_directory (hv : directoryValue (v.extractLsb' 0 4) = true)
    (hs : s.ddtp.mode.isDirectory = true) : s.writeDdtp v = .refused .illegalModeTransition := by
  simp only [State.writeDdtp, hb, hv, hs, Bool.and_self, Bool.false_eq_true, ↓reduceIte]

/-- Any other mode that is not accepted starts an operation that leaves the value (D4, 10_state R45). -/
theorem State.writeDdtp_illegal (hh : s.halves = []) (hm : acceptedMode s.cfg (v.extractLsb' 0 4) = none)
    (hv : ¬ (directoryValue (v.extractLsb' 0 4) = true ∧ s.ddtp.mode.isDirectory = true)) :
    s.writeDdtp v = .next { s with ddtpOld := s.ddtp, ddtpBusy := !s.cfg.busySync } := by
  have hv' : ¬ (directoryValue (v.extractLsb' 0 4) && s.ddtp.mode.isDirectory) = true := by simpa using hv
  simp only [State.writeDdtp, hb, hv', hm, Bool.false_eq_true, ↓reduceIte]
  cases hs : s.cfg.busySync <;>
    simp [State.setDdtp, State.ddtpComplete, State.endOperation, hs, hh]

end

/-- The encodings of the directory modes (10_state R44). -/
theorem directoryValue_iff (x : BitVec 4) : directoryValue x = true ↔ x ∈ [2#4, 3#4, 4#4] := by
  simp [directoryValue, or_assoc]

/-- An 8-byte write where accesses are not split. -/
theorem State.hostWrite_ddtp_whole {s : State} (v : DWord) (hs : s.cfg.splitAccesses = false) :
    s.hostWrite 16 8 v = s.writeDdtp v := by
  obtain ⟨h, _⟩ | ⟨h, _⟩ | ⟨_, e⟩ := s.hostWrite_eight v (o := 16) (by decide)
  · exact absurd (hs.symm.trans h) (by decide)
  · exact absurd (hs.symm.trans h) (by decide)
  · exact e

/-- Settles O33: the three forms of a write of an accepted mode, and what an unsplit write of any other does. -/
theorem ddtpWrite : Obligations.DdtpWrite := by
  intro s v hb hg hh
  refine ⟨fun m hm hd => ?_, fun hv hs hsplit => ?_, fun hm hv hsplit => ?_⟩
  · obtain ⟨t, u, ht, hu, hw⟩ := State.hostWrite_ddtp hb hg hh hm hd
    exact ⟨t, u, ht, hu, hw.ddtp, hw.busy, hw.halves, hw.mem, hw.ioatc, hw.requests, _, rfl, u.ddtpComplete_ddtp⟩
  · exact (State.hostWrite_ddtp_whole v hsplit).trans
      (State.writeDdtp_directory hb ((directoryValue_iff _).mpr hv) hs)
  · rw [← directoryValue_iff] at hv
    exact (State.hostWrite_ddtp_whole v hsplit).trans (State.writeDdtp_illegal hb hh hm hv)

end Sys2Proof.Machine
end


section
/-! SUPPORT. The performance monitor's functions, one equation per case, and the statements about them
(11_state_hpm_debug R130 to R143). -/

namespace Sys2Proof.Machine

/-! ## The overflow of a counter -/

/-- What an overflow of a counter raises, given the counter's `OF` bit before it (11_state_hpm_debug R135, R137). -/
def State.raiseOverflow (s : State) (of : Bool) : State := if of then s else s.raisePmip

/-- An overflow sets `pmip` iff `OF` was 0. -/
@[simp] theorem State.raiseOverflow_ipsr (s : State) (of : Bool) :
    (s.raiseOverflow of).ipsr = { s.ipsr with pmip := s.ipsr.pmip || !of } := by
  cases of <;> simp [State.raiseOverflow, State.raisePmip]

@[simp] theorem State.raiseOverflow_iohpmcycles (s : State) (of : Bool) :
    (s.raiseOverflow of).iohpmcycles = s.iohpmcycles := by cases of <;> rfl

@[simp] theorem State.raiseOverflow_iohpmctr (s : State) (of : Bool) :
    (s.raiseOverflow of).iohpmctr = s.iohpmctr := by cases of <;> rfl

@[simp] theorem State.raiseOverflow_iohpmevt (s : State) (of : Bool) :
    (s.raiseOverflow of).iohpmevt = s.iohpmevt := by cases of <;> rfl

/-! ## The cycle counter -/

/-- While bit 0 of `iocountinh` is 1, the clock counts nothing (11_state_hpm_debug R132). -/
theorem State.advanceClock_inhibited {s : State} (n : Nat) (hi : s.iocountinh.getLsbD 0 = true) :
    s.advanceClock n = s := by
  simp [State.advanceClock, hi]

/-- The clock touches nothing but its counter, the pending bits and the owed MSIs. -/
theorem State.advanceClock_frame (s : State) (n : Nat) :
    s.advanceClock n =
      { s with
        iohpmcycles := (s.advanceClock n).iohpmcycles
        ipsr := (s.advanceClock n).ipsr
        msiOwed := (s.advanceClock n).msiOwed } := by
  unfold State.advanceClock
  split
  · rfl
  · simp only []
    split <;> rfl

section
variable {s : State} {n : Nat} (hp : s.cfg.hpm = true) (hi : s.iocountinh.getLsbD 0 = false)
include hp hi

/-- Cycles that fit the counter are added to it. -/
theorem State.advanceClock_of_lt (hv : s.iohpmcycles.counter.toNat + n < 2 ^ s.cfg.cyclesWidth) :
    s.advanceClock n =
      { s with iohpmcycles := ⟨BitVec.ofNat 63 (s.iohpmcycles.counter.toNat + n), s.iohpmcycles.of⟩ } := by
  simp only [State.advanceClock, hp, hi, Nat.mod_eq_of_lt hv, Nat.not_le.mpr hv]
  simp

/-- Cycles that do not fit wrap the counter, set `OF` and raise the overflow. -/
theorem State.advanceClock_of_le (hv : 2 ^ s.cfg.cyclesWidth ≤ s.iohpmcycles.counter.toNat + n) :
    s.advanceClock n = State.raiseOverflow { s with iohpmcycles :=
      ⟨BitVec.ofNat 63 ((s.iohpmcycles.counter.toNat + n) % 2 ^ s.cfg.cyclesWidth), true⟩ } s.iohpmcycles.of := by
  simp only [State.advanceClock, State.raiseOverflow, hp, hi, hv]
  cases s.iohpmcycles.of <;> rfl

end

/-- Settles O48, by whether the cycle fits the counter. -/
theorem cycleCounterStep : Obligations.CycleCounterStep := by
  intro s hp hw _
  refine ⟨fun hi => congrArg Host.Outcome.next (State.advanceClock_inhibited 1 hi), fun hi =>
    ⟨_, rfl, s.advanceClock_frame 1, fun hv => ?_, fun hv => ?_⟩⟩
  · have hfit : s.iohpmcycles.counter.toNat + 1 < 2 ^ 63 := lt_of_lt_of_le hv (Nat.pow_le_pow_right two_pos hw)
    rw [State.advanceClock_of_lt hp hi hv]
    exact ⟨Nat.mod_eq_of_lt hfit, rfl, rfl⟩
  · rw [State.advanceClock_of_le hp hi hv.ge]
    simp [hv]

/-! ## The event counters -/

/-- An increment that does not leave the counter's width is made, and nothing else. -/
theorem State.incrementCounter_of_ne {s : State} {n : Fin 31}
    (hv : (s.iohpmctr.get n).toNat + 1 ≠ 2 ^ s.cfg.hpmWidth) :
    s.incrementCounter n =
      { s with iohpmctr := s.iohpmctr.set n (BitVec.ofNat 64 ((s.iohpmctr.get n).toNat + 1)) } := by
  simp [State.incrementCounter, hv]

/-- An increment of the greatest value wraps the counter, sets its `OF` and raises the overflow. -/
theorem State.incrementCounter_of_eq {s : State} {n : Fin 31}
    (hv : (s.iohpmctr.get n).toNat + 1 = 2 ^ s.cfg.hpmWidth) :
    s.incrementCounter n = State.raiseOverflow
      { s with
        iohpmctr := s.iohpmctr.set n 0#64
        iohpmevt := s.iohpmevt.set n { s.iohpmevt.get n with of := true } } (s.iohpmevt.get n).of := by
  cases hof : (s.iohpmevt.get n).of with
  | false => simp [State.incrementCounter, State.raiseOverflow, hv, hof]
  | true =>
    have hsame : { s.iohpmevt.get n with of := true } = s.iohpmevt.get n := by rw [← hof]
    have hset : s.iohpmevt.set n (s.iohpmevt.get n) = s.iohpmevt := Vector.set_getElem_self n.isLt
    simp [State.incrementCounter, State.raiseOverflow, hv, hof, hsame, hset]

/-- Reading an element of the counters or selectors after a write of it. -/
theorem get_set_self {α : Type} {m : Nat} (v : Vector α m) (n : Fin m) (x : α) : (v.set n x).get n = x :=
  Vector.getElem_set_self n.isLt

/-- Reading an element after a write of another. -/
theorem get_set_ne {α : Type} {m : Nat} (v : Vector α m) {k n : Fin m} (x : α) (h : k ≠ n) :
    (v.set n x).get k = v.get k :=
  Vector.getElem_set_ne n.isLt k.isLt (Fin.val_ne_of_ne h.symm)

/-- An increment leaves the other counters and their selectors. -/
theorem State.incrementCounter_others (s : State) {m n : Fin 31} (hm : m ≠ n) :
    (s.incrementCounter n).iohpmctr.get m = s.iohpmctr.get m ∧
      (s.incrementCounter n).iohpmevt.get m = s.iohpmevt.get m := by
  by_cases hv : (s.iohpmctr.get n).toNat + 1 = 2 ^ s.cfg.hpmWidth
  · simp only [State.incrementCounter_of_eq hv, State.raiseOverflow_iohpmctr, State.raiseOverflow_iohpmevt]
    exact ⟨get_set_ne _ _ hm, get_set_ne _ _ hm⟩
  · rw [State.incrementCounter_of_ne hv]
    exact ⟨get_set_ne _ _ hm, rfl⟩

/-- Settles O49, by whether the increment fits the counter; `OnlyCounters` says what it leaves of the state. -/
theorem eventCounterIncrement : Obligations.EventCounterIncrement := by
  intro s n hw _
  have hmem : (s.incrementCounter n).mem = s.mem := by rw [onlyCounters_incrementCounter s n]
  refine ⟨fun m hm => State.incrementCounter_others s hm, hmem, fun hv => ?_, fun hv => ?_⟩
  · have hfit : (s.iohpmctr.get n).toNat + 1 < 2 ^ 64 := lt_of_lt_of_le hv (Nat.pow_le_pow_right two_pos hw)
    simp only [State.incrementCounter_of_ne hv.ne, get_set_self]
    exact ⟨Nat.mod_eq_of_lt hfit, trivial, trivial⟩
  · simp [State.incrementCounter_of_eq hv, get_set_self]

/-! ## The partial match of `DID_GSCID` -/

/-- The lowest 0 bit, if it is among the bits looked at, is at the number of ones below it. -/
theorem trailingOnes_eq {d n k : Nat} (hk : k < n) (hzero : d.testBit k = false)
    (hones : ∀ j, j < k → d.testBit j = true) : trailingOnes d n = k := by
  induction n generalizing d k with
  | zero => omega
  | succ n ih =>
    cases k with
    | zero =>
      have heven : d % 2 ≠ 1 := by simpa using hzero
      simp [trailingOnes, heven]
    | succ k =>
      have hodd : d % 2 = 1 := by simpa using hones 0 (Nat.succ_pos k)
      have hrec : trailingOnes (d / 2) n = k := ih (by omega) (by rwa [← Nat.testBit_succ])
        fun j hj => by rw [← Nat.testBit_succ]; exact hones _ (by omega)
      simp [trailingOnes, hodd, hrec, Nat.add_comm]

/-- Equal quotients by `2 ^ k` are equal bits from bit `k` on. -/
theorem div_two_pow_eq_iff {w : Nat} (x y : BitVec w) (k : Nat) :
    x.toNat / 2 ^ k = y.toNat / 2 ^ k ↔ ∀ j, k ≤ j → j < w → x.getLsbD j = y.getLsbD j := by
  simp only [← Nat.shiftRight_eq_div_pow, ← BitVec.toNat_ushiftRight, BitVec.toNat_inj]
  constructor
  · intro h j hj _
    simpa [hj] using congrArg (BitVec.getLsbD · (j - k)) h
  · intro h
    refine BitVec.eq_of_getLsbD_eq fun i _ => ?_
    by_cases hi : k + i < w
    · simpa using h (k + i) (Nat.le_add_right k i) hi
    · simp [BitVec.getLsbD_of_ge _ _ (Nat.not_lt.mp hi)]

/-- Without `DMASK`, equality. -/
theorem didMatch_of_unmasked {e : HpmEvent} (hm : e.dmask = false) (id : BitVec 24) :
    didMatch e id.toNat = true ↔ id = e.didGscid := by
  simp [didMatch, hm, BitVec.toNat_inj]

/-- With the lowest 0 bit at `k`, the bits above it are compared (11_state_hpm_debug R143). -/
theorem didMatch_of_lowest_zero {e : HpmEvent} (hm : e.dmask = true) (id : BitVec 24) {k : Nat} (hk : k < 24)
    (hzero : e.didGscid.getLsbD k = false) (hones : ∀ j, j < k → e.didGscid.getLsbD j = true) :
    didMatch e id.toNat = true ↔ ∀ j, k < j → j < 24 → id.getLsbD j = e.didGscid.getLsbD j := by
  have hlow : trailingOnes e.didGscid.toNat 24 = k := trailingOnes_eq hk hzero hones
  have hne : k ≠ 24 := hk.ne
  simp [didMatch, hm, hlow, hne, div_two_pow_eq_iff]

/-- With no 0 bit, every id matches (D25). -/
theorem didMatch_of_all_ones {e : HpmEvent} (hm : e.dmask = true) (hd : e.didGscid = 0xFFFFFF#24) (id : Nat) :
    didMatch e id = true := by
  have hlow : trailingOnes (0xFFFFFF#24).toNat 24 = 24 := by decide
  simp only [didMatch, hm, hd, hlow]
  simp

/-- Settles O50, one lemma for each form of the filter. -/
theorem dmaskMatch : Obligations.DmaskMatch := fun _ id =>
  ⟨(didMatch_of_unmasked · id), fun hm _ => didMatch_of_lowest_zero hm id, (didMatch_of_all_ones · · _)⟩

/-! ## `iocountovf` -/

/-- Setting the bits `f n` of those `n` of a list that satisfy `p`. -/
theorem getLsbD_foldl_or {α : Type} (p : α → Bool) (f : α → Nat) (ns : List α) (w : Word) {i : Nat} (hi : i < 32) :
    (ns.foldl (fun w n => if p n then w ||| 1#32 <<< f n else w) w).getLsbD i = true ↔
      w.getLsbD i = true ∨ ∃ n ∈ ns, p n = true ∧ f n = i := by
  induction ns generalizing w with
  | nil => simp
  | cons n ns ih =>
    have hset : (1#32 <<< f n).getLsbD i = true ↔ f n = i := by
      rw [← BitVec.twoPow_eq]
      simp [hi, eq_comm]
    have hstep : (if p n then w ||| 1#32 <<< f n else w).getLsbD i = true ↔
        w.getLsbD i = true ∨ p n = true ∧ f n = i := by
      cases p n
      · simp
      · simp only [↓reduceIte, BitVec.getLsbD_or, Bool.or_eq_true, hset, true_and]
    rw [List.foldl_cons, ih, hstep, List.exists_mem_cons_iff, or_assoc]

/-- What sets bit `i` of `iocountovf`: the cycle counter, or an implemented event counter. -/
theorem State.iocountovf_getLsbD (s : State) {i : Nat} (hi : i < 32) :
    s.iocountovf.getLsbD i = true ↔ (i = 0 ∧ s.iohpmcycles.of = true) ∨
      ∃ n : Fin 31, (n.val < s.cfg.hpmCounters ∧ (s.iohpmevt.get n).of = true) ∧ n.val + 1 = i := by
  have hcycles : (if s.iohpmcycles.of then 1#32 else 0#32).getLsbD i = true ↔ i = 0 ∧ s.iohpmcycles.of = true := by
    cases s.iohpmcycles.of <;> simp [BitVec.getLsbD_one]
  refine (getLsbD_foldl_or _ _ _ _ hi).trans (or_congr hcycles ?_)
  simp

/-- Settles O51: each bit is set by one counter only. -/
theorem overflowShadow : Obligations.OverflowShadow := by
  refine fun s => ⟨?_, fun n => ?_⟩ <;> rw [Bool.eq_iff_iff, s.iocountovf_getLsbD (by omega)]
  · simp
  · simp [← Fin.ext_iff]

end Sys2Proof.Machine
end


section
/-! SUPPORT. A hart's store, and the shapes of register accesses (20_memory R180, R182). -/

namespace Sys2Proof.Machine

/-! ## A hart's store -/

/-- Settles O53: the store is one of bytes at ascending addresses. -/
theorem hartStoreReadsBack : Obligations.HartStoreReadsBack := fun s a bs h =>
  ⟨{ s with mem := s.mem.writeBytes a bs }, if_pos h, rfl, Memory.readBytes_writeBytes bs s.mem a,
    fun b hb => Memory.read_writeBytes_outside bs s.mem a b hb⟩

/-! ## The shapes of register accesses -/

/-- The doublewords of two 4-byte registers, by their offsets. -/
theorem isRegisterPair_iff {o : Nat} (h : o % 8 = 0) : isRegisterPair (o / 8) = true ↔
    o ∈ [8, 32, 48, 64, 72, 80, 88] ∨ 768 ≤ o ∧ o < 1024 ∧ o % 16 = 8 := by
  simp only [isRegisterPair, Bool.or_eq_true, Bool.and_eq_true, beq_iff_eq, decide_eq_true_eq, List.mem_cons,
    List.not_mem_nil, or_false]
  constructor <;> omega

/-- The legal shapes: 4 or 8 bytes, aligned, inside the page, and not over two registers. -/
theorem legalAccess_iff (o n : Nat) : legalAccess o n = true ↔ (n = 4 ∨ n = 8) ∧ o % n = 0 ∧ o + n ≤ 4096 ∧
    ¬ (n = 8 ∧ (o ∈ [8, 32, 48, 64, 72, 80, 88] ∨ 768 ≤ o ∧ o < 1024 ∧ o % 16 = 8)) := by
  simp only [legalAccess, Bool.and_eq_true, Bool.or_eq_true, decide_eq_true_eq, beq_iff_eq, Bool.not_eq_true']
  constructor
  · rintro ⟨hpage, ⟨rfl, ho⟩ | ⟨⟨rfl, ho⟩, hpair⟩⟩
    · exact ⟨.inl rfl, ho, hpage, fun h => absurd h.1 (by decide)⟩
    · refine ⟨.inr rfl, ho, hpage, fun h => ?_⟩
      rw [(isRegisterPair_iff ho).mpr h.2] at hpair
      cases hpair
  · rintro ⟨rfl | rfl, ho, hpage, hpair⟩
    · exact ⟨hpage, .inl ⟨rfl, ho⟩⟩
    · refine ⟨hpage, .inr ⟨⟨rfl, ho⟩, ?_⟩⟩
      rw [Bool.eq_false_iff, ne_eq, isRegisterPair_iff ho]
      exact fun h => hpair ⟨rfl, h⟩

/-- The operation is not refused for the shape of an access (U1). -/
def ShapeAccepted (x : Host.Outcome State Fault Refusal) : Prop := ∀ o n, x ≠ .refused (.registerAccess o n)

theorem ShapeAccepted.next (s : State) : ShapeAccepted (.next s) := fun _ _ h => by cases h

theorem ShapeAccepted.refused {r : Refusal} (h : ∀ o n, r ≠ .registerAccess o n) : ShapeAccepted (.refused r) :=
  fun o n e => by injection e with e; exact h o n e

theorem ShapeAccepted.ite {p : Prop} [Decidable p] {x y : Host.Outcome State Fault Refusal} (hx : ShapeAccepted x)
    (hy : ShapeAccepted y) : ShapeAccepted (if p then x else y) := by
  split
  · exact hx
  · exact hy

section
variable (s : State) (v : DWord) (w : Word) (low high : Bool)

theorem ShapeAccepted.writeFctl : ShapeAccepted (s.writeFctl w) :=
  .ite (.next _) (.ite (.refused nofun) (.ite (.refused nofun) (.next _)))

theorem ShapeAccepted.writeDdtp : ShapeAccepted (s.writeDdtp v) := by
  refine .ite (.refused nofun) (.ite (.refused nofun) ?_)
  split
  · exact .next _
  · exact .ite (.refused nofun) (.next _)

theorem ShapeAccepted.writeDdtpHigh : ShapeAccepted (s.writeDdtpHigh v) :=
  .ite (.refused nofun) (.ite (.refused nofun) (.next _))

theorem ShapeAccepted.writeCqcsr : ShapeAccepted (s.writeCqcsr w) :=
  .ite (.refused nofun) (.ite (.ite (.next _) (.refused nofun)) (.ite (.next _) (.next _)))

theorem ShapeAccepted.writeFqcsr : ShapeAccepted (s.writeFqcsr w) :=
  .ite (.refused nofun) (.ite (.ite (.next _) (.refused nofun)) (.ite (.next _) (.next _)))

theorem ShapeAccepted.writePqcsr : ShapeAccepted (s.writePqcsr w) :=
  .ite (.refused nofun) (.ite (.ite (.next _) (.refused nofun)) (.ite (.next _) (.next _)))

theorem ShapeAccepted.writeCqb : ShapeAccepted (s.writeCqb v) := .ite (.refused nofun) (.next _)

theorem ShapeAccepted.writeFqb : ShapeAccepted (s.writeFqb v) := .ite (.refused nofun) (.next _)

theorem ShapeAccepted.writePqb : ShapeAccepted (s.writePqb v) := .ite (.refused nofun) (.next _)

theorem ShapeAccepted.writeTrReqIova : ShapeAccepted (s.writeTrReqIova v) := .ite (.refused nofun) (.next _)

theorem ShapeAccepted.writeTrReqCtl : ShapeAccepted (s.writeTrReqCtl v low) := .ite (.refused nofun) (.next _)

/-- A write of a register may be refused, but not for its shape: each register names the refusals of its own. -/
theorem ShapeAccepted.writeDword (k : Nat) : ShapeAccepted (s.writeDword k v low high) := by
  obtain rfl | rfl | rfl | rfl | rfl | rfl | rfl | rfl | rfl | rfl | rfl | rfl | hk | hk | rfl | rfl | rfl | hk | hk :=
    dword_cases k
  · rw [State.writeDword_fctl]
    exact .ite (.writeFctl s _) (.next s)
  · rw [State.writeDword_ddtp]
    exact .ite (.writeDdtp s v) (.writeDdtpHigh s v)
  · rw [State.writeDword_cqb]
    exact .writeCqb s v
  · rw [State.writeDword_cqt]
    exact .next _
  · rw [State.writeDword_fqb]
    exact .writeFqb s v
  · rw [State.writeDword_fqh]
    exact .next _
  · rw [State.writeDword_pqb]
    exact .ite (.writePqb s v) (.next s)
  · rw [State.writeDword_pqh]
    exact .next _
  · rw [State.writeDword_cqcsr]
    exact .ite (.writeCqcsr s _) (.writeFqcsr s _)
  · rw [State.writeDword_pqcsr]
    exact .ite (.ite (.writePqcsr s _) (.next s)) (.next _)
  · rw [State.writeDword_countInhibit]
    exact .next _
  · rw [State.writeDword_cycles]
    exact .next _
  · rw [State.writeDword_counter s v low high hk]
    exact .next _
  · rw [State.writeDword_selector s v low high hk]
    exact .next _
  · rw [State.writeDword_trReqIova]
    exact .ite (.writeTrReqIova s v) (.next s)
  · rw [State.writeDword_trReqCtl]
    exact .ite (.writeTrReqCtl s v low) (.next s)
  · rw [State.writeDword_icvec]
    exact .next _
  · rw [State.writeDword_msi s v low high hk]
    exact .next _
  · rw [State.writeDword_other s v low high hk]
    exact .next s

theorem ShapeAccepted.writeWhole (o n : Nat) : ShapeAccepted (s.writeWhole o n v) := .writeDword _ _ _ _ _

theorem ShapeAccepted.writeFirstHalf (o : Nat) (high : Bool) : ShapeAccepted (s.writeFirstHalf o high v) := by
  have half := ShapeAccepted.writeWhole s
  unfold State.writeFirstHalf
  simp only []
  split
  · exact .next _
  · exact nofun
  · next r e => exact e ▸ half _ _ _

end

section
variable (s : State) {o n : Nat}

/-- An access of another shape is refused. -/
theorem State.hostAccess_refused (v : DWord) (h : legalAccess o n = false) :
    s.hostRead o n = .refused (.registerAccess o n) ∧ s.hostWrite o n v = .refused (.registerAccess o n) := by
  simp [State.hostRead, State.hostWrite, h]

/-- A read of a legal shape answers. -/
theorem State.hostRead_answers (h : legalAccess o n = true) : ∃ t, s.hostRead o n = .next t := by
  simp only [State.hostRead, h, Bool.not_true, Bool.false_eq_true, ↓reduceIte]
  split
  · exact ⟨_, rfl⟩
  · split <;> exact ⟨_, rfl⟩

/-- A write of a legal shape is not refused for its shape. -/
theorem ShapeAccepted.hostWrite (v : DWord) (h : legalAccess o n = true) : ShapeAccepted (s.hostWrite o n v) := by
  simp only [State.hostWrite, h, Bool.not_true, Bool.false_eq_true, ↓reduceIte]
  exact .ite (.writeFirstHalf _ _ _ _) (.ite (.writeWhole _ _ _ _) (.writeWhole _ _ _ _))

end

/-- Settles O34: the shapes are those of `legalAccess`, and no register refuses another. -/
theorem otherAccessesAreRefused : Obligations.OtherAccessesAreRefused := by
  intro s o n v twoRegisters
  refine ⟨fun h => s.hostAccess_refused v ?_, fun hn ho hpage hpair => ?_⟩
  · rw [Bool.eq_false_iff, ne_eq, legalAccess_iff]
    rintro ⟨hn, ho, hpage, hpair⟩
    obtain ⟨h4, h8⟩ | h | h | h := h
    · exact hn.elim h4 h8
    · exact h ho
    · omega
    · exact hpair h
  · have hl := (legalAccess_iff o n).mpr ⟨hn, ho, hpage, hpair⟩
    exact ⟨s.hostRead_answers hl, ShapeAccepted.hostWrite s v hl⟩

end Sys2Proof.Machine
end

section
/-! SUPPORT. The relation `Tidy`: memory stays canonical and the indices stay in their queues (20_memory R221; log entry
2). Reports, records, messages, requests and activations are tidy. -/

namespace Sys2Proof.Machine

/-! ## What a step keeps of memory and indices -/

/-- From `s` to `t` the memory, with what activations have found of it, stays canonical, and the indices stay in their
queues. -/
structure Tidy (s t : State) : Prop where
  canonical : s.MemoryCanonical → t.MemoryCanonical
  inRange : s.IndicesInRange → t.IndicesInRange

/-- What the invariants on memory and indices speak of. -/
def State.placed (s : State) :=
  ((s.mem, s.activations), (s.cqb, s.cqh, s.cqt), (s.fqb, s.fqh, s.fqt), (s.pqb, s.pqh, s.pqt))

theorem Tidy.refl (s : State) : Tidy s s := ⟨id, id⟩

theorem Tidy.trans {s t u : State} (h : Tidy s t) (k : Tidy t u) : Tidy s u :=
  ⟨k.canonical ∘ h.canonical, k.inRange ∘ h.inRange⟩

/-- An update of nothing that is placed is tidy. -/
theorem Tidy.of_placed {s t : State} (h : t.placed = s.placed) : Tidy s t := by
  simp only [State.placed, Prod.mk.injEq] at h
  obtain ⟨⟨hmem, hact⟩, ⟨hcqb, hcqh, hcqt⟩, ⟨hfqb, hfqh, hfqt⟩, hpqb, hpqh, hpqt⟩ := h
  constructor
  · unfold State.MemoryCanonical
    rw [hmem, hact]
    exact id
  · unfold State.IndicesInRange
    rw [hcqb, hcqh, hcqt, hfqb, hfqh, hfqt, hpqb, hpqh, hpqt]
    exact id

/-- A tidy change, as the answer of an operation. -/
theorem Tidy.of_next {s t u : State} (h : Host.Outcome.next u = (.next t : Host.Outcome State Fault Refusal))
    (k : Tidy s u) : Tidy s t := by
  injection h with h
  exact h ▸ k

/-- Before a tidy change, an update of nothing that is placed. -/
theorem Tidy.before {s t u : State} (k : Tidy t u) (h : t.placed = s.placed) : Tidy s u :=
  (Tidy.of_placed h).trans k

/-- After a tidy change, an update of nothing that is placed. -/
theorem Tidy.after {s t u : State} (k : Tidy s t) (h : u.placed = t.placed) : Tidy s u :=
  k.trans (Tidy.of_placed h)

/-- A tidy change that is made or not. -/
theorem Tidy.ite {s t : State} {b : Prop} [Decidable b] (h : Tidy s t) : Tidy s (if b then t else s) := by
  split
  · exact h
  · exact .refl s

/-! ### The updates of what is placed -/

section
variable (s : State)

/-- Memory takes a canonical value. -/
theorem Tidy.setMem {m : Memory} (h : s.mem.wf = true → m.wf = true) : Tidy s { s with mem := m } :=
  ⟨fun hs => ⟨h hs.1, hs.2⟩, id⟩

/-- The activations under way become others that have found canonical memories. -/
theorem Tidy.setActivations {as : List Activation} (h : s.MemoryCanonical → ∀ a ∈ as, a.MemoryCanonical) :
    Tidy s { s with activations := as } :=
  ⟨fun hs => ⟨hs.1, h hs⟩, id⟩

/-- The head of the command queue moves within it. -/
theorem Tidy.setCqh {i : BitVec 32} (h : i.toNat < s.cqb.entries) : Tidy s { s with cqh := i } :=
  ⟨id, fun ⟨cqt, fqh, pqh, _, fqt, pqt⟩ => ⟨cqt, fqh, pqh, h, fqt, pqt⟩⟩

/-- The tail of the fault queue moves within it. -/
theorem Tidy.setFqt {i : BitVec 32} (h : i.toNat < s.fqb.entries) : Tidy s { s with fqt := i } :=
  ⟨id, fun ⟨cqt, fqh, pqh, cqh, _, pqt⟩ => ⟨cqt, fqh, pqh, cqh, h, pqt⟩⟩

/-- The tail of the page-request queue moves within it. -/
theorem Tidy.setPqt {i : BitVec 32} (h : i.toNat < s.pqb.entries) : Tidy s { s with pqt := i } :=
  ⟨id, fun ⟨cqt, fqh, pqh, cqh, fqt, _⟩ => ⟨cqt, fqh, pqh, cqh, fqt, h⟩⟩

theorem Tidy.dropActivation (k : Nat) : Tidy s (s.dropActivation k) :=
  .setActivations s fun hs a ha => hs.2 a (mem_of_mem_removeAt ha)

/-- An invalidation tells the activations of it, and not what they have found. -/
theorem Tidy.invalidate (i : Invalidation) : Tidy s (s.invalidate i) := by
  refine .after (.setActivations s (as := s.activations.map (Activation.lose i)) fun hs a ha => ?_) rfl
  obtain ⟨b, hb, rfl⟩ := List.mem_map.mp ha
  exact hs.2 b hb

theorem Tidy.raiseFip : Tidy s s.raiseFip := .of_placed (by simp [State.placed])

theorem Tidy.raisePip : Tidy s s.raisePip := .of_placed (by simp [State.placed])

theorem Tidy.advanceClock (n : Nat) : Tidy s (s.advanceClock n) := by
  rw [s.advanceClock_frame n]
  exact .of_placed rfl

/-! ## Answers and reports -/

/-- After a tidy change, the end of an activation whose process left canonical memory. -/
theorem Tidy.answer {s t u : State} {w : Walk} (k : Tidy s t) (h : OnlyAnswer t u w)
    (hw : s.MemoryCanonical → w.Canonical) : Tidy s u := by
  unfold OnlyAnswer at h
  rw [h]
  exact ⟨fun hs => ⟨(hw hs).1, (k.canonical hs).2⟩, k.inRange⟩

/-- The end of an activation whose process left canonical memory. -/
theorem Tidy.of_answer {s t : State} {w : Walk} (h : OnlyAnswer s t w) (hw : s.MemoryCanonical → w.Canonical) :
    Tidy s t :=
  (Tidy.refl s).answer h hw

/-- An activation performed in one go finds the memory of the machine. -/
theorem State.startWalk_canonical {s : State} (hs : s.MemoryCanonical) : s.startWalk.Canonical :=
  Walk.start_canonical hs.1 (List.forall_mem_nil _)

theorem Tidy.reportFault (cause : Nat) (dtf : Bool) (r : FaultRecord) : Tidy s (s.reportFault cause dtf r) := by
  obtain ⟨fs, e⟩ := s.reportFault_frame cause dtf r
  exact .of_placed (by rw [e]; rfl)

theorem Tidy.respond (m : PageRequest) (st : PageStatus) (b : Bool) : Tidy s (s.respond m st b) := by
  obtain ⟨ms, e⟩ := s.respond_frame m st b
  exact .of_placed (by rw [e]; rfl)

theorem Tidy.publish (r : TrResponse) : Tidy s (s.publish r) := .of_placed rfl

theorem Tidy.abortFailed (r : Request) : Tidy s (s.abortFailed r) := .of_placed rfl

/-- A request that an internal error hits ends as one whose process did nothing. -/
theorem Tidy.breakRequest (r : Request) : Tidy s (s.breakRequest r) := by
  unfold State.breakRequest
  split
  · exact .abortFailed s r
  · have counted : OnlyAnswer s (s.countEvent r.type.hpmEvent ⟨r.deviceId, r.processId, none, none⟩ 1) s.startWalk :=
      .of_counters (onlyCounters_countEvent _ _ _ s)
    exact .of_answer (counted.fail _ _ _ _) State.startWalk_canonical

/-! ## Records -/

/-- The fault queue's status changes, with an interrupt. -/
theorem Tidy.fqStatus (q : Fqcsr) : Tidy s (State.raiseFip { s with fqcsr := q }) :=
  .before (t := { s with fqcsr := q }) (.raiseFip _) rfl

/-- The page-request queue's status changes, with an interrupt. -/
theorem Tidy.pqStatus (q : Pqcsr) : Tidy s (State.raisePip { s with pqcsr := q }) :=
  .before (t := { s with pqcsr := q }) (.raisePip _) rfl

/-- A record of the page-request queue is stored at its tail, which moves on, or refused. -/
theorem Tidy.storePage (m : PageRequest) (prpr : Bool) : Tidy s (s.storePage m prpr) := by
  have stored : Tidy s { s with
      mem := (storeDwords s.cfg s.fctl.be s.mem (s.pqb.entryAddr 16 s.pqt) m.dwords).1 } :=
    .setMem s (storeDwords_wf _ _ _ _)
  unfold State.storePage
  split
  · exact .respond s _ _ _
  split
  · exact .respond s _ _ _
  split
  · exact (Tidy.pqStatus s _).trans (.respond _ _ _ _)
  simp only []
  split
  · exact .trans (stored.trans (.setPqt _ (s.pqb.next_lt _))) (.raisePip _)
  · exact (stored.trans (.pqStatus _ _)).trans (.respond _ _ _ _)

theorem Tidy.storePages (xs : List PageRecord) : Tidy s (s.storePages xs) :=
  State.storePages_keeps (Tidy s) (fun t m b h => h.trans (.storePage t m b)) xs s (.refl s)

/-- A record of the fault queue is stored at its tail, which moves on, or refused. -/
theorem Tidy.writeRecord (r : FaultRecord) : Tidy s (s.writeRecord r) := by
  have stored : Tidy s { s with
      mem := (storeDwords s.cfg s.fctl.be s.mem (s.fqb.entryAddr 32 s.fqt) r.dwords).1 } :=
    .setMem s (storeDwords_wf _ _ _ _)
  unfold State.writeRecord
  split
  · exact .refl s
  split
  · exact .refl s
  split
  · exact .fqStatus s _
  simp only []
  split
  · exact .trans (stored.trans (.setFqt _ (s.fqb.next_lt _))) (.raiseFip _)
  · exact stored.trans (.fqStatus _ _)

theorem Tidy.writeFault (k : Nat) : Tidy s (s.writeFault k) := by
  unfold State.writeFault
  split
  · exact .before (.writeRecord _ _) rfl
  · exact .refl s

theorem Tidy.dropFault (k : Nat) : Tidy s (s.dropFault k) := by
  unfold State.dropFault
  split
  · exact .ite (.of_placed rfl)
  · exact .refl s

/-- An MSI is a store of four bytes, or its fault. -/
theorem Tidy.msiSend (v : BitVec 4) : Tidy s (s.msiSend v) := by
  unfold State.msiSend
  split
  · exact .refl s
  simp only []
  split
  · exact .after (.setMem s (Memory.wf_write32 _ _ _)) rfl
  · exact .before (.reportFault _ _ _ _) rfl

/-! ## Messages -/

theorem Tidy.acceptPage (m : PageRequest) (prpr : Bool) : Tidy s (s.acceptPage m prpr) := by
  unfold State.acceptPage
  split
  · exact .respond s _ _ _
  · exact .of_placed rfl

theorem Tidy.queuePage (m : PageRequest) (prpr : Bool) : Tidy s (s.queuePage m prpr) := by
  unfold State.queuePage
  split
  · exact .respond s _ _ _
  · exact .storePage s _ _

theorem Tidy.answerPage {queue : State → PageRequest → Bool → State} (hq : ∀ u m b, Tidy u (queue u m b))
    (m : PageRequest) {y : EStateM.Result FaultInfo Walk DeviceContext}
    (hy : s.MemoryCanonical → (walkAfter y).Canonical) : Tidy s (s.answerPage queue m y) := by
  have absorbed : Tidy s (s.absorbMessage (walkAfter y) m.deviceId m.pasid) :=
    .of_answer (s.absorbMessage_frame _ _ _) hy
  cases y with
  | error e w => exact (absorbed.trans (.reportFault _ _ _ _)).trans (.respond _ _ _ _)
  | ok d w =>
    unfold State.answerPage
    simp only []
    split
    · exact absorbed.trans (hq _ _ _)
    · exact (absorbed.trans (.reportFault _ _ _ _)).trans (.respond _ _ _ _)

theorem Tidy.handleOther (ps : List DdtPointer) (m : OtherMessage) : Tidy s (s.handleOther ps m) := by
  unfold State.handleOther
  split
  · exact .refl s
  · exact .of_answer (s.answerOther_frame _ _) fun hs => KeepsCanonical.messageDc _ _ _ _ _ (State.startWalk_canonical hs)

theorem Tidy.handlePage {queue : State → PageRequest → Bool → State} (hq : ∀ u m b, Tidy u (queue u m b))
    (ps : List DdtPointer) (m : PageRequest) : Tidy s (s.handlePage ps queue m) := by
  unfold State.handlePage
  split
  · exact .refl s
  split
  · exact .handleOther s _ _
  · exact .answerPage s hq _ fun hs => KeepsCanonical.messageDc _ _ _ _ _ (State.startWalk_canonical hs)

theorem Tidy.writePage : Tidy s s.writePage := by
  unfold State.writePage
  split
  · exact .before (.storePage _ _ _) rfl
  · split
    · exact .refl s
    · exact .before (.handlePage _ Tidy.queuePage _ _) rfl
  · exact .refl s

theorem Tidy.decidePage : Tidy s s.decidePage := by
  unfold State.decidePage
  split
  · split
    · exact .refl s
    · exact .before (.handlePage _ Tidy.acceptPage _ _) rfl
  · exact .refl s

theorem Tidy.invalCompleted (did : BitVec 24) (k : Nat) : Tidy s (s.invalCompleted did k) := by
  unfold State.invalCompleted
  split
  · exact .refl s
  · refine .before (t := s.completed k) ?_ rfl
    exact .of_answer (State.answerCompletion_frame _ _ _) fun hs =>
      KeepsCanonical.messageDc _ _ _ _ _ (State.startWalk_canonical hs)

theorem Tidy.invalTimedOut (k : Nat) : Tidy s (s.invalTimedOut k) := .ite (.of_placed rfl)

/-! ## Requests, debug requests and activations -/

theorem Tidy.internalErrorAt (k : Nat) : Tidy s (s.internalErrorAt k) := by
  unfold State.internalErrorAt
  split
  · exact .before (.breakRequest _ _) rfl
  · exact .refl s

theorem Tidy.internalErrorActive (k : Nat) : Tidy s (s.internalErrorActive k) := by
  unfold State.internalErrorActive
  split
  case h_1 => exact .trans (.dropActivation s k) (.breakRequest _ _)
  all_goals exact .refl s

theorem Tidy.drawSkips : Tidy s s.drawSkips := .ite (.of_placed rfl)

theorem Tidy.debugStep : Tidy s s.debugStep := by
  unfold State.debugStep
  split
  · exact .refl s
  split
  · exact .publish s _
  · refine (Tidy.drawSkips s).trans ?_
    exact .of_answer (State.answerDebug_frame _ _ _) fun hs =>
      KeepsCanonical.translate _ _ _ _ _ _ (State.startWalk_canonical hs)

theorem Tidy.endFailed (t : Task) : Tidy s (s.endFailed t) := by
  cases t with
  | request r => exact .abortFailed s r
  | debug r b => exact .publish s _
  | page m => exact .refl s
  | other m => exact .refl s
  | completion did => exact .refl s

end

section
variable {s t : State}

theorem Tidy.serveAt {k : Nat} (h : s.serveAt k = .next t) : Tidy s t := by
  unfold State.serveAt at h
  split at h
  · unfold serveRequest at h
    split at h
    · exact .of_next h (.before (.abortFailed _ _) rfl)
    · refine .before (.of_answer (State.answerRequest_frame h) fun hs => ?_) rfl
      exact KeepsCanonical.serveProcess _ _ _ _ (State.startWalk_canonical hs)
  · exact .of_next h (.refl s)

/-- After a tidy change, an activation that has found canonical memories goes on to its next access, or ends as its task
says. -/
theorem Tidy.run {u : State} {a : Activation} (k : Tidy s t) (ha : s.MemoryCanonical → a.MemoryCanonical)
    (h : t.run a = .next u) : Tidy s u := by
  obtain ⟨x, hx, rfl⟩ | ⟨r, y, _, hy, h⟩ | ⟨r, b, y, _, hy, rfl⟩ | ⟨m, y, _, hy, rfl⟩ | ⟨m, y, _, hy, rfl⟩ |
    ⟨did, y, _, hy, rfl⟩ := State.run_cases h
  · refine ⟨fun hs => ⟨hx (ha hs), fun b hb => ?_⟩, k.inRange⟩
    obtain hb | hb := List.mem_append.mp hb
    · exact (k.canonical hs).2 b hb
    · exact List.mem_singleton.mp hb ▸ ha hs
  · exact k.answer (State.answerRequest_frame h) (hy ∘ ha)
  · exact k.answer (t.answerDebug_frame _ _) (hy ∘ ha)
  · exact k.answer (t.answerPage_frame _ _) (hy ∘ ha)
  · exact k.answer (t.answerOther_frame _ _) (hy ∘ ha)
  · exact k.answer (t.answerCompletion_frame _ _) (hy ∘ ha)

/-- An activation that begins has found the memory of the machine. -/
theorem Tidy.begin {ps : List DdtPointer} {x : Task} (h : s.begin ps x = .next t) : Tidy s t :=
  (Tidy.refl s).run (fun hs => ⟨hs.1, List.forall_mem_nil _⟩) h

theorem Tidy.advance {k pick : Nat} (h : s.advance k pick = .next t) : Tidy s t := by
  obtain ⟨_, rfl⟩ | ⟨a, _, _, rfl⟩ | ⟨a, hk, _, h⟩ := State.advance_cases h
  · exact .refl _
  · exact .trans (.dropActivation s k) (.endFailed _ _)
  · have found (hs : s.MemoryCanonical) : (a.turn s pick).MemoryCanonical :=
      Activation.turn_canonical (hs.2 a (mem_of_elementAt hk)) hs.1 pick
    exact (Tidy.dropActivation s k).run found h

theorem Tidy.beginTranslate {k : Nat} (h : s.beginTranslate k = .next t) : Tidy s t := by
  unfold State.beginTranslate at h
  split at h
  · exact .of_next h (.refl s)
  simp only [] at h
  split at h
  · exact .of_next h (.before (.abortFailed _ _) rfl)
  · exact .before (.begin h) rfl

theorem Tidy.beginPage (h : s.beginPage = .next t) : Tidy s t := by
  unfold State.beginPage at h
  split at h
  · exact .of_next h (.refl s)
  simp only [] at h
  split at h
  · exact .of_next h (.refl s)
  split at h
  · exact .of_next h (.of_placed rfl)
  · exact .before (.begin h) rfl

theorem Tidy.beginOther {m : OtherMessage} (h : s.beginOther m = .next t) : Tidy s t := by
  unfold State.beginOther at h
  split at h
  · exact .of_next h (.refl s)
  · exact .begin h

theorem Tidy.beginCompletion {did : BitVec 24} {k : Nat} (h : s.beginCompletion did k = .next t) : Tidy s t := by
  unfold State.beginCompletion at h
  split at h
  · exact .of_next h (.refl s)
  · exact .before (.begin h) rfl

theorem Tidy.beginDebug (h : s.beginDebug = .next t) : Tidy s t := by
  unfold State.beginDebug at h
  split at h
  · exact .of_next h (.refl s)
  split at h
  · exact .of_next h (.publish s _)
  · exact (Tidy.drawSkips s).trans (.begin h)

end

end Sys2Proof.Machine
end

section
/-! SUPPORT. Commands, and the operations of `ddtp` and the queues, are tidy. -/

namespace Sys2Proof.Machine

/-! ## Commands -/

section
variable (s : State)

theorem Tidy.takeCommandError (e : CommandError) : Tidy s (s.takeCommandError e) := .of_placed (by simp [State.placed])

theorem Tidy.advanceHead : Tidy s s.advanceHead := .setCqh s (s.cqb.next_lt _)

theorem Tidy.fenceStore (av : Bool) (data : BitVec 32) (addr : BitVec 62) : Tidy s (s.fenceStore av data addr) :=
  .ite (.setMem s (Memory.wf_write32 _ _ _))

theorem Tidy.fenceSignal (wsi : Bool) : Tidy s (s.fenceSignal wsi) := .of_placed (by simp [State.placed])

/-- A fence reports a timeout or a fault, or makes its store and lets the queue go on. -/
theorem Tidy.completeFence (av wsi pr pw : Bool) (data : BitVec 32) (addr : BitVec 62) :
    Tidy s (s.completeFence av wsi pr pw data addr) := by
  obtain ⟨_, e⟩ | ⟨_, _, e⟩ | ⟨_, _, e⟩ := s.completeFence_cases av wsi pr pw data addr <;> rw [e]
  · exact .before (.takeCommandError _ _) rfl
  · exact .before (.takeCommandError _ _) rfl
  · have stored : Tidy s
        { ((s.commitPrevious pr pw).fenceStore av data addr).fenceSignal wsi with fence := none } :=
      .after (.before ((Tidy.fenceStore (s.commitPrevious pr pw) av data addr).trans (.fenceSignal _ wsi)) rfl) rfl
    exact stored.trans (.advanceHead _)

/-- The effect of a command other than a fence is an invalidation or a message. -/
theorem Tidy.deferredEffect (i : Instr) : Tidy s (deferredEffect i s) := by
  cases i with
  | iotinvalVma => exact .invalidate s _
  | iotinvalGvma => exact .invalidate s _
  | iofenceC => exact .refl s
  | iodirInvalDdt => exact .invalidate s _
  | iodirInvalPdt => exact .invalidate s _
  | atsInval => exact .of_placed rfl
  | atsPrgr => exact .of_placed rfl

theorem Tidy.fetchedEffect (i : Instr) : Tidy s (fetchedEffect i s) := by
  have effect := Tidy.deferredEffect s i
  cases i with
  | atsInval => exact effect.after rfl
  | _ => exact effect

theorem Tidy.fetchDeferred : Tidy s s.fetchDeferred := by
  unfold State.fetchDeferred
  split
  · exact .refl s
  split
  · exact .takeCommandError s _
  split
  · exact .takeCommandError s _
  split
  · exact .of_placed rfl
  · exact .before (.advanceHead _) rfl

theorem Tidy.executeInFlight (k : Nat) : Tidy s (s.executeInFlight k) := by
  unfold State.executeInFlight
  split
  · exact .refl s
  split
  · exact (Tidy.deferredEffect s _).after rfl
  · exact .refl s

theorem Tidy.abandon (k : Nat) : Tidy s (s.abandon k) := .ite (.of_placed rfl)

end

section
variable {s t : State}

theorem Tidy.exec {i : Instr} (h : Machine.exec i s = .next t) : Tidy s t := by
  cases hi : isFence i with
  | false =>
    rw [exec_of_not_fence hi] at h
    unfold State.executeFetched at h
    split at h
    · exact .of_next h ((Tidy.fetchedEffect s i).trans (.advanceHead _))
    · exact .of_next h (.takeCommandError s _)
  | true =>
    obtain ⟨av, wsi, pr, pw, data, addr, rfl⟩ := (isFence_iff i).mp hi
    change execIofenceC av wsi pr pw data addr s = .next t at h
    unfold execIofenceC at h
    split at h
    · exact .of_next h (.takeCommandError s _)
    split at h
    · exact .of_next h (.completeFence s _ _ _ _ _ _)
    · exact .of_next h (.of_placed rfl)

theorem Tidy.fetchAndExecute (h : s.fetchAndExecute = .next t) : Tidy s t := by
  unfold State.fetchAndExecute at h
  split at h
  · exact .of_next h (.refl s)
  split at h
  · exact .of_next h (.takeCommandError s _)
  · exact .exec h

theorem Tidy.tryFence (h : s.tryFence = .next t) : Tidy s t := by
  unfold State.tryFence at h
  split at h
  · split at h
    · exact .before (.exec h) rfl
    · exact .of_next h (.refl s)
  · exact .of_next h (.refl s)

end

/-! ## The operations of `ddtp` and of the queues -/

section
variable (s : State)

theorem Tidy.ddtpComplete : Tidy s s.ddtpComplete := by
  unfold State.ddtpComplete
  split
  · exact .refl s
  · exact .of_placed rfl

theorem Tidy.cqComplete : Tidy s s.cqComplete := by
  unfold State.cqComplete
  split
  · exact .refl s
  split <;> exact .of_placed rfl

theorem Tidy.fqComplete : Tidy s s.fqComplete := by
  unfold State.fqComplete
  split
  · exact .refl s
  split <;> exact .of_placed rfl

theorem Tidy.pqOff : Tidy s s.pqOff :=
  .after (.before (.storePages { s with pageRecords := [] } s.pageRecords) rfl) rfl

theorem Tidy.pqComplete : Tidy s s.pqComplete := by
  unfold State.pqComplete
  split
  · exact .refl s
  split
  · exact .of_placed rfl
  · exact .pqOff s

end

end Sys2Proof.Machine
end


section
/-! SUPPORT. Register accesses leave what was received, is under way or was answered, and, but for a write of `pqcsr`
that writes decided records, memory (20_memory R181; log entry 34). -/

namespace Sys2Proof.Machine

/-! ## What a register access leaves -/

/-- `t` is what a register access may make of `s`: the cache, what was received, is under way or was answered are the
same. -/
structure Accessed (s t : State) : Prop extends Tidy s t where
  ioatc : t.ioatc = s.ioatc
  requests : t.requests.map (·.item) = s.requests.map (·.item)
  pages : t.pages.map (·.item) = s.pages.map (·.item)
  completions : t.completions = s.completions
  activations : t.activations = s.activations

/-- `Accessed`, and memory, the messages sent and the decided records are the same. -/
structure Quiet (s t : State) : Prop extends Accessed s t where
  mem : t.mem = s.mem
  messages : t.messages = s.messages
  pageRecords : t.pageRecords = s.pageRecords

/-- `Accessed`, where decided records wait that a write turning the page-request queue off at once writes (10_state
R87). -/
structure WritesRecords (s t : State) : Prop extends Accessed s t where
  busySync : s.cfg.busySync = true
  waiting : s.pageRecords ≠ []

/-- What a quiet access leaves alone. -/
def State.beyondRegisters (s : State) :=
  ((s.ioatc, s.requests.map (·.item), s.pages.map (·.item)), (s.completions, s.activations),
    (s.mem, s.messages, s.pageRecords))

theorem Accessed.trans {s t u : State} (h : Accessed s t) (k : Accessed t u) : Accessed s u :=
  ⟨h.toTidy.trans k.toTidy, k.ioatc.trans h.ioatc, k.requests.trans h.requests, k.pages.trans h.pages,
    k.completions.trans h.completions, k.activations.trans h.activations⟩

theorem Quiet.trans {s t u : State} (h : Quiet s t) (k : Quiet t u) : Quiet s u :=
  ⟨h.toAccessed.trans k.toAccessed, k.mem.trans h.mem, k.messages.trans h.messages,
    k.pageRecords.trans h.pageRecords⟩

/-- An update of registers that keeps the indices in their queues is quiet. -/
theorem Quiet.of_registers {s t : State} (h : t.beyondRegisters = s.beyondRegisters)
    (hi : s.IndicesInRange → t.IndicesInRange) : Quiet s t := by
  simp only [State.beyondRegisters, Prod.mk.injEq] at h
  obtain ⟨⟨hioatc, hreq, hpages⟩, ⟨hcomp, hact⟩, hmem, hmsg, hrec⟩ := h
  refine ⟨⟨⟨?_, hi⟩, hioatc, hreq, hpages, hcomp, hact⟩, hmem, hmsg, hrec⟩
  unfold State.MemoryCanonical
  rw [hmem, hact]
  exact id

theorem Quiet.refl (s : State) : Quiet s s := .of_registers rfl id

/-- After a write that writes decided records, a quiet change. -/
theorem WritesRecords.after {s t u : State} (h : WritesRecords s t) (k : Quiet t u) : WritesRecords s u :=
  ⟨h.toAccessed.trans k.toAccessed, h.busySync, h.waiting⟩

theorem Quiet.of_next {s t u : State} (h : Host.Outcome.next u = (.next t : Host.Outcome State Fault Refusal))
    (k : Quiet s u) : Quiet s t := by
  injection h with h
  exact h ▸ k

theorem Quiet.ite {s t : State} {b : Prop} [Decidable b] (h : Quiet s t) : Quiet s (if b then t else s) := by
  split
  · exact h
  · exact .refl s

/-! ## Writes of single registers -/

section
variable (s : State)

/-- What is in flight is marked, and stays (10_state R47). -/
theorem Quiet.pinInFlight (p : DdtPointer) : Quiet s (s.pinInFlight p) :=
  .of_registers (by simp [State.beyondRegisters, State.pinInFlight, Received.pin, Function.comp_def]) id

theorem Quiet.ddtpComplete : Quiet s s.ddtpComplete := by
  unfold State.ddtpComplete
  split
  · exact .refl s
  · exact .of_registers rfl id

theorem Quiet.setDdtp (p : DdtPointer) : Quiet s (s.setDdtp p) := by
  have pinned : Quiet s
      { (if p.mode == .off && s.ddtp.mode != .off then s.pinInFlight s.ddtp else s) with
        ddtpOld := s.ddtp, ddtp := p, ddtpBusy := true } :=
    (Quiet.ite (Quiet.pinInFlight s s.ddtp)).trans (.of_registers rfl id)
  unfold State.setDdtp
  simp only []
  split
  · exact pinned.trans (.ddtpComplete _)
  · exact pinned

theorem Quiet.setDdtpHigh (v : DWord) : Quiet s (s.setDdtpHigh v) := .of_registers rfl id

/-- The page-request queue goes off with no record decided. -/
theorem Quiet.pqOff (h : s.pageRecords = []) : Quiet s s.pqOff :=
  .of_registers (by simp [State.beyondRegisters, State.pqOff, State.storePages, h]) (Tidy.pqOff s).inRange

/-- Writing a decided record leaves what every register access leaves. -/
theorem Accessed.storePage (m : PageRequest) (prpr : Bool) : Accessed s (s.storePage m prpr) := by
  have tidy := Tidy.storePage s m prpr
  obtain ⟨_, _, _, _, _, _, e⟩ := s.storePage_frame m prpr
  rw [e] at tidy ⊢
  exact ⟨tidy, rfl, rfl, rfl, rfl, rfl⟩

theorem Accessed.storePages (xs : List PageRecord) : Accessed s (s.storePages xs) :=
  State.storePages_keeps (Accessed s) (fun t m b h => h.trans (.storePage t m b)) xs s (Quiet.refl s).toAccessed

theorem Accessed.pqOff : Accessed s s.pqOff := by
  have stored := Accessed.storePages { s with pageRecords := [] } s.pageRecords
  exact ⟨Tidy.pqOff s, stored.ioatc, stored.requests, stored.pages, stored.completions, stored.activations⟩

theorem Quiet.writeMsiEntry (x : Fin 16) (upper : Bool) (v : DWord) : Quiet s (s.writeMsiEntry x upper v) :=
  .ite (.of_registers rfl id)

end

/-! ### After a quiet change, the further pieces of a write of a queue's status -/

section
variable {s t : State} (k : Quiet s t)
include k

theorem Quiet.reevaluate : Quiet s t.reevaluate := k.trans (.of_registers rfl id)

theorem Quiet.drawBusy : Quiet s t.drawBusy := by
  obtain ⟨n, e⟩ := t.drawBusy_frame
  rw [e]
  exact k.trans (.of_registers rfl id)

theorem Quiet.cqDisable : Quiet s t.cqDisable := by
  unfold State.cqDisable
  simp only []
  split <;> exact k.trans (.of_registers rfl id)

theorem Quiet.fqDisable : Quiet s t.fqDisable := by
  unfold State.fqDisable
  simp only []
  split <;> exact k.trans (.of_registers rfl id)

end

/-- Turning the page-request queue off is quiet unless it is done at once with records waiting. -/
theorem State.pqDisable_cases (s : State) (q : Pqcsr) :
    Quiet s (State.pqDisable { s with pqcsr := q }) ∨ WritesRecords s (State.pqDisable { s with pqcsr := q }) := by
  have disabled : Quiet s { s with pqcsr := { q with pqen := false, busy := true } } := .of_registers rfl id
  unfold State.pqDisable
  simp only []
  split
  · next hb =>
    by_cases hr : s.pageRecords = []
    · exact .inl (disabled.trans (.pqOff _ hr))
    · exact .inr ⟨disabled.toAccessed.trans (.pqOff _), hb, hr⟩
  · exact .inl disabled

section
variable {s t : State} {v : DWord} {w : Word}

theorem Quiet.writeFctl (h : s.writeFctl w = .next t) : Quiet s t := by
  unfold State.writeFctl at h
  extract_lets f at h
  split at h
  · exact .of_next h (.refl s)
  split at h
  · cases h
  split at h
  · cases h
  · exact .of_next h (.of_registers rfl id)

theorem Quiet.writeDdtp (h : s.writeDdtp v = .next t) : Quiet s t := by
  unfold State.writeDdtp at h
  split at h
  · cases h
  split at h
  · cases h
  split at h
  · exact .of_next h (.setDdtp s _)
  simp only [] at h
  split at h
  · cases h
  · exact .of_next h (.setDdtp s _)

theorem Quiet.writeDdtpHigh (h : s.writeDdtpHigh v = .next t) : Quiet s t := by
  unfold State.writeDdtpHigh at h
  split at h
  · cases h
  split at h
  · cases h
  · exact .of_next h ((Quiet.ite (Quiet.pinInFlight s s.ddtp)).trans (.setDdtpHigh _ v))

theorem Quiet.finishDdtp {started : Bool} (h : s.finishDdtp v started = .next t) : Quiet s t := by
  unfold State.finishDdtp at h
  split at h
  · cases h
  split at h
  · cases h
  · exact .of_next h (.setDdtpHigh s v)

/-- A base write leaves both indices of its queue within the new size (10_state R30, R54). -/
theorem Quiet.writeCqb (h : s.writeCqb v = .next t) : Quiet s t := by
  unfold State.writeCqb at h
  split at h
  · cases h
  · exact .of_next h (.of_registers rfl fun ⟨_, fqh, pqh, _, fqt, pqt⟩ =>
      ⟨QueueBase.clip_lt _ _, fqh, pqh, QueueBase.clip_lt _ _, fqt, pqt⟩)

theorem Quiet.writeFqb (h : s.writeFqb v = .next t) : Quiet s t := by
  unfold State.writeFqb at h
  split at h
  · cases h
  · exact .of_next h (.of_registers rfl fun ⟨cqt, _, pqh, cqh, _, pqt⟩ =>
      ⟨cqt, QueueBase.clip_lt _ _, pqh, cqh, QueueBase.clip_lt _ _, pqt⟩)

theorem Quiet.writePqb (h : s.writePqb v = .next t) : Quiet s t := by
  unfold State.writePqb at h
  split at h
  · cases h
  · exact .of_next h (.of_registers rfl fun ⟨cqt, fqh, _, cqh, fqt, _⟩ =>
      ⟨cqt, fqh, QueueBase.clip_lt _ _, cqh, fqt, QueueBase.clip_lt _ _⟩)

/-- A queue that is enabled begins at index 0 (10_state R70). -/
theorem Quiet.writeCqcsr (h : s.writeCqcsr w = .next t) : Quiet s t := by
  unfold State.writeCqcsr at h
  simp only [] at h
  split at h
  · cases h
  split at h
  · split at h
    · exact .of_next h (.of_registers rfl fun ⟨cqt, fqh, pqh, _, fqt, pqt⟩ =>
        ⟨cqt, fqh, pqh, s.cqb.entries_pos, fqt, pqt⟩)
    · cases h
  split at h
  · exact .of_next h (.reevaluate (.cqDisable (.of_registers rfl id)))
  · exact .of_next h (.reevaluate (.drawBusy (.of_registers rfl id)))

theorem Quiet.writeFqcsr (h : s.writeFqcsr w = .next t) : Quiet s t := by
  unfold State.writeFqcsr at h
  simp only [] at h
  split at h
  · cases h
  split at h
  · split at h
    · exact .of_next h (.of_registers rfl fun ⟨cqt, fqh, pqh, cqh, _, pqt⟩ =>
        ⟨cqt, fqh, pqh, cqh, s.fqb.entries_pos, pqt⟩)
    · cases h
  split at h
  · exact .of_next h (.reevaluate (.fqDisable (.of_registers rfl id)))
  · exact .of_next h (.reevaluate (.drawBusy (.of_registers rfl id)))

/-- A write of `pqcsr` is quiet unless it turns the queue off at once with records waiting (log entry 34). -/
theorem State.writePqcsr_cases (h : s.writePqcsr w = .next t) : Quiet s t ∨ WritesRecords s t := by
  unfold State.writePqcsr at h
  simp only [] at h
  split at h
  · cases h
  split at h
  · split at h
    · exact .inl (.of_next h (.of_registers rfl fun ⟨cqt, fqh, pqh, cqh, fqt, _⟩ =>
        ⟨cqt, fqh, pqh, cqh, fqt, s.pqb.entries_pos⟩))
    · cases h
  split at h
  · injection h with h
    obtain hq | hw := s.pqDisable_cases _
    · exact .inl (h ▸ hq.reevaluate)
    · exact .inr (h ▸ hw.after (.reevaluate (.refl _)))
  · exact .inl (.of_next h (.reevaluate (.drawBusy (.of_registers rfl id))))

theorem Quiet.writeTrReqIova (h : s.writeTrReqIova v = .next t) : Quiet s t := by
  unfold State.writeTrReqIova at h
  split at h
  · cases h
  · exact .of_next h (.of_registers rfl id)

theorem Quiet.writeTrReqCtl {low : Bool} (h : s.writeTrReqCtl v low = .next t) : Quiet s t := by
  unfold State.writeTrReqCtl at h
  simp only [] at h
  split at h
  · cases h
  · exact .of_next h (.of_registers rfl id)

end

/-! ## Writes of any register -/

/-- A write of a register is quiet but for `pqcsr`, in the low half of its doubleword. -/
theorem State.writeDword_access {s t : State} {k : Nat} {v : DWord} {low high : Bool}
    (h : s.writeDword k v low high = .next t) : Quiet s t ∨ (k = 10 ∧ low = true ∧ WritesRecords s t) := by
  obtain rfl | rfl | rfl | rfl | rfl | rfl | rfl | rfl | rfl | rfl | rfl | rfl | hk | hk | rfl | rfl | rfl | hk | hk :=
    dword_cases k
  · rw [State.writeDword_fctl] at h
    split at h
    · exact .inl (.writeFctl h)
    · exact .inl (.of_next h (.refl s))
  · rw [State.writeDword_ddtp] at h
    split at h
    · exact .inl (.writeDdtp h)
    · exact .inl (.writeDdtpHigh h)
  · rw [State.writeDword_cqb] at h
    exact .inl (.writeCqb h)
  · rw [State.writeDword_cqt] at h
    exact .inl (.of_next h (.ite (.of_registers rfl fun ⟨_, fqh, pqh, cqh, fqt, pqt⟩ =>
      ⟨s.cqb.clip_lt _, fqh, pqh, cqh, fqt, pqt⟩)))
  · rw [State.writeDword_fqb] at h
    exact .inl (.writeFqb h)
  · rw [State.writeDword_fqh] at h
    exact .inl (.of_next h (.ite (.of_registers rfl fun ⟨cqt, _, pqh, cqh, fqt, pqt⟩ =>
      ⟨cqt, s.fqb.clip_lt _, pqh, cqh, fqt, pqt⟩)))
  · rw [State.writeDword_pqb] at h
    split at h
    · exact .inl (.writePqb h)
    · exact .inl (.of_next h (.refl s))
  · rw [State.writeDword_pqh] at h
    exact .inl (.of_next h (.ite (.of_registers rfl fun ⟨cqt, fqh, _, cqh, fqt, pqt⟩ =>
      ⟨cqt, fqh, s.pqb.clip_lt _, cqh, fqt, pqt⟩)))
  · rw [State.writeDword_cqcsr] at h
    split at h
    · exact .inl (.writeCqcsr h)
    · exact .inl (.writeFqcsr h)
  · rw [State.writeDword_pqcsr] at h
    split at h
    · next hl =>
      split at h
      · exact (State.writePqcsr_cases h).imp id fun hw => ⟨rfl, hl, hw⟩
      · exact .inl (.of_next h (.refl s))
    · exact .inl (.of_next h (.of_registers rfl id))
  · rw [State.writeDword_countInhibit] at h
    exact .inl (.of_next h (.ite (.of_registers rfl id)))
  · rw [State.writeDword_cycles] at h
    exact .inl (.of_next h (.ite (.of_registers rfl id)))
  · rw [State.writeDword_counter s v low high hk] at h
    exact .inl (.of_next h (.ite (.of_registers rfl id)))
  · rw [State.writeDword_selector s v low high hk] at h
    exact .inl (.of_next h (.ite (.of_registers rfl id)))
  · rw [State.writeDword_trReqIova] at h
    split at h
    · exact .inl (.writeTrReqIova h)
    · exact .inl (.of_next h (.refl s))
  · rw [State.writeDword_trReqCtl] at h
    split at h
    · exact .inl (.writeTrReqCtl h)
    · exact .inl (.of_next h (.refl s))
  · rw [State.writeDword_icvec] at h
    exact .inl (.of_next h (.of_registers rfl id))
  · rw [State.writeDword_msi s v low high hk] at h
    exact .inl (.of_next h (.writeMsiEntry s _ _ _))
  · rw [State.writeDword_other s v low high hk] at h
    exact .inl (.of_next h (.refl s))

/-- A write in one access is quiet but at `pqcsr`. -/
theorem State.writeWhole_access {s t : State} {o n : Nat} {v : DWord} (h : s.writeWhole o n v = .next t) :
    Quiet s t ∨ (o / 8 = 10 ∧ (n = 8 ∨ o % 8 = 0) ∧ WritesRecords s t) :=
  (State.writeDword_access h).imp id fun ⟨hk, hl, hw⟩ => ⟨hk, by simpa using hl, hw⟩

theorem Tidy.writeWhole {s t : State} {o n : Nat} {v : DWord} (h : s.writeWhole o n v = .next t) : Tidy s t := by
  obtain hq | ⟨_, _, hw⟩ := State.writeWhole_access h
  · exact hq.toTidy
  · exact hw.toTidy

/-! ## Accesses of a hart -/

section
variable {s t : State} {o n : Nat}

theorem Quiet.readWhole (s : State) (o n : Nat) : Quiet s (s.readWhole o n) := by
  obtain ⟨d, e⟩ := s.readWhole_frame o n
  rw [e]
  exact .of_registers rfl id

theorem Quiet.readFirstHalf (s : State) (o : Nat) (high : Bool) : Quiet s (s.readFirstHalf o high) := by
  obtain ⟨d, e⟩ := s.readFirstHalf_frame o high
  rw [e]
  exact .of_registers rfl id

theorem Quiet.nextDraw (s : State) : Quiet s s.nextDraw := .of_registers rfl id

/-- A read is quiet (10_state R107). -/
theorem Quiet.hostRead (h : s.hostRead o n = .next t) : Quiet s t := by
  obtain ⟨_, ⟨_, _, high, rfl⟩ | ⟨_, _, rfl⟩ | rfl⟩ := State.hostRead_cases h
  · exact (Quiet.nextDraw s).trans (.readFirstHalf _ _ _)
  · exact (Quiet.nextDraw s).trans (.readWhole _ _ _)
  · exact .readWhole s _ _

/-- A write by a hart is quiet but at `pqcsr`, whose offset is 80. -/
theorem State.hostWrite_access {v : DWord} (h : s.hostWrite o n v = .next t) :
    Quiet s t ∨ (o = 80 ∧ WritesRecords s t) := by
  have drawn := Quiet.nextDraw s
  have after_draw {t : State} (hw : WritesRecords s.nextDraw t) : WritesRecords s t :=
    ⟨drawn.toAccessed.trans hw.toAccessed, hw.busySync, hw.waiting⟩
  obtain ⟨hl, hcases⟩ := State.hostWrite_cases h
  obtain ⟨h4, h8⟩ := legalAccess_aligned hl
  obtain ⟨rfl, high, h⟩ | h | h := hcases
  · obtain ⟨u, x, w, b, hu, rfl⟩ := State.writeFirstHalf_cases h
    have noted : Quiet u { u with halves := u.halves ++ [.write o (!high) w b] } := .of_registers rfl id
    obtain hq | ⟨hk, hlow, hw⟩ := State.writeWhole_access hu
    · exact .inl ((drawn.trans hq).trans noted)
    · refine .inr ⟨?_, (after_draw hw).after noted⟩
      have := h8 rfl
      split at hk <;> split at hlow <;> omega
  · obtain hq | ⟨hk, hlow, hw⟩ := State.writeWhole_access h
    · exact .inl (drawn.trans hq)
    · exact .inr ⟨by omega, after_draw hw⟩
  · obtain hq | ⟨hk, hlow, hw⟩ := State.writeWhole_access h
    · exact .inl hq
    · exact .inr ⟨by omega, hw⟩

/-- Settles O30: every access but a write of `pqcsr` with records waiting is quiet. -/
theorem registerAccessLeavesMemory : Obligations.RegisterAccessLeavesMemory := by
  intro s t o n v h
  have access : Quiet s t ∨ (o = 80 ∧ WritesRecords s t) :=
    h.elim (fun h => .inl (.hostRead h)) State.hostWrite_access
  obtain hq | ⟨ho, hw⟩ := access
  · exact ⟨hq.ioatc, hq.requests, hq.pages, hq.completions, hq.activations, fun _ =>
      ⟨fun a => by rw [hq.mem], hq.messages, hq.pageRecords⟩⟩
  · exact ⟨hw.ioatc, hw.requests, hw.pages, hw.completions, hw.activations, fun hn =>
      absurd ⟨ho, hw.busySync, hw.waiting⟩ hn⟩

theorem Tidy.hostWrite {v : DWord} (h : s.hostWrite o n v = .next t) : Tidy s t := by
  obtain hq | ⟨_, hw⟩ := State.hostWrite_access h
  · exact hq.toTidy
  · exact hw.toTidy

/-- The second half of a split access is a read, or a write of one half. -/
theorem Tidy.finishHalf {k : Nat} (h : s.finishHalf k = .next t) : Tidy s t := by
  obtain ⟨_, e⟩ | ⟨o, high, v, _, e⟩ | ⟨o, high, v, b, _, e⟩ := s.finishHalf_cases k <;> rw [e] at h
  · exact .of_next h (.refl s)
  · refine .of_next h ?_
    obtain ⟨d, e⟩ := State.drawRead_frame _ o
    unfold State.readSecondHalf
    simp only []
    rw [e]
    exact .of_placed rfl
  · refine .before (t := { s with halves := removeAt s.halves k }) ?_ rfl
    obtain ⟨d, h⟩ | ⟨c, rfl⟩ | h := State.writeSecondHalf_cases h
    · exact (Quiet.finishDdtp h).toTidy
    · exact .of_placed rfl
    · exact .writeWhole h

end

end Sys2Proof.Machine
end

section
/-! SUPPORT. Every step is tidy: a hart's store, each event, and the step. -/

namespace Sys2Proof.Machine

/-! ## Every event -/

theorem Tidy.hostStore {s t : State} {a : Nat} {bs : List Byte} (h : s.hostStore a bs = .next t) : Tidy s t := by
  unfold State.hostStore at h
  split at h
  · exact .of_next h (.setMem s (Memory.wf_writeBytes bs a))
  · cases h

theorem Tidy.perform {e : Event} {s t : State} (h : perform e s = .next t) : Tidy s t := by
  cases e with
  | hostRead o n => exact (Quiet.hostRead h).toTidy
  | hostWrite o n v => exact .hostWrite h
  | hostStore a bs => exact .hostStore h
  | request r => exact .of_next h (.of_placed rfl)
  | pageRequest m => exact .of_next h (.of_placed rfl)
  | otherMessage m => exact .of_next h (.handleOther _ _ _)
  | beginOther m => exact .beginOther h
  | invalCompletion did k => exact .of_next h (.invalCompleted _ _ _)
  | beginCompletion did k => exact .beginCompletion h
  | invalTimeout k => exact .of_next h (.invalTimedOut _ _)
  | cqFetch => exact .fetchAndExecute h
  | cqFetchDeferred => exact .of_next h (.fetchDeferred _)
  | cqFence => exact .tryFence h
  | cqExecute k => exact .of_next h (.executeInFlight _ _)
  | cqDrop k => exact .of_next h (.abandon _ _)
  | translate k => exact .serveAt h
  | beginTranslate k => exact .beginTranslate h
  | advance k pick => exact .advance h
  | writeFault k => exact .of_next h (.writeFault _ _)
  | dropFault k => exact .of_next h (.dropFault _ _)
  | writePage => exact .of_next h (.writePage _)
  | decidePage => exact .of_next h (.decidePage _)
  | beginPage => exact .beginPage h
  | finishHalf k => exact .finishHalf h
  | msiSend v => exact .of_next h (.msiSend _ _)
  | ddtpDone => exact .of_next h (.ddtpComplete _)
  | cqDone => exact .of_next h (.cqComplete _)
  | fqDone => exact .of_next h (.fqComplete _)
  | pqDone => exact .of_next h (.pqComplete _)
  | debug => exact .of_next h (.debugStep _)
  | beginDebug => exact .beginDebug h
  | clock n => exact .of_next h (.advanceClock _ _)
  | evict k => exact .of_next h (.of_placed rfl)
  | commit k => exact .of_next h (.of_placed rfl)
  | internalError k => exact .of_next h (.internalErrorAt _ _)
  | internalErrorActive k => exact .of_next h (.internalErrorActive _ _)
  | fail => exact .of_next h (.of_placed rfl)

theorem Tidy.step {s t : State} (h : step s = .next t) : Tidy s t := by
  obtain ⟨e, rest, _, h⟩ | ⟨_, e, _, h⟩ | ⟨_, _, rfl⟩ := step_cases h
  · exact .before (.perform h) rfl
  · exact .perform h
  · exact .refl _

/-- Settles O54: every operation writes memory through the canonical writes, and an activation finds what is there. -/
theorem stepKeepsMemoryCanonical : Obligations.StepKeepsMemoryCanonical :=
  fun _ _ hs h => (Tidy.step h).canonical hs

/-- Settles O57: an index moves to the next entry of its queue, or is cut to the queue's size. -/
theorem stepKeepsIndicesInRange : Obligations.StepKeepsIndicesInRange :=
  fun _ _ hs h => (Tidy.step h).inRange hs

end Sys2Proof.Machine
end

section
/-! SUPPORT. The width check of the first stage, the fault it raises, and what a first-stage leaf grants
(22_page_tables R306, R308, R315). -/

namespace Sys2Proof.Machine

/-! ## The width check -/

/-- A scheme's input address holds at least the page offset. -/
theorem Scheme.addrBits_pos (m : Scheme) : 0 < m.addrBits := by
  unfold Scheme.addrBits
  omega

/-- With `SXL`, the check refuses exactly the addresses with a bit above 31 set. -/
theorem badIova_sxl_iff (m : Scheme) (va : DWord) :
    badIova m true va.toNat = true ↔ va.extractLsb' 32 32 ≠ 0#32 := by
  have hva : va.toNat < 2 ^ 64 := va.isLt
  simp only [badIova, if_true, decide_eq_true_eq, ne_eq, ← BitVec.toNat_inj, BitVec.extractLsb'_toNat,
    Nat.shiftRight_eq_div_pow, BitVec.toNat_ofNat]
  omega

/-- The bits of an address from bit `b` on are all 0 or all 1 exactly if each of them is bit `b`. -/
theorem upperBits_uniform_iff (va : DWord) {b : Nat} (hb : b < 64) :
    (va.toNat / 2 ^ b = 0 ∨ va.toNat / 2 ^ b = 2 ^ (64 - b) - 1) ↔
      ∀ k, b < k → k < 64 → va.getLsbD k = va.getLsbD b := by
  have hbit (j : Nat) : (va.toNat / 2 ^ b).testBit j = va.getLsbD (b + j) := by
    rw [Nat.testBit_div_two_pow, BitVec.testBit_toNat, Nat.add_comm]
  constructor
  · intro h k hbk hk
    have hbitB : (va.toNat / 2 ^ b).testBit 0 = va.getLsbD b := hbit 0
    have hbitK : (va.toNat / 2 ^ b).testBit (k - b) = va.getLsbD k := by rw [hbit, Nat.add_sub_cancel' hbk.le]
    rw [← hbitB, ← hbitK]
    rcases h with h | h
    · rw [h, Nat.zero_testBit, Nat.zero_testBit]
    · rw [h, Nat.testBit_two_pow_sub_one, Nat.testBit_two_pow_sub_one, decide_eq_true (by omega),
        decide_eq_true (by omega)]
  · intro h
    have hsame (j : Nat) (hj : j < 64 - b) : va.getLsbD (b + j) = va.getLsbD b := by
      rcases Nat.eq_zero_or_pos j with rfl | hpos
      · rw [Nat.add_zero]
      · exact h (b + j) (by omega) (by omega)
    have hout (j : Nat) (hj : ¬ j < 64 - b) : va.getLsbD (b + j) = false := BitVec.getLsbD_of_ge va _ (by omega)
    cases htop : va.getLsbD b with
    | false =>
      refine .inl (Nat.eq_of_testBit_eq fun j => ?_)
      rw [hbit, Nat.zero_testBit]
      by_cases hj : j < 64 - b
      · rw [hsame j hj, htop]
      · exact hout j hj
    | true =>
      refine .inr (Nat.eq_of_testBit_eq fun j => ?_)
      rw [hbit, Nat.testBit_two_pow_sub_one]
      by_cases hj : j < 64 - b
      · rw [hsame j hj, htop, decide_eq_true hj]
      · rw [hout j hj, decide_eq_false hj]

/-- Without `SXL`, the check refuses exactly the addresses that are no sign extension from the scheme's width. -/
theorem badIova_signExtended_iff {m : Scheme} (hm : m.addrBits ≤ 64) (va : DWord) :
    badIova m false va.toNat = true ↔
      ∃ k, m.addrBits ≤ k ∧ k < 64 ∧ va.getLsbD k ≠ va.getLsbD (m.addrBits - 1) := by
  have hpos := m.addrBits_pos
  have huniform := upperBits_uniform_iff va (b := m.addrBits - 1) (by omega)
  rw [show 64 - (m.addrBits - 1) = 65 - m.addrBits by omega] at huniform
  have hbad : badIova m false va.toNat = true ↔
      ¬ (va.toNat / 2 ^ (m.addrBits - 1) = 0 ∨ va.toNat / 2 ^ (m.addrBits - 1) = 2 ^ (65 - m.addrBits) - 1) := by
    simp [badIova]
  rw [hbad, huniform]
  constructor
  · intro h
    push Not at h
    obtain ⟨k, hk, hk64, hne⟩ := h
    exact ⟨k, by omega, hk64, hne⟩
  · rintro ⟨k, hk, hk64, hne⟩ h
    exact hne (h k (by omega) hk64)

/-! ## The fault of the width check -/

/-- A process that faults at once has read nothing, so that it is no walk. -/
theorem counted_raise {α : Type} (k : Structure) (cause : Nat) (v : DWord) :
    counted k (raise cause v : Proc α) = raise cause v := by
  funext w
  exact congrArg (EStateM.Result.error _) (if_neg (Nat.lt_irrefl (w.reads k)))

/-- A lookup that faults at once notes nothing and caches nothing. -/
theorem lookup_raise {α : Type} (cause : Nat) (v : DWord) : lookup (raise cause v : Proc α) = raise cause v := rfl

/-- An address outside the scheme is the page fault of the original access type, and nothing else. -/
theorem firstStage_of_badIova (s : State) {c : Context} {f : FirstStage} {va : Nat} {m : Scheme}
    (hm : firstScheme c.dc.sxl f.mode = some m) (hbad : badIova m c.dc.sxl va = true) :
    firstStage s c f va = pageFault c := by
  simp only [firstStage, hm, hbad, if_true, pageFault, counted_raise, lookup_raise]

/-- Settles O44: the width check comes before any access, and what it refuses is what the statement describes. -/
theorem iovaOutsideSchemeFaults : Obligations.IovaOutsideSchemeFaults := by
  intro s c f va m w hm hwidth hout
  have hbad : badIova m c.dc.sxl va.toNat = true := by
    cases hsxl : c.dc.sxl with
    | true => exact (badIova_sxl_iff m va).mpr (by simpa [hsxl] using hout)
    | false => exact (badIova_signExtended_iff hwidth va).mpr (by simpa [hsxl] using hout)
  rw [firstStage_of_badIova s hm hbad]
  rfl

/-! ## What a first-stage leaf grants -/

section
variable {p : DWord} (sum : Bool)

/-- User access to a user page: what the leaf itself grants. -/
theorem firstPerms_user (hU : pteU p = true) : firstPerms p false sum = ⟨pteR p, pteW p, pteX p⟩ := by
  simp [firstPerms, hU]

/-- User access to a page that is no user page: nothing. -/
theorem firstPerms_user_of_supervisorPage (hU : pteU p = false) : firstPerms p false sum = ⟨false, false, false⟩ := by
  simp [firstPerms, hU]

/-- Supervisor access to a page that is no user page: what the leaf itself grants. -/
theorem firstPerms_supervisor (hU : pteU p = false) : firstPerms p true sum = ⟨pteR p, pteW p, pteX p⟩ := by
  simp [firstPerms, hU]

/-- Supervisor access to a user page: what the leaf grants besides execution, and only under `SUM`. -/
theorem firstPerms_supervisor_of_userPage (hU : pteU p = true) :
    firstPerms p true sum = ⟨sum && pteR p, sum && pteW p, false⟩ := by
  cases sum <;> simp [firstPerms, hU]

end

/-- Settles O45: by the privilege, and by whose page it is. -/
theorem firstStagePermissions : Obligations.FirstStagePermissions := by
  intro p supervisor sum a
  rw [← pteR, ← pteW, ← pteX, ← pteU]
  cases supervisor <;> cases hU : pteU p
  case false.false => cases a <;> simp [firstPerms_user_of_supervisorPage sum hU, Perms.allows]
  case false.true => cases a <;> simp [firstPerms_user sum hU, Perms.allows]
  case true.false => cases a <;> simp [firstPerms_supervisor sum hU, Perms.allows]
  case true.true => cases a <;> simp [firstPerms_supervisor_of_userPage sum hU, Perms.allows, and_comm]

end Sys2Proof.Machine
end

section
/-! SUPPORT. The fields of a doubleword: what a placed field holds, and a doubleword as the sum of its fields
(30_encoding R355 to R358). -/

namespace Sys2Proof

/-! ## Placed fields -/

theorem getLsbD_place {n : Nat} (x : BitVec n) (k j : Nat) :
    (place x k).getLsbD j = (decide (j < 64) && decide (k ≤ j) && x.getLsbD (j - k)) := by
  rw [place, BitVec.getLsbD_shiftLeft, BitVec.getLsbD_setWidth]
  grind

/-- A field is read back where it was placed. -/
theorem extractLsb'_place_same {n : Nat} (x : BitVec n) {k : Nat} (h : k + n ≤ 64) :
    (place x k).extractLsb' k n = x := by
  apply BitVec.eq_of_getLsbD_eq
  intro j hj
  simp [getLsbD_place, hj]
  omega

/-- A placed field is 0 outside its bits. -/
theorem extractLsb'_place_outside {n : Nat} (x : BitVec n) {j m k : Nat} (h : j + m ≤ k ∨ k + n ≤ j) :
    (place x k).extractLsb' j m = 0#m := by
  apply BitVec.eq_of_getLsbD_eq
  intro i hi
  have hout : k ≤ j + i → n ≤ j + i - k := by omega
  rw [BitVec.getLsbD_extractLsb', getLsbD_place, BitVec.getLsbD_zero]
  by_cases hk : k ≤ j + i
  · simp [BitVec.getLsbD_of_ge x _ (hout hk)]
  · simp [hk]

/-- The bit of a Boolean operand, as a field of one bit. -/
theorem extractLsb'_one_eq_flag_iff (w : DWord) (k : Nat) (b : Bool) :
    w.extractLsb' k 1 = flag b ↔ w.getLsbD k = b := by
  rw [flag, BitVec.eq_of_getLsbD_eq_iff]
  simp [BitVec.getLsbD_extractLsb', BitVec.getLsbD_ofBool]

/-! ## A doubleword as the sum of its fields -/

/-- The doubleword's bits below `n`, with 0 above them. -/
def lowBits (w : DWord) (n : Nat) : DWord := (w.setWidth n).setWidth 64

theorem getLsbD_lowBits (w : DWord) (n : Nat) {j : Nat} (hj : j < 64) :
    (lowBits w n).getLsbD j = (decide (j < n) && w.getLsbD j) := by
  rw [lowBits, BitVec.getLsbD_setWidth, BitVec.getLsbD_setWidth, decide_eq_true hj, Bool.true_and]

theorem lowBits_zero (w : DWord) : lowBits w 0 = 0#64 :=
  BitVec.eq_of_getLsbD_eq fun j hj => by simp [getLsbD_lowBits w 0 hj]

theorem lowBits_all (w : DWord) : lowBits w 64 = w := by
  simp [lowBits]

/-- The next field, placed above the bits so far. -/
theorem lowBits_or_place {w : DWord} {n m : Nat} {x : BitVec m} (h : w.extractLsb' n m = x) :
    lowBits w n ||| place x n = lowBits w (n + m) := by
  subst h
  apply BitVec.eq_of_getLsbD_eq
  intro j hj
  rw [BitVec.getLsbD_or, getLsbD_lowBits w _ hj, getLsbD_lowBits w _ hj, getLsbD_place, BitVec.getLsbD_extractLsb']
  rcases Nat.lt_or_ge j n with hjn | hnj
  · simp [hjn, Nat.lt_add_right m hjn, Nat.not_le.mpr hjn]
  · simp [hj, hnj, Nat.not_lt.mpr hnj, Nat.sub_lt_iff_lt_add' hnj]

/-- The first field. -/
theorem place_eq_lowBits {w : DWord} {m : Nat} {x : BitVec m} (h : w.extractLsb' 0 m = x) :
    place x 0 = lowBits w m := by
  simpa [lowBits_zero] using lowBits_or_place h

/-- Reserved bits that are 0 add nothing. -/
theorem lowBits_of_reserved {w : DWord} {n m : Nat} (h : w.extractLsb' n m = 0#m) :
    lowBits w n = lowBits w (n + m) := by
  simpa [place] using lowBits_or_place h

/-! ## The doublewords of each format -/

/-- An `IOTINVAL` doubleword 0, by its fields (R355). -/
theorem encodeIotinval0_eq_iff {func3 : BitVec 3} {av : Bool} {pscid : BitVec 20} {pscv gv : Bool} {gscid : BitVec 16}
    {w : DWord} :
    encodeIotinval0 func3 av pscid pscv gv gscid = w ↔
      w.extractLsb' 0 7 = 1#7 ∧ w.extractLsb' 7 3 = func3 ∧ w.getLsbD 10 = av ∧ w.extractLsb' 11 1 = 0#1 ∧
      w.extractLsb' 12 20 = pscid ∧ w.getLsbD 32 = pscv ∧ w.getLsbD 33 = gv ∧ w.extractLsb' 34 10 = 0#10 ∧
      w.extractLsb' 44 16 = gscid ∧ w.extractLsb' 60 4 = 0#4 := by
  simp only [← extractLsb'_one_eq_flag_iff]
  constructor
  · rintro rfl
    simp (disch := omega) [encodeIotinval0, BitVec.extractLsb'_or, extractLsb'_place_same, extractLsb'_place_outside]
  · rintro ⟨hop, hf, hav, h11, hpscid, hpscv, hgv, h34, hgscid, h60⟩
    rw [encodeIotinval0, place_eq_lowBits hop, lowBits_or_place hf, lowBits_or_place hav, lowBits_of_reserved h11,
      lowBits_or_place hpscid, lowBits_or_place hpscv, lowBits_or_place hgv, lowBits_of_reserved h34,
      lowBits_or_place hgscid, lowBits_of_reserved h60, lowBits_all]

/-- An `IOFENCE.C` doubleword 0, by its fields (R356). -/
theorem encodeIofence0_eq_iff {av wsi pr pw : Bool} {data : BitVec 32} {w : DWord} :
    encodeIofence0 av wsi pr pw data = w ↔
      w.extractLsb' 0 7 = 2#7 ∧ w.extractLsb' 7 3 = 0#3 ∧ w.getLsbD 10 = av ∧ w.getLsbD 11 = wsi ∧
      w.getLsbD 12 = pr ∧ w.getLsbD 13 = pw ∧ w.extractLsb' 14 18 = 0#18 ∧ w.extractLsb' 32 32 = data := by
  simp only [← extractLsb'_one_eq_flag_iff]
  constructor
  · rintro rfl
    simp (disch := omega) [encodeIofence0, BitVec.extractLsb'_or, extractLsb'_place_same, extractLsb'_place_outside]
  · rintro ⟨hop, hf, hav, hwsi, hpr, hpw, h14, hdata⟩
    rw [encodeIofence0, place_eq_lowBits hop, lowBits_of_reserved hf, lowBits_or_place hav, lowBits_or_place hwsi,
      lowBits_or_place hpr, lowBits_or_place hpw, lowBits_of_reserved h14, lowBits_or_place hdata, lowBits_all]

/-- An `IODIR` doubleword 0, by its fields (R357). -/
theorem encodeIodir0_eq_iff {func3 : BitVec 3} {pid : BitVec 20} {dv : Bool} {did : BitVec 24} {w : DWord} :
    encodeIodir0 func3 pid dv did = w ↔
      w.extractLsb' 0 7 = 3#7 ∧ w.extractLsb' 7 3 = func3 ∧ w.extractLsb' 10 2 = 0#2 ∧ w.extractLsb' 12 20 = pid ∧
      w.extractLsb' 32 1 = 0#1 ∧ w.getLsbD 33 = dv ∧ w.extractLsb' 34 6 = 0#6 ∧ w.extractLsb' 40 24 = did := by
  simp only [← extractLsb'_one_eq_flag_iff]
  constructor
  · rintro rfl
    simp (disch := omega) [encodeIodir0, BitVec.extractLsb'_or, extractLsb'_place_same, extractLsb'_place_outside]
  · rintro ⟨hop, hf, h10, hpid, h32, hdv, h34, hdid⟩
    rw [encodeIodir0, place_eq_lowBits hop, lowBits_or_place hf, lowBits_of_reserved h10, lowBits_or_place hpid,
      lowBits_of_reserved h32, lowBits_or_place hdv, lowBits_of_reserved h34, lowBits_or_place hdid, lowBits_all]

/-- An `ATS` doubleword 0, by its fields (R358). -/
theorem encodeAts0_eq_iff {func3 : BitVec 3} {pid : BitVec 20} {pv dsv : Bool} {rid : BitVec 16} {dseg : BitVec 8}
    {w : DWord} :
    encodeAts0 func3 pid pv dsv rid dseg = w ↔
      w.extractLsb' 0 7 = 4#7 ∧ w.extractLsb' 7 3 = func3 ∧ w.extractLsb' 10 2 = 0#2 ∧ w.extractLsb' 12 20 = pid ∧
      w.getLsbD 32 = pv ∧ w.getLsbD 33 = dsv ∧ w.extractLsb' 34 6 = 0#6 ∧ w.extractLsb' 40 16 = rid ∧
      w.extractLsb' 56 8 = dseg := by
  simp only [← extractLsb'_one_eq_flag_iff]
  constructor
  · rintro rfl
    simp (disch := omega) [encodeAts0, BitVec.extractLsb'_or, extractLsb'_place_same, extractLsb'_place_outside]
  · rintro ⟨hop, hf, h10, hpid, hpv, hdsv, h34, hrid, hdseg⟩
    rw [encodeAts0, place_eq_lowBits hop, lowBits_or_place hf, lowBits_of_reserved h10, lowBits_or_place hpid,
      lowBits_or_place hpv, lowBits_or_place hdsv, lowBits_of_reserved h34, lowBits_or_place hrid,
      lowBits_or_place hdseg, lowBits_all]

/-- Doubleword 1 of an `IOTINVAL` command: `ADDR[63:12]` from bit 10 on (R355). -/
theorem placeAddr10_eq_iff {addr : BitVec 52} {w : DWord} :
    place addr 10 = w ↔ w.extractLsb' 0 10 = 0#10 ∧ w.extractLsb' 10 52 = addr ∧ w.extractLsb' 62 2 = 0#2 := by
  constructor
  · rintro rfl
    simp (disch := omega) [extractLsb'_place_same, extractLsb'_place_outside]
  · rintro ⟨h0, haddr, h62⟩
    calc place addr 10 = lowBits w 10 ||| place addr 10 := by
          rw [← lowBits_of_reserved (n := 0) h0, lowBits_zero, BitVec.zero_or]
      _ = w := by rw [lowBits_or_place haddr, lowBits_of_reserved h62, lowBits_all]

/-- Doubleword 1 of `IOFENCE.C`: `ADDR[63:2]` from bit 0 on (R356). -/
theorem placeAddr0_eq_iff {addr : BitVec 62} {w : DWord} :
    place addr 0 = w ↔ w.extractLsb' 0 62 = addr ∧ w.extractLsb' 62 2 = 0#2 := by
  constructor
  · rintro rfl
    simp (disch := omega) [extractLsb'_place_same, extractLsb'_place_outside]
  · rintro ⟨haddr, h62⟩
    rw [place_eq_lowBits haddr, lowBits_of_reserved h62, lowBits_all]

end Sys2Proof
end

section
/-! SUPPORT. The decoder and the encoder agree (30_encoding R350 to R380). -/

namespace Sys2Proof

/-! ## What decodes is an encoding -/

section
variable {dw0 dw1 : DWord} {i : Instr}

/-- The opcode of what decodes is one of the four, and the operands are those of its format (R352). -/
theorem decode_ok_cases (h : decode dw0 dw1 = .ok i) :
    (dw0.extractLsb' 0 7 = 1#7 ∧ decodeIotinval dw0 dw1 = .ok i) ∨
    (dw0.extractLsb' 0 7 = 2#7 ∧ decodeIofence dw0 dw1 = .ok i) ∨
    (dw0.extractLsb' 0 7 = 3#7 ∧ decodeIodir dw0 dw1 = .ok i) ∨
    (dw0.extractLsb' 0 7 = 4#7 ∧ decodeAts dw0 dw1 = .ok i) := by
  simp only [decode, beq_iff_eq] at h
  split_ifs at h with h1 h2 h3 h4
  · exact .inl ⟨h1, h⟩
  · exact .inr (.inl ⟨h2, h⟩)
  · exact .inr (.inr (.inl ⟨h3, h⟩))
  · exact .inr (.inr (.inr ⟨h4, h⟩))

/-- `IOTINVAL`: `func3` 0 and 1; the latter also needs `PSCV`=0 (R355, R376 item 4). -/
theorem encode_of_decodeIotinval (hop : dw0.extractLsb' 0 7 = 1#7) (h : decodeIotinval dw0 dw1 = .ok i) :
    encode i = (dw0, dw1) ∧ i.wellFormed = true := by
  simp only [decodeIotinval, beq_iff_eq, Bool.or_eq_true, bne_iff_ne] at h
  split_ifs at h with hfunc hreserved hfunc hreserved hpscv
  · cases h
    simp only [not_or, not_not] at hreserved
    simp [encode, encodeIotinval0_eq_iff, placeAddr10_eq_iff, Instr.wellFormed, hop, hfunc, hreserved]
  · cases h
    simp only [not_or, not_not] at hreserved
    simpa [encode, encodeIotinval0_eq_iff, placeAddr10_eq_iff, Instr.wellFormed, hop, hfunc, hreserved] using hpscv

/-- `IOFENCE`: `func3` 0 only (R356). -/
theorem encode_of_decodeIofence (hop : dw0.extractLsb' 0 7 = 2#7) (h : decodeIofence dw0 dw1 = .ok i) :
    encode i = (dw0, dw1) ∧ i.wellFormed = true := by
  simp only [decodeIofence, beq_iff_eq, Bool.or_eq_true, bne_iff_ne] at h
  split_ifs at h with hfunc hreserved
  cases h
  simp only [not_or, not_not] at hreserved
  simp [encode, encodeIofence0_eq_iff, placeAddr0_eq_iff, Instr.wellFormed, hop, hfunc, hreserved]

/-- `IODIR`: `func3` 0, which needs `PID`=0, and 1, which needs `DV`=1 (R357, R376 items 5 and 6). -/
theorem encode_of_decodeIodir (hop : dw0.extractLsb' 0 7 = 3#7) (h : decodeIodir dw0 dw1 = .ok i) :
    encode i = (dw0, dw1) ∧ i.wellFormed = true := by
  simp only [decodeIodir, beq_iff_eq, Bool.or_eq_true, bne_iff_ne, ne_eq, ite_not] at h
  split_ifs at h with hfunc hreserved hpid hfunc hreserved hdv
  · cases h
    simp only [not_or, not_not] at hreserved
    simp [encode, encodeIodir0_eq_iff, Instr.wellFormed, hop, hfunc, hreserved, hpid]
  · cases h
    simp only [not_or, not_not] at hreserved
    simpa [encode, encodeIodir0_eq_iff, Instr.wellFormed, hop, hfunc, hreserved] using hdv

/-- `ATS`: `func3` 0 and 1 (R358). -/
theorem encode_of_decodeAts (hop : dw0.extractLsb' 0 7 = 4#7) (h : decodeAts dw0 dw1 = .ok i) :
    encode i = (dw0, dw1) ∧ i.wellFormed = true := by
  simp only [decodeAts, beq_iff_eq, Bool.or_eq_true, bne_iff_ne] at h
  split_ifs at h with hfunc hreserved hfunc hreserved
  all_goals
    cases h
    simp only [not_or, not_not] at hreserved
    simp [encode, encodeAts0_eq_iff, Instr.wellFormed, hop, hfunc, hreserved]

/-- What decodes is the encoding of the well-formed command it decodes to. -/
theorem encode_of_decode (h : decode dw0 dw1 = .ok i) : encode i = (dw0, dw1) ∧ i.wellFormed = true := by
  obtain ⟨hop, h⟩ | ⟨hop, h⟩ | ⟨hop, h⟩ | ⟨hop, h⟩ := decode_ok_cases h
  · exact encode_of_decodeIotinval hop h
  · exact encode_of_decodeIofence hop h
  · exact encode_of_decodeIodir hop h
  · exact encode_of_decodeAts hop h

/-! ## An encoding decodes -/

/-- The decoder finds each field of the encoding of a well-formed command where the encoder put it. -/
theorem decode_of_encode (he : encode i = (dw0, dw1)) (hwf : i.wellFormed = true) : decode dw0 dw1 = .ok i := by
  obtain ⟨h0, h1⟩ := Prod.mk.inj he
  cases i with
  | iotinvalVma =>
    have fields0 := encodeIotinval0_eq_iff.mp h0
    have fields1 := placeAddr10_eq_iff.mp h1
    simp [decode, decodeIotinval, fields0, fields1, -BitVec.getLsbD_eq_getElem]
  | iotinvalGvma av pscid pscv =>
    have fields0 := encodeIotinval0_eq_iff.mp h0
    have fields1 := placeAddr10_eq_iff.mp h1
    have hpscv : pscv = false := by simpa [Instr.wellFormed] using hwf
    simp [decode, decodeIotinval, fields0, fields1, hpscv, -BitVec.getLsbD_eq_getElem]
  | iofenceC =>
    have fields0 := encodeIofence0_eq_iff.mp h0
    have fields1 := placeAddr0_eq_iff.mp h1
    simp [decode, decodeIofence, fields0, fields1, -BitVec.getLsbD_eq_getElem]
  | iodirInvalDdt pid =>
    have fields0 := encodeIodir0_eq_iff.mp h0
    have hpid : pid = 0#20 := by simpa [Instr.wellFormed] using hwf
    simp [decode, decodeIodir, fields0, ← h1, hpid, -BitVec.getLsbD_eq_getElem]
  | iodirInvalPdt pid dv =>
    have fields0 := encodeIodir0_eq_iff.mp h0
    have hdv : dv = true := hwf
    simp [decode, decodeIodir, fields0, ← h1, hdv, -BitVec.getLsbD_eq_getElem]
  | atsInval =>
    have fields0 := encodeAts0_eq_iff.mp h0
    simp [decode, decodeAts, fields0, ← h1, -BitVec.getLsbD_eq_getElem]
  | atsPrgr =>
    have fields0 := encodeAts0_eq_iff.mp h0
    simp [decode, decodeAts, fields0, ← h1, -BitVec.getLsbD_eq_getElem]

end

/-! ## Byte order (20_memory R187) -/

theorem leValue_leBytes (n v : Nat) : leValue (leBytes n v) = v % 256 ^ n := by
  induction n generalizing v with
  | zero => simp [leBytes, leValue, Nat.mod_one]
  | succ n ih => rw [Nat.pow_succ', Nat.mod_mul, leBytes, leValue, ih, BitVec.toNat_ofNat]

theorem ofBytes_toBytes (be : Bool) (n v : Nat) : ofBytes be (toBytes be n v) = v % 256 ^ n := by
  cases be <;> simp [ofBytes, toBytes, leValue_leBytes]

/-- The sixteen bytes of two doublewords decode as these doublewords do, in either byte order. -/
theorem decodeBytes_toBytes (be : Bool) (dw0 dw1 : DWord) :
    decodeBytes be (toBytes be 8 dw0.toNat ++ toBytes be 8 dw1.toNat) = decode dw0 dw1 := by
  have hlength (w : DWord) : (toBytes be 8 w.toNat).length = 8 := Machine.toBytes_length be 8 w.toNat
  have hvalue (w : DWord) : BitVec.ofNat 64 (ofBytes be (toBytes be 8 w.toNat)) = w := by
    apply BitVec.eq_of_toNat_eq
    rw [ofBytes_toBytes, BitVec.toNat_ofNat]
    omega
  simp [decodeBytes, hlength, hvalue, List.take_of_length_le]

/-! ## The statements -/

/-- Settles O1: as doublewords by the fields of each format, as bytes because the bytes hold the doublewords. -/
theorem decodeOfEncodeIsIdentity : Obligations.DecodeOfEncodeIsIdentity := by
  intro i hwf
  have hdecode : decode (encode i).1 (encode i).2 = .ok i := decode_of_encode rfl hwf
  refine ⟨hdecode, fun be => ?_⟩
  rw [encodeBytes, decodeBytes_toBytes, hdecode]

/-- Settles O2: a doubleword whose reserved bits are 0 is the sum of its fields. -/
theorem encodeOfDecodeIsIdentity : Obligations.EncodeOfDecodeIsIdentity :=
  fun _ _ _ h => encode_of_decode h

/-- Settles O3: what decodes has one of the opcodes 1 to 4. -/
theorem otherOpcodesNeverDecode : Obligations.OtherOpcodesNeverDecode := by
  intro dw0 dw1 i hop h
  obtain ⟨h, _⟩ | ⟨h, _⟩ | ⟨h, _⟩ | ⟨h, _⟩ := decode_ok_cases h <;> simp [h] at hop

/-- Settles O4: each pair is the encoding of its command, so it decodes to it. -/
theorem specWordsDecode : Obligations.SpecWordsDecode := by
  refine ⟨?_, ?_, ?_, ?_, ?_, ?_, ?_⟩
  all_goals exact decode_of_encode (by decide) (by decide)

end Sys2Proof
end

section
/-! SUPPORT. Illegal commands: the error `cmd_ill`, and what it leaves (30_encoding R376, R377; 40_command_queue R398). -/

namespace Sys2Proof.Machine

/-- `raise_cip` changes `cip` and the MSIs owed, and nothing else. -/
theorem State.raiseCip_frame (s : State) :
    s.raiseCip = { s with ipsr := { s.ipsr with cip := s.ipsr.cip || s.cqcsr.cie }, msiOwed := s.raiseCip.msiOwed } := by
  rw [← State.raiseCip_ipsr]
  unfold State.raiseCip
  split <;> rfl

/-- The error `cmd_ill` sets its bit, leaves no fence pending, raises `cip` if `cie` is 1, and changes nothing else but
the MSIs owed. -/
theorem State.takeCommandError_illegal_frame (s : State) :
    s.takeCommandError .illegal =
      { s with cqcsr := { s.cqcsr with cmdIll := true }, fence := none,
               ipsr := { s.ipsr with cip := s.ipsr.cip || s.cqcsr.cie },
               msiOwed := (s.takeCommandError .illegal).msiOwed } :=
  State.raiseCip_frame _

/-- A command that the machine does not support is the error `cmd_ill`, the fence included. -/
theorem exec_of_unsupported {i : Instr} {s : State} (h : s.supports i = false) :
    Machine.exec i s = .next (s.takeCommandError .illegal) := by
  cases hi : isFence i with
  | false => rw [exec_of_not_fence hi, State.executeFetched_unsupported _ h]
  | true =>
    obtain ⟨av, wsi, pr, pw, data, addr, rfl⟩ := (isFence_iff i).mp hi
    simp [Machine.exec, execIofenceC, h]

/-- A command that is not well-formed is supported by no machine. -/
theorem State.supports_of_not_wellFormed (s : State) {i : Instr} (h : i.wellFormed = false) : s.supports i = false := by
  simp [State.supports, h]

/-- Settles O22: each of these commands is unsupported, by its own operands or by the machine's capabilities. -/
theorem illegalOperandsTakeError : Obligations.IllegalOperandsTakeError := by
  intro i s hillegal
  have hunsupported : s.supports i = false := by
    obtain ⟨av, pscid, gv, gscid, addr, rfl⟩ | ⟨pid, did, rfl⟩ | ⟨pid, dv, did, hpid, rfl⟩ |
      ⟨av, pr, pw, data, addr, hwired, rfl⟩ | ⟨pid, pv, dsv, rid, dseg, payload, hats, rfl⟩ |
      ⟨pid, pv, dsv, rid, dseg, payload, hats, rfl⟩ := hillegal
    · exact s.supports_of_not_wellFormed rfl
    · exact s.supports_of_not_wellFormed rfl
    · exact s.supports_of_not_wellFormed (by simpa [Instr.wellFormed] using hpid)
    · rcases hwired with h | h <;> simp [State.supports, h]
    · exact hats
    · exact hats
  exact ⟨_, exec_of_unsupported hunsupported, s.takeCommandError_illegal_frame⟩

end Sys2Proof.Machine
end

section
/-! SUPPORT. The fetch and the errors that stop it (40_command_queue R395 to R402), the wait of a fence (42_cmd_iofence
R441, R442), and what a command may change (40_command_queue R410). -/

namespace Sys2Proof.Machine

/-! ## The fetch -/

section
variable {s : State}

/-- A queue that may fetch is on, without error and without a pending fence. -/
theorem State.cqReady_status (h : s.cqReady = true) :
    s.cqcsr.cqon = true ∧ s.cqcsr.stopped = false ∧ s.fence = none := by
  simp only [State.cqReady, Bool.and_eq_true, Bool.not_eq_true', beq_iff_eq] at h
  obtain ⟨⟨⟨⟨⟨hon, _⟩, hok⟩, _⟩, hfence⟩, _⟩ := h
  exact ⟨hon, hok, hfence⟩

/-- A fetched command executes. -/
theorem State.fetchAndExecute_of_ok {i : Instr} (hr : s.cqReady = true) (hf : s.fetch = .ok i) :
    s.fetchAndExecute = Machine.exec i s := by
  simp [State.fetchAndExecute, hr, hf]

/-- A fetch that fails is its error. -/
theorem State.fetchAndExecute_of_error {e : CommandError} (hr : s.cqReady = true) (hf : s.fetch = .error e) :
    s.fetchAndExecute = .next (s.takeCommandError e) := by
  simp [State.fetchAndExecute, hr, hf]

/-- A queue that may not fetch does nothing, in either form of the fetch. -/
theorem State.fetch_of_not_cqReady (hr : s.cqReady = false) :
    s.fetchAndExecute = .next s ∧ s.fetchDeferred = s := by
  simp [State.fetchAndExecute, State.fetchDeferred, hr]

/-- An entry that cannot be read is a memory fault (R397). -/
theorem State.fetch_of_not_allowed (h : s.fetchAllowed = false) : s.fetch = .error .memoryFault := by
  simp [State.fetch, h]

/-- An entry that is read is a command, or an illegal one (R398). -/
theorem State.fetch_cases (h : s.fetchAllowed = true) :
    (∃ i, decodeBytes s.fctl.be (s.mem.readBytes s.commandAddr 16) = .ok i ∧ s.fetch = .ok i) ∨
    s.fetch = .error .illegal := by
  cases hd : decodeBytes s.fctl.be (s.mem.readBytes s.commandAddr 16) with
  | ok i => exact .inl ⟨i, rfl, (s.fetch_ok_iff i).mpr ⟨h, hd⟩⟩
  | error e => exact .inr (by simp [State.fetch, h, hd])

/-- An error bit stops the queue (R401). -/
theorem State.cqReady_of_stopped (h : s.cqcsr.stopped = true) : s.cqReady = false := by
  simp [State.cqReady, h]

/-- What an error changes: its bit, the pending fence, `cip` with the MSIs owed, and nothing else. -/
theorem State.takeCommandError_frame (s : State) (e : CommandError) :
    s.takeCommandError e =
      { s with cqcsr := s.cqcsr.withError e, fence := none,
               ipsr := { s.ipsr with cip := s.ipsr.cip || s.cqcsr.cie },
               msiOwed := (s.takeCommandError e).msiOwed } := by
  rw [← State.takeCommandError_ipsr s e]
  exact (State.raiseCip_frame _).trans (by simp [State.takeCommandError])

/-- What stands after a fetch that ended in an error: the queue fetches no more (R401, R402). -/
theorem State.takeCommandError_of_cqReady (hr : s.cqReady = true) (e : CommandError) :
    (s.takeCommandError e).cqReady = false ∧
    s.takeCommandError e =
      { s with cqcsr := (s.takeCommandError e).cqcsr, ipsr := (s.takeCommandError e).ipsr,
               msiOwed := (s.takeCommandError e).msiOwed } := by
  obtain ⟨_, _, hfence⟩ := State.cqReady_status hr
  refine ⟨s.takeCommandError_stops e, ?_⟩
  conv_lhs => rw [s.takeCommandError_frame e, ← hfence]
  simp

end

/-- Settles O5: the fetch gives the command its bytes decode to, whichever way the step comes to it. -/
theorem stepRunsDecodedCommand : Obligations.StepRunsDecodedCommand := by
  intro s i hr ha hd
  have hf : s.fetch = .ok i := (s.fetch_ok_iff i).mpr ⟨ha, hd⟩
  refine ⟨fun hag => ?_, fun rest hag => ?_⟩
  · rw [step_of_cqReady hag hr, State.fetchAndExecute_of_ok hr hf]
  · rw [step_of_agenda hag]
    exact State.fetchAndExecute_of_ok (s := { s with agenda := rest }) hr hf

/-- Settles O6: an entry that cannot be read is the error `cqmf`. -/
theorem fetchFaultStalls : Obligations.FetchFaultStalls := by
  intro s hag hr hrefused
  have ha : s.fetchAllowed = false := by
    obtain h | h := hrefused <;> simp [State.fetchAllowed, h]
  obtain ⟨hstops, hframe⟩ := State.takeCommandError_of_cqReady hr .memoryFault
  refine ⟨s.takeCommandError .memoryFault, ?_, by simp [Cqcsr.withError], by simp, hstops, by simp, by simp, hframe⟩
  rw [step_of_cqReady hag hr, State.fetchAndExecute_of_error hr (State.fetch_of_not_allowed ha)]

/-- Settles O7: an undecodable entry is the error `cmd_ill` in the fetch, an unsupported command in `exec`. -/
theorem illegalCommandStops : Obligations.IllegalCommandStops := by
  intro s hag hr ha hillegal
  have hstep : s.fetchAndExecute = .next (s.takeCommandError .illegal) := by
    obtain ⟨i, hd, hf⟩ | hf := State.fetch_cases ha
    · rw [State.fetchAndExecute_of_ok hr hf, exec_of_unsupported (hillegal i hd)]
    · exact State.fetchAndExecute_of_error hr hf
  obtain ⟨hstops, hframe⟩ := State.takeCommandError_of_cqReady hr .illegal
  refine ⟨s.takeCommandError .illegal, ?_, by simp [Cqcsr.withError], by simp, hstops, by simp, hframe⟩
  rw [step_of_cqReady hag hr, hstep]

/-- Settles O8: with an error bit set the queue may not fetch. -/
theorem errorBitStopsFetch : Obligations.ErrorBitStopsFetch := by
  intro s herror
  have hstopped : s.cqcsr.stopped = true := by
    obtain h | h | h := herror <;> simp [Cqcsr.stopped, h]
  obtain ⟨hnow, hlater⟩ := State.fetch_of_not_cqReady (State.cqReady_of_stopped hstopped)
  exact ⟨hnow, congrArg _ hlater⟩

/-! ## The fence -/

/-- A fence is supported unless it asks for a wired interrupt the machine does not signal (30_encoding R376 item 7). -/
theorem State.supports_iofenceC (s : State) {av wsi pr pw : Bool} {data : BitVec 32} {addr : BitVec 62}
    (h : wsi = true → s.cfg.igs ≠ 0#2 ∧ s.fctl.wsi = true) :
    s.supports (.iofenceC av wsi pr pw data addr) = true := by
  cases wsi with
  | false => rfl
  | true =>
    obtain ⟨higs, hwsi⟩ := h rfl
    simp [State.supports, Instr.wellFormed, higs, hwsi]

/-- What a supported fence does: it completes where it may, else it waits. -/
theorem exec_iofenceC {s : State} {av wsi pr pw : Bool} {data : BitVec 32} {addr : BitVec 62}
    (h : s.supports (.iofenceC av wsi pr pw data addr) = true) :
    Machine.exec (.iofenceC av wsi pr pw data addr) s =
      if s.fenceReady then .next (s.completeFence av wsi pr pw data addr)
      else .next { s with fence := some (.iofenceC av wsi pr pw data addr) } := by
  simp [Machine.exec, execIofenceC, h]

/-- What a command does: unsupported it is the error `cmd_ill`; one other than a fence has its effect and `cqh` moves
on; a fence completes or becomes pending. -/
theorem exec_cases (i : Instr) (s : State) :
    (s.supports i = false ∧ Machine.exec i s = .next (s.takeCommandError .illegal)) ∨
    (isFence i = false ∧ Machine.exec i s = .next (fetchedEffect i s).advanceHead) ∨
    (∃ av wsi pr pw data addr, i = .iofenceC av wsi pr pw data addr ∧
      Machine.exec i s = .next (s.completeFence av wsi pr pw data addr)) ∨
    (isFence i = true ∧ Machine.exec i s = .next { s with fence := some i }) := by
  cases hsup : s.supports i with
  | false => exact .inl ⟨rfl, exec_of_unsupported hsup⟩
  | true =>
    cases hi : isFence i with
    | false => exact .inr (.inl ⟨rfl, (exec_of_not_fence hi s).trans (State.executeFetched_supported _ hsup)⟩)
    | true =>
      obtain ⟨av, wsi, pr, pw, data, addr, rfl⟩ := (isFence_iff i).mp hi
      rw [exec_iofenceC hsup]
      split
      · exact .inr (.inr (.inl ⟨av, wsi, pr, pw, data, addr, rfl, rfl⟩))
      · exact .inr (.inr (.inr ⟨rfl, rfl⟩))

/-- Settles O19: a command in flight, or an activation overtaken, keeps the fence from completing. -/
theorem iofenceWaits : Obligations.IofenceWaits := by
  intro av wsi pr pw data addr s hbusy hwsi
  have hready : s.fenceReady = false := by
    obtain h | h := hbusy <;> simp [State.fenceReady, h]
  rw [exec_iofenceC (s.supports_iofenceC hwsi), hready]
  rfl

/-! ## What a command may change -/

theorem OnlyCommandState.refl (s : State) : OnlyCommandState s s := ⟨rfl, rfl⟩

theorem OnlyCommandState.trans {s t u : State} (h : OnlyCommandState s t) (k : OnlyCommandState t u) :
    OnlyCommandState s u := by
  refine ⟨?_, k.2.trans h.2⟩
  rw [k.1, h.1]

theorem OnlyCommandState.raiseCip (s : State) : OnlyCommandState s s.raiseCip :=
  ⟨by rw [s.raiseCip_frame], by simp⟩

theorem OnlyCommandState.takeCommandError (s : State) (e : CommandError) : OnlyCommandState s (s.takeCommandError e) :=
  ⟨by rw [s.takeCommandError_frame e], by simp⟩

theorem OnlyCommandState.advanceHead (s : State) : OnlyCommandState s s.advanceHead := ⟨rfl, rfl⟩

theorem OnlyCommandState.invalidate (s : State) (i : Invalidation) : OnlyCommandState s (s.invalidate i) :=
  ⟨rfl, s.invalidate_unaware i⟩

theorem OnlyCommandState.fenceStore (s : State) (av : Bool) (data : BitVec 32) (addr : BitVec 62) :
    OnlyCommandState s (s.fenceStore av data addr) := by
  cases av <;> exact ⟨rfl, rfl⟩

theorem OnlyCommandState.fenceSignal (s : State) (wsi : Bool) : OnlyCommandState s (s.fenceSignal wsi) := by
  cases wsi with
  | false => exact .refl s
  | true =>
    have marked : OnlyCommandState s { s with cqcsr := { s.cqcsr with fenceWIp := true } } := ⟨rfl, rfl⟩
    exact marked.trans (.raiseCip _)

/-- The effect of a command other than a fence: an invalidation or a message, and for `ATS.INVAL` the wait. -/
theorem OnlyCommandState.fetchedEffect (s : State) (i : Instr) : OnlyCommandState s (fetchedEffect i s) := by
  cases i with
  | iotinvalVma => exact .invalidate s _
  | iotinvalGvma => exact .invalidate s _
  | iofenceC => exact .refl s
  | iodirInvalDdt => exact .invalidate s _
  | iodirInvalPdt => exact .invalidate s _
  | atsInval => exact ⟨rfl, rfl⟩
  | atsPrgr => exact ⟨rfl, rfl⟩

theorem OnlyCommandState.completeFence (s : State) (av wsi pr pw : Bool) (data : BitVec 32) (addr : BitVec 62) :
    OnlyCommandState s (s.completeFence av wsi pr pw data addr) := by
  have unmarked : OnlyCommandState s { s with timedOut := false } := ⟨rfl, rfl⟩
  have committed : OnlyCommandState s (s.commitPrevious pr pw) := ⟨rfl, rfl⟩
  have dropped (t : State) : OnlyCommandState t { t with fence := none } := ⟨rfl, rfl⟩
  obtain ⟨_, e⟩ | ⟨_, _, e⟩ | ⟨_, _, e⟩ := s.completeFence_cases av wsi pr pw data addr <;> rw [e]
  · exact unmarked.trans (.takeCommandError _ _)
  · exact committed.trans (.takeCommandError _ _)
  · exact (((committed.trans (.fenceStore _ _ _ _)).trans (.fenceSignal _ _)).trans (dropped _)).trans (.advanceHead _)

/-- A command other than a fence touches no memory. -/
theorem fetchedEffect_mem (i : Instr) (s : State) : (fetchedEffect i s).mem = s.mem := by
  cases i <;> rfl

/-- A fence with `AV`=0 touches no memory. -/
theorem State.completeFence_mem (s : State) (wsi pr pw : Bool) (data : BitVec 32) (addr : BitVec 62) :
    (s.completeFence false wsi pr pw data addr).mem = s.mem := by
  obtain ⟨_, e⟩ | ⟨_, _, e⟩ | ⟨_, _, e⟩ := s.completeFence_cases false wsi pr pw data addr <;> rw [e] <;>
    simp [State.fenceStore]

/-- The command stores to memory: `IOFENCE.C` with `AV`=1 (42_cmd_iofence R444). -/
def StoresData (i : Instr) : Prop := ∃ wsi pr pw data addr, i = .iofenceC true wsi pr pw data addr

/-- Every command answers, with what a command may change, and stores only as a fence with `AV`=1. -/
theorem exec_limited (i : Instr) (s : State) :
    ∃ t, Machine.exec i s = .next t ∧ OnlyCommandState s t ∧ (¬ StoresData i → t.mem = s.mem) := by
  obtain ⟨_, e⟩ | ⟨_, e⟩ | ⟨av, wsi, pr, pw, data, addr, rfl, e⟩ | ⟨_, e⟩ := exec_cases i s
  · exact ⟨_, e, .takeCommandError s _, fun _ => s.takeCommandError_mem _⟩
  · exact ⟨_, e, (OnlyCommandState.fetchedEffect s i).trans (.advanceHead _), fun _ => fetchedEffect_mem i s⟩
  · refine ⟨_, e, .completeFence s _ _ _ _ _ _, fun hav => ?_⟩
    cases av with
    | false => exact s.completeFence_mem _ _ _ _ _
    | true => exact absurd ⟨wsi, pr, pw, data, addr, rfl⟩ hav
  · exact ⟨_, e, ⟨rfl, rfl⟩, fun _ => rfl⟩

/-- Settles O23, by what each command does. -/
theorem commandEffectsAreLimited : Obligations.CommandEffectsAreLimited := by
  intro i s
  obtain ⟨t, ht, honly, hmem⟩ := exec_limited i s
  refine ⟨t, ht, honly, fun hnot a => ?_⟩
  rw [hmem fun ⟨wsi, pr, pw, data, addr, h⟩ => hnot wsi pr pw data addr h]

end Sys2Proof.Machine
end

section
/-! SUPPORT. What leaves the command queue's bookkeeping alone: everything but the queue's own steps, the end of a
command in flight, and writes of `cqcsr` (40_command_queue R395 to R404). -/

namespace Sys2Proof.Machine

/-- The command queue's bookkeeping: its status register, the pending fence, and the commands in flight with the mark of
a timeout. -/
def State.bookkeeping (s : State) := (s.cqcsr, s.fence, s.inflight, s.timedOut)

/-- The bookkeeping of an answer. -/
theorem State.bookkeeping_of_next {s t u : State}
    (h : Host.Outcome.next u = (.next t : Host.Outcome State Fault Refusal)) (hu : u.bookkeeping = s.bookkeeping) :
    t.bookkeeping = s.bookkeeping := by
  injection h with h
  exact h ▸ hu

/-- A change made or not. -/
theorem State.bookkeeping_ite {s u : State} {b : Prop} [Decidable b] (hu : u.bookkeeping = s.bookkeeping) :
    (if b then u else s).bookkeeping = s.bookkeeping := by
  split
  · exact hu
  · rfl

/-! ## Interrupts, answers and reports -/

section
variable (s : State)

@[simp] theorem State.raiseFip_bookkeeping : s.raiseFip.bookkeeping = s.bookkeeping := by simp [State.bookkeeping]

@[simp] theorem State.advanceClock_bookkeeping (n : Nat) : (s.advanceClock n).bookkeeping = s.bookkeeping := by
  rw [s.advanceClock_frame n]
  rfl

@[simp] theorem State.reportFault_bookkeeping (cause : Nat) (dtf : Bool) (r : FaultRecord) :
    (s.reportFault cause dtf r).bookkeeping = s.bookkeeping := by
  obtain ⟨fs, e⟩ := s.reportFault_frame cause dtf r
  rw [e]
  rfl

@[simp] theorem State.respond_bookkeeping (m : PageRequest) (st : PageStatus) (b : Bool) :
    (s.respond m st b).bookkeeping = s.bookkeeping := by
  obtain ⟨ms, e⟩ := s.respond_frame m st b
  rw [e]
  rfl

end

theorem OnlyAnswer.bookkeeping {s t : State} {w : Walk} (h : OnlyAnswer s t w) : t.bookkeeping = s.bookkeeping := by
  unfold OnlyAnswer at h
  rw [h]
  rfl

/-! ## Records -/

section
variable (s : State)

@[simp] theorem State.storePage_bookkeeping (m : PageRequest) (prpr : Bool) :
    (s.storePage m prpr).bookkeeping = s.bookkeeping := by
  obtain ⟨_, _, _, _, _, _, e⟩ := s.storePage_frame m prpr
  rw [e]
  rfl

@[simp] theorem State.storePages_bookkeeping (xs : List PageRecord) :
    (s.storePages xs).bookkeeping = s.bookkeeping :=
  State.storePages_keeps (fun t => t.bookkeeping = s.bookkeeping)
    (fun t m b h => (t.storePage_bookkeeping m b).trans h) xs s rfl

theorem State.pqOff_bookkeeping : s.pqOff.bookkeeping = s.bookkeeping :=
  State.storePages_bookkeeping { s with pageRecords := [] } s.pageRecords

theorem State.writeRecord_bookkeeping (r : FaultRecord) : (s.writeRecord r).bookkeeping = s.bookkeeping := by
  unfold State.writeRecord
  split
  · rfl
  split
  · rfl
  split
  · exact State.raiseFip_bookkeeping _
  simp only []
  split <;> exact State.raiseFip_bookkeeping _

theorem State.writeFault_bookkeeping (k : Nat) : (s.writeFault k).bookkeeping = s.bookkeeping := by
  unfold State.writeFault
  split
  · exact State.writeRecord_bookkeeping _ _
  · rfl

theorem State.dropFault_bookkeeping (k : Nat) : (s.dropFault k).bookkeeping = s.bookkeeping := by
  unfold State.dropFault
  split
  · split <;> rfl
  · rfl

theorem State.msiSend_bookkeeping (v : BitVec 4) : (s.msiSend v).bookkeeping = s.bookkeeping := by
  unfold State.msiSend
  split
  · rfl
  simp only []
  split
  · rfl
  · exact State.reportFault_bookkeeping _ _ _ _

/-! ## Messages -/

theorem State.acceptPage_bookkeeping (m : PageRequest) (prpr : Bool) :
    (s.acceptPage m prpr).bookkeeping = s.bookkeeping := by
  unfold State.acceptPage
  split
  · exact s.respond_bookkeeping _ _ _
  · rfl

theorem State.queuePage_bookkeeping (m : PageRequest) (prpr : Bool) :
    (s.queuePage m prpr).bookkeeping = s.bookkeeping := by
  unfold State.queuePage
  split
  · exact s.respond_bookkeeping _ _ _
  · exact s.storePage_bookkeeping _ _

theorem State.answerPage_bookkeeping {queue : State → PageRequest → Bool → State}
    (hq : ∀ (u : State) m b, (queue u m b).bookkeeping = u.bookkeeping) (m : PageRequest)
    (y : EStateM.Result FaultInfo Walk DeviceContext) : (s.answerPage queue m y).bookkeeping = s.bookkeeping := by
  have absorbed (w : Walk) := (s.absorbMessage_frame w m.deviceId m.pasid).bookkeeping
  cases y with
  | error e w =>
    unfold State.answerPage State.reportMessage
    rw [State.respond_bookkeeping, State.reportFault_bookkeeping, absorbed]
  | ok d w =>
    unfold State.answerPage
    simp only []
    split
    · rw [hq, absorbed]
    · unfold State.refusePage State.reportMessage
      rw [State.respond_bookkeeping, State.reportFault_bookkeeping, absorbed]

theorem State.handleOther_bookkeeping (ps : List DdtPointer) (m : OtherMessage) :
    (s.handleOther ps m).bookkeeping = s.bookkeeping := by
  unfold State.handleOther
  split
  · rfl
  · exact (s.answerOther_frame _ _).bookkeeping

theorem State.handlePage_bookkeeping {queue : State → PageRequest → Bool → State}
    (hq : ∀ (u : State) m b, (queue u m b).bookkeeping = u.bookkeeping) (ps : List DdtPointer) (m : PageRequest) :
    (s.handlePage ps queue m).bookkeeping = s.bookkeeping := by
  unfold State.handlePage
  split
  · rfl
  split
  · exact s.handleOther_bookkeeping _ _
  · exact s.answerPage_bookkeeping hq _ _

theorem State.writePage_bookkeeping : s.writePage.bookkeeping = s.bookkeeping := by
  unfold State.writePage
  split
  · exact State.storePage_bookkeeping _ _ _
  · split
    · rfl
    · exact State.handlePage_bookkeeping _ State.queuePage_bookkeeping _ _
  · rfl

theorem State.decidePage_bookkeeping : s.decidePage.bookkeeping = s.bookkeeping := by
  unfold State.decidePage
  split
  · split
    · rfl
    · exact State.handlePage_bookkeeping _ State.acceptPage_bookkeeping _ _
  · rfl

/-! ## Requests, debug requests and activations -/

theorem State.breakRequest_bookkeeping (r : Request) : (s.breakRequest r).bookkeeping = s.bookkeeping := by
  unfold State.breakRequest
  split
  · rfl
  · have counted : OnlyAnswer s (s.countEvent r.type.hpmEvent ⟨r.deviceId, r.processId, none, none⟩ 1) s.startWalk :=
      .of_counters (onlyCounters_countEvent _ _ _ s)
    exact (counted.fail _ _ _ _).bookkeeping

theorem State.internalErrorAt_bookkeeping (k : Nat) : (s.internalErrorAt k).bookkeeping = s.bookkeeping := by
  unfold State.internalErrorAt
  split
  · exact State.breakRequest_bookkeeping _ _
  · rfl

theorem State.internalErrorActive_bookkeeping (k : Nat) : (s.internalErrorActive k).bookkeeping = s.bookkeeping := by
  unfold State.internalErrorActive
  split
  case h_1 => exact State.breakRequest_bookkeeping _ _
  all_goals rfl

theorem State.drawSkips_bookkeeping : s.drawSkips.bookkeeping = s.bookkeeping := by
  unfold State.drawSkips
  split <;> rfl

theorem State.debugStep_bookkeeping : s.debugStep.bookkeeping = s.bookkeeping := by
  unfold State.debugStep
  split
  · rfl
  split
  · rfl
  · exact (State.answerDebug_frame _ _ _).bookkeeping.trans s.drawSkips_bookkeeping

theorem State.endFailed_bookkeeping (x : Task) : (s.endFailed x).bookkeeping = s.bookkeeping := by
  cases x <;> rfl

end

section
variable {s t : State}

theorem State.serveAt_bookkeeping {k : Nat} (h : s.serveAt k = .next t) : t.bookkeeping = s.bookkeeping := by
  unfold State.serveAt at h
  split at h
  · unfold serveRequest at h
    split at h
    · exact State.bookkeeping_of_next h rfl
    · exact (State.answerRequest_frame h).bookkeeping
  · exact State.bookkeeping_of_next h rfl

/-- An activation goes on to its next access, or ends with an answer. -/
theorem State.run_bookkeeping {a : Activation} (h : s.run a = .next t) : t.bookkeeping = s.bookkeeping := by
  obtain ⟨x, _, rfl⟩ | ⟨r, y, _, _, h⟩ | ⟨r, b, y, _, _, rfl⟩ | ⟨m, y, _, _, rfl⟩ | ⟨m, y, _, _, rfl⟩ |
    ⟨did, y, _, _, rfl⟩ := State.run_cases h
  · rfl
  · exact (State.answerRequest_frame h).bookkeeping
  · exact (s.answerDebug_frame _ _).bookkeeping
  · exact (s.answerPage_frame _ _).bookkeeping
  · exact (s.answerOther_frame _ _).bookkeeping
  · exact (s.answerCompletion_frame _ _).bookkeeping

theorem State.advance_bookkeeping {k pick : Nat} (h : s.advance k pick = .next t) :
    t.bookkeeping = s.bookkeeping := by
  obtain ⟨_, rfl⟩ | ⟨a, _, _, rfl⟩ | ⟨a, _, _, h⟩ := State.advance_cases h
  · rfl
  · exact State.endFailed_bookkeeping _ _
  · exact (State.run_bookkeeping h).trans rfl

theorem State.beginTranslate_bookkeeping {k : Nat} (h : s.beginTranslate k = .next t) :
    t.bookkeeping = s.bookkeeping := by
  unfold State.beginTranslate at h
  split at h
  · exact State.bookkeeping_of_next h rfl
  simp only [] at h
  split at h
  · exact State.bookkeeping_of_next h rfl
  · exact (State.run_bookkeeping h).trans rfl

theorem State.beginPage_bookkeeping (h : s.beginPage = .next t) : t.bookkeeping = s.bookkeeping := by
  unfold State.beginPage at h
  split at h
  · exact State.bookkeeping_of_next h rfl
  simp only [] at h
  split at h
  · exact State.bookkeeping_of_next h rfl
  split at h
  · exact State.bookkeeping_of_next h rfl
  · exact (State.run_bookkeeping h).trans rfl

theorem State.beginOther_bookkeeping {m : OtherMessage} (h : s.beginOther m = .next t) :
    t.bookkeeping = s.bookkeeping := by
  unfold State.beginOther at h
  split at h
  · exact State.bookkeeping_of_next h rfl
  · exact State.run_bookkeeping h

theorem State.beginDebug_bookkeeping (h : s.beginDebug = .next t) : t.bookkeeping = s.bookkeeping := by
  unfold State.beginDebug at h
  split at h
  · exact State.bookkeeping_of_next h rfl
  split at h
  · exact State.bookkeeping_of_next h rfl
  · exact (State.run_bookkeeping h).trans s.drawSkips_bookkeeping

end

/-! ## The operations of `ddtp` and of the other queues -/

section
variable (s : State)

theorem State.ddtpComplete_bookkeeping : s.ddtpComplete.bookkeeping = s.bookkeeping := by
  unfold State.ddtpComplete
  split <;> rfl

theorem State.fqComplete_bookkeeping : s.fqComplete.bookkeeping = s.bookkeeping := by
  unfold State.fqComplete
  split
  · rfl
  split <;> rfl

theorem State.pqComplete_bookkeeping : s.pqComplete.bookkeeping = s.bookkeeping := by
  unfold State.pqComplete
  split
  · rfl
  split
  · rfl
  · exact s.pqOff_bookkeeping

theorem State.setDdtp_bookkeeping (p : DdtPointer) : (s.setDdtp p).bookkeeping = s.bookkeeping := by
  obtain ⟨_, _, e⟩ := s.setDdtp_frame p
  rw [e]
  rfl

theorem State.fqDisable_bookkeeping : s.fqDisable.bookkeeping = s.bookkeeping := by
  unfold State.fqDisable
  simp only []
  split <;> rfl

theorem State.pqDisable_bookkeeping : s.pqDisable.bookkeeping = s.bookkeeping := by
  unfold State.pqDisable
  simp only []
  split
  · exact State.pqOff_bookkeeping _
  · rfl

theorem State.drawBusy_bookkeeping : s.drawBusy.bookkeeping = s.bookkeeping := by
  obtain ⟨n, e⟩ := s.drawBusy_frame
  rw [e]
  rfl

end

/-! ## Register accesses -/

section
variable {s t : State} {v : DWord} {w : Word}

theorem State.writeFctl_bookkeeping (h : s.writeFctl w = .next t) : t.bookkeeping = s.bookkeeping := by
  unfold State.writeFctl at h
  extract_lets f at h
  split_ifs at h
  all_goals exact State.bookkeeping_of_next h rfl

theorem State.writeDdtp_bookkeeping (h : s.writeDdtp v = .next t) : t.bookkeeping = s.bookkeeping := by
  unfold State.writeDdtp at h
  split at h
  · cases h
  split at h
  · cases h
  split at h
  · exact State.bookkeeping_of_next h (s.setDdtp_bookkeeping _)
  simp only [] at h
  split at h
  · cases h
  · exact State.bookkeeping_of_next h (s.setDdtp_bookkeeping _)

theorem State.writeDdtpHigh_bookkeeping (h : s.writeDdtpHigh v = .next t) : t.bookkeeping = s.bookkeeping := by
  unfold State.writeDdtpHigh at h
  split_ifs at h
  all_goals exact State.bookkeeping_of_next h rfl

theorem State.finishDdtp_bookkeeping {started : Bool} (h : s.finishDdtp v started = .next t) :
    t.bookkeeping = s.bookkeeping := by
  unfold State.finishDdtp at h
  split_ifs at h
  exact State.bookkeeping_of_next h rfl

theorem State.writeCqb_bookkeeping (h : s.writeCqb v = .next t) : t.bookkeeping = s.bookkeeping := by
  unfold State.writeCqb at h
  split_ifs at h
  exact State.bookkeeping_of_next h rfl

theorem State.writeFqb_bookkeeping (h : s.writeFqb v = .next t) : t.bookkeeping = s.bookkeeping := by
  unfold State.writeFqb at h
  split_ifs at h
  exact State.bookkeeping_of_next h rfl

theorem State.writePqb_bookkeeping (h : s.writePqb v = .next t) : t.bookkeeping = s.bookkeeping := by
  unfold State.writePqb at h
  split_ifs at h
  exact State.bookkeeping_of_next h rfl

theorem State.writeFqcsr_bookkeeping (h : s.writeFqcsr w = .next t) : t.bookkeeping = s.bookkeeping := by
  unfold State.writeFqcsr at h
  simp only [] at h
  split_ifs at h <;> cases h
  · rfl
  · exact State.fqDisable_bookkeeping _
  · exact State.drawBusy_bookkeeping _

theorem State.writePqcsr_bookkeeping (h : s.writePqcsr w = .next t) : t.bookkeeping = s.bookkeeping := by
  unfold State.writePqcsr at h
  simp only [] at h
  split_ifs at h <;> cases h
  · rfl
  · exact State.pqDisable_bookkeeping _
  · exact State.drawBusy_bookkeeping _

theorem State.writeTrReqIova_bookkeeping (h : s.writeTrReqIova v = .next t) : t.bookkeeping = s.bookkeeping := by
  unfold State.writeTrReqIova at h
  split_ifs at h
  exact State.bookkeeping_of_next h rfl

theorem State.writeTrReqCtl_bookkeeping {low : Bool} (h : s.writeTrReqCtl v low = .next t) :
    t.bookkeeping = s.bookkeeping := by
  unfold State.writeTrReqCtl at h
  simp only [] at h
  split_ifs at h
  exact State.bookkeeping_of_next h rfl

/-- A write of any register but `cqcsr` leaves the bookkeeping. -/
theorem State.writeDword_bookkeeping {k : Nat} {low high : Bool} (h : s.writeDword k v low high = .next t)
    (hc : ¬ (k = 9 ∧ low = true)) : t.bookkeeping = s.bookkeeping := by
  obtain rfl | rfl | rfl | rfl | rfl | rfl | rfl | rfl | rfl | rfl | rfl | rfl | hk | hk | rfl | rfl | rfl | hk | hk :=
    dword_cases k
  · rw [State.writeDword_fctl] at h
    split at h
    · exact State.writeFctl_bookkeeping h
    · exact State.bookkeeping_of_next h rfl
  · rw [State.writeDword_ddtp] at h
    split at h
    · exact State.writeDdtp_bookkeeping h
    · exact State.writeDdtpHigh_bookkeeping h
  · exact State.writeCqb_bookkeeping h
  · rw [State.writeDword_cqt] at h
    exact State.bookkeeping_of_next h (State.bookkeeping_ite rfl)
  · exact State.writeFqb_bookkeeping h
  · rw [State.writeDword_fqh] at h
    exact State.bookkeeping_of_next h (State.bookkeeping_ite rfl)
  · rw [State.writeDword_pqb] at h
    split at h
    · exact State.writePqb_bookkeeping h
    · exact State.bookkeeping_of_next h rfl
  · rw [State.writeDword_pqh] at h
    exact State.bookkeeping_of_next h (State.bookkeeping_ite rfl)
  · rw [State.writeDword_cqcsr] at h
    split at h
    · next hl => exact absurd ⟨rfl, hl⟩ hc
    · exact State.writeFqcsr_bookkeeping h
  · rw [State.writeDword_pqcsr] at h
    split_ifs at h
    · exact State.writePqcsr_bookkeeping h
    all_goals exact State.bookkeeping_of_next h rfl
  · rw [State.writeDword_countInhibit] at h
    exact State.bookkeeping_of_next h (State.bookkeeping_ite rfl)
  · rw [State.writeDword_cycles] at h
    exact State.bookkeeping_of_next h (State.bookkeeping_ite rfl)
  · rw [State.writeDword_counter s v low high hk] at h
    exact State.bookkeeping_of_next h (State.bookkeeping_ite rfl)
  · rw [State.writeDword_selector s v low high hk] at h
    exact State.bookkeeping_of_next h (State.bookkeeping_ite rfl)
  · rw [State.writeDword_trReqIova] at h
    split at h
    · exact State.writeTrReqIova_bookkeeping h
    · exact State.bookkeeping_of_next h rfl
  · rw [State.writeDword_trReqCtl] at h
    split at h
    · exact State.writeTrReqCtl_bookkeeping h
    · exact State.bookkeeping_of_next h rfl
  · exact State.bookkeeping_of_next h rfl
  · rw [State.writeDword_msi s v low high hk] at h
    exact State.bookkeeping_of_next h (State.bookkeeping_ite rfl)
  · rw [State.writeDword_other s v low high hk] at h
    exact State.bookkeeping_of_next h rfl

theorem State.hostRead_bookkeeping {o n : Nat} (h : s.hostRead o n = .next t) : t.bookkeeping = s.bookkeeping := by
  obtain ⟨_, ⟨_, _, high, rfl⟩ | ⟨_, _, rfl⟩ | rfl⟩ := State.hostRead_cases h
  · obtain ⟨d, e⟩ := s.nextDraw.readFirstHalf_frame o high
    rw [e]
    rfl
  · obtain ⟨d, e⟩ := s.nextDraw.readWhole_frame o n
    rw [e]
    rfl
  · obtain ⟨d, e⟩ := s.readWhole_frame o n
    rw [e]
    rfl

theorem State.hostStore_bookkeeping {a : Nat} {bs : List Byte} (h : s.hostStore a bs = .next t) :
    t.bookkeeping = s.bookkeeping := by
  unfold State.hostStore at h
  split_ifs at h
  exact State.bookkeeping_of_next h rfl

end

end Sys2Proof.Machine
end

section
/-! SUPPORT. What each step of the command queue keeps of its coherence (40_command_queue R399, R400, R401), and the
invariant over every step. -/

namespace Sys2Proof.Machine

/-! ## What coherence asks -/

/-- What coherence asks of one command in flight (40_command_queue R400). -/
def InFlight.Coherent (c : InFlight) : Prop := isFence c.cmd = false ∧ (c.phase = .waiting → IsAtsInval c.cmd)

/-- A fetched command other than a fence may be in flight. -/
theorem InFlight.coherent_fetched {i : Instr} (hi : isFence i = false) : InFlight.Coherent ⟨i, .fetched⟩ :=
  ⟨hi, fun h => by cases h⟩

/-- An `ATS.INVAL` may wait for its completion. -/
theorem InFlight.coherent_atsInval (pid : BitVec 20) (pv dsv : Bool) (rid : BitVec 16) (dseg : BitVec 8)
    (payload : BitVec 64) : InFlight.Coherent ⟨.atsInval pid pv dsv rid dseg payload, .waiting⟩ :=
  ⟨rfl, fun _ => ⟨_, _, _, _, _, _, rfl⟩⟩

section
variable {s t : State}

/-- Coherence speaks of the bookkeeping only. -/
theorem State.CommandsCoherent.of_bookkeeping (hs : s.CommandsCoherent) (h : t.bookkeeping = s.bookkeeping) :
    t.CommandsCoherent := by
  simp only [State.bookkeeping, Prod.mk.injEq] at h
  obtain ⟨hcqcsr, hfence, hinflight, _⟩ := h
  unfold State.CommandsCoherent at *
  rwa [hcqcsr, hfence, hinflight]

/-- The same fence pending under the same status, and coherent commands in flight. -/
theorem State.CommandsCoherent.of_inflight (hs : s.CommandsCoherent) (hc : t.cqcsr = s.cqcsr)
    (hf : t.fence = s.fence) (hi : ∀ c ∈ t.inflight, c.Coherent) : t.CommandsCoherent := by
  refine ⟨?_, hi⟩
  rw [hc, hf]
  exact hs.1

/-- With no fence pending, coherence is that of what is in flight. -/
theorem State.commandsCoherent_of_noFence (hf : t.fence = none) (hi : ∀ c ∈ t.inflight, c.Coherent) :
    t.CommandsCoherent :=
  ⟨fun i h => by simp [hf] at h, hi⟩

/-- The fence goes, whatever becomes of the status, and what is in flight stays. -/
theorem State.CommandsCoherent.dropFence (hs : s.CommandsCoherent) (hf : t.fence = none)
    (hi : t.inflight = s.inflight) : t.CommandsCoherent :=
  State.commandsCoherent_of_noFence hf (hi ▸ hs.2)

/-- A command in flight completes or is abandoned. -/
theorem State.CommandsCoherent.removeAt (hs : s.CommandsCoherent) {k : Nat} (hc : t.cqcsr = s.cqcsr)
    (hf : t.fence = s.fence) (hi : t.inflight = removeAt s.inflight k) : t.CommandsCoherent :=
  hs.of_inflight hc hf fun c hm => hs.2 c (mem_of_mem_removeAt (hi ▸ hm))

/-- A fence waits behind a queue that is on and without error. -/
theorem State.CommandsCoherent.pend (hs : s.CommandsCoherent) {i : Instr} (hi : isFence i = true)
    (hon : s.cqcsr.cqon = true) (hok : s.cqcsr.stopped = false) : State.CommandsCoherent { s with fence := some i } :=
  ⟨fun j hj => by cases hj; exact ⟨hi, hon, hok⟩, hs.2⟩

/-- A new value of the status register that leaves the queue on if it was, and sets no error bit. -/
theorem State.CommandsCoherent.setStatus (hs : s.CommandsCoherent) {c : Cqcsr}
    (hon : s.cqcsr.cqon = true → c.cqon = true) (hok : s.cqcsr.stopped = false → c.stopped = false) :
    State.CommandsCoherent { s with cqcsr := c } :=
  ⟨fun i hi => have ⟨h, h1, h2⟩ := hs.1 i hi; ⟨h, hon h1, hok h2⟩, hs.2⟩

end

/-- What is in a list after the replacement of an element is the new element or was there before. -/
theorem mem_of_mem_replaceAt {α : Type} {x y : α} :
    ∀ {xs : List α} {k : Nat}, x ∈ replaceAt xs k y → x = y ∨ x ∈ xs
  | _ :: _, 0, h => (List.mem_cons.mp h).imp id (List.mem_cons_of_mem _)
  | _ :: _, _ + 1, h => (List.mem_cons.mp h).elim (fun e => .inr (e ▸ List.mem_cons_self ..)) fun h =>
      (mem_of_mem_replaceAt h).imp id (List.mem_cons_of_mem _)

/-- Clearing error bits sets none. -/
theorem Cqcsr.stopped_clearErrors {c : Cqcsr} (h : c.stopped = false) (mf timeout ill fence : Bool) :
    (c.clearErrors mf timeout ill fence).stopped = false := by
  simp only [Cqcsr.stopped, Bool.or_eq_false_iff] at h
  simp [Cqcsr.clearErrors, Cqcsr.stopped, h]

/-- A queue that is off has nothing pending and nothing in flight (40_command_queue R404). -/
theorem State.commandsCoherent_cqOff (s : State) : s.cqOff.CommandsCoherent :=
  State.commandsCoherent_of_noFence rfl (List.forall_mem_nil _)

/-! ## Commands -/

section
variable {s t : State} (hs : s.CommandsCoherent)
include hs

/-- An error leaves no fence pending (42_cmd_iofence R441). -/
theorem State.CommandsCoherent.takeCommandError (e : CommandError) : (s.takeCommandError e).CommandsCoherent :=
  hs.dropFence (by simp) (by simp)

/-- However a fence ends, it is no longer pending. -/
theorem State.CommandsCoherent.completeFence (av wsi pr pw : Bool) (data : BitVec 32) (addr : BitVec 62) :
    (s.completeFence av wsi pr pw data addr).CommandsCoherent := by
  obtain ⟨_, e⟩ | ⟨_, _, e⟩ | ⟨_, _, e⟩ := s.completeFence_cases av wsi pr pw data addr <;> rw [e]
  all_goals exact hs.dropFence (by simp) (by simp)

/-- Of the commands other than a fence, only `ATS.INVAL` stays in flight as it is fetched. -/
theorem State.CommandsCoherent.fetchedEffect (i : Instr) : (fetchedEffect i s).CommandsCoherent := by
  cases i with
  | atsInval pid pv dsv rid dseg payload =>
    exact hs.of_inflight rfl rfl (List.forall_mem_append.mpr
      ⟨hs.2, List.forall_mem_singleton.mpr (InFlight.coherent_atsInval _ _ _ _ _ _)⟩)
  | _ => exact hs.of_bookkeeping rfl

/-- A command of a queue that is on and without error. -/
theorem State.CommandsCoherent.exec {i : Instr} (hon : s.cqcsr.cqon = true) (hok : s.cqcsr.stopped = false)
    (h : Machine.exec i s = .next t) : t.CommandsCoherent := by
  obtain ⟨_, e⟩ | ⟨_, e⟩ | ⟨av, wsi, pr, pw, data, addr, _, e⟩ | ⟨hi, e⟩ := exec_cases i s <;> rw [e] at h <;> cases h
  · exact hs.takeCommandError _
  · exact (hs.fetchedEffect i).of_bookkeeping rfl
  · exact hs.completeFence _ _ _ _ _ _
  · exact hs.pend hi hon hok

theorem State.CommandsCoherent.fetchAndExecute (h : s.fetchAndExecute = .next t) : t.CommandsCoherent := by
  unfold State.fetchAndExecute at h
  split at h
  · cases h
    exact hs
  · next hr =>
    obtain ⟨hon, hok, _⟩ := State.cqReady_status (by simpa using hr)
    split at h
    · cases h
      exact hs.takeCommandError _
    · exact hs.exec hon hok h

theorem State.CommandsCoherent.fetchDeferred : s.fetchDeferred.CommandsCoherent := by
  unfold State.fetchDeferred
  split
  · exact hs
  · next hr =>
    obtain ⟨hon, hok, _⟩ := State.cqReady_status (by simpa using hr)
    split
    · exact hs.takeCommandError _
    split
    · exact hs.takeCommandError _
    split
    · next hi => exact hs.pend hi hon hok
    · next hi =>
      exact hs.of_inflight rfl rfl (List.forall_mem_append.mpr
        ⟨hs.2, List.forall_mem_singleton.mpr (InFlight.coherent_fetched (by simpa using hi))⟩)

/-- A fence that is tried was pending with the queue on and without error. -/
theorem State.CommandsCoherent.tryFence (h : s.tryFence = .next t) : t.CommandsCoherent := by
  unfold State.tryFence at h
  split at h
  · next i hi =>
    obtain ⟨_, hon, hok⟩ := hs.1 i hi
    split at h
    · exact (hs.dropFence (t := { s with fence := none }) rfl rfl).exec hon hok h
    · cases h
      exact hs
  · cases h
    exact hs

/-- Of a command that has executed only an `ATS.INVAL` stays in flight (44_cmd_ats R482). -/
theorem State.CommandsCoherent.afterExecution (i : Instr) (k : Nat) :
    ∀ c ∈ afterExecution i s.inflight k, c.Coherent := by
  intro c hc
  cases i with
  | atsInval pid pv dsv rid dseg payload =>
    obtain rfl | hm := mem_of_mem_replaceAt hc
    · exact InFlight.coherent_atsInval _ _ _ _ _ _
    · exact hs.2 c hm
  | _ => exact hs.2 c (mem_of_mem_removeAt hc)

theorem State.CommandsCoherent.executeInFlight (k : Nat) : (s.executeInFlight k).CommandsCoherent := by
  unfold State.executeInFlight
  split
  · exact hs
  split
  · next i _ =>
    have effect : (Machine.deferredEffect i s).bookkeeping = s.bookkeeping := by cases i <;> rfl
    exact (hs.of_bookkeeping effect).of_inflight rfl rfl (hs.afterExecution i k)
  · exact hs

theorem State.CommandsCoherent.abandon (k : Nat) : (s.abandon k).CommandsCoherent := by
  unfold State.abandon
  split
  · exact hs.removeAt rfl rfl rfl
  · exact hs

/-! ## The end of a command in flight -/

theorem State.CommandsCoherent.completed (k : Nat) : (s.completed k).CommandsCoherent := hs.removeAt rfl rfl rfl

theorem State.CommandsCoherent.invalCompleted (did : BitVec 24) (k : Nat) :
    (s.invalCompleted did k).CommandsCoherent := by
  unfold State.invalCompleted
  split
  · exact hs
  · exact (hs.completed k).of_bookkeeping (State.answerCompletion_frame _ _ _).bookkeeping

theorem State.CommandsCoherent.beginCompletion {did : BitVec 24} {k : Nat} (h : s.beginCompletion did k = .next t) :
    t.CommandsCoherent := by
  unfold State.beginCompletion at h
  split at h
  · cases h
    exact hs
  · exact (hs.completed k).of_bookkeeping (State.run_bookkeeping h)

theorem State.CommandsCoherent.invalTimedOut (k : Nat) : (s.invalTimedOut k).CommandsCoherent := by
  unfold State.invalTimedOut
  split
  · exact hs.removeAt rfl rfl rfl
  · exact hs

/-! ## The status register -/

theorem State.CommandsCoherent.cqComplete : s.cqComplete.CommandsCoherent := by
  unfold State.cqComplete
  split
  · exact hs
  split
  · exact hs.setStatus (fun _ => rfl) id
  · exact s.commandsCoherent_cqOff

/-- A queue being turned off stays on until its operations complete, and is off then. -/
theorem State.CommandsCoherent.cqDisable : s.cqDisable.CommandsCoherent := by
  unfold State.cqDisable
  simp only []
  split
  · exact State.commandsCoherent_cqOff _
  · exact hs.setStatus id id

/-- A write of `cqcsr` acknowledges errors, and may turn the queue on or off (10_state R69, R70, R71). -/
theorem State.CommandsCoherent.writeCqcsr {w : Word} (h : s.writeCqcsr w = .next t) : t.CommandsCoherent := by
  have acknowledged : (s.acknowledged w).CommandsCoherent :=
    hs.setStatus id fun hok => Cqcsr.stopped_clearErrors hok _ _ _ (w.getLsbD 11)
  have kept (b : Bool) : State.CommandsCoherent { s.acknowledged w with
      cqcsr := { (s.acknowledged w).cqcsr with busy := b } } := acknowledged.setStatus id id
  unfold State.writeCqcsr at h
  simp only [] at h
  split_ifs at h <;> cases h
  · exact State.commandsCoherent_of_noFence rfl (List.forall_mem_nil _)
  · exact acknowledged.cqDisable.of_bookkeeping rfl
  · exact (kept _).of_bookkeeping (State.drawBusy_bookkeeping _)

theorem State.CommandsCoherent.writeDword {k : Nat} {v : DWord} {low high : Bool}
    (h : s.writeDword k v low high = .next t) : t.CommandsCoherent := by
  by_cases hc : k = 9 ∧ low = true
  · obtain ⟨rfl, rfl⟩ := hc
    rw [State.writeDword_cqcsr] at h
    exact hs.writeCqcsr h
  · exact hs.of_bookkeeping (State.writeDword_bookkeeping h hc)

theorem State.CommandsCoherent.hostWrite {o n : Nat} {v : DWord} (h : s.hostWrite o n v = .next t) :
    t.CommandsCoherent := by
  have drawn : s.nextDraw.CommandsCoherent := hs.of_bookkeeping rfl
  obtain ⟨_, ⟨_, high, h⟩ | h | h⟩ := State.hostWrite_cases h
  · obtain ⟨u, x, w, b, hu, rfl⟩ := State.writeFirstHalf_cases h
    exact (drawn.writeDword hu).of_bookkeeping rfl
  · exact drawn.writeDword h
  · exact hs.writeDword h

theorem State.CommandsCoherent.finishHalf {k : Nat} (h : s.finishHalf k = .next t) : t.CommandsCoherent := by
  have taken : State.CommandsCoherent { s with halves := Machine.removeAt s.halves k } := hs.of_bookkeeping rfl
  obtain ⟨_, e⟩ | ⟨o, high, v, _, e⟩ | ⟨o, high, v, b, _, e⟩ := s.finishHalf_cases k <;> rw [e] at h
  · cases h
    exact hs
  · cases h
    obtain ⟨d, e⟩ := State.drawRead_frame _ o
    unfold State.readSecondHalf
    simp only []
    rw [e]
    exact taken.of_bookkeeping rfl
  · obtain ⟨d, h⟩ | ⟨c, rfl⟩ | h := State.writeSecondHalf_cases h
    · exact taken.of_bookkeeping (State.finishDdtp_bookkeeping h)
    · exact taken.of_bookkeeping rfl
    · exact taken.writeDword h

/-! ## Every event -/

theorem State.CommandsCoherent.perform {e : Event} (h : perform e s = .next t) : t.CommandsCoherent := by
  have same {u : State} (h : Host.Outcome.next u = (.next t : Host.Outcome State Fault Refusal))
      (hu : u.bookkeeping = s.bookkeeping) : t.CommandsCoherent :=
    hs.of_bookkeeping (State.bookkeeping_of_next h hu)
  have next {u : State} (h : Host.Outcome.next u = (.next t : Host.Outcome State Fault Refusal))
      (hu : u.CommandsCoherent) : t.CommandsCoherent := by
    injection h with h
    exact h ▸ hu
  cases e with
  | hostRead o n => exact hs.of_bookkeeping (State.hostRead_bookkeeping h)
  | hostWrite o n v => exact hs.hostWrite h
  | hostStore a bs => exact hs.of_bookkeeping (State.hostStore_bookkeeping h)
  | request r => exact same h rfl
  | pageRequest m => exact same h rfl
  | otherMessage m => exact same h (s.handleOther_bookkeeping _ _)
  | beginOther m => exact hs.of_bookkeeping (State.beginOther_bookkeeping h)
  | invalCompletion did k => exact next h (hs.invalCompleted _ _)
  | beginCompletion did k => exact hs.beginCompletion h
  | invalTimeout k => exact next h (hs.invalTimedOut _)
  | cqFetch => exact hs.fetchAndExecute h
  | cqFetchDeferred => exact next h hs.fetchDeferred
  | cqFence => exact hs.tryFence h
  | cqExecute k => exact next h (hs.executeInFlight _)
  | cqDrop k => exact next h (hs.abandon _)
  | translate k => exact hs.of_bookkeeping (State.serveAt_bookkeeping h)
  | beginTranslate k => exact hs.of_bookkeeping (State.beginTranslate_bookkeeping h)
  | advance k pick => exact hs.of_bookkeeping (State.advance_bookkeeping h)
  | writeFault k => exact same h (s.writeFault_bookkeeping _)
  | dropFault k => exact same h (s.dropFault_bookkeeping _)
  | writePage => exact same h s.writePage_bookkeeping
  | decidePage => exact same h s.decidePage_bookkeeping
  | beginPage => exact hs.of_bookkeeping (State.beginPage_bookkeeping h)
  | finishHalf k => exact hs.finishHalf h
  | msiSend v => exact same h (s.msiSend_bookkeeping _)
  | ddtpDone => exact same h s.ddtpComplete_bookkeeping
  | cqDone => exact next h hs.cqComplete
  | fqDone => exact same h s.fqComplete_bookkeeping
  | pqDone => exact same h s.pqComplete_bookkeeping
  | debug => exact same h s.debugStep_bookkeeping
  | beginDebug => exact hs.of_bookkeeping (State.beginDebug_bookkeeping h)
  | clock n => exact same h (s.advanceClock_bookkeeping _)
  | evict k => exact same h rfl
  | commit k => exact same h rfl
  | internalError k => exact same h (s.internalErrorAt_bookkeeping _)
  | internalErrorActive k => exact same h (s.internalErrorActive_bookkeeping _)
  | fail => exact same h rfl

theorem State.CommandsCoherent.step (h : step s = .next t) : t.CommandsCoherent := by
  obtain ⟨e, rest, _, h⟩ | ⟨_, e, _, h⟩ | ⟨_, _, rfl⟩ := step_cases h
  · have begun : State.CommandsCoherent { s with agenda := rest } := hs.of_bookkeeping rfl
    exact begun.perform h
  · exact hs.perform h
  · exact hs

end

/-- Settles O56: a fence becomes pending only by a fetch, which needs the queue on and without error, and what ends
either ends the fence with it; only an `ATS.INVAL` is left waiting. -/
theorem stepKeepsCommandsCoherent : Obligations.StepKeepsCommandsCoherent :=
  fun _ _ hs h => hs.step h

end Sys2Proof.Machine
end

section
/-! SUPPORT. The invalidation commands: what each covers (41_cmd_iotinval R426, R428), and how a supported one executes
(40_command_queue R395, R410; 20_memory R214). -/

namespace Sys2Proof.Machine

/-! ## What an invalidation covers -/

section
variable (av pscv gv g : Bool) (pscid ep : BitVec 20) (gscid eg : BitVec 16) (addr : BitVec 52) (p q : PteCopy)

theorem PteCopy.contains_iff (a : Nat) : p.contains a = true ↔ p.base ≤ a ∧ a < p.base + 2 ^ p.sizeLog2 := by
  simp [PteCopy.contains]

/-- `AV`=0 covers any copy, `AV`=1 a leaf that maps `ADDR` (R426). -/
theorem addrCovered_iff :
    addrCovered av addr p = true ↔
      (av = true → p.leaf = true ∧ p.base ≤ addr.toNat * 4096 ∧ addr.toNat * 4096 < p.base + 2 ^ p.sizeLog2) := by
  cases av <;> simp [addrCovered, PteCopy.contains_iff]

/-- `GV` selects the host's tags or those of `GSCID`, `PSCV`=1 the non-global ones of `PSCID` (R426). -/
theorem vmaTags_iff (og : Option (BitVec 16)) :
    vmaTags pscv gv pscid gscid og ep g = true ↔
      (if gv then og = some gscid else og = none) ∧ (pscv = true → ep = pscid ∧ g = false) := by
  cases gv <;> cases pscv <;> simp [vmaTags]

theorem gvmaTags_iff : gvmaTags gv gscid eg = true ↔ (gv = true → eg = gscid) := by
  cases gv <;> simp [gvmaTags]

/-- With `GV`=0, `IOTINVAL.GVMA` ignores `AV` (R426). -/
theorem addrCovered_gvma_iff :
    addrCovered (av && gv) addr p = true ↔
      (gv = true → av = true →
        p.leaf = true ∧ p.base ≤ addr.toNat * 4096 ∧ addr.toNat * 4096 < p.base + 2 ^ p.sizeLog2) := by
  cases gv <;> simp [addrCovered_iff]

theorem coversVma_first_iff (og : Option (BitVec 16)) :
    coversVma av pscid pscv gv gscid addr (.first og ep g p) = true ↔
      (if gv then og = some gscid else og = none) ∧ (pscv = true → ep = pscid ∧ g = false) ∧
      (av = true → p.leaf = true ∧ p.base ≤ addr.toNat * 4096 ∧ addr.toNat * 4096 < p.base + 2 ^ p.sizeLog2) := by
  simp only [coversVma, Bool.and_eq_true, vmaTags_iff, addrCovered_iff, and_assoc]

/-- A combined entry has a guest's tag, so `GV`=0 covers none (R426, R428). -/
theorem coversVma_combined_iff :
    coversVma av pscid pscv gv gscid addr (.combined eg ep g p q) = true ↔
      gv = true ∧ eg = gscid ∧ (pscv = true → ep = pscid ∧ g = false) ∧
      (av = true → p.leaf = true ∧ p.base ≤ addr.toNat * 4096 ∧ addr.toNat * 4096 < p.base + 2 ^ p.sizeLog2) := by
  have guest : (if gv then some eg = some gscid else some eg = none) ↔ gv = true ∧ eg = gscid := by
    cases gv <;> simp
  simp only [coversVma, Bool.and_eq_true, vmaTags_iff, addrCovered_iff, guest, and_assoc]

/-- `IOTINVAL.VMA` covers first-stage and combined entries only (R421). -/
theorem coversVma_of_ne {e : CacheEntry} (hfirst : ∀ og ep g p, e ≠ .first og ep g p)
    (hcombined : ∀ eg ep g p q, e ≠ .combined eg ep g p q) : coversVma av pscid pscv gv gscid addr e = false := by
  cases e with
  | first og ep g p => exact absurd rfl (hfirst og ep g p)
  | combined eg ep g p q => exact absurd rfl (hcombined eg ep g p q)
  | _ => rfl

theorem coversGvma_second_iff :
    coversGvma av gv gscid addr (.second eg p) = true ↔
      (gv = true → eg = gscid) ∧ (gv = true → av = true →
        p.leaf = true ∧ p.base ≤ addr.toNat * 4096 ∧ addr.toNat * 4096 < p.base + 2 ^ p.sizeLog2) := by
  simp only [coversGvma, Bool.and_eq_true, gvmaTags_iff, addrCovered_gvma_iff]

theorem coversGvma_msi_iff (dev : Option (BitVec 24)) (page : Nat) (dw0 dw1 : DWord) :
    coversGvma av gv gscid addr (.msi eg dev page dw0 dw1) = true ↔
      (gv = true → eg = gscid) ∧ (gv = true → av = true → page = addr.toNat) := by
  have atPage : (!(av && gv) || addr.toNat == page) = true ↔ (gv = true → av = true → page = addr.toNat) := by
    rw [BEq.comm]
    cases gv <;> cases av <;> simp
  simp only [coversGvma, Bool.and_eq_true, gvmaTags_iff, atPage]

/-- A combined entry is covered by the guest range it went through (R428). -/
theorem coversGvma_combined_iff :
    coversGvma av gv gscid addr (.combined eg ep g p q) = true ↔
      (gv = true → eg = gscid) ∧ (gv = true → av = true →
        q.leaf = true ∧ q.base ≤ addr.toNat * 4096 ∧ addr.toNat * 4096 < q.base + 2 ^ q.sizeLog2) := by
  simp only [coversGvma, Bool.and_eq_true, gvmaTags_iff, addrCovered_gvma_iff]

/-- `IOTINVAL.GVMA` covers second-stage, MSI and combined entries only (R422). -/
theorem coversGvma_of_ne {e : CacheEntry} (hsecond : ∀ eg p, e ≠ .second eg p)
    (hmsi : ∀ eg dev page dw0 dw1, e ≠ .msi eg dev page dw0 dw1)
    (hcombined : ∀ eg ep g p q, e ≠ .combined eg ep g p q) : coversGvma av gv gscid addr e = false := by
  cases e with
  | second eg p => exact absurd rfl (hsecond eg p)
  | msi eg dev page dw0 dw1 => exact absurd rfl (hmsi eg dev page dw0 dw1)
  | combined eg ep g p q => exact absurd rfl (hcombined eg ep g p q)
  | _ => rfl

end

/-! ## How an invalidation command executes -/

/-- An invalidation keeps exactly the entries it does not cover. -/
theorem State.mem_invalidate_ioatc (s : State) (v : Invalidation) (e : CacheEntry) :
    e ∈ (s.invalidate v).ioatc ↔ e ∈ s.ioatc ∧ ¬ v.covers e = true := by
  simp

/-- A supported command whose effect is an invalidation: `cqh` advances, exactly the covered entries go, the activations
under way learn it, and nothing else changes. -/
theorem exec_of_invalidation {i : Instr} {v : Invalidation} {s : State} (hi : isFence i = false)
    (hsup : s.supports i = true) (heffect : fetchedEffect i s = s.invalidate v) :
    ∃ t, Machine.exec i s = .next t ∧
      t = { s with ioatc := t.ioatc, cqh := s.cqb.next s.cqh, activations := s.activations.map (Activation.lose v) } ∧
      (∀ a, t.mem.read a = s.mem.read a) ∧
      (∀ e, e ∈ t.ioatc ↔ e ∈ s.ioatc ∧ ¬ v.covers e = true) := by
  refine ⟨(s.invalidate v).advanceHead, ?_, rfl, fun _ => rfl, s.mem_invalidate_ioatc v⟩
  rw [exec_of_not_fence hi, State.executeFetched_supported _ hsup, heffect]

/-- Settles O10: the command is the invalidation `.vma`, and what that covers is said per kind of entry. -/
theorem iotinvalVmaResult : Obligations.IotinvalVmaResult := by
  intro av pscid pscv gv gscid addr s
  obtain ⟨t, hexec, hframe, hmem, hcache⟩ :=
    exec_of_invalidation (i := .iotinvalVma av pscid pscv gv gscid addr) (v := .vma av pscid pscv gv gscid addr)
      (s := s) rfl rfl rfl
  simp only [Invalidation.covers] at hcache
  refine ⟨t, hexec, hframe, hmem, fun eg ep g p => ?_, fun eg ep g p q => ?_, fun e hfirst hcombined => ?_⟩
  · rw [hcache, coversVma_first_iff]
  · rw [hcache, coversVma_combined_iff]
  · simp [hcache, coversVma_of_ne av pscv gv pscid gscid addr hfirst hcombined]

/-- Settles O11: with `PSCV`=0 the command is well-formed, and it is the invalidation `.gvma`. -/
theorem iotinvalGvmaResult : Obligations.IotinvalGvmaResult := by
  intro av pscid gv gscid addr s
  obtain ⟨t, hexec, hframe, hmem, hcache⟩ :=
    exec_of_invalidation (i := .iotinvalGvma av pscid false gv gscid addr) (v := .gvma av gv gscid addr)
      (s := s) rfl rfl rfl
  simp only [Invalidation.covers] at hcache
  refine ⟨t, hexec, hframe, hmem, fun eg p => ?_, fun eg dev page dw0 dw1 => ?_, fun eg ep g p q => ?_,
    fun e hsecond hmsi hcombined => ?_⟩
  · rw [hcache, coversGvma_second_iff]
  · rw [hcache, coversGvma_msi_iff]
  · rw [hcache, coversGvma_combined_iff]
  · simp [hcache, coversGvma_of_ne av gv gscid addr hsecond hmsi hcombined]

end Sys2Proof.Machine
end

section
/-! SUPPORT. The completion of `IOFENCE.C`: the timeout it reports, the store that is refused, and the store, the
interrupt and the commitment (42_cmd_iofence R441 to R447). -/

namespace Sys2Proof.Machine

/-! ## The data store and the wired interrupt -/

theorem Memory.readBytes_write32 (m : Memory) (a : Nat) (v : Word) (be : Bool) :
    (m.write32 a v be).readBytes a 4 = toBytes be 4 v.toNat := by
  simpa [Memory.write32, toBytes_length] using Memory.readBytes_writeBytes (toBytes be 4 v.toNat) m a

theorem Memory.read_write32_outside (m : Memory) {a b : Nat} (v : Word) (be : Bool) (h : b < a ∨ a + 4 ≤ b) :
    (m.write32 a v be).read b = m.read b :=
  Memory.read_writeBytes_outside _ m a b (by rwa [toBytes_length])

section
variable (s : State) (av wsi pr pw : Bool) (data : BitVec 32) (addr : BitVec 62)

theorem State.fenceStoreFaults_iff :
    s.fenceStoreFaults av addr = true ↔ av = true ∧ check s.cfg (fenceAddr addr) 4 .write ≠ .ok := by
  simp [State.fenceStoreFaults]

/-- Without `AV` the fence stores nothing (R444). -/
theorem State.fenceStore_mem_noStore : (s.fenceStore false data addr).mem = s.mem := rfl

theorem State.fenceStore_mem_store :
    (s.fenceStore true data addr).mem = s.mem.write32 (fenceAddr addr) data s.fctl.be := rfl

/-- `WSI` sets `fence_w_ip`, and with it `cip` if `cie` is 1 (R447); nothing else changes but the MSIs owed. -/
theorem State.fenceSignal_frame :
    s.fenceSignal wsi =
      { s with cqcsr := { s.cqcsr with fenceWIp := s.cqcsr.fenceWIp || wsi },
               ipsr := { s.ipsr with cip := s.ipsr.cip || (wsi && s.cqcsr.cie) },
               msiOwed := (s.fenceSignal wsi).msiOwed } := by
  cases wsi with
  | false => simp [State.fenceSignal]
  | true =>
    rw [Bool.or_true, Bool.true_and]
    exact State.raiseCip_frame _

/-! ## The three ends of a fence -/

/-- A fence with nothing before it to wait for ends at once (R441, R442). -/
theorem exec_iofenceC_of_ready (hinflight : s.inflight = []) (hsettled : s.settled = true)
    (hwsi : wsi = true → s.cfg.igs ≠ 0#2 ∧ s.fctl.wsi = true) :
    Machine.exec (.iofenceC av wsi pr pw data addr) s = .next (s.completeFence av wsi pr pw data addr) := by
  have hready : s.fenceReady = true := by simp [State.fenceReady, hinflight, hsettled]
  rw [exec_iofenceC (s.supports_iofenceC hwsi), if_pos hready]

/-- A timeout before the fence ends it with `cmd_to` and uses up the mark (R445). -/
theorem State.completeFence_of_timedOut (h : s.timedOut = true) :
    s.completeFence av wsi pr pw data addr = { s with timedOut := false }.takeCommandError .timeout := by
  simpa [h] using s.completeFence_cases av wsi pr pw data addr

/-- A store that is refused ends the fence with `cqmf`, after the accesses are committed (R446). -/
theorem State.completeFence_of_refused (h : s.timedOut = false)
    (hrefused : check s.cfg (fenceAddr addr) 4 .write ≠ .ok) :
    s.completeFence true wsi pr pw data addr = (s.commitPrevious pr pw).takeCommandError .memoryFault := by
  have hfault : (s.commitPrevious pr pw).fenceStoreFaults true addr = true :=
    (State.fenceStoreFaults_iff _ _ _).mpr ⟨rfl, hrefused⟩
  simpa [h, hfault] using s.completeFence_cases true wsi pr pw data addr

/-- A fence that is not stopped commits, stores, signals and moves `cqh` on (R443, R444, R447), and changes nothing else
but the MSIs owed. -/
theorem State.completeFence_of_allowed (h : s.timedOut = false)
    (hallowed : av = true → check s.cfg (fenceAddr addr) 4 .write = .ok) :
    s.completeFence av wsi pr pw data addr =
      { s with mem := (s.fenceStore av data addr).mem,
               cqcsr := { s.cqcsr with fenceWIp := s.cqcsr.fenceWIp || wsi },
               ipsr := { s.ipsr with cip := s.ipsr.cip || (wsi && s.cqcsr.cie) },
               msiOwed := (s.completeFence av wsi pr pw data addr).msiOwed,
               accesses := s.accesses.filter (fun a => if a.isWrite then !pw else !pr),
               fence := none, cqh := s.cqb.next s.cqh } := by
  have hnofault : (s.commitPrevious pr pw).fenceStoreFaults av addr = false :=
    Bool.eq_false_iff.mpr fun hfault =>
      have ⟨hav, hrefused⟩ := (State.fenceStoreFaults_iff _ _ _).mp hfault
      hrefused (hallowed hav)
  have hend : s.completeFence av wsi pr pw data addr =
      State.advanceHead { ((s.commitPrevious pr pw).fenceStore av data addr).fenceSignal wsi with fence := none } := by
    simpa [h, hnofault] using s.completeFence_cases av wsi pr pw data addr
  rw [hend, State.fenceSignal_frame]
  cases av <;> rfl

end

/-! ## The statements -/

/-- Settles O18: the fence is not stopped, and the four bytes it stores are read back. -/
theorem iofenceResult : Obligations.IofenceResult := by
  intro av wsi pr pw data addr s hinflight hsettled htimedOut hwsi hallowed
  refine ⟨_, (exec_iofenceC_of_ready s av wsi pr pw data addr hinflight hsettled hwsi).trans
    (congrArg _ (s.completeFence_of_allowed av wsi pr pw data addr htimedOut hallowed)), rfl, rfl, rfl, rfl, ?_, ?_⟩
  · rintro rfl a
    rw [State.fenceStore_mem_noStore]
  · rintro rfl
    rw [State.fenceStore_mem_store]
    exact ⟨Memory.readBytes_write32 _ _ _ _, fun a houtside => Memory.read_write32_outside _ _ _ houtside⟩

/-- Settles O20: the error `cmd_to`, taken with the mark used up. -/
theorem iofenceReportsTimeout : Obligations.IofenceReportsTimeout := by
  intro av wsi pr pw data addr s hinflight hsettled htimedOut hwsi
  refine ⟨{ s with timedOut := false }.takeCommandError .timeout, ?_, State.takeCommandError_frame _ _,
    State.takeCommandError_stops _ _⟩
  rw [exec_iofenceC_of_ready s _ _ _ _ _ _ hinflight hsettled hwsi, s.completeFence_of_timedOut _ _ _ _ _ _ htimedOut]

/-- Settles O21: the error `cqmf`, taken after the accesses are committed. -/
theorem iofenceStoreFault : Obligations.IofenceStoreFault := by
  intro wsi pr pw data addr s hinflight hsettled htimedOut hwsi hrefused
  refine ⟨(s.commitPrevious pr pw).takeCommandError .memoryFault, ?_, ?_, State.takeCommandError_stops _ _⟩
  · rw [exec_iofenceC_of_ready s _ _ _ _ _ _ hinflight hsettled hwsi,
      s.completeFence_of_refused _ _ _ _ _ htimedOut hrefused]
  · rw [State.takeCommandError_accesses]
    exact State.takeCommandError_frame _ _

end Sys2Proof.Machine
end

section
/-! SUPPORT. The directory invalidations: what each covers (43_cmd_iodir R462 to R464), and which cached entries outlive
an invalidation command, legal or not (40_command_queue R398, R410). -/

namespace Sys2Proof.Machine

/-! ## What a directory invalidation covers -/

section
variable (dv : Bool) (did d : BitVec 24) (pid p : BitVec 20) (pointer : Option Nat)

/-- Non-leaf DDT entries go with `DV`=0 only (R464). -/
theorem coversDdt_ddte_iff (level : Nat) (value : DWord) :
    coversDdt dv did (.ddte d level value) = true ↔ dv = false := by
  simp [coversDdt]

/-- `DV`=0 covers every DC, `DV`=1 that of `DID` (R462). -/
theorem coversDdt_dc_iff (value : DeviceContext) :
    coversDdt dv did (.dc d value pointer) = true ↔ (dv = true → d = did) := by
  cases dv <;> simp [coversDdt]

/-- Of a device's PDT entries `IODIR.INVAL_DDT` covers all, whatever the process (R464). -/
theorem coversDdt_pdte_iff (level : Nat) (value : DWord) :
    coversDdt dv did (.pdte d p level value pointer) = true ↔ (dv = true → d = did) := by
  cases dv <;> simp [coversDdt]

/-- Of a device's PCs `IODIR.INVAL_DDT` covers all, whatever the process (R464). -/
theorem coversDdt_pc_iff (value : ProcessContext) :
    coversDdt dv did (.pc d p value pointer) = true ↔ (dv = true → d = did) := by
  cases dv <;> simp [coversDdt]

/-- `IODIR.INVAL_DDT` covers directory entries only (R464). -/
theorem coversDdt_of_ne {e : CacheEntry} (hddte : ∀ d l v, e ≠ .ddte d l v) (hdc : ∀ d v q, e ≠ .dc d v q)
    (hpdte : ∀ d p l v q, e ≠ .pdte d p l v q) (hpc : ∀ d p v q, e ≠ .pc d p v q) : coversDdt dv did e = false := by
  cases e with
  | ddte d l v => exact absurd rfl (hddte d l v)
  | dc d v q => exact absurd rfl (hdc d v q)
  | pdte d p l v q => exact absurd rfl (hpdte d p l v q)
  | pc d p v q => exact absurd rfl (hpc d p v q)
  | _ => rfl

/-- `IODIR.INVAL_PDT` covers the PC of (`DID`, `PID`) (R463). -/
theorem coversPdt_pc_iff (value : ProcessContext) :
    coversPdt did pid (.pc d p value pointer) = true ↔ d = did ∧ p = pid := by
  simp [coversPdt]

/-- Of the PDT entries `IODIR.INVAL_PDT` covers those read for (`DID`, `PID`) (20_memory R212). -/
theorem coversPdt_pdte_iff (level : Nat) (value : DWord) :
    coversPdt did pid (.pdte d p level value pointer) = true ↔ d = did ∧ p = pid := by
  simp [coversPdt]

/-- `IODIR.INVAL_PDT` covers PCs and PDT entries only (R464). -/
theorem coversPdt_of_ne {e : CacheEntry} (hpc : ∀ d p v q, e ≠ .pc d p v q)
    (hpdte : ∀ d p l v q, e ≠ .pdte d p l v q) : coversPdt did pid e = false := by
  cases e with
  | pc d p v q => exact absurd rfl (hpc d p v q)
  | pdte d p l v q => exact absurd rfl (hpdte d p l v q)
  | _ => rfl

end

/-- Settles O12: with `PID`=0 the command is well-formed, and it is the invalidation `.ddt`. -/
theorem iodirInvalDdtResult : Obligations.IodirInvalDdtResult := by
  intro dv did s
  obtain ⟨t, hexec, hframe, hmem, hcache⟩ :=
    exec_of_invalidation (i := .iodirInvalDdt 0#20 dv did) (v := .ddt dv did) (s := s) rfl rfl rfl
  simp only [Invalidation.covers] at hcache
  refine ⟨t, hexec, hframe, hmem, fun d l v => ?_, fun d v q => ?_, fun d p l v q => ?_, fun d p v q => ?_,
    fun e hddte hdc hpdte hpc => ?_⟩
  · rw [hcache, coversDdt_ddte_iff, Bool.not_eq_false]
  · rw [hcache, coversDdt_dc_iff, Classical.not_imp]
  · rw [hcache, coversDdt_pdte_iff, Classical.not_imp]
  · rw [hcache, coversDdt_pc_iff, Classical.not_imp]
  · simp [hcache, coversDdt_of_ne dv did hddte hdc hpdte hpc]

/-- Settles O13: with `DV`=1 the command is well-formed, and it is the invalidation `.pdt`. -/
theorem iodirInvalPdtResult : Obligations.IodirInvalPdtResult := by
  intro pid did s
  obtain ⟨t, hexec, hframe, hmem, hcache⟩ :=
    exec_of_invalidation (i := .iodirInvalPdt pid true did) (v := .pdt pid did) (s := s) rfl rfl rfl
  simp only [Invalidation.covers] at hcache
  refine ⟨t, hexec, hframe, hmem, fun d p v q => ?_, fun d p l v q => ?_, fun e hpc hpdte => ?_⟩
  · rw [hcache, coversPdt_pc_iff]
  · rw [hcache, coversPdt_pdte_iff]
  · simp [hcache, coversPdt_of_ne did pid hpc hpdte]

/-! ## What an invalidation command removes and what it keeps -/

section
variable {i : Instr} {v : Invalidation} {s t : State} {e : CacheEntry}

/-- A supported invalidation command leaves no entry it covers (R464). -/
theorem not_mem_of_exec_covers (hi : isFence i = false) (hsup : s.supports i = true)
    (heffect : fetchedEffect i s = s.invalidate v) (h : Machine.exec i s = .next t) (hcovers : v.covers e = true) :
    e ∉ t.ioatc := by
  obtain ⟨u, hexec, _, _, hcache⟩ := exec_of_invalidation hi hsup heffect
  cases h.symm.trans hexec
  exact fun hmem => ((hcache e).mp hmem).2 hcovers

/-- An invalidation command keeps what it does not cover, and an unsupported one is an error that keeps all (40 R398). -/
theorem mem_of_exec_not_covers (hi : isFence i = false) (heffect : fetchedEffect i s = s.invalidate v)
    (h : Machine.exec i s = .next t) (hmem : e ∈ s.ioatc) (hcovers : v.covers e = false) : e ∈ t.ioatc := by
  cases hsup : s.supports i with
  | false =>
    cases h.symm.trans (exec_of_unsupported hsup)
    rwa [State.takeCommandError_ioatc]
  | true =>
    obtain ⟨u, hexec, _, _, hcache⟩ := exec_of_invalidation hi hsup heffect
    cases h.symm.trans hexec
    exact (hcache e).mpr ⟨hmem, by simp [hcovers]⟩

/-- No `IODIR` command, legal or not, removes an entry that the directory invalidations do not cover. -/
theorem mem_of_exec_iodir {pid : BitVec 20} {dv : Bool} {did : BitVec 24}
    (h : Machine.exec (.iodirInvalDdt pid dv did) s = .next t ∨ Machine.exec (.iodirInvalPdt pid dv did) s = .next t)
    (hmem : e ∈ s.ioatc) (hddt : coversDdt dv did e = false) (hpdt : coversPdt did pid e = false) : e ∈ t.ioatc := by
  obtain h | h := h
  · exact mem_of_exec_not_covers (v := .ddt dv did) rfl rfl h hmem hddt
  · exact mem_of_exec_not_covers (v := .pdt pid did) rfl rfl h hmem hpdt

/-- No `IOTINVAL` command, legal or not, removes an entry that the translation invalidations do not cover. -/
theorem mem_of_exec_iotinval {av pscv gv : Bool} {pscid : BitVec 20} {gscid : BitVec 16} {addr : BitVec 52}
    (h : Machine.exec (.iotinvalVma av pscid pscv gv gscid addr) s = .next t ∨
      Machine.exec (.iotinvalGvma av pscid pscv gv gscid addr) s = .next t)
    (hmem : e ∈ s.ioatc) (hvma : coversVma av pscid pscv gv gscid addr e = false)
    (hgvma : coversGvma av gv gscid addr e = false) : e ∈ t.ioatc := by
  obtain h | h := h
  · exact mem_of_exec_not_covers (v := .vma av pscid pscv gv gscid addr) rfl rfl h hmem hvma
  · exact mem_of_exec_not_covers (v := .gvma av gv gscid addr) rfl rfl h hmem hgvma

/-- With `PID`=0 `IODIR.INVAL_DDT` is legal, so it leaves no entry it covers. -/
theorem not_mem_of_exec_iodirInvalDdt {dv : Bool} {did : BitVec 24}
    (h : Machine.exec (.iodirInvalDdt 0#20 dv did) s = .next t) (hcovers : coversDdt dv did e = true) :
    e ∉ t.ioatc :=
  not_mem_of_exec_covers (v := .ddt dv did) rfl rfl rfl h hcovers

end

/-- Settles O14: a covered entry is gone after a legal command, and the `IODIR` and the `IOTINVAL` commands cover no kind
of entry of each other's. -/
theorem directoryCoverage : Obligations.DirectoryCoverage := by
  refine ⟨fun did s t h e he => ?all, fun did s t h e he => ?device, fun pid did s t h e he => ?process,
    fun pid dv did s t h => ?iodir, fun av pscid pscv gv gscid addr s t h => ?iotinval⟩
  case all =>
    have gone {e'} (hcovers : coversDdt false did e' = true) : e ≠ e' :=
      ne_of_mem_of_not_mem he (not_mem_of_exec_iodirInvalDdt h hcovers)
    exact ⟨fun _ _ _ => gone rfl, fun _ _ _ => gone rfl, fun _ _ _ _ _ => gone rfl, fun _ _ _ _ => gone rfl⟩
  case device =>
    have gone {e'} (hcovers : coversDdt true did e' = true) : e ≠ e' :=
      ne_of_mem_of_not_mem he (not_mem_of_exec_iodirInvalDdt h hcovers)
    exact ⟨fun _ _ => gone ((coversDdt_dc_iff ..).mpr fun _ => rfl),
      fun _ _ _ _ => gone ((coversDdt_pdte_iff ..).mpr fun _ => rfl),
      fun _ _ _ => gone ((coversDdt_pc_iff ..).mpr fun _ => rfl)⟩
  case process =>
    intro value pointer
    have covered : coversPdt did pid (.pc did pid value pointer) = true := (coversPdt_pc_iff ..).mpr ⟨rfl, rfl⟩
    exact ne_of_mem_of_not_mem he (not_mem_of_exec_covers (v := .pdt pid did) rfl rfl rfl h covered)
  case iodir =>
    exact ⟨fun _ _ _ _ hmem => mem_of_exec_iodir h hmem rfl rfl, fun _ _ hmem => mem_of_exec_iodir h hmem rfl rfl,
      fun _ _ _ _ _ hmem => mem_of_exec_iodir h hmem rfl rfl, fun _ _ _ _ _ hmem => mem_of_exec_iodir h hmem rfl rfl⟩
  case iotinval =>
    exact ⟨fun _ _ _ hmem => mem_of_exec_iotinval h hmem rfl rfl, fun _ _ _ hmem => mem_of_exec_iotinval h hmem rfl rfl,
      fun _ _ _ _ _ hmem => mem_of_exec_iotinval h hmem rfl rfl,
      fun _ _ _ _ hmem => mem_of_exec_iotinval h hmem rfl rfl⟩

end Sys2Proof.Machine
end

section
/-! SUPPORT. `ATS.INVAL` and `ATS.PRGR` (44_cmd_ats R481 to R483), and the two ends of an `ATS.INVAL` in flight: its
Invalidation Completion and its timeout (44_cmd_ats R482, R486; 40_command_queue R400). -/

namespace Sys2Proof.Machine

/-! ## How an ATS command executes -/

/-- A supported command other than a fence has its effect, and `cqh` advances (40_command_queue R395). -/
theorem exec_of_supported {i : Instr} {s : State} (hi : isFence i = false) (hsup : s.supports i = true) :
    Machine.exec i s = .next (fetchedEffect i s).advanceHead := by
  rw [exec_of_not_fence hi, State.executeFetched_supported _ hsup]

section
variable (pid : BitVec 20) (pv dsv : Bool) (rid : BitVec 16) (dseg : BitVec 8) (payload : BitVec 64) (s : State)

/-- The effect of `ATS.INVAL`: its message is sent, and the command waits (R482). -/
theorem fetchedEffect_atsInval :
    fetchedEffect (.atsInval pid pv dsv rid dseg payload) s =
      (s.send (.invalidationRequest rid (atsSegment dsv dseg) (atsPasid pv pid) payload)).await
        (.atsInval pid pv dsv rid dseg payload) := rfl

/-- The effect of `ATS.PRGR`: its message is sent (R483). -/
theorem fetchedEffect_atsPrgr :
    fetchedEffect (.atsPrgr pid pv dsv rid dseg payload) s =
      s.send (.groupResponse rid (atsSegment dsv dseg) (atsPasid pv pid) payload) := rfl

end

/-- Settles O15: on an IOMMU with ATS the command is supported, and its effect is the message and the wait. -/
theorem atsInvalResult : Obligations.AtsInvalResult := by
  intro pid pv dsv rid dseg payload s hats
  refine ⟨_, exec_of_supported rfl hats, ?_⟩
  rw [fetchedEffect_atsInval]
  exact ⟨rfl, fun _ => rfl, rfl, rfl⟩

/-- Settles O16: on an IOMMU with ATS the command is supported, and its effect is the message. -/
theorem atsPrgrResult : Obligations.AtsPrgrResult := by
  intro pid pv dsv rid dseg payload s hats
  refine ⟨_, exec_of_supported rfl hats, ?_⟩
  rw [fetchedEffect_atsPrgr]
  exact ⟨rfl, fun _ => rfl, rfl⟩

/-! ## The end of a command in flight -/

section
variable {s : State} {k : Nat} {i : Instr}

theorem State.waitingAt_of_elementAt (h : elementAt s.inflight k = some ⟨i, .waiting⟩) : s.waitingAt k = true := by
  simp [State.waitingAt, h]

/-- Outside the failed state, the completion of a command that waits completes it, and the report on the sender is made
in one go. -/
theorem State.invalCompleted_of_waiting (hok : s.failed = false) (hw : s.waitingAt k = true) (did : BitVec 24) :
    s.invalCompleted did k =
      (s.completed k).answerCompletion did (completionProcess s s.ddtpAlternatives did s.startWalk) := by
  simp [State.invalCompleted, hok, hw]

/-- The same, the report on the sender being begun. -/
theorem State.beginCompletion_of_waiting (hok : s.failed = false) (hw : s.waitingAt k = true) (did : BitVec 24) :
    s.beginCompletion did k = (s.completed k).begin s.ddtpAlternatives (.completion did) := by
  simp [State.beginCompletion, hok, hw]

/-- The report on the sender of an Invalidation Completion always goes on: it is under way at an access, or it has
ended with an answer. -/
theorem State.run_completion (s : State) {a : Activation} {did : BitVec 24} (ha : a.task = .completion did) :
    ∃ t, s.run a = .next t := by
  unfold State.run
  rw [ha]
  obtain ⟨x, _, e⟩ | ⟨_, e⟩ := s.proceed_cases a _ _ <;> exact ⟨_, e⟩

/-- The Invalidation Completion of a command that waits, in either form: the command is completed, and the report on the
sender leaves the command queue's bookkeeping alone. -/
theorem perform_completion {did : BitVec 24} {e : Event} (hok : s.failed = false) (hw : s.waitingAt k = true)
    (he : e = .invalCompletion did k ∨ e = .beginCompletion did k) :
    ∃ t, perform e s = .next t ∧ t.bookkeeping = (s.completed k).bookkeeping := by
  obtain rfl | rfl := he
  · exact ⟨_, congrArg Host.Outcome.next (State.invalCompleted_of_waiting hok hw _),
      (State.answerCompletion_frame _ _ _).bookkeeping⟩
  · obtain ⟨t, ht⟩ := (s.completed k).run_completion (a := ⟨_, s.ddtpAlternatives, _, _, [], []⟩) rfl
    exact ⟨t, (State.beginCompletion_of_waiting hok hw _).trans ht, State.run_bookkeeping ht⟩

end

/-- Settles O17: the command waits, so that its timeout takes place. -/
theorem atsTimeoutOnlyMarks : Obligations.AtsTimeoutOnlyMarks := by
  intro s k i h
  simp [perform, State.invalTimedOut, State.waitingAt_of_elementAt h]

/-- Settles O60: the bookkeeping is that after the command's completion, and `cqh` stays, as with every event that is no
step of the command queue. -/
theorem atsCompletionCompletes : Obligations.AtsCompletionCompletes := by
  intro s did k i hok h e he
  obtain ⟨t, ht, hbook⟩ := perform_completion hok (State.waitingAt_of_elementAt h) he
  have hcqh : t.cqh = s.cqh := by
    obtain rfl | rfl := he <;> exact (Steady.perform rfl rfl ht).cqh
  simp only [State.bookkeeping, Prod.mk.injEq] at hbook
  obtain ⟨hcqcsr, hfence, hinflight, htimedOut⟩ := hbook
  exact ⟨t, ht, hinflight, htimedOut, hcqcsr, hcqh, hfence⟩

end Sys2Proof.Machine
end

section
/-! SUPPORT. Requests that are answered before any access is made (45_translation_process R501 to R504): served in one
go or begun alike, they end at once, with memory, the cache and the activations under way as they were. -/

namespace Sys2Proof.Machine

/-! ## A process that neither accesses memory nor draws -/

section
variable {s : State} {ps : List DdtPointer} {r : Request}

/-- Where the translation faults with a cause that an ATS request learns of, so does serving the request. -/
theorem serveProcess_of_raise {cause : Nat} (hc : atsSilent cause = false)
    (h : translateSteps s ps r false false = raise cause) : serveProcess s ps r = raise cause := by
  have hdenied : r.deniedBy ⟨cause, 0#64⟩ = false := by simp [Request.deniedBy, hc]
  have htranslate : translate s ps r false false = raise cause := by
    funext w
    show cachedIfGranted r (translateSteps s ps r false false) w = .error ⟨cause, 0#64⟩ w
    rw [h]
    exact congrArg (EStateM.Result.error _) (by rw [hdenied]; rfl)
  unfold serveProcess
  rw [htranslate]
  rfl

/-- Where the translation answers with an access granted to memory, that is the outcome. -/
theorem serveProcess_of_pure {t : Translated} (hg : t.grants r = true) (hm : t.mrif = none)
    (h : translateSteps s ps r false false = pure t) : serveProcess s ps r = pure (.translated t) := by
  have htranslate : translate s ps r false false = pure t := by
    funext w
    show cachedIfGranted r (translateSteps s ps r false false) w = .ok t w
    rw [h]
    exact congrArg (EStateM.Result.ok _) (if_pos hg)
  unfold serveProcess
  rw [htranslate, pure_bind, hm]

end

/-! ## The modes that need no directory, and the range check -/

section
variable {p : DdtPointer} (s : State) (r : Request)

/-- With one value of `ddtp` in force there is nothing to choose. -/
theorem choosePointer_single (p : DdtPointer) : choosePointer s [p] = pure p := rfl

/-- Mode Off disallows everything (R501). -/
theorem translateSteps_off (hp : p.mode = .off) (debug skipUpdate : Bool) :
    translateSteps s [p] r debug skipUpdate = raise 256 := by
  unfold translateSteps
  rw [choosePointer_single, pure_bind, hp]

/-- Mode Bare passes an untranslated request, with its address unchanged (R502). -/
theorem translateSteps_bare_untranslated (hp : p.mode = .bare) (hr : r.type = .untranslated)
    (debug skipUpdate : Bool) :
    translateSteps s [p] r debug skipUpdate = pure (Translated.identity r.iova.toNat) := by
  unfold translateSteps
  rw [choosePointer_single, pure_bind, hp]
  exact if_pos (beq_iff_eq.mpr hr)

/-- Mode Bare disallows any other request (R502). -/
theorem translateSteps_bare_other (hp : p.mode = .bare) (hr : r.type ≠ .untranslated) (debug skipUpdate : Bool) :
    translateSteps s [p] r debug skipUpdate = raise 260 := by
  unfold translateSteps
  rw [choosePointer_single, pure_bind, hp]
  exact if_neg (mt beq_iff_eq.mp hr)

/-- A directory mode disallows a `device_id` that is too wide for it (R504). -/
theorem translateSteps_tooWide (hp : p.mode.isDirectory = true)
    (hw : didTooWide s.cfg.msiFlat p.mode r.deviceId = true) (debug skipUpdate : Bool) :
    translateSteps s [p] r debug skipUpdate = raise 260 := by
  unfold translateSteps
  rw [choosePointer_single, pure_bind]
  cases hm : p.mode with
  | off => rw [hm] at hp; cases hp
  | bare => rw [hm] at hp; cases hp
  | lvl1 => exact if_pos (hm ▸ hw)
  | lvl2 => exact if_pos (hm ▸ hw)
  | lvl3 => exact if_pos (hm ▸ hw)

end

/-! ## In one go or begun -/

section
variable {s t : State} {k : Nat} {r : Request} {y : EStateM.Result FaultInfo Walk Served}

/-- The machine without in-flight request `k`. -/
def State.dropRequest (s : State) (k : Nat) : State := { s with requests := removeAt s.requests k }

/-- While no change of `ddtp` is pending, a request not received before a change to Off is served under the value in
force. -/
theorem State.alternativesFor_settled (hb : s.ddtpBusy = false) : s.alternativesFor none = [s.ddtp] := by
  simp [State.alternativesFor, State.ddtpAlternatives, hb]

/-- An activation that ends before its first access, begun, ends with the answer it has in one go. -/
theorem State.begin_request_of_ended {ps : List DdtPointer} (hy : serveProcess s ps r s.startWalk = y)
    (hend : walkAfter y = s.startWalk) : s.begin ps (.request r) = s.answerRequest r y := by
  show s.proceed _ (walkAfter (serveProcess s ps r s.startWalk)) (s.answerRequest r (serveProcess s ps r s.startWalk)) = _
  rw [hy, hend]
  rfl

/-- Outside the failed state, serving request `k` in one go runs its process and gives the answer. -/
theorem State.serveAt_of_elementAt (hok : s.failed = false) {x : Received Request}
    (hk : elementAt s.requests k = some x) :
    s.serveAt k = (s.dropRequest k).answerRequest x.item
      (serveProcess (s.dropRequest k) (s.alternativesFor x.under) x.item (s.dropRequest k).startWalk) := by
  unfold State.serveAt
  rw [hk]
  exact if_neg (ne_true_of_eq_false hok)

/-- Outside the failed state, beginning request `k` begins an activation for it. -/
theorem State.beginTranslate_of_elementAt (hok : s.failed = false) {x : Received Request}
    (hk : elementAt s.requests k = some x) :
    s.beginTranslate k = (s.dropRequest k).begin (s.alternativesFor x.under) (.request x.item) := by
  unfold State.beginTranslate
  rw [hk]
  exact if_neg (ne_true_of_eq_false hok)

/-- A request whose process ends as it began is answered alike, served in one go or begun. -/
theorem perform_request_of_ended (hok : s.failed = false) (hb : s.ddtpBusy = false)
    (hk : elementAt s.requests k = some ⟨r, none⟩)
    (hy : serveProcess (s.dropRequest k) [s.ddtp] r (s.dropRequest k).startWalk = y)
    (hend : walkAfter y = (s.dropRequest k).startWalk) (ht : (s.dropRequest k).answerRequest r y = .next t) :
    perform (.translate k) s = .next t ∧ perform (.beginTranslate k) s = .next t := by
  have hps := State.alternativesFor_settled hb
  constructor
  · show s.serveAt k = .next t
    rw [State.serveAt_of_elementAt hok hk, hps, hy, ht]
  · show s.beginTranslate k = .next t
    rw [State.beginTranslate_of_elementAt hok hk, hps, State.begin_request_of_ended hy hend, ht]

/-- Counting events changes no parameter, no queue status, no answer and no record. -/
theorem OnlyCounters.answers_eq {u v : State} (h : OnlyCounters u v) :
    v.cfg = u.cfg ∧ v.fqcsr = u.fqcsr ∧ v.completions = u.completions ∧ v.accesses = u.accesses ∧
      v.faults = u.faults := by
  have hv : v = _ := h
  exact ⟨(congrArg State.cfg hv :), (congrArg State.fqcsr hv :), (congrArg State.completions hv :),
    (congrArg State.accesses hv :), (congrArg State.faults hv :)⟩

/-- Of a process that ended as it began nothing is left but the events of the request. -/
theorem State.onlyCounters_absorbRequest (s : State) (r : Request) :
    OnlyCounters s (s.absorbRequest s.startWalk r) :=
  onlyCounters_countActivation (s.absorb s.startWalk) _ _ _ _

end

/-! ## How such a request ends -/

/-- From `s` to `t` request `k` is dealt with, and no memory, cached entry or activation under way has changed. -/
structure EndsUntouched (s t : State) (k : Nat) : Prop where
  activations : t.activations = s.activations
  mem : t.mem = s.mem
  ioatc : t.ioatc = s.ioatc
  requests : t.requests = removeAt s.requests k

/-- The answer to a request that is disallowed: an ATS one is an Unsupported Request (47_ats_pri R583), any other is
aborted (60_exceptions R675). -/
def Request.disallowedAnswer (r : Request) : Completion :=
  if r.type = .atsRequest then .unsupportedRequest r.tag else .aborted r.tag

/-- From `s` to `t` request `k`, which is `r`, is turned away with a cause: nothing else is touched, no access is
released, and the record is offered to the fault queue. -/
structure TurnedAway (s t : State) (k : Nat) (r : Request) (cause : Nat) : Prop extends EndsUntouched s t k where
  completions : t.completions = s.completions ++ [r.disallowedAnswer]
  accesses : t.accesses = s.accesses
  faults : s.fqcsr.fqon = true → t.faults = s.faults ++
    [faultRecord cause 0#64 r.ttyp r.deviceId r.processId r.privileged (reportedIova s.cfg r.iova)]

section
variable {s t : State} {k : Nat} {r : Request}

theorem EndsUntouched.of_answer {y : EStateM.Result FaultInfo Walk Served}
    (hend : walkAfter y = (s.dropRequest k).startWalk) (h : (s.dropRequest k).answerRequest r y = .next t) :
    EndsUntouched s t k := by
  have hanswer : t = _ := hend ▸ State.answerRequest_frame h
  exact ⟨(congrArg State.activations hanswer :), (congrArg State.mem hanswer :), (congrArg State.ioatc hanswer :),
    (congrArg State.requests hanswer :)⟩

theorem not_atsSilent_of_unsupported {cause : Nat} (hc : atsFailure cause = .unsupportedRequest) :
    atsSilent cause = false := by
  cases h : atsSilent cause with
  | false => rfl
  | true => simp [atsFailure, h] at hc

/-- A fault that an ATS request learns of as an Unsupported Request is answered so, or by an abort, and its record is
offered. -/
theorem State.failRequest_of_unsupported {cause : Nat} (hc : atsFailure cause = .unsupportedRequest) (s : State)
    (r : Request) (known : Bool) :
    s.failRequest r false known ⟨cause, 0#64⟩ = (s.complete r.disallowedAnswer).offerRecord
      (faultRecord cause 0#64 r.ttyp r.deviceId r.processId r.privileged (reportedIova s.cfg r.iova)) := by
  by_cases hr : r.type = .atsRequest <;>
    simp [State.failRequest, Request.disallowedAnswer, State.reportFault, hr, hc]

theorem State.offerRecord_completions (s : State) (f : FaultRecord) :
    (s.offerRecord f).completions = s.completions := by unfold State.offerRecord; split <;> rfl

theorem State.offerRecord_accesses (s : State) (f : FaultRecord) : (s.offerRecord f).accesses = s.accesses := by
  unfold State.offerRecord; split <;> rfl

/-- With the fault queue on, a record offered waits for its writer (60_exceptions R684). -/
theorem State.offerRecord_faults_of_on (f : FaultRecord) (hon : s.fqcsr.fqon = true) :
    (s.offerRecord f).faults = s.faults ++ [f] := by simp [State.offerRecord, hon]

/-- The end of a request that faults before its first access: its event is counted, it is answered, and its record is
offered. -/
theorem State.answerRequest_fault {cause : Nat} (hc : atsFailure cause = .unsupportedRequest) (s : State)
    (r : Request) :
    s.answerRequest r (.error ⟨cause, 0#64⟩ s.startWalk) =
      .next (((s.absorbRequest s.startWalk r).complete r.disallowedAnswer).offerRecord
        (faultRecord cause 0#64 r.ttyp r.deviceId r.processId r.privileged (reportedIova s.cfg r.iova))) := by
  obtain ⟨hcfg, _⟩ := (s.onlyCounters_absorbRequest r).answers_eq
  rw [← hcfg]
  exact congrArg Host.Outcome.next (State.failRequest_of_unsupported hc _ _ _)

/-- A request that faults before its first access is turned away. -/
theorem TurnedAway.of_fault {cause : Nat} (hc : atsFailure cause = .unsupportedRequest)
    (h : (s.dropRequest k).answerRequest r (.error ⟨cause, 0#64⟩ (s.dropRequest k).startWalk) = .next t) :
    TurnedAway s t k r cause := by
  have hends := EndsUntouched.of_answer rfl h
  obtain ⟨_, hfqcsr, hcompletions, haccesses, hfaults⟩ :=
    ((s.dropRequest k).onlyCounters_absorbRequest r).answers_eq
  rw [State.answerRequest_fault hc] at h
  injection h with h
  subst h
  refine ⟨hends, ?_, ?_, fun hon => ?_⟩
  · rw [State.offerRecord_completions, State.complete_completions, hcompletions]
    rfl
  · rw [State.offerRecord_accesses]
    exact haccesses
  · rw [State.offerRecord_faults_of_on, State.complete_faults, hfaults]
    · rfl
    · rw [State.complete_fqcsr, hfqcsr]
      exact hon

/-- A fault of a device's request before its first access turns the request away, in one go or begun. -/
theorem perform_turnedAway {cause : Nat} (hc : atsFailure cause = .unsupportedRequest) (hok : s.failed = false)
    (hb : s.ddtpBusy = false) (hk : elementAt s.requests k = some ⟨r, none⟩)
    (h : translateSteps (s.dropRequest k) [s.ddtp] r false false = raise cause) :
    ∃ t, perform (.translate k) s = .next t ∧ perform (.beginTranslate k) s = .next t ∧ TurnedAway s t k r cause := by
  have hy : serveProcess (s.dropRequest k) [s.ddtp] r (s.dropRequest k).startWalk =
      .error ⟨cause, 0#64⟩ (s.dropRequest k).startWalk :=
    congrFun (serveProcess_of_raise (not_atsSilent_of_unsupported hc) h) _
  have ht := (s.dropRequest k).answerRequest_fault hc r
  obtain ⟨hserve, hbegin⟩ := perform_request_of_ended hok hb hk hy rfl ht
  exact ⟨_, hserve, hbegin, .of_fault hc ht⟩

/-- The end of an untranslated request whose address is given back unchanged (R502, R525). -/
theorem State.answerRequest_identity (hr : r.type = .untranslated) (s : State) :
    s.answerRequest r (.ok (.translated (Translated.identity r.iova.toNat)) s.startWalk) =
      .next (((s.absorbRequest s.startWalk r).complete
        (.success r.tag r.iova (if s.cfg.svpbmt then some 0#2 else none))).release r) := by
  obtain ⟨hcfg, _⟩ := (s.onlyCounters_absorbRequest r).answers_eq
  simp [State.answerRequest, State.finishRequest, Translated.identity, hr, hcfg]

/-- In mode Bare an untranslated request passes, in one go or begun, and nothing is reported. -/
theorem perform_bare_untranslated (hok : s.failed = false) (hm : s.ddtp.mode = .bare) (hb : s.ddtpBusy = false)
    (hk : elementAt s.requests k = some ⟨r, none⟩) (hr : r.type = .untranslated) :
    ∃ t, perform (.translate k) s = .next t ∧ perform (.beginTranslate k) s = .next t ∧ EndsUntouched s t k ∧
      t.completions = s.completions ++ [.success r.tag r.iova (if s.cfg.svpbmt then some 0#2 else none)] ∧
      t.faults = s.faults := by
  have hgrants : (Translated.identity r.iova.toNat).grants r = true := by simp [Translated.grants, hr]
  have hy := congrFun (serveProcess_of_pure hgrants rfl
    (translateSteps_bare_untranslated (s.dropRequest k) r hm hr false false)) (s.dropRequest k).startWalk
  have ht := (s.dropRequest k).answerRequest_identity hr
  obtain ⟨hserve, hbegin⟩ := perform_request_of_ended hok hb hk hy rfl ht
  obtain ⟨_, _, hcompletions, _, hfaults⟩ := ((s.dropRequest k).onlyCounters_absorbRequest r).answers_eq
  refine ⟨_, hserve, hbegin, .of_answer rfl ht, ?_, ?_⟩
  · rw [State.release_completions, State.complete_completions, hcompletions]
    rfl
  · rw [State.release_faults, State.complete_faults, hfaults]
    rfl

/-- In mode Bare any other request is turned away, in one go or begun. -/
theorem perform_bare_other (hok : s.failed = false) (hm : s.ddtp.mode = .bare) (hb : s.ddtpBusy = false)
    (hk : elementAt s.requests k = some ⟨r, none⟩) (hr : r.type ≠ .untranslated) :
    ∃ t, perform (.translate k) s = .next t ∧ perform (.beginTranslate k) s = .next t ∧ TurnedAway s t k r 260 :=
  perform_turnedAway rfl hok hb hk (translateSteps_bare_other _ r hm hr false false)

end

/-! ## The range check -/

section
variable (extended : Bool) (did : BitVec 24)

/-- `DDI[1]` as the bits of the `device_id` (R503). -/
theorem ddi_one : ddi extended did 1 = (if extended then did.extractLsb' 6 9 else did.extractLsb' 7 9).toNat := by
  cases extended <;> simp [ddi, ddiShift, Nat.shiftRight_eq_div_pow]

/-- `DDI[2]` as the bits of the `device_id` (R503): all that are left. -/
theorem ddi_two :
    ddi extended did 2 = if extended then (did.extractLsb' 15 9).toNat else (did.extractLsb' 16 8).toNat := by
  have hdid := did.isLt
  cases extended <;> simp [ddi, ddiShift, Nat.shiftRight_eq_div_pow] <;> omega

theorem didTooWide_lvl1_iff :
    didTooWide extended .lvl1 did = true ↔ ddi extended did 2 ≠ 0 ∨ ddi extended did 1 ≠ 0 := by
  simp [didTooWide, or_comm]

theorem didTooWide_lvl2_iff : didTooWide extended .lvl2 did = true ↔ ddi extended did 2 ≠ 0 := by
  simp [didTooWide]

end

/-! ## The statements -/

/-- Settles O40: mode Off faults with cause 256 before any access. -/
theorem offDisallowsEverything : Obligations.OffDisallowsEverything := by
  intro s k r hok hm hb hk
  obtain ⟨t, hserve, hbegin, h⟩ := perform_turnedAway rfl hok hb hk (translateSteps_off _ r hm false false)
  exact ⟨t, hserve, hbegin, h.activations, h.mem, h.ioatc, h.requests, h.completions, h.accesses, h.faults⟩

/-- Settles O41: by the type of the request, passed or turned away. -/
theorem bareIsIdentity : Obligations.BareIsIdentity := by
  intro s k r hok hm hb hk
  by_cases hr : r.type = .untranslated
  · obtain ⟨t, hserve, hbegin, h, hcompletions, hfaults⟩ := perform_bare_untranslated hok hm hb hk hr
    exact ⟨t, hserve, hbegin, h.activations, h.mem, h.ioatc, h.requests, fun _ => ⟨hcompletions, hfaults⟩,
      fun h' => by simp [hr] at h', fun h' => by simp [hr] at h', fun h' => absurd hr h'⟩
  · obtain ⟨t, hserve, hbegin, h⟩ := perform_bare_other hok hm hb hk hr
    have hcompletions := h.completions
    refine ⟨t, hserve, hbegin, h.activations, h.mem, h.ioatc, h.requests, fun h' => absurd h' hr, fun h' => ?_,
      fun h' => ?_, fun _ => h.faults⟩ <;>
    simpa [Request.disallowedAnswer, h'] using hcompletions

/-- Settles O42: the indices are the bits R503 names, and a `device_id` too wide faults before any access. -/
theorem deviceIdRangeCheck : Obligations.DeviceIdRangeCheck := by
  refine ⟨fun extended did => ?_, fun s k r hok hm hb hw hk => ?_⟩
  · dsimp only
    rw [didTooWide_lvl1_iff, didTooWide_lvl2_iff, ddi_one, ddi_two, ← BitVec.toNat_ne_iff_ne, BitVec.toNat_zero]
    exact ⟨Iff.rfl, Iff.rfl, rfl⟩
  · obtain ⟨t, hserve, hbegin, h⟩ :=
      perform_turnedAway rfl hok hb hk (translateSteps_tooWide (s.dropRequest k) r hm hw false false)
    exact ⟨t, hserve, hbegin, h.activations, h.mem, h.ioatc, h.completions, h.faults⟩

end Sys2Proof.Machine
end

section
/-! SUPPORT. The stores of the fault-queue and page-request records (60_exceptions R661, R681 to R683; 47_ats_pri R611 to
R613): which succeed, and what then stands in memory. -/

namespace Sys2Proof.Machine

/-! ## Doublewords in memory -/

/-- A doubleword stored is read back in the same byte order (20_memory R187). -/
theorem Memory.read64_write64 (m : Memory) (a : Nat) (v : DWord) (be : Bool) : (m.write64 a v be).read64 a be = v := by
  have hbytes : (m.write64 a v be).readBytes a 8 = toBytes be 8 v.toNat := by
    simpa [Memory.write64, toBytes_length] using Memory.readBytes_writeBytes (toBytes be 8 v.toNat) m a
  apply BitVec.eq_of_toNat_eq
  simp only [Memory.read64, Memory.readNat, hbytes, ofBytes_toBytes, BitVec.toNat_ofNat]
  omega

/-- A read depends on the bytes it reads only. -/
theorem Memory.readBytes_congr {m m' : Memory} {a n : Nat} (h : ∀ b, a ≤ b → b < a + n → m'.read b = m.read b) :
    m'.readBytes a n = m.readBytes a n := by
  induction n generalizing a with
  | zero => rfl
  | succ n ih =>
    rw [Memory.readBytes, Memory.readBytes, h a le_rfl (by omega), ih fun b hb hlt => h b (by omega) (by omega)]

theorem Memory.read64_congr {m m' : Memory} {a : Nat} (be : Bool)
    (h : ∀ b, a ≤ b → b < a + 8 → m'.read b = m.read b) : m'.read64 a be = m.read64 a be := by
  rw [Memory.read64, Memory.readNat, Memory.readBytes_congr h]
  rfl

/-- The `n` doublewords at ascending addresses from `a`. -/
def Memory.readDwords (m : Memory) (be : Bool) (a : Nat) : Nat → List DWord
  | 0 => []
  | n + 1 => m.read64 a be :: m.readDwords be (a + 8) n

/-- A fault-queue entry is four doublewords (60_exceptions R661). -/
theorem State.recordAt_eq_readDwords (s : State) (a : Nat) : s.recordAt a = s.mem.readDwords s.fctl.be a 4 := rfl

/-! ## The stores of a record -/

section
variable (c : Config) (be : Bool) (m : Memory) (a : Nat) (ds : List DWord)

/-- A record's first doubleword is stored, and then the others if that store is permitted (60_exceptions R681). -/
theorem storeDwords_cons (d : DWord) :
    (permitted c a 8 .write = true ∧
      storeDwords c be m a (d :: ds) = storeDwords c be (m.write64 a d be) (a + 8) ds) ∨
    (permitted c a 8 .write = false ∧ (storeDwords c be m a (d :: ds)).2 = false) := by
  obtain ⟨hp, e⟩ | ⟨hp, n, e⟩ := storeDword_cases c be m a d
  · exact .inl ⟨hp, by simp only [storeDwords, e]⟩
  · exact .inr ⟨hp, by simp only [storeDwords, e]⟩

/-- A record is stored iff the store of each of its doublewords is permitted. -/
theorem storeDwords_ok_iff :
    (storeDwords c be m a ds).2 = true ↔ ∀ k, k < ds.length → permitted c (a + 8 * k) 8 .write = true := by
  induction ds generalizing m a with
  | nil => simp [storeDwords]
  | cons d ds ih =>
    rw [List.length_cons, Nat.forall_lt_succ_left']
    obtain ⟨hp, e⟩ | ⟨hp, e⟩ := storeDwords_cons c be m a ds d
    · rw [e, ih]
      simp [hp, Nat.mul_add, Nat.add_assoc, Nat.add_comm 8]
    · simp [e, hp]

/-- The doublewords of a record that is stored stand at its address. -/
theorem readDwords_storeDwords (h : ∀ k, k < ds.length → permitted c (a + 8 * k) 8 .write = true) :
    (storeDwords c be m a ds).1.readDwords be a ds.length = ds := by
  induction ds generalizing m a with
  | nil => rfl
  | cons d ds ih =>
    obtain ⟨_, e⟩ | ⟨hp, _⟩ := storeDwords_cons c be m a ds d
    · have hfirst : (storeDwords c be (m.write64 a d be) (a + 8) ds).1.read64 a be = d := by
        rw [Memory.read64_congr be fun b _ hb => storeDwords_outside c be ds _ _ b (.inl hb), Memory.read64_write64]
      have hrest := ih (m.write64 a d be) (a + 8) fun k hk => by
        have := h (k + 1) (by simpa using hk)
        rwa [show a + 8 * (k + 1) = a + 8 + 8 * k by omega] at this
      rw [e, List.length_cons, Memory.readDwords, hfirst, hrest]
    · have := h 0 (by simp)
      simp [hp] at this

end

/-! ## The fault-queue writer (60_exceptions R681 to R684) -/

section
variable {s : State} (r : FaultRecord)

/-- The stores of a record at the entry of `fqt`: the memory they leave, and whether all were permitted. -/
def State.recordStores (s : State) (r : FaultRecord) : Memory × Bool :=
  storeDwords s.cfg s.fctl.be s.mem (s.fqb.entryAddr 32 s.fqt) r.dwords

theorem State.recordStores_ok_iff :
    (s.recordStores r).2 = true ↔ ∀ k, k < 4 → permitted s.cfg (s.fqb.entryAddr 32 s.fqt + 8 * k) 8 .write = true :=
  storeDwords_ok_iff _ _ _ _ _

theorem State.recordStores_outside {a : Nat}
    (h : a < s.fqb.entryAddr 32 s.fqt ∨ s.fqb.entryAddr 32 s.fqt + 32 ≤ a) :
    (s.recordStores r).1.read a = s.mem.read a :=
  storeDwords_outside _ _ _ _ _ _ h

theorem State.writeRecord_of_off (h : s.fqcsr.fqon = false) : s.writeRecord r = s := by
  simp [State.writeRecord, h]

theorem State.writeRecord_of_error (h : s.fqcsr.fqof = true ∨ s.fqcsr.fqmf = true) : s.writeRecord r = s := by
  cases hon : s.fqcsr.fqon with
  | false => exact State.writeRecord_of_off r hon
  | true => obtain h | h := h <;> simp [State.writeRecord, hon, h]

variable (hon : s.fqcsr.fqon = true) (hof : s.fqcsr.fqof = false) (hmf : s.fqcsr.fqmf = false)
include hon hof hmf

theorem State.writeRecord_of_full (h : s.fqFull = true) :
    s.writeRecord r = State.raiseFip { s with fqcsr := { s.fqcsr with fqof := true } } := by
  simp [State.writeRecord, hon, hof, hmf, h]

theorem State.writeRecord_of_stored (hfull : s.fqFull = false) (h : (s.recordStores r).2 = true) :
    s.writeRecord r = State.raiseFip { s with mem := (s.recordStores r).1, fqt := s.fqb.next s.fqt } := by
  unfold State.recordStores at h ⊢
  simp [State.writeRecord, hon, hof, hmf, hfull, h]

theorem State.writeRecord_of_refused (hfull : s.fqFull = false) (h : (s.recordStores r).2 = false) :
    s.writeRecord r =
      State.raiseFip { s with mem := (s.recordStores r).1, fqcsr := { s.fqcsr with fqmf := true } } := by
  unfold State.recordStores at h ⊢
  simp [State.writeRecord, hon, hof, hmf, hfull, h]

end

/-- Settles O37: an offered record is dropped, and the writer does nothing. -/
theorem faultQueueOffLosesFaults : Obligations.FaultQueueOffLosesFaults := by
  intro s cause dtf r hoff
  refine ⟨?_, State.writeRecord_of_off r hoff⟩
  obtain ⟨h, _⟩ | ⟨_, hon⟩ := s.reportFault_cases cause dtf r
  · exact h
  · simp [hoff] at hon

/-- Settles O38: the four stores are permitted, so all are made. -/
theorem faultRecordWritten : Obligations.FaultRecordWritten := by
  intro s r hon hof hmf hfull hperm
  rw [State.writeRecord_of_stored r hon hof hmf hfull ((State.recordStores_ok_iff r).mpr hperm)]
  refine ⟨?_, fun a ha => ?_, ?_, ?_, ?_⟩
  · rw [State.recordAt_eq_readDwords, State.raiseFip_mem, State.raiseFip_fctl]
    exact readDwords_storeDwords _ _ _ _ r.dwords hperm
  · rw [State.raiseFip_mem]
    exact State.recordStores_outside r ha
  all_goals simp

/-- Settles O39: full, refused or in error; an error, once set, has the next record discarded. -/
theorem faultQueueOverflow : Obligations.FaultQueueOverflow := by
  intro s r r' hon
  refine ⟨State.writeRecord_of_error r, fun hof hmf hfull => ?_, fun hof hmf hfull hperm => ?_⟩
  · rw [State.writeRecord_of_full r hon hof hmf hfull]
    exact ⟨by simp, by simp, by simp, by simp, State.writeRecord_of_error r' (.inl (by simp))⟩
  · have hrefused : (s.recordStores r).2 = false := by
      obtain ⟨k, hk, hp⟩ := hperm
      refine Bool.eq_false_iff.mpr fun h => ?_
      simp [(State.recordStores_ok_iff r).mp h k hk] at hp
    rw [State.writeRecord_of_refused r hon hof hmf hfull hrefused]
    refine ⟨by simp, by simp, by simp, fun a ha => ?_, State.writeRecord_of_error r' (.inr (by simp))⟩
    rw [State.raiseFip_mem]
    exact State.recordStores_outside r ha

end Sys2Proof.Machine
end

section
/-! SUPPORT. The queue part of the page-request handler (47_ats_pri R601, R606, R607, R611 to R615). -/

namespace Sys2Proof.Machine

/-! ## The fields of a page-request record (47_ats_pri R611) -/

/-- The first doubleword of a page-request record. -/
def PageRequest.header (m : PageRequest) : DWord :=
  m.deviceId ++ 0#5 ++ flag (m.pasid.isSome && m.exec) ++ flag (m.pasid.isSome && m.priv) ++ flag m.pasid.isSome ++
    m.pasid.getD 0#20 ++ 0#12

theorem PageRequest.dwords_eq (m : PageRequest) : m.dwords = [m.header, m.payload] := rfl

section
variable (m : PageRequest)

theorem PageRequest.header_low : m.header.extractLsb' 0 12 = 0#12 := BitVec.extractLsb'_append_eq_right

/-- Above its twelve reserved bits the header holds the other fields. -/
theorem PageRequest.header_above {k n : Nat} (h : 12 ≤ k) : m.header.extractLsb' k n =
    (m.deviceId ++ 0#5 ++ flag (m.pasid.isSome && m.exec) ++ flag (m.pasid.isSome && m.priv) ++ flag m.pasid.isSome ++
      m.pasid.getD 0#20).extractLsb' (k - 12) n := BitVec.extractLsb'_append_eq_of_le h

theorem PageRequest.header_pid : m.header.extractLsb' 12 20 = m.pasid.getD 0#20 := by
  rw [m.header_above (by decide)]
  exact BitVec.extractLsb'_append_eq_right

/-- Above `PID` the header holds the three flags, the reserved bits and `DID`. -/
theorem PageRequest.header_above_pid {k n : Nat} (h : 32 ≤ k) : m.header.extractLsb' k n =
    (m.deviceId ++ 0#5 ++ flag (m.pasid.isSome && m.exec) ++ flag (m.pasid.isSome && m.priv) ++
      flag m.pasid.isSome).extractLsb' (k - 32) n := by
  rw [m.header_above (by omega), BitVec.extractLsb'_append_eq_of_le (by omega), Nat.sub_sub]

theorem PageRequest.header_pv : m.header.getLsbD 32 = m.pasid.isSome := by
  rw [← extractLsb'_one_eq_flag_iff, m.header_above_pid (by decide)]
  exact BitVec.extractLsb'_append_eq_right

theorem PageRequest.header_priv : m.header.getLsbD 33 = (m.pasid.isSome && m.priv) := by
  rw [← extractLsb'_one_eq_flag_iff, m.header_above_pid (by decide), BitVec.extractLsb'_append_eq_of_le (by decide)]
  exact BitVec.extractLsb'_append_eq_right

theorem PageRequest.header_exec : m.header.getLsbD 34 = (m.pasid.isSome && m.exec) := by
  rw [← extractLsb'_one_eq_flag_iff, m.header_above_pid (by decide), BitVec.extractLsb'_append_eq_of_le (by decide),
    BitVec.extractLsb'_append_eq_of_le (by decide)]
  exact BitVec.extractLsb'_append_eq_right

/-- Above the flags the header holds `DID` and five reserved bits. -/
theorem PageRequest.header_above_flags {k n : Nat} (h : 35 ≤ k) :
    m.header.extractLsb' k n = (m.deviceId ++ 0#5).extractLsb' (k - 35) n := by
  rw [m.header_above_pid (by omega), BitVec.extractLsb'_append_eq_of_le (by omega),
    BitVec.extractLsb'_append_eq_of_le (by omega), BitVec.extractLsb'_append_eq_of_le (by omega)]
  simp only [Nat.sub_sub]

theorem PageRequest.header_reserved : m.header.extractLsb' 35 5 = 0#5 := by
  rw [m.header_above_flags le_rfl]
  exact BitVec.extractLsb'_append_eq_right

theorem PageRequest.header_did : m.header.extractLsb' 40 24 = m.deviceId := by
  rw [m.header_above_flags (by decide), BitVec.extractLsb'_append_eq_of_le (by decide)]
  exact BitVec.extractLsb'_eq_self

end

/-! ## Storing a record, and the full queue -/

/-- The stores of a record at the entry of `pqt`: the memory they leave, and whether all were permitted. -/
def State.pageStores (s : State) (m : PageRequest) : Memory × Bool :=
  storeDwords s.cfg s.fctl.be s.mem (s.pqb.entryAddr 16 s.pqt) m.dwords

/-- The overflow is noted: `pqof` is set, and `pip` if `pie` (47_ats_pri R614, R615). -/
def State.notePageOverflow (s : State) : State := State.raisePip { s with pqcsr := { s.pqcsr with pqof := true } }

section
variable {s : State} (m : PageRequest) (prpr : Bool) (hen : s.pqcsr.pqen = true) (hon : s.pqcsr.pqon = true)
  (hmf : s.pqcsr.pqmf = false) (hof : s.pqcsr.pqof = false)
include hen hon hmf hof

theorem State.queuePage_of_stored (hfull : s.pqFull = false) (h : (s.pageStores m).2 = true) :
    s.queuePage m prpr = State.raisePip { s with mem := (s.pageStores m).1, pqt := s.pqb.next s.pqt } := by
  unfold State.pageStores at h ⊢
  simp [State.queuePage, State.storePage, hen, hon, hmf, hof, hfull, h]

theorem State.queuePage_of_full (hfull : s.pqFull = true) :
    s.queuePage m prpr = s.notePageOverflow.respond m .success prpr := by
  simp [State.notePageOverflow, State.queuePage, State.storePage, hen, hon, hmf, hof, hfull]

end

/-- The last request of a group, if it is no Stop Marker, is answered (47_ats_pri R601, R606, R607). -/
theorem State.respond_last (s : State) {m : PageRequest} (hlast : m.last = true) (hstop : m.stopMarker = false)
    (status : PageStatus) (withPasid : Bool) :
    s.respond m status withPasid = s.send (.groupResponse (m.deviceId.extractLsb' 0 16)
      (some (m.deviceId.extractLsb' 16 8)) (if withPasid then m.pasid else none)
      (m.deviceId.extractLsb' 0 16 ++ status.code ++ 0#3 ++ m.prgi ++ 0#32)) := by
  simp [State.respond, hlast, hstop]

/-- Any other message gets no answer. -/
theorem State.respond_unanswered (s : State) {m : PageRequest} (h : m.last = false ∨ m.stopMarker = true)
    (status : PageStatus) (withPasid : Bool) : s.respond m status withPasid = s := by
  obtain h | h := h <;> simp [State.respond, h]

/-- Settles O46: both stores are permitted, so the record stands at the entry of `pqt`. -/
theorem pageRequestQueued : Obligations.PageRequestQueued := by
  intro s m prpr hen hon hmf hof hfull hperm t a d0
  have ht : t = State.raisePip { s with mem := (s.pageStores m).1, pqt := s.pqb.next s.pqt } :=
    State.queuePage_of_stored m prpr hen hon hmf hof hfull ((storeDwords_ok_iff _ _ _ _ m.dwords).mpr hperm)
  have hmem : t.mem = (s.pageStores m).1 := by rw [ht, State.raisePip_mem]
  have hrecord : t.mem.readDwords s.fctl.be a 2 = [m.header, m.payload] :=
    hmem ▸ readDwords_storeDwords s.cfg s.fctl.be s.mem a m.dwords hperm
  obtain ⟨hd0, hd1⟩ : d0 = m.header ∧ t.mem.read64 (a + 8) s.fctl.be = m.payload := by
    simpa [Memory.readDwords] using hrecord
  rw [hd0]
  refine ⟨m.header_did, m.header_reserved, m.header_exec, m.header_priv, m.header_pv, fun p hp => ?_, m.header_low, hd1,
    fun b hb => ?_, ?_⟩
  · rw [m.header_pid, hp, Option.getD_some]
  · rw [hmem]
    exact storeDwords_outside _ _ m.dwords _ _ _ hb
  · simp [ht]

/-- Settles O47: the overflow is noted, and the message answered if it asks for an answer. -/
theorem pageQueueOverflow : Obligations.PageQueueOverflow := by
  intro s m prpr hen hon hmf hof hfull t
  have ht : t = s.notePageOverflow.respond m .success prpr := State.queuePage_of_full m prpr hen hon hmf hof hfull
  have hmessages : s.notePageOverflow.messages = s.messages := State.raisePip_messages _
  obtain ⟨ms, hframe⟩ := s.notePageOverflow.respond_frame m .success prpr
  refine ⟨?_, ?_, ?_, ?_, fun hlast hstop => ?_, fun h => ?_⟩
  iterate 4 rw [ht, hframe]; simp [State.notePageOverflow]
  · rw [ht, State.respond_last _ hlast hstop, State.send_messages, hmessages]
    rfl
  · rw [ht, State.respond_unanswered _ h, hmessages]

end Sys2Proof.Machine
end

section
/-! SUPPORT. A debug request that faults before any access (48_debug_interface R632, R636, R637). -/

namespace Sys2Proof.Machine

section
variable {s : State}

/-- A translation that faults with a cause an ATS request learns of leaves the walk as it was. -/
theorem translate_of_raise {ps : List DdtPointer} {r : Request} {debug skipUpdate : Bool} {cause : Nat}
    (hc : atsSilent cause = false) (h : translateSteps s ps r debug skipUpdate = raise cause) (w : Walk) :
    Machine.translate s ps r debug skipUpdate w = .error ⟨cause, 0#64⟩ w := by
  have hdenied : r.deniedBy ⟨cause, 0#64⟩ = false := by simp [Request.deniedBy, hc]
  show cachedIfGranted r (translateSteps s ps r debug skipUpdate) w = .error ⟨cause, 0#64⟩ w
  rw [h]
  exact congrArg (EStateM.Result.error _) (by rw [hdenied]; rfl)

/-- A debug request whose process ends as it began, begun, ends with the answer it has in one go. -/
theorem State.begin_debug_of_ended {ps : List DdtPointer} {r : Request} {skipUpdate : Bool}
    {y : EStateM.Result FaultInfo Walk Translated} (hy : debugProcess s ps r skipUpdate s.startWalk = y)
    (hend : walkAfter y = s.startWalk) : s.begin ps (.debug r skipUpdate) = .next (s.answerDebug r y) := by
  show s.proceed _ (walkAfter (debugProcess s ps r skipUpdate s.startWalk))
    (.next (s.answerDebug r (debugProcess s ps r skipUpdate s.startWalk))) = _
  rw [hy, hend]
  rfl

/-- Counting the events of a debug request changes the counters only. -/
theorem State.onlyCounters_countDebug (s : State) (r : Request) (w : Walk) : OnlyCounters s (s.countDebug r w) := by
  unfold State.countDebug
  split
  · exact onlyCounters_countActivation _ _ _ _ _
  · exact .refl s

/-- The choice whether to skip the A/D updates may use up a free value, and nothing else. -/
theorem State.drawSkips_frame (s : State) : ∃ n, s.drawSkips = { s with draws := n } := by
  unfold State.drawSkips
  split
  · exact ⟨_, rfl⟩
  · exact ⟨s.draws, rfl⟩

theorem State.drawSkips_cfg (s : State) : s.drawSkips.cfg = s.cfg := by
  obtain ⟨n, hd⟩ := s.drawSkips_frame
  rw [hd]

/-- A record offered is queued or lost. -/
theorem State.offerRecord_frame (f : FaultRecord) : ∃ fs, s.offerRecord f = { s with faults := fs } := by
  unfold State.offerRecord
  split
  · exact ⟨_, rfl⟩
  · exact ⟨s.faults, rfl⟩

/-- The end of a debug request that faults before its first access: its events are counted, its record is offered, and
the fault is published. -/
theorem State.answerDebug_fault (r : Request) (cause : Nat) :
    let u := (s.countDebug r s.startWalk).offerRecord
      (faultRecord cause 0#64 r.ttyp r.deviceId r.processId r.privileged (reportedIova s.cfg r.iova))
    s.answerDebug r (.error ⟨cause, 0#64⟩ s.startWalk) = u.publish (debugFaultResponse u) := rfl

end

/-- From `s` to `t` a debug request has ended by a fault: `Go/Busy` is cleared and `fault` set (R632, R636), the record
is queued while the fault queue is on (R637), and memory and the answers to devices are as they were. -/
structure DebugFaulted (s t : State) (f : FaultRecord) : Prop where
  trReqCtl : t.trReqCtl = { s.trReqCtl with goBusy := false }
  fault : t.trResponse.fault = true
  mem : t.mem = s.mem
  completions : t.completions = s.completions
  faults : s.fqcsr.fqon = true → t.faults = s.faults ++ [f]

section
variable {s : State} {f : FaultRecord}

/-- Once its events are counted, a debug request that faults offers its record and publishes the fault. -/
theorem DebugFaulted.of_counters {u : State} (h : OnlyCounters s u) :
    DebugFaulted s ((u.offerRecord f).publish (debugFaultResponse (u.offerRecord f))) f := by
  obtain ⟨fs, hframe⟩ := u.offerRecord_frame f
  obtain ⟨_, hfqcsr, hcompletions, _, hfaults⟩ := h.answers_eq
  have hu : u = _ := h
  refine ⟨?_, rfl, ?_, ?_, fun hon => ?_⟩
  · rw [hframe, hu]
    rfl
  · rw [hframe, hu]
    rfl
  · rw [hframe]
    exact hcompletions
  · show (u.offerRecord f).faults = _
    rw [State.offerRecord_faults_of_on f (hfqcsr ▸ hon), hfaults]

/-- A debug request that faults before its first access ends by its fault. -/
theorem DebugFaulted.answerDebug (s : State) (r : Request) (cause : Nat) :
    DebugFaulted s (s.answerDebug r (.error ⟨cause, 0#64⟩ s.startWalk))
      (faultRecord cause 0#64 r.ttyp r.deviceId r.processId r.privileged (reportedIova s.cfg r.iova)) := by
  rw [State.answerDebug_fault]
  exact .of_counters (s.onlyCounters_countDebug r s.startWalk)

/-- The choice made before does not show. -/
theorem DebugFaulted.of_drawSkips {t : State} (h : DebugFaulted s.drawSkips t f) : DebugFaulted s t f := by
  obtain ⟨n, hd⟩ := s.drawSkips_frame
  rw [hd] at h
  exact ⟨h.trReqCtl, h.fault, h.mem, h.completions, h.faults⟩

/-- In mode Off a debug request faults with cause 256, in one go or begun (45_translation_process R501). -/
theorem perform_debug_off (hok : s.failed = false) (hready : s.debugReady = true) (hm : s.ddtp.mode = .off)
    (hb : s.ddtpBusy = false) :
    ∃ t, perform .debug s = .next t ∧ perform .beginDebug s = .next t ∧
      DebugFaulted s t (faultRecord 256 0#64 s.debugRequest.ttyp s.debugRequest.deviceId s.debugRequest.processId
        s.debugRequest.privileged (reportedIova s.cfg s.debugRequest.iova)) := by
  have hps : s.ddtpAlternatives = [s.ddtp] := State.alternativesFor_settled hb
  have hy : debugProcess s.drawSkips s.ddtpAlternatives s.debugRequest s.debugSkips s.drawSkips.startWalk =
      .error ⟨256, 0#64⟩ s.drawSkips.startWalk :=
    translate_of_raise rfl (hps ▸ translateSteps_off s.drawSkips s.debugRequest hm true s.debugSkips) _
  have hfault := DebugFaulted.answerDebug s.drawSkips s.debugRequest 256
  rw [State.drawSkips_cfg] at hfault
  refine ⟨_, ?_, ?_, hfault.of_drawSkips⟩
  · show Host.Outcome.next s.debugStep = _
    simp only [State.debugStep, hready, hok, hy]
    rfl
  · show s.beginDebug = _
    simp only [State.beginDebug, hready, hok, State.begin_debug_of_ended hy rfl]
    rfl

end

/-- Settles O52: the request faults before any access, and the choice whether to skip A/D updates does not show. -/
theorem debugRequestFaults : Obligations.DebugRequestFaults := by
  intro s hok hgo hidle hm hb
  have hready : s.debugReady = true := by simp [State.debugReady, hgo, hidle]
  obtain ⟨t, hdebug, hbegin, h⟩ := perform_debug_off hok hready hm hb
  exact ⟨t, hdebug, hbegin, h.trReqCtl, h.fault, h.mem, h.completions, h.faults⟩

end Sys2Proof.Machine
end

section
/-! SUPPORT. The interrupt generator's MSI writes (60_exceptions R692 to R694), and the state after reset (70_reset_and_hazards
R730, R732). -/

namespace Sys2Proof.Machine

/-! ## MSIs -/

section
variable {s : State} (v : Fin 16)

/-- The machine without the MSI owed for a vector. -/
def State.clearOwed (s : State) (v : BitVec 4) : State := { s with msiOwed := s.msiOwed &&& ~~~(1#16 <<< v.toNat) }

/-- Clearing one flag leaves the others (R692). -/
theorem State.clearOwed_getLsbD {k : Nat} (hk : k < 16) :
    (s.clearOwed (BitVec.ofFin v)).msiOwed.getLsbD k = (s.msiOwed.getLsbD k && k != v.val) := by
  rcases Nat.lt_trichotomy k v.val with h | h | h
  · simp [State.clearOwed, hk, h, bne_iff_ne.mpr h.ne]
  · simp [State.clearOwed, h]
  · simp [State.clearOwed, hk, h.ne', Nat.not_lt.mpr h.le, Nat.sub_ne_zero_of_lt h]

/-- An MSI that is not owed, masked, or not to be sent as one does not go out (R692). -/
theorem State.msiSend_of_not_ready {v : BitVec 4} (h : s.msiReady v = false) : s.msiSend v = s := by
  simp [State.msiSend, h]

theorem State.msiReady_of_masked (h : (s.msiCfgTbl.get v).mask = true) : s.msiReady (BitVec.ofFin v) = false := by
  have hmask : (s.msiCfgTbl[v.val]'v.isLt).mask = true := h
  simp [State.msiReady, hmask]

/-- A permitted MSI is written, least significant byte first (R692, R693). -/
theorem State.msiSend_of_permitted (hready : s.msiReady (BitVec.ofFin v) = true)
    (h : check s.cfg (s.msiCfgTbl.get v).byteAddr 4 .write = .ok) :
    s.msiSend (BitVec.ofFin v) = { s.clearOwed (BitVec.ofFin v) with
      mem := s.mem.write32 (s.msiCfgTbl.get v).byteAddr (s.msiCfgTbl.get v).data false } := by
  have h' : check s.cfg (s.msiCfgTbl[v.val]'v.isLt).byteAddr 4 .write = .ok := h
  unfold State.msiSend
  simp [hready, h', State.clearOwed]
  rfl

/-- A refused MSI is reported (R694). -/
theorem State.msiSend_of_refused (hready : s.msiReady (BitVec.ofFin v) = true)
    (h : check s.cfg (s.msiCfgTbl.get v).byteAddr 4 .write ≠ .ok) :
    s.msiSend (BitVec.ofFin v) =
      (s.clearOwed (BitVec.ofFin v)).offerRecord (msiFaultRecord (s.msiCfgTbl.get v)) := by
  unfold State.msiSend
  rw [if_neg (by simp [hready])]
  dsimp only
  split
  · next hok => exact absurd hok h
  · rfl

end

/-- Settles O35, by whether the vector is masked. -/
theorem msiDelivery : Obligations.MsiDelivery := by
  intro s v e
  refine ⟨fun hready hok => ?_, fun hmask => ?_⟩
  · refine ⟨_, congrArg Host.Outcome.next (State.msiSend_of_permitted v hready hok), rfl,
      fun k hk => State.clearOwed_getLsbD v hk, Memory.readBytes_write32 _ _ _ _, fun a ha => ?_⟩
    exact Memory.read_write32_outside _ _ _ ha
  · exact congrArg Host.Outcome.next (State.msiSend_of_not_ready (State.msiReady_of_masked v hmask))

/-- Settles O36: the flag goes, and the record is offered to a queue that is on. -/
theorem msiWriteFault : Obligations.MsiWriteFault := by
  intro s v hready hon hrefused
  obtain ⟨fs, hframe⟩ :=
    (s.clearOwed (BitVec.ofFin v)).offerRecord_frame (msiFaultRecord (s.msiCfgTbl.get v))
  refine ⟨_, congrArg Host.Outcome.next (State.msiSend_of_refused v hready hrefused), ?_, ?_, ?_⟩
  · rw [hframe]
    rfl
  · rw [hframe]
    simpa using State.clearOwed_getLsbD v v.isLt
  · exact State.offerRecord_faults_of_on _ hon

/-! ## Reset -/

/-- Settles O24: each field has its value by definition, and `iommu_mode` is the one the platform resets to. -/
theorem resetValues : Obligations.ResetValues := by
  intro c
  have hmode : (State.resetOn c).ddtp.mode = .off ∨ (State.resetOn c).ddtp.mode = .bare := by
    cases h : c.resetBare <;> simp [State.resetOn, h]
  exact ⟨⟨rfl, rfl, rfl, rfl⟩, ⟨rfl, rfl, rfl, rfl⟩, ⟨rfl, rfl, rfl, rfl⟩, rfl, rfl, rfl, hmode, rfl, rfl, rfl, rfl, rfl,
    rfl, rfl, rfl, rfl, rfl, rfl⟩

/-- Nothing is stored after reset and nothing is under way. -/
theorem State.reset_memoryCanonical : State.reset.MemoryCanonical := ⟨rfl, fun _ h => nomatch h⟩

/-- No interrupt is enabled after reset. -/
theorem State.reset_interruptsHeld : State.reset.InterruptsHeld := ⟨nofun, nofun, nofun⟩

theorem State.reset_commandsCoherent : State.reset.CommandsCoherent := ⟨nofun, fun _ h => nomatch h⟩

/-- Every index is 0 after reset, and no queue is empty of entries. -/
theorem State.reset_indicesInRange : State.reset.IndicesInRange :=
  ⟨QueueBase.entries_pos _, QueueBase.entries_pos _, QueueBase.entries_pos _, QueueBase.entries_pos _,
    QueueBase.entries_pos _, QueueBase.entries_pos _⟩

theorem State.reset_legalValues : State.reset.LegalValues := by
  refine ⟨fun n => ?_, by decide, by decide, by decide, by decide, by decide, fun _ h => nomatch h⟩
  have hselector : State.reset.iohpmevt.get n = HpmEvent.zero := Vector.getElem_replicate n.isLt
  have hcounter : State.reset.iohpmctr.get n = 0#64 := Vector.getElem_replicate n.isLt
  rw [hselector, hcounter]
  exact ⟨by decide, Nat.two_pow_pos _⟩

/-- Settles O25. -/
theorem resetMeetsInvariants : Obligations.ResetMeetsInvariants :=
  ⟨State.reset_memoryCanonical, State.reset_interruptsHeld, State.reset_commandsCoherent, State.reset_indicesInRange,
    State.reset_legalValues⟩

end Sys2Proof.Machine
end

section
/-! SUPPORT. The failed state (60_exceptions R703; log entry 11): no register access and no activity of the IOMMU leaves
it, and it aborts every request without a record. -/

namespace Sys2Proof.Machine

/-! ## What keeps the failed state -/

/-- The operation, where it answers, leaves the IOMMU failed or not as it is in `s`. -/
def KeepsFailed (s : State) (x : Host.Outcome State Fault Refusal) : Prop := ∀ t, x = .next t → t.failed = s.failed

section
variable {s u : State}

theorem KeepsFailed.next (h : u.failed = s.failed) : KeepsFailed s (.next u) := fun t e => by
  injection e with e
  exact e ▸ h

theorem KeepsFailed.refused (r : Refusal) : KeepsFailed s (.refused r) := fun _ e => by cases e

theorem KeepsFailed.ite {p : Prop} [Decidable p] {x y : Host.Outcome State Fault Refusal} (hx : KeepsFailed s x)
    (hy : KeepsFailed s y) : KeepsFailed s (if p then x else y) := by
  split
  · exact hx
  · exact hy

/-- What does nothing keeps everything. -/
theorem KeepsFailed.of_eq {x : Host.Outcome State Fault Refusal} (h : x = .next s) : KeepsFailed s x :=
  h ▸ .next rfl

/-- An update made or not. -/
theorem KeepsFailed.nextIte {p : Prop} [Decidable p] (h : u.failed = s.failed) :
    KeepsFailed s (.next (if p then u else s)) := by
  split
  · exact .next h
  · exact .next rfl

end

/-! ## Records and the operations of the queues -/

section
variable (s : State)

@[simp] theorem State.storePage_failed (m : PageRequest) (prpr : Bool) : (s.storePage m prpr).failed = s.failed := by
  obtain ⟨_, _, _, _, _, _, e⟩ := s.storePage_frame m prpr
  rw [e]

@[simp] theorem State.pqOff_failed : s.pqOff.failed = s.failed :=
  State.storePages_keeps (fun t => t.failed = s.failed) (fun t m b h => (t.storePage_failed m b).trans h)
    s.pageRecords { s with pageRecords := [] } rfl

@[simp] theorem State.writeRecord_failed (r : FaultRecord) : (s.writeRecord r).failed = s.failed := by
  unfold State.writeRecord
  split
  · rfl
  split
  · rfl
  split
  · exact State.raiseFip_failed _
  simp only []
  split <;> exact State.raiseFip_failed _

@[simp] theorem State.writeFault_failed (k : Nat) : (s.writeFault k).failed = s.failed := by
  unfold State.writeFault
  split
  · exact State.writeRecord_failed _ _
  · rfl

@[simp] theorem State.dropFault_failed (k : Nat) : (s.dropFault k).failed = s.failed := by
  unfold State.dropFault
  split
  · split <;> rfl
  · rfl

@[simp] theorem State.msiSend_failed (v : BitVec 4) : (s.msiSend v).failed = s.failed := by
  unfold State.msiSend
  split
  · rfl
  simp only []
  split
  · rfl
  · obtain ⟨fs, e⟩ := (s.clearOwed v).reportFault_frame 273 false (msiFaultRecord (s.msiCfgTbl[v.toNat]'v.isLt))
    exact (congrArg State.failed e :)

@[simp] theorem State.advanceClock_failed (n : Nat) : (s.advanceClock n).failed = s.failed := by
  rw [s.advanceClock_frame n]

@[simp] theorem State.setDdtp_failed (p : DdtPointer) : (s.setDdtp p).failed = s.failed := by
  obtain ⟨_, _, e⟩ := s.setDdtp_frame p
  rw [e]

@[simp] theorem State.drawBusy_failed : s.drawBusy.failed = s.failed := by
  obtain ⟨n, e⟩ := s.drawBusy_frame
  rw [e]

@[simp] theorem State.cqDisable_failed : s.cqDisable.failed = s.failed := by
  unfold State.cqDisable
  simp only []
  split <;> rfl

@[simp] theorem State.fqDisable_failed : s.fqDisable.failed = s.failed := by
  unfold State.fqDisable
  simp only []
  split <;> rfl

@[simp] theorem State.pqDisable_failed : s.pqDisable.failed = s.failed := by
  unfold State.pqDisable
  simp only []
  split
  · exact State.pqOff_failed _
  · rfl

@[simp] theorem State.ddtpComplete_failed : s.ddtpComplete.failed = s.failed := by
  unfold State.ddtpComplete
  split <;> rfl

@[simp] theorem State.cqComplete_failed : s.cqComplete.failed = s.failed := by
  unfold State.cqComplete
  split
  · rfl
  split <;> rfl

@[simp] theorem State.fqComplete_failed : s.fqComplete.failed = s.failed := by
  unfold State.fqComplete
  split
  · rfl
  split <;> rfl

@[simp] theorem State.pqComplete_failed : s.pqComplete.failed = s.failed := by
  unfold State.pqComplete
  split
  · rfl
  split
  · rfl
  · exact s.pqOff_failed

end

/-! ## Register accesses -/

section
variable (s : State) (v : DWord) (w : Word) (low high : Bool)

theorem KeepsFailed.writeFctl : KeepsFailed s (s.writeFctl w) :=
  .ite (.next rfl) (.ite (.refused _) (.ite (.refused _) (.next rfl)))

theorem KeepsFailed.writeDdtp : KeepsFailed s (s.writeDdtp v) := by
  refine .ite (.refused _) (.ite (.refused _) ?_)
  split
  · exact .next (s.setDdtp_failed _)
  · exact .ite (.refused _) (.next (s.setDdtp_failed _))

theorem KeepsFailed.writeDdtpHigh : KeepsFailed s (s.writeDdtpHigh v) := by
  refine .ite (.refused _) (.ite (.refused _) (.next ?_))
  split <;> rfl

theorem KeepsFailed.finishDdtp (started : Bool) : KeepsFailed s (s.finishDdtp v started) :=
  .ite (.refused _) (.ite (.refused _) (.next rfl))

theorem KeepsFailed.writeCqb : KeepsFailed s (s.writeCqb v) := .ite (.refused _) (.next rfl)

theorem KeepsFailed.writeFqb : KeepsFailed s (s.writeFqb v) := .ite (.refused _) (.next rfl)

theorem KeepsFailed.writePqb : KeepsFailed s (s.writePqb v) := .ite (.refused _) (.next rfl)

theorem KeepsFailed.writeCqcsr : KeepsFailed s (s.writeCqcsr w) :=
  .ite (.refused _) (.ite (.ite (.next rfl) (.refused _))
    (.ite (.next (State.cqDisable_failed _)) (.next (State.drawBusy_failed _))))

theorem KeepsFailed.writeFqcsr : KeepsFailed s (s.writeFqcsr w) :=
  .ite (.refused _) (.ite (.ite (.next rfl) (.refused _))
    (.ite (.next (State.fqDisable_failed _)) (.next (State.drawBusy_failed _))))

theorem KeepsFailed.writePqcsr : KeepsFailed s (s.writePqcsr w) :=
  .ite (.refused _) (.ite (.ite (.next rfl) (.refused _))
    (.ite (.next (State.pqDisable_failed _)) (.next (State.drawBusy_failed _))))

theorem KeepsFailed.writeTrReqIova : KeepsFailed s (s.writeTrReqIova v) := .ite (.refused _) (.next rfl)

theorem KeepsFailed.writeTrReqCtl : KeepsFailed s (s.writeTrReqCtl v low) := .ite (.refused _) (.next rfl)

/-- No register holds the failed state. -/
theorem KeepsFailed.writeDword (k : Nat) : KeepsFailed s (s.writeDword k v low high) := by
  obtain rfl | rfl | rfl | rfl | rfl | rfl | rfl | rfl | rfl | rfl | rfl | rfl | hk | hk | rfl | rfl | rfl | hk | hk :=
    dword_cases k
  · rw [State.writeDword_fctl]
    exact .ite (.writeFctl s _) (.next rfl)
  · rw [State.writeDword_ddtp]
    exact .ite (.writeDdtp s v) (.writeDdtpHigh s v)
  · exact .writeCqb s v
  · exact .nextIte rfl
  · exact .writeFqb s v
  · exact .nextIte rfl
  · rw [State.writeDword_pqb]
    exact .ite (.writePqb s v) (.next rfl)
  · exact .nextIte rfl
  · rw [State.writeDword_cqcsr]
    exact .ite (.writeCqcsr s _) (.writeFqcsr s _)
  · rw [State.writeDword_pqcsr]
    exact .ite (.ite (.writePqcsr s _) (.next rfl)) (.next rfl)
  · exact .nextIte rfl
  · exact .nextIte rfl
  · rw [State.writeDword_counter s v low high hk]
    exact .nextIte rfl
  · rw [State.writeDword_selector s v low high hk]
    exact .nextIte rfl
  · rw [State.writeDword_trReqIova]
    exact .ite (.writeTrReqIova s v) (.next rfl)
  · rw [State.writeDword_trReqCtl]
    exact .ite (.writeTrReqCtl s v low) (.next rfl)
  · exact .next rfl
  · rw [State.writeDword_msi s v low high hk]
    exact .nextIte rfl
  · rw [State.writeDword_other s v low high hk]
    exact .next rfl

theorem KeepsFailed.hostRead (o n : Nat) : KeepsFailed s (s.hostRead o n) := fun t h => by
  obtain ⟨_, ⟨_, _, high, rfl⟩ | ⟨_, _, rfl⟩ | rfl⟩ := State.hostRead_cases h
  · obtain ⟨d, e⟩ := s.nextDraw.readFirstHalf_frame o high
    exact (congrArg State.failed e :)
  · obtain ⟨d, e⟩ := s.nextDraw.readWhole_frame o n
    exact (congrArg State.failed e :)
  · obtain ⟨d, e⟩ := s.readWhole_frame o n
    exact (congrArg State.failed e :)

theorem KeepsFailed.hostWrite (o n : Nat) : KeepsFailed s (s.hostWrite o n v) := fun t h => by
  obtain ⟨_, ⟨_, high, h⟩ | h | h⟩ := State.hostWrite_cases h
  · obtain ⟨u, x, y, b, hu, rfl⟩ := State.writeFirstHalf_cases h
    exact KeepsFailed.writeDword s.nextDraw _ _ _ _ u hu
  · exact KeepsFailed.writeDword s.nextDraw _ _ _ _ t h
  · exact KeepsFailed.writeDword s _ _ _ _ t h

theorem KeepsFailed.hostStore (a : Nat) (bs : List Byte) : KeepsFailed s (s.hostStore a bs) := by
  intro t h
  unfold State.hostStore at h
  split at h
  · injection h with h
    rw [← h]
  · cases h

theorem KeepsFailed.finishHalf (k : Nat) : KeepsFailed s (s.finishHalf k) := by
  obtain ⟨_, e⟩ | ⟨o, high, x, _, e⟩ | ⟨o, high, x, b, _, e⟩ := s.finishHalf_cases k <;> rw [e]
  · exact .next rfl
  · obtain ⟨n, e⟩ := State.drawRead_frame _ o
    exact .next (congrArg State.failed e :)
  · intro t h
    obtain ⟨d, h⟩ | ⟨c, rfl⟩ | h := State.writeSecondHalf_cases h
    · exact (KeepsFailed.finishDdtp _ _ _ t h :)
    · rfl
    · exact (KeepsFailed.writeDword _ _ _ _ _ t h :)

end

/-! ## The failed state serves nothing -/

section
variable {s : State} (hs : s.failed = true)
include hs

theorem State.cqReady_of_failed : s.cqReady = false := by simp [State.cqReady, hs]

theorem State.fetchAndExecute_of_failed : s.fetchAndExecute = .next s := by
  simp [State.fetchAndExecute, State.cqReady_of_failed hs]

theorem State.fetchDeferred_of_failed : s.fetchDeferred = s := by
  simp [State.fetchDeferred, State.cqReady_of_failed hs]

theorem State.tryFence_of_failed : s.tryFence = .next s := by
  unfold State.tryFence
  split <;> simp [hs]

theorem State.executeInFlight_of_failed (k : Nat) : s.executeInFlight k = s := by simp [State.executeInFlight, hs]

theorem State.handleOther_of_failed (ps : List DdtPointer) (m : OtherMessage) : s.handleOther ps m = s := by
  simp [State.handleOther, hs]

theorem State.handlePage_of_failed (ps : List DdtPointer) (queue : State → PageRequest → Bool → State)
    (m : PageRequest) : s.handlePage ps queue m = s := by simp [State.handlePage, hs]

theorem State.handlePage_failed (ps : List DdtPointer) (queue : State → PageRequest → Bool → State)
    (m : PageRequest) : (s.handlePage ps queue m).failed = true := by rw [State.handlePage_of_failed hs, hs]

theorem State.invalCompleted_of_failed (did : BitVec 24) (k : Nat) : s.invalCompleted did k = s := by
  simp [State.invalCompleted, hs]

theorem State.beginCompletion_of_failed (did : BitVec 24) (k : Nat) : s.beginCompletion did k = .next s := by
  simp [State.beginCompletion, hs]

theorem State.beginOther_of_failed (m : OtherMessage) : s.beginOther m = .next s := by simp [State.beginOther, hs]

/-- A request that is waiting is aborted, served in one go, begun, or hit by an internal error. -/
theorem perform_request_of_failed {k : Nat} {x : Received Request} (hk : elementAt s.requests k = some x) :
    perform (.translate k) s = .next ((s.dropRequest k).abortFailed x.item) ∧
      perform (.beginTranslate k) s = .next ((s.dropRequest k).abortFailed x.item) ∧
      perform (.internalError k) s = .next ((s.dropRequest k).abortFailed x.item) := by
  simp [perform, State.serveAt, State.beginTranslate, State.internalErrorAt, serveRequest, State.breakRequest,
    State.dropRequest, hk, hs]

/-- A request under way is aborted at its next access, or when an internal error hits it. -/
theorem perform_activation_of_failed {k : Nat} {a : Activation} {r : Request}
    (hk : elementAt s.activations k = some a) (ha : a.task = .request r) (pick : Nat) :
    perform (.advance k pick) s = .next ((s.dropActivation k).abortFailed r) ∧
      perform (.internalErrorActive k) s = .next ((s.dropActivation k).abortFailed r) := by
  simp [perform, State.advance, State.internalErrorActive, State.endFailed, State.breakRequest, hk, ha, hs]

theorem KeepsFailed.translate (k : Nat) : KeepsFailed s (perform (.translate k) s) ∧
    KeepsFailed s (perform (.beginTranslate k) s) ∧ KeepsFailed s (perform (.internalError k) s) := by
  cases hk : elementAt s.requests k with
  | none =>
    simp only [perform, State.serveAt, State.beginTranslate, State.internalErrorAt, hk]
    exact ⟨.next rfl, .next rfl, .next rfl⟩
  | some x =>
    obtain ⟨hserve, hbegin, herror⟩ := perform_request_of_failed hs hk
    rw [hserve, hbegin, herror]
    exact ⟨.next rfl, .next rfl, .next rfl⟩

theorem KeepsFailed.advance (k pick : Nat) : KeepsFailed s (s.advance k pick) := fun t h => by
  obtain ⟨_, rfl⟩ | ⟨a, _, _, rfl⟩ | ⟨a, _, hok, _⟩ := State.advance_cases h
  · rfl
  · cases a.task <;> rfl
  · rw [hs] at hok
    cases hok

theorem State.internalErrorActive_failed (k : Nat) : (s.internalErrorActive k).failed = s.failed := by
  unfold State.internalErrorActive
  split
  case h_1 => simp [State.breakRequest, State.abortFailed, hs]
  all_goals rfl

/-- A decided record is written; a message is dropped. -/
theorem State.writePage_failed : s.writePage.failed = s.failed := by
  unfold State.writePage
  split
  · exact State.storePage_failed _ _ _
  · next rest _ _ =>
    split
    · rfl
    · exact (State.handlePage_failed (s := { s with pages := rest }) hs _ _ _).trans hs.symm
  · rfl

theorem State.decidePage_failed : s.decidePage.failed = s.failed := by
  unfold State.decidePage
  split
  · next rest _ =>
    split
    · rfl
    · exact (State.handlePage_failed (s := { s with pages := rest }) hs _ _ _).trans hs.symm
  · rfl

theorem KeepsFailed.beginPage : KeepsFailed s s.beginPage := by
  unfold State.beginPage
  split
  · exact .next rfl
  · refine .ite (.next rfl) ?_
    rw [if_pos hs]
    exact .next rfl

theorem State.debugStep_failed : s.debugStep.failed = s.failed := by
  unfold State.debugStep
  split
  · rfl
  · rfl

theorem KeepsFailed.beginDebug : KeepsFailed s s.beginDebug := by
  unfold State.beginDebug
  rw [if_pos hs]
  exact .ite (.next rfl) (.next rfl)

/-- Every event leaves a failed IOMMU failed. -/
theorem KeepsFailed.perform (e : Event) : KeepsFailed s (perform e s) := by
  cases e with
  | hostRead o n => exact .hostRead s o n
  | hostWrite o n v => exact .hostWrite s v o n
  | hostStore a bs => exact .hostStore s a bs
  | request r => exact .next rfl
  | pageRequest m => exact .next rfl
  | otherMessage m => exact .next (congrArg State.failed (State.handleOther_of_failed hs _ _))
  | beginOther m => exact .of_eq (State.beginOther_of_failed hs _)
  | invalCompletion did k => exact .next (congrArg State.failed (State.invalCompleted_of_failed hs _ _))
  | beginCompletion did k => exact .of_eq (State.beginCompletion_of_failed hs _ _)
  | invalTimeout k => exact .nextIte rfl
  | cqFetch => exact .of_eq (State.fetchAndExecute_of_failed hs)
  | cqFetchDeferred => exact .next (congrArg State.failed (State.fetchDeferred_of_failed hs))
  | cqFence => exact .of_eq (State.tryFence_of_failed hs)
  | cqExecute k => exact .next (congrArg State.failed (State.executeInFlight_of_failed hs k))
  | cqDrop k => exact .nextIte rfl
  | translate k => exact (KeepsFailed.translate hs k).1
  | beginTranslate k => exact (KeepsFailed.translate hs k).2.1
  | advance k pick => exact .advance hs k pick
  | writeFault k => exact .next (s.writeFault_failed k)
  | dropFault k => exact .next (s.dropFault_failed k)
  | writePage => exact .next (State.writePage_failed hs)
  | decidePage => exact .next (State.decidePage_failed hs)
  | beginPage => exact .beginPage hs
  | finishHalf k => exact .finishHalf s k
  | msiSend v => exact .next (s.msiSend_failed v)
  | ddtpDone => exact .next s.ddtpComplete_failed
  | cqDone => exact .next s.cqComplete_failed
  | fqDone => exact .next s.fqComplete_failed
  | pqDone => exact .next s.pqComplete_failed
  | debug => exact .next (State.debugStep_failed hs)
  | beginDebug => exact .beginDebug hs
  | clock n => exact .next (s.advanceClock_failed n)
  | evict k => exact .next rfl
  | commit k => exact .next rfl
  | internalError k => exact (KeepsFailed.translate hs k).2.2
  | internalErrorActive k => exact .next (State.internalErrorActive_failed hs k)
  | fail => exact .next hs.symm

theorem KeepsFailed.step {t : State} (h : step s = .next t) : t.failed = true := by
  obtain ⟨e, rest, _, h⟩ | ⟨_, e, _, h⟩ | ⟨_, _, rfl⟩ := step_cases h
  · exact (KeepsFailed.perform (s := { s with agenda := rest }) hs e t h).trans hs
  · exact (KeepsFailed.perform hs e t h).trans hs
  · exact hs

end

/-- The abort of a request in the failed state: Completer Abort for an ATS request (log entry 11). -/
theorem State.abortFailed_eq (s : State) (r : Request) : s.abortFailed r = { s with
    completions := s.completions ++ [if r.type = .atsRequest then .completerAbort r.tag else .aborted r.tag] } := by
  simp [State.abortFailed, State.complete]

/-- Settles O43: every event keeps the failed state, in which a request is aborted whatever comes to it. -/
theorem failedStateIsTerminal : Obligations.FailedStateIsTerminal := by
  refine ⟨fun s t hs h => KeepsFailed.step hs h, fun s k x hs hk => ?_, fun s k pick a r hs hk ha => ?_⟩
  · have h := perform_request_of_failed hs hk
    rwa [State.abortFailed_eq] at h
  · have h := perform_activation_of_failed hs hk ha pick
    rwa [State.abortFailed_eq] at h

end Sys2Proof.Machine
end
